-- ==== Sys2Proof/Word.lean ====
section
/-! DEFINITION. The plain word types of CFFU: bytes, byte sequences, 32-bit and 64-bit words (00_scope.md R17). -/

namespace Sys2Proof

/-- A byte is 8 bits everywhere (20_memory.md R60). -/
abbrev Byte := BitVec 8

/-- A byte sequence, first byte first (R17, R71). -/
abbrev Bytes := List Byte

/-- A register value, a command word, a `u32` (R16, R22). -/
abbrev Word := BitVec 32

/-- A `u64`: `ERR_POS`, `TOT_READ`, `TOT_WRITTEN` (R22). -/
abbrev DWord := BitVec 64

end Sys2Proof
end

