-- ==== Sys2Proof/Syntax.lean ====
section
/-! DEFINITION. The command language: one constructor per row of spec/opcode_table.json (30_encoding.md R88). -/

namespace Sys2Proof

/-- The buffer a command selects by `BSEL`: `.u` is `UBUF`, `.c` is `CBUF` (R86, R89). -/
inductive BufSel where
  | u
  | c
  deriving DecidableEq, Repr

/-- The 18 commands of 30_encoding.md R88, in the order of the opcode table. -/
inductive Instr where
  /-- `NOP` (45_system.md R225). -/
  | nop
  /-- `CHK_COMPUTE` (40_checksum.md R121). -/
  | chkCompute (b : BufSel)
  /-- `CHK_VERIFY` (R122). -/
  | chkVerify (b : BufSel)
  /-- `FILT_FWD` (41_filter.md R138). -/
  | filtFwd
  /-- `FILT_INV` (R139). -/
  | filtInv
  /-- `BUF_LOAD` (42_framing.md R147). -/
  | bufLoad (b : BufSel)
  /-- `BUF_STORE` (R148). -/
  | bufStore (b : BufSel)
  /-- `LZO_COMP` (R150). -/
  | lzoComp
  /-- `LZO_DECOMP` (R152). -/
  | lzoDecomp
  /-- `REC_EMIT` (R154). -/
  | recEmit
  /-- `REC_PARSE` (R158). -/
  | recParse
  /-- `COMPRESS_BLOCK` (43_block_codec.md R177). -/
  | compressBlock
  /-- `DECOMPRESS_BLOCK` (R182). -/
  | decompressBlock
  /-- `COMPRESS_STREAM` (44_stream_driver.md R206). -/
  | compressStream
  /-- `DECOMPRESS_STREAM` (R207). -/
  | decompressStream
  /-- `CLR_ERR` (45_system.md R226). -/
  | clrErr
  /-- `CLR_TOTALS` (R227). -/
  | clrTotals
  /-- `SOFT_RESET` (R228). -/
  | softReset
  deriving DecidableEq, Repr

end Sys2Proof
end

