-- ==== Sys2Proof/WellFormed.lean ====
section
/-! DEFINITION. Well-formedness: of an instruction (nothing to check, the types carry it), of a command word
(30_encoding.md R90), of a `CFG` word (10_state.md R28) and of a host access (20_memory.md R62, R63). -/

namespace Sys2Proof

/-- An instruction is well formed. `BSEL` is an operand only of the four commands whose constructor has it
(30_encoding.md R89) and has no other values, so every term is. -/
def Instr.wellFormed : Instr → Bool
  | .nop => true
  | .chkCompute _ => true
  | .chkVerify _ => true
  | .filtFwd => true
  | .filtInv => true
  | .bufLoad _ => true
  | .bufStore _ => true
  | .lzoComp => true
  | .lzoDecomp => true
  | .recEmit => true
  | .recParse => true
  | .compressBlock => true
  | .decompressBlock => true
  | .compressStream => true
  | .decompressStream => true
  | .clrErr => true
  | .clrTotals => true
  | .softReset => true

/-- The opcodes of R88. -/
def assignedOpcodes : List (BitVec 8) :=
  [0x00, 0x01, 0x02, 0x03, 0x04, 0x05, 0x06, 0x07, 0x08, 0x09, 0x0A, 0x10, 0x11, 0x12, 0x13, 0x20, 0x21, 0x2F]

/-- The opcodes of the commands with a `BSEL` operand (R89). -/
def bselOpcodes : List (BitVec 8) := [0x01, 0x02, 0x05, 0x06]

/-- The verdict of R90 alone: the word is a command. -/
def legalCommandWord (w : Word) : Bool :=
  w.extractLsb' 9 23 == 0 && assignedOpcodes.contains (w.extractLsb' 0 8) &&
    (!w.getLsbD 8 || bselOpcodes.contains (w.extractLsb' 0 8))

/-- A word `CFG` accepts (10_state.md R28). -/
def legalCfgWord (w : Word) : Bool :=
  w.extractLsb' 6 2 == 0 && w.extractLsb' 16 16 == 0 && w.extractLsb' 4 2 != 3

/-- A host access that the spec defines: 32 bits wide and naturally aligned (20_memory.md R62, R63). -/
def definedAccess (off size : Nat) : Bool := size == 4 && off % 4 == 0

end Sys2Proof
end

