-- ==== Sys2Proof/Decode.lean ====
section
/-! DEFINITION. The decoder of 30_encoding.md R90, the opcode table as mask and match rows, the encoder (R86, R88),
and the byte order of the `u32` fields (00_scope.md R17). -/

namespace Sys2Proof

/-! ### Command words -/

/-- Why a word is no command: the three tests of R90, in its order. -/
inductive DecodeReject where
  /-- R90 (1): `w[31:9] != 0`. -/
  | nonzeroReservedBits
  /-- R90 (2): `w[7:0]` is not one of the 18 opcodes. -/
  | reservedOpcode
  /-- R90 (3): `w[8] = 1` on a command without `BSEL`. -/
  | bselNotAllowed
  deriving DecidableEq, Repr

/-- What the decoder answers. -/
inductive Decoded where
  | instr (i : Instr)
  | illegal (r : DecodeReject)
  deriving DecidableEq, Repr

/-- The field `OPC` (R86). -/
def fieldOpc (w : Word) : BitVec 8 := w.extractLsb' 0 8

/-- The field `BSEL` (R86). -/
def fieldBsel (w : Word) : Bool := w.getLsbD 8

/-- The field `ZERO` (R86). -/
def fieldZero (w : Word) : BitVec 23 := w.extractLsb' 9 23

/-- `BSEL` as an operand: 0 is `UBUF`, 1 is `CBUF` (R86). -/
def bufSelOfBit (b : Bool) : BufSel := if b then .c else .u

/-- A command that has no `BSEL` operand (R89, R90 (3)). -/
def decodePlain (bsel : Bool) (i : Instr) : Decoded :=
  if bsel then .illegal .bselNotAllowed else .instr i

/-- The opcode map of R88, given `OPC` and `BSEL`. -/
def decodeOpcode (opc : Nat) (bsel : Bool) : Decoded :=
  match opc with
  | 0x00 => decodePlain bsel .nop
  | 0x01 => .instr (.chkCompute (bufSelOfBit bsel))
  | 0x02 => .instr (.chkVerify (bufSelOfBit bsel))
  | 0x03 => decodePlain bsel .filtFwd
  | 0x04 => decodePlain bsel .filtInv
  | 0x05 => .instr (.bufLoad (bufSelOfBit bsel))
  | 0x06 => .instr (.bufStore (bufSelOfBit bsel))
  | 0x07 => decodePlain bsel .lzoComp
  | 0x08 => decodePlain bsel .lzoDecomp
  | 0x09 => decodePlain bsel .recEmit
  | 0x0A => decodePlain bsel .recParse
  | 0x10 => decodePlain bsel .compressBlock
  | 0x11 => decodePlain bsel .decompressBlock
  | 0x12 => decodePlain bsel .compressStream
  | 0x13 => decodePlain bsel .decompressStream
  | 0x20 => decodePlain bsel .clrErr
  | 0x21 => decodePlain bsel .clrTotals
  | 0x2F => decodePlain bsel .softReset
  | _ => .illegal .reservedOpcode

/-- Decoding a word written to `CMD`, in the order of R90. Total. -/
def decode (w : Word) : Decoded :=
  if fieldZero w != 0 then .illegal .nonzeroReservedBits
  else decodeOpcode (fieldOpc w).toNat (fieldBsel w)

/-- One row of spec/opcode_table.json. -/
structure OpcodeRow where
  mnemonic : String
  matchWord : Word
  mask : Word
  deriving DecidableEq, Repr

/-- spec/opcode_table.json, row for row. -/
def opcodeTable : List OpcodeRow :=
  [⟨"NOP", 0x00000000, 0xFFFFFFFF⟩, ⟨"CHK_COMPUTE", 0x00000001, 0xFFFFFEFF⟩, ⟨"CHK_VERIFY", 0x00000002, 0xFFFFFEFF⟩,
   ⟨"FILT_FWD", 0x00000003, 0xFFFFFFFF⟩, ⟨"FILT_INV", 0x00000004, 0xFFFFFFFF⟩, ⟨"BUF_LOAD", 0x00000005, 0xFFFFFEFF⟩,
   ⟨"BUF_STORE", 0x00000006, 0xFFFFFEFF⟩, ⟨"LZO_COMP", 0x00000007, 0xFFFFFFFF⟩, ⟨"LZO_DECOMP", 0x00000008, 0xFFFFFFFF⟩,
   ⟨"REC_EMIT", 0x00000009, 0xFFFFFFFF⟩, ⟨"REC_PARSE", 0x0000000A, 0xFFFFFFFF⟩,
   ⟨"COMPRESS_BLOCK", 0x00000010, 0xFFFFFFFF⟩, ⟨"DECOMPRESS_BLOCK", 0x00000011, 0xFFFFFFFF⟩,
   ⟨"COMPRESS_STREAM", 0x00000012, 0xFFFFFFFF⟩, ⟨"DECOMPRESS_STREAM", 0x00000013, 0xFFFFFFFF⟩,
   ⟨"CLR_ERR", 0x00000020, 0xFFFFFFFF⟩, ⟨"CLR_TOTALS", 0x00000021, 0xFFFFFFFF⟩, ⟨"SOFT_RESET", 0x0000002F, 0xFFFFFFFF⟩]

/-- A word matches a row of the table (R90). -/
def OpcodeRow.matches (r : OpcodeRow) (w : Word) : Bool := w &&& r.mask == r.matchWord

/-- The mnemonic of an instruction, letter for letter as in the table. -/
def Instr.mnemonic : Instr → String
  | .nop => "NOP"
  | .chkCompute _ => "CHK_COMPUTE"
  | .chkVerify _ => "CHK_VERIFY"
  | .filtFwd => "FILT_FWD"
  | .filtInv => "FILT_INV"
  | .bufLoad _ => "BUF_LOAD"
  | .bufStore _ => "BUF_STORE"
  | .lzoComp => "LZO_COMP"
  | .lzoDecomp => "LZO_DECOMP"
  | .recEmit => "REC_EMIT"
  | .recParse => "REC_PARSE"
  | .compressBlock => "COMPRESS_BLOCK"
  | .decompressBlock => "DECOMPRESS_BLOCK"
  | .compressStream => "COMPRESS_STREAM"
  | .decompressStream => "DECOMPRESS_STREAM"
  | .clrErr => "CLR_ERR"
  | .clrTotals => "CLR_TOTALS"
  | .softReset => "SOFT_RESET"

/-- The decoder read off the opcode table: the mnemonic of the first row the word matches (R90). -/
def tableMnemonic (w : Word) : Option String :=
  (opcodeTable.find? (fun r => r.matches w)).map OpcodeRow.mnemonic

/-- `OPC` of an instruction (R88). -/
def opcodeOf : Instr → BitVec 8
  | .nop => 0x00
  | .chkCompute _ => 0x01
  | .chkVerify _ => 0x02
  | .filtFwd => 0x03
  | .filtInv => 0x04
  | .bufLoad _ => 0x05
  | .bufStore _ => 0x06
  | .lzoComp => 0x07
  | .lzoDecomp => 0x08
  | .recEmit => 0x09
  | .recParse => 0x0A
  | .compressBlock => 0x10
  | .decompressBlock => 0x11
  | .compressStream => 0x12
  | .decompressStream => 0x13
  | .clrErr => 0x20
  | .clrTotals => 0x21
  | .softReset => 0x2F

/-- `BSEL` as a bit (R86). -/
def bitOfBufSel : BufSel → BitVec 1
  | .u => 0
  | .c => 1

/-- `BSEL` of an instruction, 0 where it has none (R89). -/
def bselOf : Instr → BitVec 1
  | .chkCompute b => bitOfBufSel b
  | .chkVerify b => bitOfBufSel b
  | .bufLoad b => bitOfBufSel b
  | .bufStore b => bitOfBufSel b
  | .nop => 0
  | .filtFwd => 0
  | .filtInv => 0
  | .lzoComp => 0
  | .lzoDecomp => 0
  | .recEmit => 0
  | .recParse => 0
  | .compressBlock => 0
  | .decompressBlock => 0
  | .compressStream => 0
  | .decompressStream => 0
  | .clrErr => 0
  | .clrTotals => 0
  | .softReset => 0

/-- The command word of an instruction: `ZERO ++ BSEL ++ OPC` (R86, R105). -/
def encode (i : Instr) : Word := (0 : BitVec 23) ++ (bselOf i ++ opcodeOf i)

/-- The host's question: the instruction whose bits are `w`, of which `nbits` count. A command is one 32-bit word
(R85), so a number with more bits is none. -/
def decodeTableWord (nbits w : Nat) : Option Instr :=
  let v := w % 2 ^ nbits
  if v < 2 ^ 32 then
    match decode (BitVec.ofNat 32 v) with
    | .instr i => some i
    | .illegal _ => none
  else none

/-! ### Byte order of a `u32` (00_scope.md R17, 20_memory.md R69) -/

/-- `be32(v)`: most significant byte first. -/
def be32 (v : Word) : Bytes :=
  [v.extractLsb' 24 8, v.extractLsb' 16 8, v.extractLsb' 8 8, v.extractLsb' 0 8]

/-- `unbe32`, the inverse of `be32` on 4-byte sequences (R17). On a sequence of another length, where the spec gives
it no meaning and no rule uses it, it reads the bytes there are. -/
def unbe32 (b : Bytes) : Word :=
  b.foldl (fun acc x => (acc <<< 8) ||| x.zeroExtend 32) 0

end Sys2Proof
end

