-- ==== Sys2Proof/Config.lean ====
section
/-! DEFINITION. What the spec leaves to the platform: the parameters of 00_scope.md R10 to R15, the answers of the
streams and ports, and the free values of 93_implementation_defined.md U7 to U9. Every open value is an `opaque`
constant with no body: no proof can evaluate it. -/

namespace Sys2Proof

/-- What a stream answers to one `InRead` or `OutWrite` (20_memory.md R66, R67). The environment chooses it.
`moved` is the part the spec leaves to any value: how far the input cursor went (U7), or how long a part of the
request reached the output (U8). -/
inductive IoAnswer where
  /-- The request succeeds. -/
  | ok
  /-- The request fails with `IoError`. -/
  | ioError (moved : Nat)
  /-- The request is never answered (70_reset_and_hazards.md R288, U17). -/
  | never (moved : Nat)
  deriving DecidableEq, Repr, Inhabited

/-- What the LZO port or the filter port answers (10_state.md R48, R49). -/
inductive PortAnswer where
  /-- A byte sequence. -/
  | bytes (b : Bytes)
  /-- `Fail` (R13, R14). -/
  | fail
  /-- No answer ever comes (R288, U17). -/
  | never
  deriving DecidableEq, Repr, Inhabited

/-- The arguments of `LzoCompress` (R13). -/
structure CompressRequest where
  alg : BitVec 8
  bytes : Bytes
  optimize : Bool
  deriving DecidableEq, Repr, Inhabited

/-- The arguments of `LzoDecompress` (R13). -/
structure DecompressRequest where
  alg : BitVec 8
  bytes : Bytes
  expected : Nat
  deriving DecidableEq, Repr, Inhabited

/-- The parameters of one machine (R10 to R14), as plain data. The constraints of R10 to R12 are in the types.
The four lists are the part of the parameter functions that is written down; a request that is in none of them is
answered by the opaque function of the same name in `Config`. No step changes a platform. -/
structure Platform where
  /-- `LZOP_MAX_BLOCK_SIZE - 1`, so that the maximum is 1 to `2^32 - 1` (R10). -/
  maxBlockSizeLessOne : Fin 4294967295
  /-- `LZOP_DEFAULT_BLOCK_SIZE`, 0 to `2^32 - 1` (R11). -/
  defaultBlockSize : Word
  /-- `CBUF_CAP`, 0 to `2^32 - 17` (R12). -/
  cbufCapacity : Fin 4294967280
  /-- Known answers of `LzoCompress` (R13). -/
  lzoCompressKnown : List (CompressRequest × PortAnswer)
  /-- Known answers of `LzoDecompress` (R13). -/
  lzoDecompressKnown : List (DecompressRequest × PortAnswer)
  /-- Known answers of `FilterFwd` (R14). -/
  filterFwdKnown : List (Bytes × PortAnswer)
  /-- Known answers of `FilterInv` (R14). -/
  filterInvKnown : List (Bytes × PortAnswer)
  deriving DecidableEq, Repr, Inhabited

/-- `LZOP_MAX_BLOCK_SIZE` (R10). -/
def Platform.maxBlockSize (p : Platform) : Nat := p.maxBlockSizeLessOne.val + 1

/-- `CBUF_CAP` (R12). -/
def Platform.cbufCap (p : Platform) : Nat := p.cbufCapacity.val

namespace Config

/-- The machine's own parameters: open (R10 to R14, U3). -/
opaque platform : Platform

/-- `LzoCompress` where `Platform.lzoCompressKnown` says nothing: a function of its arguments alone (R13, U4, U6). -/
opaque lzoCompress : CompressRequest → PortAnswer

/-- `LzoDecompress` where `Platform.lzoDecompressKnown` says nothing (R13, U4, U6). -/
opaque lzoDecompress : DecompressRequest → PortAnswer

/-- `FilterFwd` where `Platform.filterFwdKnown` says nothing (R14, U19). -/
opaque filterFwd : Bytes → PortAnswer

/-- `FilterInv` where `Platform.filterInvKnown` says nothing (R14, U19). -/
opaque filterInv : Bytes → PortAnswer

/-- The streams' answers beyond the script held in the state, by a fresh number (R66, R67: the environment's choice). -/
opaque ioAnswer : Nat → IoAnswer

/-- Byte `i` of an endless input beyond the bytes the state lists (R45). -/
opaque endlessInput : Nat → Byte

/-- Byte `i` of `UBUF` after a failed filter, by a fresh number (41_filter.md R135, U9). -/
opaque freeByte : Nat → Nat → Byte

/-- `BASE`, the bus address of register offset 0 (R15). No rule depends on it (R76). -/
opaque base : Nat

end Config

end Sys2Proof
end

