-- ==== Sys2Proof/Machine/State.lean ====
section
/-! DEFINITION. The state of CFFU as plain data (10_state.md), its environment (R45 to R47, 20_memory.md R66), the
reasons a step can stop, and the state after reset (R54). -/

namespace Sys2Proof.Machine

open Sys2Proof

/-- The sequencing state `STATE` (10_state.md R24), in the order of its numbers 0 to 15. -/
inductive Phase where
  | idle
  | haveHeader
  | payloadRead
  | chkCChecked
  | decompressed
  | chkUChecked
  | filtered
  | emitted
  | inputRead
  | cFiltered
  | cUchk
  | cCompressed
  | cCchk
  | cEmitted
  | endOfStream
  | failed
  deriving DecidableEq, Repr

/-- `ERR.CODE` (60_exceptions.md R241), in the order of its numbers 0 to 9. Codes 10 to 15 are never produced (U18). -/
inductive ErrCode where
  | none
  | ioError
  | framingError
  | filterError
  | compressionError
  | decompressionError
  | checksumMismatch
  | illegalCmd
  | illegalCfg
  | illegalOperand
  deriving DecidableEq, Repr

/-- `CFG.POLICY`: "a closed three-variant enumeration" (10_state.md R27, R28). -/
inductive Policy where
  | throw
  | warn
  | ignore
  deriving DecidableEq, Repr

/-- `CFG` by its fields (R27). Reserved bits are 0 and `POLICY` is never 3, because an illegal word is never stored (R28). -/
structure Cfg where
  /-- 1 selects CRC-32, 0 Adler-32. -/
  crc32 : Bool
  /-- Checksums active. -/
  chkEn : Bool
  /-- 0 is the identity, 1 the filter port. -/
  filtSel : Bool
  /-- Passed to `LzoCompress`. -/
  optimize : Bool
  policy : Policy
  /-- Opaque number handed to the LZO port. -/
  lzoAlg : BitVec 8
  deriving DecidableEq, Repr

/-- Which checksum slot of a record: the diagnostic's `which` (30_encoding.md R104). -/
inductive Slot where
  /-- 0: the compressed checksum. -/
  | compressed
  /-- 1: the uncompressed checksum. -/
  | uncompressed
  deriving DecidableEq, Repr

/-- A diagnostic record (30_encoding.md R104). -/
structure DiagRecord where
  pos : DWord
  which : Slot
  expected : Word
  computed : Word
  deriving DecidableEq, Repr

/-- A direction of the Block Codec (44_stream_driver.md R205). -/
inductive Direction where
  | compress
  | decompress
  deriving DecidableEq, Repr

/-- What a command that has not ended is at (10_state.md R52, 70_reset_and_hazards.md R288). -/
inductive Activity where
  /-- Nothing that outlives one step. -/
  | none
  /-- A stream command is looping. -/
  | looping (d : Direction)
  /-- A stream or a port never answered: `BUSY` stays 1 for ever. -/
  | hung
  deriving DecidableEq, Repr

/-- What the host and the platform do to CFFU, in their order (10_state.md R20, 45_system.md R224). -/
inductive HostEvent where
  /-- `MemRead(off, size)`. -/
  | read (off size : Nat)
  /-- `MemWrite(off, size, v)`; a write of `CMD` issues the command `v`. -/
  | write (off size : Nat) (v : Word)
  /-- Nothing is asked of CFFU for one step. -/
  | wait
  /-- Hardware reset (70_reset_and_hazards.md R270). -/
  | reset
  deriving DecidableEq, Repr

/-- The state of CFFU (10_state.md R21, R22) and of the environment its rules read or write. -/
structure State where
  /-- `STATUS.BUSY` (R26). -/
  busy : Bool
  /-- `STATUS.STATE` (R23, R24). -/
  phase : Phase
  /-- `STATUS.MATCH` (R26). -/
  matched : Bool
  /-- `STATUS.WARN_C` (R26). -/
  warnC : Bool
  /-- `STATUS.WARN_U` (R26). -/
  warnU : Bool
  /-- `STATUS.CMD_REJ` (R26). -/
  cmdRej : Bool
  /-- `CFG` (R27). -/
  cfg : Cfg
  /-- `BLOCK_SIZE` (R29). -/
  blockSize : Word
  /-- `ERR.CODE` (R30). -/
  errCode : ErrCode
  /-- `ERR.ESTATE` (R30). -/
  errState : Phase
  /-- `ERR_POS` (R31). -/
  errPos : DWord
  /-- `BLK_COUNT` (R32). -/
  blkCount : Word
  /-- `BLK_READ` (R33). -/
  blkRead : Word
  /-- `BLK_WRITTEN` (R33). -/
  blkWritten : Word
  /-- `TOT_READ` (R34). -/
  totRead : DWord
  /-- `TOT_WRITTEN` (R34). -/
  totWritten : DWord
  /-- `HDR_USIZE` (R37). -/
  hdrUsize : Word
  /-- `HDR_CSIZE` (R37). -/
  hdrCsize : Word
  /-- `HDR_UCHK` (R38). -/
  hdrUchk : Word
  /-- `HDR_CCHK` (R38). -/
  hdrCchk : Word
  /-- `CHK_RESULT` (R39). -/
  chkResult : Word
  /-- `CHK_EXPECT` (R40). -/
  chkExpect : Word
  /-- `XFER_LEN` (R42). -/
  xferLen : Word
  /-- `DIAG_COUNT` (R35). -/
  diagCount : Word
  /-- `UBUF[0..ULEN)`; its length is `ULEN` (R41, R43, R55). -/
  ubuf : Bytes
  /-- `CBUF[0..CLEN)`; its length is `CLEN` (R41, R44, R55). -/
  cbuf : Bytes
  /-- Hidden: a command that has not ended (R52). -/
  activity : Activity
  /-- The parameters (00_scope.md R10 to R14). Never changed. -/
  platform : Platform
  /-- `IN`: the listed bytes of the input stream (R45). -/
  input : Bytes
  /-- `IN` goes on for ever beyond the listed bytes (R45). -/
  inputEndless : Bool
  /-- `IPOS` (R45). -/
  ipos : Nat
  /-- `OUT` (R46). -/
  out : Bytes
  /-- `DIAG` (R47). -/
  diag : List DiagRecord
  /-- The model's own: what the host and the platform will do, next first. -/
  host : List HostEvent
  /-- The model's own: what `MemRead` returned to the host, oldest first. -/
  hostReads : List Word
  /-- The model's own: what the streams will answer, next first (20_memory.md R66, R67). -/
  ioScript : List IoAnswer
  /-- The model's own: how many free values have been taken. -/
  freeCtr : Nat
  deriving DecidableEq, Repr

/-- Reasons a step stops with a fault. Every error the spec describes is a next state (60_exceptions.md R250), not one
of these. -/
inductive Fault where
  /-- Raised by a host access at an offset of 256 or more: the register space has no such address (20_memory.md R60,
  R62). Safe: the model stops where the spec says nothing. -/
  | noSuchRegister
  deriving DecidableEq, Repr

/-- Reasons a step is refused. -/
inductive Refusal where
  /-- An instruction without a meaning, raised only by an arm of `exec`; no arm raises it in this model. Safe. -/
  | notModelled (mnemonic : String)
  /-- Raised by every command, and by `step`, at a state whose condition is busy: a command is in progress, so the host
  has no move (45_system.md R221, U1: refuse). Safe. -/
  | hostActsWhileBusy
  /-- Raised by a host access that is not 32 bits wide or not 4-byte aligned (20_memory.md R63, U10: refuse). Safe. -/
  | undefinedAccess
  deriving DecidableEq, Repr

/-- What a step answers. -/
abbrev Result := Host.Outcome State Fault Refusal

/-- `CFG` after reset: `0x00000002` (10_state.md R27, R54). -/
def Cfg.reset : Cfg :=
  { crc32 := false, chkEn := true, filtSel := false, optimize := false, policy := .throw, lzoAlg := 0 }

/-- The machine right after reset (10_state.md R54, 70_reset_and_hazards.md R270). The environment fields, which reset
does not touch (R273), are empty: notes/assumptions 4 to 6. The parameters are open: notes/assumptions 3. -/
def State.reset : State where
  busy := false
  phase := .idle
  matched := false
  warnC := false
  warnU := false
  cmdRej := false
  cfg := Cfg.reset
  blockSize := Config.platform.defaultBlockSize
  errCode := .none
  errState := .idle
  errPos := 0
  blkCount := 0
  blkRead := 0
  blkWritten := 0
  totRead := 0
  totWritten := 0
  hdrUsize := 0
  hdrCsize := 0
  hdrUchk := 0
  hdrCchk := 0
  chkResult := 0
  chkExpect := 0
  xferLen := 0
  diagCount := 0
  ubuf := []
  cbuf := []
  activity := .none
  platform := Config.platform
  input := []
  inputEndless := false
  ipos := 0
  out := []
  diag := []
  host := []
  hostReads := []
  ioScript := []
  freeCtr := 0

end Sys2Proof.Machine
end

