-- ==== Sys2Proof/Machine/Operands.lean ====
section
/-! DEFINITION. Operand forms: the fields of `CFG` (10_state.md R27, R28), the checksum algorithm (30_encoding.md R94),
the selected buffer and its capacity (R86, 42_framing.md R146), the header length (R97) and the length registers. -/

namespace Sys2Proof.Machine

open Sys2Proof

/-! ### `CFG` -/

/-- `POLICY` as its 2 bits (R27). -/
def policyBits : Policy → BitVec 2
  | .throw => 0
  | .warn => 1
  | .ignore => 2

/-- The policy of 2 bits; 3 is illegal (R27). -/
def policyOfBits (b : BitVec 2) : Option Policy :=
  if b = 0 then some .throw else if b = 1 then some .warn else if b = 2 then some .ignore else none

/-- The 32-bit view of `CFG` (R27). -/
def cfgWord (c : Cfg) : Word :=
  (0 : BitVec 16) ++ c.lzoAlg ++ (0 : BitVec 2) ++ policyBits c.policy ++ BitVec.ofBool c.optimize ++
    BitVec.ofBool c.filtSel ++ BitVec.ofBool c.chkEn ++ BitVec.ofBool c.crc32

/-- What a write of `w` to `CFG` stores, when it is legal (R28). -/
def cfgOfWord (w : Word) : Option Cfg :=
  if legalCfgWord w then
    (policyOfBits (w.extractLsb' 4 2)).map fun p =>
      { crc32 := w.getLsbD 0, chkEn := w.getLsbD 1, filtSel := w.getLsbD 2, optimize := w.getLsbD 3,
        policy := p, lzoAlg := w.extractLsb' 8 8 }
  else none

/-- The two checksum algorithms (40_checksum.md R110). -/
inductive ChecksumAlg where
  | crc32
  | adler32
  deriving DecidableEq, Repr

/-- `alg`: `CRC32` when `CFG.CRC32 = 1`, `ADLER32` when 0 (30_encoding.md R94, 40_checksum.md R120). -/
def algOf (c : Cfg) : ChecksumAlg := if c.crc32 then .crc32 else .adler32

/-- The header length `H`: 16 when `CFG.CHK_EN = 1`, else 8 (30_encoding.md R97). -/
def headerLen (c : Cfg) : Nat := if c.chkEn then 16 else 8

/-! ### Buffers -/

/-- The buffer `BSEL` selects (30_encoding.md R86). -/
def buffer (b : BufSel) (s : State) : Bytes :=
  match b with
  | .u => s.ubuf
  | .c => s.cbuf

/-- `B[0..len v) <- v ; LEN <- len v` for the selected buffer (20_memory.md R64). -/
def setBuffer (b : BufSel) (v : Bytes) (s : State) : State :=
  match b with
  | .u => { s with ubuf := v }
  | .c => { s with cbuf := v }

/-- `cap(.U) = LZOP_MAX_BLOCK_SIZE`, `cap(.C) = CBUF_CAP` (42_framing.md R146). -/
def capacity (b : BufSel) (p : Platform) : Nat :=
  match b with
  | .u => p.maxBlockSize
  | .c => p.cbufCap

/-- One byte of a buffer; none at or beyond its length register (10_state.md R43, R44, R55). -/
def readByte (b : BufSel) (i : Nat) (s : State) : Option Byte := (buffer b s)[i]?

/-- The register `ULEN` (10_state.md R41). -/
def ulen (s : State) : Word := BitVec.ofNat 32 s.ubuf.length

/-- The register `CLEN` (10_state.md R41). -/
def clen (s : State) : Word := BitVec.ofNat 32 s.cbuf.length

/-- The number of bytes a compress command asks for: `min(BLOCK_SIZE, LZOP_MAX_BLOCK_SIZE)` (43_block_codec.md R176). -/
def blockRequest (s : State) : Nat := min s.blockSize.toNat s.platform.maxBlockSize

end Sys2Proof.Machine
end

