-- ==== Sys2Proof/Machine/Flags.lean ====
section
/-! DEFINITION. The flags and status words: `STATUS` (10_state.md R26), the numbers of `STATE` (R24) and `ERR.CODE`
(60_exceptions.md R241), `ERR` (R30), and the operations that write `MATCH`, `WARN_C`, `WARN_U` and `CMD_REJ`. -/

namespace Sys2Proof.Machine

open Sys2Proof

/-- The number of a `STATE` value (10_state.md R24). -/
def phaseNumber : Phase → BitVec 4
  | .idle => 0
  | .haveHeader => 1
  | .payloadRead => 2
  | .chkCChecked => 3
  | .decompressed => 4
  | .chkUChecked => 5
  | .filtered => 6
  | .emitted => 7
  | .inputRead => 8
  | .cFiltered => 9
  | .cUchk => 10
  | .cCompressed => 11
  | .cCchk => 12
  | .cEmitted => 13
  | .endOfStream => 14
  | .failed => 15

/-- The number of an `ERR.CODE` value (60_exceptions.md R241). -/
def errNumber : ErrCode → BitVec 4
  | .none => 0
  | .ioError => 1
  | .framingError => 2
  | .filterError => 3
  | .compressionError => 4
  | .decompressionError => 5
  | .checksumMismatch => 6
  | .illegalCmd => 7
  | .illegalCfg => 8
  | .illegalOperand => 9

/-- The register `STATUS` (10_state.md R26): reserved bits read 0. -/
def statusWord (s : State) : Word :=
  (0 : BitVec 20) ++ BitVec.ofBool s.cmdRej ++ BitVec.ofBool s.warnU ++ BitVec.ofBool s.warnC ++
    BitVec.ofBool s.matched ++ phaseNumber s.phase ++ (0 : BitVec 3) ++ BitVec.ofBool s.busy

/-- The register `ERR` (10_state.md R30): `ERR[7:4] = ESTATE`, `ERR[3:0] = CODE`. -/
def errWord (s : State) : Word :=
  (0 : BitVec 24) ++ phaseNumber s.errState ++ errNumber s.errCode

/-- `MATCH <- 1 if c = CHK_EXPECT else 0` (40_checksum.md R122). -/
def setMatch (c : Word) (s : State) : State := { s with matched := decide (c = s.chkExpect) }

/-- The sticky flag of a slot: `WARN_C` for slot 0, `WARN_U` for slot 1 (43_block_codec.md R185, R187). -/
def setWarn (slot : Slot) (s : State) : State :=
  match slot with
  | .compressed => { s with warnC := true }
  | .uncompressed => { s with warnU := true }

/-- A command dropped in `FAILED` sets `CMD_REJ` and does nothing else (45_system.md R222). -/
def dropCommand (s : State) : State := { s with cmdRej := true }

/-- The three sticky flags cleared (45_system.md R226). -/
def clearSticky (s : State) : State := { s with warnC := false, warnU := false, cmdRej := false }

end Sys2Proof.Machine
end

