-- ==== Sys2Proof/Machine/Ops.lean ====
section
/-! DEFINITION. The shared operations: failure entry (60_exceptions.md R250) and the ways out of `FAILED`
(45_system.md R226, R228), command acceptance (R220 to R223), completion (42_framing.md R159), the stream primitives
(20_memory.md R66 to R68) and the ports (10_state.md R48, R49). -/

namespace Sys2Proof.Machine

open Sys2Proof

/-! ### Taking an error and leaving it -/

/-- Failure entry: what `raise <Kind>` does to the state (60_exceptions.md R250). -/
def failureEntry (code : ErrCode) (s : State) : State :=
  { s with
    errState := s.phase
    errCode := code
    errPos := s.totRead
    blkRead := 0
    blkWritten := 0
    phase := .failed
    busy := false
    activity := .none }

/-- Leaving `FAILED` by `CLR_ERR`, the counterpart of a return from exception (45_system.md R226, R229). -/
def clearError (s : State) : State :=
  clearSticky { s with errCode := .none, errState := .idle, errPos := 0, phase := .idle, busy := false }

/-- Every register at its reset value, the buffers unreadable; the environment and the parameters as they are
(10_state.md R54, 45_system.md R228, 70_reset_and_hazards.md R270, R273). -/
def resetRegisters (s : State) : State :=
  { State.reset with
    blockSize := s.platform.defaultBlockSize
    platform := s.platform
    input := s.input
    inputEndless := s.inputEndless
    ipos := s.ipos
    out := s.out
    diag := s.diag
    host := s.host
    hostReads := s.hostReads
    ioScript := s.ioScript
    freeCtr := s.freeCtr }

/-! ### Steps of a command -/

/-- What one step inside a command answers: it goes on with a value, or the command has ended (by failure entry, or
because a request is never answered). -/
inductive Micro (α : Type) where
  | ok (a : α) (s : State)
  | ended (s : State)
  deriving DecidableEq, Repr

/-- One step and then the next: nothing runs after a `raise` (00_scope.md R18). -/
def Micro.andThen {α β : Type} (m : Micro α) (k : α → State → Micro β) : Micro β :=
  match m with
  | .ok a s => k a s
  | .ended s => .ended s

/-- The state in which a command's body leaves the unit. -/
def Micro.state {α : Type} (m : Micro α) : State :=
  match m with
  | .ok _ s => s
  | .ended s => s

/-- `raise <Kind>` (00_scope.md R18). -/
def raise {α : Type} (code : ErrCode) (s : State) : Micro α := .ended (failureEntry code s)

/-- A request that is never answered: `BUSY` stays 1 for ever (70_reset_and_hazards.md R288, U17). -/
def hang {α : Type} (s : State) : Micro α := .ended { s with busy := true, activity := .hung }

/-- `STATE <- p`. -/
def setPhase (p : Phase) (s : State) : State := { s with phase := p }

/-- `Complete(rd, wr, blk)` (42_framing.md R159). -/
def complete (rd wr blk : Nat) (s : State) : State :=
  { s with
    blkRead := BitVec.ofNat 32 rd
    blkWritten := BitVec.ofNat 32 wr
    totRead := s.totRead + BitVec.ofNat 64 rd
    totWritten := s.totWritten + BitVec.ofNat 64 wr
    blkCount := s.blkCount + BitVec.ofNat 32 blk
    busy := false }

/-- `STATE <- IDLE ; BUSY <- 0`: the end of a command that moves no stream bytes (42_framing.md R159). -/
def finishIdle (s : State) : State := { s with phase := .idle, busy := false }

/-! ### Command acceptance -/

/-- The unit's condition at a write of `CMD` (45_system.md R220). -/
inductive Condition where
  | busy
  | failed
  | ready
  deriving DecidableEq, Repr

/-- The condition of the unit. With `BUSY = 0` only `IDLE`, `END_OF_STREAM` and `FAILED` exist (R220); a state in the
middle of a command counts as busy. -/
def condition (s : State) : Condition :=
  if s.busy then .busy
  else match s.phase with
    | .idle => .ready
    | .endOfStream => .ready
    | .failed => .failed
    | .haveHeader => .busy
    | .payloadRead => .busy
    | .chkCChecked => .busy
    | .decompressed => .busy
    | .chkUChecked => .busy
    | .filtered => .busy
    | .emitted => .busy
    | .inputRead => .busy
    | .cFiltered => .busy
    | .cUchk => .busy
    | .cCompressed => .busy
    | .cCchk => .busy
    | .cEmitted => .busy

/-- Acceptance: `BUSY <- 1 ; STATE <- IDLE` (45_system.md R223). -/
def acceptCommand (s : State) : State := { s with busy := true, phase := .idle }

/-- A command by its body: accepted when ready, dropped in `FAILED`, refused while busy (45_system.md R221 to R223). -/
def runCommand (body : State → Micro Unit) (s : State) : Result :=
  match condition s with
  | .busy => .refused .hostActsWhileBusy
  | .failed => .next (dropCommand s)
  | .ready => .next (body (acceptCommand s)).state

/-- A command that executes when ready and in `FAILED` (R222: `NOP`, `CLR_ERR`, `SOFT_RESET`). -/
def runAlways (effect : State → State) (s : State) : Result :=
  match condition s with
  | .busy => .refused .hostActsWhileBusy
  | .failed => .next (effect s)
  | .ready => .next (effect s)

/-- A word that is no command: `ILLEGAL_CMD` when ready, dropped in `FAILED` (30_encoding.md R91, 45_system.md R222,
R223, 60_exceptions.md R248). -/
def illegalCommand (s : State) : Result :=
  match condition s with
  | .busy => .refused .hostActsWhileBusy
  | .failed => .next (dropCommand s)
  | .ready => .next (failureEntry .illegalCmd s)

/-! ### Streams -/

/-- What the streams answer to the next request: the script's head, or a free value (20_memory.md R66, R67). -/
def ioAnswer (s : State) : IoAnswer :=
  match s.ioScript with
  | a :: _ => a
  | [] => Config.ioAnswer s.freeCtr

/-- The next answer has been taken. -/
def ioTaken (s : State) : State :=
  match s.ioScript with
  | _ :: rest => { s with ioScript := rest }
  | [] => { s with freeCtr := s.freeCtr + 1 }

/-- Byte `i` of an endless `IN` (10_state.md R45). -/
def endlessByte (s : State) (i : Nat) : Byte := (s.input[i]?).getD (Config.endlessInput i)

/-- `IN[IPOS .. IPOS + m)` with `m = min(n, len IN - IPOS)`, or `m = n` when `IN` is endless (20_memory.md R66).
DESIGN CHOICE (unsafe, notes/assumptions 20): with `IPOS` past the end of a finite `IN`, which U7 allows after a failed
read and where R66 gives `m` no value, there are no bytes. -/
def nextInput (n : Nat) (s : State) : Bytes :=
  if s.inputEndless then (List.range n).map fun k => endlessByte s (s.ipos + k)
  else (s.input.drop s.ipos).take n

/-- `InRead(n)` (20_memory.md R66). -/
def inRead (n : Nat) (s : State) : Micro Bytes :=
  match ioAnswer s with
  | .ok => .ok (nextInput n s) { ioTaken s with ipos := s.ipos + (nextInput n s).length }
  | .ioError moved => raise .ioError { ioTaken s with ipos := s.ipos + moved }
  | .never moved => hang { ioTaken s with ipos := s.ipos + moved }

/-- `OutWrite(v)` (20_memory.md R67): on an error some part of `v` from its start has been appended (U8). -/
def outWrite (v : Bytes) (s : State) : Micro Unit :=
  match ioAnswer s with
  | .ok => .ok () { ioTaken s with out := s.out ++ v }
  | .ioError moved => raise .ioError { ioTaken s with out := s.out ++ v.take moved }
  | .never moved => hang { ioTaken s with out := s.out ++ v.take moved }

/-- `DiagEmit(r)` (20_memory.md R68). It never fails. -/
def diagEmit (r : DiagRecord) (s : State) : State :=
  { s with diag := s.diag ++ [r], diagCount := s.diagCount + 1 }

/-! ### Ports -/

/-- `LzoCompress(alg, bytes, optimize)` (00_scope.md R13). -/
def lzoCompress (p : Platform) (r : CompressRequest) : PortAnswer :=
  (p.lzoCompressKnown.lookup r).getD (Config.lzoCompress r)

/-- `LzoDecompress(alg, bytes, expected_length)` (00_scope.md R13). -/
def lzoDecompress (p : Platform) (r : DecompressRequest) : PortAnswer :=
  (p.lzoDecompressKnown.lookup r).getD (Config.lzoDecompress r)

/-- `FilterFwd(bytes)` (00_scope.md R14). -/
def filterFwd (p : Platform) (b : Bytes) : PortAnswer :=
  (p.filterFwdKnown.lookup b).getD (Config.filterFwd b)

/-- `FilterInv(bytes)` (00_scope.md R14). -/
def filterInv (p : Platform) (b : Bytes) : PortAnswer :=
  (p.filterInvKnown.lookup b).getD (Config.filterInv b)

/-- `BASE + off`, where a register stands on the host's bus (20_memory.md R61, 00_scope.md R15). -/
def busAddress (off : Nat) : Nat := Config.base + off

end Sys2Proof.Machine
end

