-- ==== Sys2Proof/Machine/Checksum.lean ====
section
/-! DEFINITION. The Checksum Engine (40_checksum.md): CRC-32, Adler-32, `CHK_COMPUTE`, `CHK_VERIFY`. -/

namespace Sys2Proof.Machine

open Sys2Proof

/-- One of the 8 inner iterations of R113. -/
def crcShift (r : Word) : Word :=
  if r.getLsbD 0 then (r >>> 1) ^^^ 0xEDB88320 else r >>> 1

/-- The 8 inner iterations of R113. -/
def crcShift8 (r : Word) : Word :=
  crcShift (crcShift (crcShift (crcShift (crcShift (crcShift (crcShift (crcShift r)))))))

/-- The body of R113's loop for one byte. -/
def crcByte (r : Word) (x : Byte) : Word := crcShift8 (r ^^^ x.zeroExtend 32)

/-- `Crc32(s)` (40_checksum.md R113). -/
def crc32 (s : Bytes) : Word := s.foldl crcByte 0xFFFFFFFF ^^^ 0xFFFFFFFF

/-- The table entry `T[k]` of R114. -/
def crcTable (k : Byte) : Word := crcShift8 (k.zeroExtend 32)

/-- The byte step of R114's table-driven form. -/
def crcByteByTable (r : Word) (x : Byte) : Word :=
  (r >>> 8) ^^^ crcTable ((r ^^^ x.zeroExtend 32).extractLsb' 0 8)

/-- The two sums of Adler-32 (40_checksum.md R117). -/
structure AdlerSums where
  a : Nat
  b : Nat
  deriving DecidableEq, Repr

/-- The body of R117's loop for one byte. -/
def adlerByte (t : AdlerSums) (x : Byte) : AdlerSums :=
  { a := (t.a + x.toNat) % 65521, b := (t.b + (t.a + x.toNat) % 65521) % 65521 }

/-- The sums after a whole sequence, from `A = 1`, `B = 0` (R117). -/
def adlerSums (s : Bytes) : AdlerSums := s.foldl adlerByte { a := 1, b := 0 }

/-- `Adler32(s)` (40_checksum.md R117): `(B << 16) + A`. -/
def adler32 (s : Bytes) : Word :=
  (BitVec.ofNat 32 (adlerSums s).b <<< 16) + BitVec.ofNat 32 (adlerSums s).a

/-- `Checksum(alg, s)` (40_checksum.md R110). -/
def checksum (alg : ChecksumAlg) (s : Bytes) : Word :=
  match alg with
  | .crc32 => crc32 s
  | .adler32 => adler32 s

/-- `Verify(alg, s, expected)` (40_checksum.md R111). -/
def verifyChecksum (alg : ChecksumAlg) (s : Bytes) (expected : Word) : Bool :=
  decide (checksum alg s = expected)

/-- `CHK_RESULT <- c` (10_state.md R39). -/
def setChkResult (c : Word) (s : State) : State := { s with chkResult := c }

/-- `CHK_COMPUTE` (40_checksum.md R121). -/
def execChkCompute (b : BufSel) (s : State) : Result :=
  runCommand (fun s => .ok () (finishIdle (setChkResult (checksum (algOf s.cfg) (buffer b s)) s))) s

/-- `CHK_VERIFY` (40_checksum.md R122). A mismatch is a result, not an error. -/
def execChkVerify (b : BufSel) (s : State) : Result :=
  runCommand (fun s =>
    .ok () (finishIdle (setMatch (checksum (algOf s.cfg) (buffer b s))
      (setChkResult (checksum (algOf s.cfg) (buffer b s)) s)))) s

end Sys2Proof.Machine
end

