-- ==== Sys2Proof/Machine/Filter.lean ====
section
/-! DEFINITION. The Filter Pipeline (41_filter.md): the two micro-operations of R137, `FILT_FWD`, `FILT_INV`. -/

namespace Sys2Proof.Machine

open Sys2Proof

/-- `UBUF` after a failed filter: the bytes are free, `ULEN` is unchanged (41_filter.md R135, U9). -/
def scrambleUbuf (s : State) : State :=
  { s with
    ubuf := (List.range s.ubuf.length).map fun i => Config.freeByte s.freeCtr i
    freeCtr := s.freeCtr + 1 }

/-- What a filter port's answer does to `UBUF` (R137): an answer of another length counts as `Fail` (R134). -/
def takeFilterAnswer (r : PortAnswer) (s : State) : Micro Unit :=
  match r with
  | .bytes b => if b.length = s.ubuf.length then .ok () { s with ubuf := b } else raise .filterError (scrambleUbuf s)
  | .fail => raise .filterError (scrambleUbuf s)
  | .never => hang (scrambleUbuf s)

/-- `ApplyFwd` (41_filter.md R137). -/
def applyFwd (s : State) : Micro Unit :=
  if s.cfg.filtSel then takeFilterAnswer (filterFwd s.platform s.ubuf) s else .ok () s

/-- `ApplyInv` (41_filter.md R137). -/
def applyInv (s : State) : Micro Unit :=
  if s.cfg.filtSel then takeFilterAnswer (filterInv s.platform s.ubuf) s else .ok () s

/-- `FILT_FWD` (41_filter.md R138). -/
def execFiltFwd (s : State) : Result :=
  runCommand (fun s => (applyFwd s).andThen fun _ s => .ok () (finishIdle s)) s

/-- `FILT_INV` (41_filter.md R139). -/
def execFiltInv (s : State) : Result :=
  runCommand (fun s => (applyInv s).andThen fun _ s => .ok () (finishIdle s)) s

end Sys2Proof.Machine
end

