-- ==== Sys2Proof/Machine/Framing.lean ====
section
/-! DEFINITION. Framing and serialization (42_framing.md): buffer transfer, the LZO port, Block Records
(30_encoding.md R96 to R102) and the six commands that expose them. -/

namespace Sys2Proof.Machine

open Sys2Proof

/-! ### Buffer transfer -/

/-- `BUF_LOAD` (42_framing.md R147). -/
def execBufLoad (b : BufSel) (s : State) : Result :=
  runCommand (fun s =>
    if s.xferLen.toNat > capacity b s.platform then raise .illegalOperand s
    else (inRead s.xferLen.toNat s).andThen fun v s =>
      .ok () (complete v.length 0 0 (setPhase .idle (setBuffer b v s)))) s

/-- `BUF_STORE` (42_framing.md R148). -/
def execBufStore (b : BufSel) (s : State) : Result :=
  runCommand (fun s =>
    (outWrite (buffer b s) s).andThen fun _ s => .ok () (complete 0 (buffer b s).length 0 (setPhase .idle s))) s

/-! ### The LZO port -/

/-- The request `DoCompress` makes of the LZO port (R149). -/
def compressRequest (s : State) : CompressRequest :=
  { alg := s.cfg.lzoAlg, bytes := s.ubuf, optimize := s.cfg.optimize }

/-- The request `DoDecompress(n)` makes of the LZO port (R151). -/
def decompressRequest (n : Nat) (s : State) : DecompressRequest :=
  { alg := s.cfg.lzoAlg, bytes := s.cbuf, expected := n }

/-- `DoCompress` (42_framing.md R149). -/
def doCompress (s : State) : Micro Unit :=
  match lzoCompress s.platform (compressRequest s) with
  | .bytes r => if r.length > s.platform.cbufCap then raise .compressionError s else .ok () { s with cbuf := r }
  | .fail => raise .compressionError s
  | .never => hang s

/-- `DoDecompress(n)` (42_framing.md R151). -/
def doDecompress (n : Nat) (s : State) : Micro Unit :=
  match lzoDecompress s.platform (decompressRequest n s) with
  | .bytes r => if r.length = n then .ok () { s with ubuf := r } else raise .decompressionError s
  | .fail => raise .decompressionError s
  | .never => hang s

/-- `LZO_COMP` (42_framing.md R150). -/
def execLzoComp (s : State) : Result :=
  runCommand (fun s => (doCompress s).andThen fun _ s => .ok () (finishIdle s)) s

/-- `LZO_DECOMP` (42_framing.md R152). -/
def execLzoDecomp (s : State) : Result :=
  runCommand (fun s =>
    if s.hdrUsize.toNat > s.platform.maxBlockSize then raise .illegalOperand s
    else (doDecompress s.hdrUsize.toNat s).andThen fun _ s => .ok () (finishIdle s)) s

/-! ### Block Records -/

/-- The header part of a Block Record (30_encoding.md R96, R101). -/
def recordHeader (en : Bool) (us cs uc cc : Word) : Bytes :=
  be32 us ++ be32 cs ++ (if en then be32 uc ++ be32 cc else [])

/-- `Rec(en, us, cs, uc, cc, p)` (30_encoding.md R101). -/
def record (en : Bool) (us cs uc cc : Word) (p : Bytes) : Bytes := recordHeader en us cs uc cc ++ p

/-- The record of the header registers and `CBUF` (42_framing.md R153). -/
def currentRecord (s : State) : Bytes :=
  record s.cfg.chkEn s.hdrUsize s.hdrCsize s.hdrUchk s.hdrCchk s.cbuf

/-- `EmitRecord` (42_framing.md R153): one request of `H + CLEN` bytes. -/
def emitRecord (s : State) : Micro Unit := outWrite (currentRecord s) s

/-- `REC_EMIT` (42_framing.md R154). -/
def execRecEmit (s : State) : Result :=
  runCommand (fun s =>
    if s.hdrCsize ≠ clen s then raise .illegalOperand s
    else (emitRecord s).andThen fun _ s =>
      .ok () (complete 0 (headerLen s.cfg + s.cbuf.length) 0 (setPhase .idle s))) s

/-- Field `k` of a header, 4 bytes from index `4 * k` (30_encoding.md R102). -/
def headerField (h : Bytes) (k : Nat) : Word := unbe32 ((h.drop (4 * k)).take 4)

/-- The header registers a whole header gives (30_encoding.md R102, 42_framing.md R155). -/
def storeHeader (h : Bytes) (s : State) : State :=
  let s := { s with hdrUsize := headerField h 0, hdrCsize := headerField h 1 }
  if s.cfg.chkEn then { s with hdrUchk := headerField h 2, hdrCchk := headerField h 3 } else s

/-- The header in the header registers is malformed (42_framing.md R156). -/
def malformedHeader (s : State) : Bool :=
  decide (s.hdrUsize.toNat > s.platform.maxBlockSize) || decide (s.hdrCsize.toNat > s.platform.cbufCap)

/-- What `ParseHeader` answers (42_framing.md R155). -/
inductive HeaderAnswer where
  | eos
  | header
  deriving DecidableEq, Repr

/-- `ParseHeader` (42_framing.md R155). -/
def parseHeader (s : State) : Micro HeaderAnswer :=
  (inRead (headerLen s.cfg) s).andThen fun h s =>
    if h.length = 0 then .ok .eos s
    else if h.length < headerLen s.cfg then raise .framingError s
    else if malformedHeader (storeHeader h s) then raise .framingError (storeHeader h s)
    else .ok .header (setPhase .haveHeader (storeHeader h s))

/-- `ReadPayload` (42_framing.md R157). -/
def readPayload (s : State) : Micro Unit :=
  (inRead s.hdrCsize.toNat s).andThen fun p s =>
    if p.length < s.hdrCsize.toNat then raise .framingError s
    else .ok () (setPhase .payloadRead { s with cbuf := p })

/-- The end of a command that found no input: `STATE <- END_OF_STREAM ; Complete(0, 0, 0)`. -/
def finishEos (s : State) : State := complete 0 0 0 (setPhase .endOfStream s)

/-- `REC_PARSE` (42_framing.md R158). -/
def execRecParse (s : State) : Result :=
  runCommand (fun s =>
    (parseHeader s).andThen fun a s =>
      match a with
      | .eos => .ok () (finishEos s)
      | .header => (readPayload s).andThen fun _ s =>
          .ok () (complete (headerLen s.cfg + s.hdrCsize.toNat) 0 0 (setPhase .idle s))) s

end Sys2Proof.Machine
end

