-- ==== Sys2Proof/Machine/BlockCodec.lean ====
section
/-! DEFINITION. The Block Codec (43_block_codec.md): the two paths step for step, the Checksum Failure Policy,
`COMPRESS_BLOCK`, `DECOMPRESS_BLOCK`. -/

namespace Sys2Proof.Machine

open Sys2Proof

/-! ### Compress path -/

/-- Compress step 3: `HDR_UCHK` and `CHK_RESULT`, when checksums are active (R177, R189). -/
def computeUchk (s : State) : State :=
  if s.cfg.chkEn then
    { s with hdrUchk := checksum (algOf s.cfg) s.ubuf, chkResult := checksum (algOf s.cfg) s.ubuf }
  else s

/-- Compress step 5: `HDR_CCHK` and `CHK_RESULT`, when checksums are active (R177, R189). -/
def computeCchk (s : State) : State :=
  if s.cfg.chkEn then
    { s with hdrCchk := checksum (algOf s.cfg) s.cbuf, chkResult := checksum (algOf s.cfg) s.cbuf }
  else s

/-- Compress step 6's sizes: `HDR_USIZE <- n ; HDR_CSIZE <- CLEN` (R177). -/
def setSizes (n : Nat) (s : State) : State := { s with hdrUsize := BitVec.ofNat 32 n, hdrCsize := clen s }

/-- Compress steps 2 to 7 (R177), from the state in which step 1 has put `n` bytes in `UBUF`. -/
def compressLoaded (n : Nat) (s : State) : Micro Unit :=
  (applyFwd s).andThen fun _ s =>
  (doCompress (setPhase .cUchk (computeUchk (setPhase .cFiltered s)))).andThen fun _ s =>
  (emitRecord (setSizes n (setPhase .cCchk (computeCchk (setPhase .cCompressed s))))).andThen fun _ s =>
  .ok () (complete n (headerLen s.cfg + s.cbuf.length) 1 (setPhase .idle (setPhase .cEmitted s)))

/-- The body of `COMPRESS_BLOCK` (43_block_codec.md R177, R178). -/
def compressBody (s : State) : Micro Unit :=
  (inRead (blockRequest s) s).andThen fun v s =>
    if v.length = 0 then .ok () (finishEos s)
    else compressLoaded v.length (setPhase .inputRead { s with ubuf := v })

/-- `COMPRESS_BLOCK` (43_block_codec.md R177). -/
def execCompressBlock (s : State) : Result := runCommand compressBody s

/-! ### Decompress path -/

/-- What the Checksum Failure Policy does with a mismatch (43_block_codec.md R185 to R188). -/
def applyPolicy (which : Slot) (expected computed : Word) (pos : DWord) (s : State) : Micro Unit :=
  match s.cfg.policy with
  | .throw => raise .checksumMismatch s
  | .warn =>
    .ok () (setWarn which (diagEmit { pos := pos, which := which, expected := expected, computed := computed } s))
  | .ignore => .ok () s

/-- `CheckSlot(which, bytes, expected, pos)` (43_block_codec.md R185). -/
def checkSlot (which : Slot) (b : Bytes) (expected : Word) (pos : DWord) (s : State) : Micro Unit :=
  if checksum (algOf s.cfg) b = expected then .ok () (setChkResult (checksum (algOf s.cfg) b) s)
  else applyPolicy which expected (checksum (algOf s.cfg) b) pos (setChkResult (checksum (algOf s.cfg) b) s)

/-- Decompress step 3, when checksums are active (R182, R189). -/
def checkCompressed (pos : DWord) (s : State) : Micro Unit :=
  if s.cfg.chkEn then checkSlot .compressed s.cbuf s.hdrCchk pos s else .ok () s

/-- Decompress step 5, when checksums are active (R182, R189). -/
def checkUncompressed (pos : DWord) (s : State) : Micro Unit :=
  if s.cfg.chkEn then checkSlot .uncompressed s.ubuf s.hdrUchk pos s else .ok () s

/-- Decompress steps 2 to 8 (R182), after a well-formed header. -/
def decompressParsed (pos : DWord) (s : State) : Micro Unit :=
  (readPayload s).andThen fun _ s =>
  (checkCompressed pos s).andThen fun _ s =>
  (doDecompress s.hdrUsize.toNat (setPhase .chkCChecked s)).andThen fun _ s =>
  (checkUncompressed pos (setPhase .decompressed s)).andThen fun _ s =>
  (applyInv (setPhase .chkUChecked s)).andThen fun _ s =>
  (outWrite s.ubuf (setPhase .filtered s)).andThen fun _ s =>
  .ok () (complete (headerLen s.cfg + s.hdrCsize.toNat) s.hdrUsize.toNat 1 (setPhase .idle (setPhase .emitted s)))

/-- The body of `DECOMPRESS_BLOCK` (43_block_codec.md R182, R183). -/
def decompressBody (s : State) : Micro Unit :=
  (parseHeader s).andThen fun a t =>
    match a with
    | .eos => .ok () (finishEos t)
    | .header => decompressParsed s.totRead t

/-- `DECOMPRESS_BLOCK` (43_block_codec.md R182). -/
def execDecompressBlock (s : State) : Result := runCommand decompressBody s

end Sys2Proof.Machine
end

