-- ==== Sys2Proof/Machine/StreamDriver.lean ====
section
/-! DEFINITION. The Stream Driver (44_stream_driver.md): the loop, `COMPRESS_STREAM`, `DECOMPRESS_STREAM`. -/

namespace Sys2Proof.Machine

open Sys2Proof

/-- The body of one turn: that of the block command of the same direction (R205). -/
def turnBody (d : Direction) (s : State) : Micro Unit :=
  match d with
  | .compress => compressBody s
  | .decompress => decompressBody s

/-- `BLK_READ = 0 and BLK_WRITTEN = 0`: the exit test of the loop (R206, R207). -/
def loopExit (s : State) : Bool := s.blkRead == 0 && s.blkWritten == 0

/-- At most `k` turns of the loop (R206, R207). After the last of them without an exit the command is still running:
`BUSY = 1` and `activity` looping, and the next step goes on with it. -/
def streamLoop (d : Direction) : Nat → State → State
  | 0, s => s
  | k + 1, s =>
    match turnBody d s with
    | .ended t => t
    | .ok _ t => if loopExit t then { t with activity := .none } else streamLoop d k { t with busy := true }

/-- How many turns one step runs: on a finite input the loop ends within them (R211). -/
def streamFuel (s : State) : Nat := s.input.length - s.ipos + 1

/-- `TOT_READ <- 0 ; TOT_WRITTEN <- 0 ; BLK_COUNT <- 0` (R206, R207, 45_system.md R227). -/
def zeroTotals (s : State) : State := { s with totRead := 0, totWritten := 0, blkCount := 0 }

/-- A stream command (R206, R207). -/
def streamCommand (d : Direction) (s : State) : State :=
  streamLoop d (streamFuel s) { zeroTotals s with activity := .looping d }

/-- `COMPRESS_STREAM` (44_stream_driver.md R206). -/
def execCompressStream (s : State) : Result := runCommand (fun s => .ok () (streamCommand .compress s)) s

/-- `DECOMPRESS_STREAM` (44_stream_driver.md R207). -/
def execDecompressStream (s : State) : Result := runCommand (fun s => .ok () (streamCommand .decompress s)) s

end Sys2Proof.Machine
end

