-- ==== Sys2Proof/Machine/System.lean ====
section
/-! DEFINITION. The housekeeping commands (45_system.md R225 to R228) and hardware reset (70_reset_and_hazards.md
R270). -/

namespace Sys2Proof.Machine

open Sys2Proof

/-- `NOP` (45_system.md R225): no effect, `STATE` kept, `BUSY` not raised. -/
def execNop (s : State) : Result := runAlways (fun s => s) s

/-- `CLR_ERR` (45_system.md R226). -/
def execClrErr (s : State) : Result := runAlways clearError s

/-- `CLR_TOTALS` (45_system.md R227). -/
def execClrTotals (s : State) : Result := runCommand (fun s => .ok () (finishIdle (zeroTotals s))) s

/-- `SOFT_RESET` (45_system.md R228). -/
def execSoftReset (s : State) : Result := runAlways resetRegisters s

/-- Hardware reset, also while a command runs: the command is abandoned (70_reset_and_hazards.md R270, R271, R273). -/
def hardwareReset (s : State) : State := resetRegisters s

end Sys2Proof.Machine
end

