-- ==== Sys2Proof/Machine/Dispatch.lean ====
section
/-! DEFINITION. One arm per command of spec/opcode_table.json. -/

namespace Sys2Proof.Machine

open Sys2Proof

def exec (i : Instr) (s : State) : Host.Outcome State Fault Refusal :=
  match i with
  | .nop => Sys2Proof.Machine.execNop s
  | .chkCompute b => Sys2Proof.Machine.execChkCompute b s
  | .chkVerify b => Sys2Proof.Machine.execChkVerify b s
  | .filtFwd => Sys2Proof.Machine.execFiltFwd s
  | .filtInv => Sys2Proof.Machine.execFiltInv s
  | .bufLoad b => Sys2Proof.Machine.execBufLoad b s
  | .bufStore b => Sys2Proof.Machine.execBufStore b s
  | .lzoComp => Sys2Proof.Machine.execLzoComp s
  | .lzoDecomp => Sys2Proof.Machine.execLzoDecomp s
  | .recEmit => Sys2Proof.Machine.execRecEmit s
  | .recParse => Sys2Proof.Machine.execRecParse s
  | .compressBlock => Sys2Proof.Machine.execCompressBlock s
  | .decompressBlock => Sys2Proof.Machine.execDecompressBlock s
  | .compressStream => Sys2Proof.Machine.execCompressStream s
  | .decompressStream => Sys2Proof.Machine.execDecompressStream s
  | .clrErr => Sys2Proof.Machine.execClrErr s
  | .clrTotals => Sys2Proof.Machine.execClrTotals s
  | .softReset => Sys2Proof.Machine.execSoftReset s

end Sys2Proof.Machine
end

