-- ==== Sys2Proof/Machine/HostAccess.lean ====
section
/-! DEFINITION. The host's accesses (20_memory.md R62, R63, 45_system.md R220 to R224): the register map
(10_state.md R22), what a read returns, what a write does, and how a write of `CMD` runs a command. -/

namespace Sys2Proof.Machine

open Sys2Proof

/-- The 24 registers (10_state.md R22). -/
inductive Reg where
  | cmd
  | status
  | cfg
  | blockSize
  | err
  | errPosLo
  | errPosHi
  | blkCount
  | blkRead
  | blkWritten
  | totReadLo
  | totReadHi
  | totWrittenLo
  | totWrittenHi
  | hdrUsize
  | hdrCsize
  | hdrUchk
  | hdrCchk
  | chkResult
  | chkExpect
  | ulen
  | clen
  | xferLen
  | diagCount
  deriving DecidableEq, Repr

/-- The register map (R22), register `k` at offset `4 * k`. -/
def registerMap : List Reg :=
  [.cmd, .status, .cfg, .blockSize, .err, .errPosLo, .errPosHi, .blkCount, .blkRead, .blkWritten, .totReadLo,
   .totReadHi, .totWrittenLo, .totWrittenHi, .hdrUsize, .hdrCsize, .hdrUchk, .hdrCchk, .chkResult, .chkExpect,
   .ulen, .clen, .xferLen, .diagCount]

/-- The register at an offset; none at the reserved offsets 0x60 to 0xFF (R22, R56). -/
def regAt (off : Nat) : Option Reg := registerMap[off / 4]?

/-- Bits 31:0 of a 64-bit quantity (R22). -/
def lo32 (d : DWord) : Word := d.extractLsb' 0 32

/-- Bits 63:32 of a 64-bit quantity (R22). -/
def hi32 (d : DWord) : Word := d.extractLsb' 32 32

/-- What a read of a register returns (R22, R56). -/
def readReg (r : Reg) (s : State) : Word :=
  match r with
  | .cmd => 0
  | .status => statusWord s
  | .cfg => cfgWord s.cfg
  | .blockSize => s.blockSize
  | .err => errWord s
  | .errPosLo => lo32 s.errPos
  | .errPosHi => hi32 s.errPos
  | .blkCount => s.blkCount
  | .blkRead => s.blkRead
  | .blkWritten => s.blkWritten
  | .totReadLo => lo32 s.totRead
  | .totReadHi => hi32 s.totRead
  | .totWrittenLo => lo32 s.totWritten
  | .totWrittenHi => hi32 s.totWritten
  | .hdrUsize => s.hdrUsize
  | .hdrCsize => s.hdrCsize
  | .hdrUchk => s.hdrUchk
  | .hdrCchk => s.hdrCchk
  | .chkResult => s.chkResult
  | .chkExpect => s.chkExpect
  | .ulen => ulen s
  | .clen => clen s
  | .xferLen => s.xferLen
  | .diagCount => s.diagCount

/-- What a read of an offset returns; reserved offsets read 0 (R56). -/
def readOffset (off : Nat) (s : State) : Word :=
  match regAt off with
  | some r => readReg r s
  | none => 0

/-- A write of `CFG` (10_state.md R28): a legal word replaces it; an illegal one is a failure entry when ready and
nothing when `FAILED`. -/
def writeCfg (w : Word) (s : State) : State :=
  match cfgOfWord w with
  | some c => { s with cfg := c }
  | none =>
    match condition s with
    | .ready => failureEntry .illegalCfg s
    | .failed => s
    | .busy => s

/-- A write of a word to `CMD` (45_system.md R220 to R223). -/
def writeCmd (w : Word) (s : State) : Result :=
  match decode w with
  | .instr i => exec i s
  | .illegal _ => illegalCommand s

/-- A write of a register (R22, R56, 45_system.md R224): read-only registers ignore it. -/
def writeReg (r : Reg) (v : Word) (s : State) : Result :=
  match r with
  | .cmd => writeCmd v s
  | .cfg => .next (writeCfg v s)
  | .blockSize => .next { s with blockSize := v }
  | .hdrUsize => .next { s with hdrUsize := v }
  | .hdrCsize => .next { s with hdrCsize := v }
  | .hdrUchk => .next { s with hdrUchk := v }
  | .hdrCchk => .next { s with hdrCchk := v }
  | .chkExpect => .next { s with chkExpect := v }
  | .xferLen => .next { s with xferLen := v }
  | .status => .next s
  | .err => .next s
  | .errPosLo => .next s
  | .errPosHi => .next s
  | .blkCount => .next s
  | .blkRead => .next s
  | .blkWritten => .next s
  | .totReadLo => .next s
  | .totReadHi => .next s
  | .totWrittenLo => .next s
  | .totWrittenHi => .next s
  | .chkResult => .next s
  | .ulen => .next s
  | .clen => .next s
  | .diagCount => .next s

/-- A host access's offset and width: outside the 256 bytes there is no register (20_memory.md R60); another width or
alignment is not defined (R63). -/
def checkAccess (off size : Nat) (k : Result) : Result :=
  if off ≥ 256 then .fault .noSuchRegister
  else if definedAccess off size then k
  else .refused .undefinedAccess

/-- The host receives a value. -/
def giveHost (v : Word) (s : State) : State := { s with hostReads := s.hostReads ++ [v] }

/-- `MemRead(off, size)` (R62): returns the value, changes nothing in CFFU (R75). -/
def hostRead (off size : Nat) (s : State) : Result :=
  checkAccess off size (.next (giveHost (readOffset off s) s))

/-- `MemWrite(off, size, v)` (R62); reserved offsets ignore it (R56). -/
def hostWrite (off size : Nat) (v : Word) (s : State) : Result :=
  checkAccess off size
    (match regAt off with
     | some r => writeReg r v s
     | none => .next s)

/-- One action of the host or the platform, when no command is running. -/
def hostAction (e : HostEvent) (s : State) : Result :=
  match e with
  | .read off size => hostRead off size s
  | .write off size v => hostWrite off size v s
  | .wait => .next s
  | .reset => .next (hardwareReset s)

/-- The running command goes on for one step: a stream command by its next turns; a request that is never answered
not at all (44_stream_driver.md R211, 70_reset_and_hazards.md R288). -/
def advance (s : State) : Result :=
  match s.activity with
  | .looping d => .next (streamLoop d (streamFuel s) s)
  | .hung => .next s
  | .none => .refused .hostActsWhileBusy

/-- One step while `BUSY = 1`. The host may read `STATUS` (70_reset_and_hazards.md R281), reset abandons the command
(R270), and every other access of the host waits until `BUSY = 0` (30_encoding.md R105). -/
def busyStep (s : State) : Result :=
  match s.host with
  | .reset :: rest => .next (hardwareReset { s with host := rest })
  | .wait :: rest => advance { s with host := rest }
  | .read off size :: rest =>
    if off = 4 ∧ size = 4 then .next (giveHost (statusWord s) { s with host := rest }) else advance s
  | .write _ _ _ :: _ => advance s
  | [] => advance s

/-- One step while `BUSY = 0`: the host's next action; with none, CFFU waits (60_exceptions.md R267). -/
def idleStep (s : State) : Result :=
  match s.host with
  | e :: rest => hostAction e { s with host := rest }
  | [] => .next s

/-- The command word that the next step takes from the host, if it takes one: the counterpart of a fetch. -/
def fetch (s : State) : Option Word :=
  if s.busy then none
  else match s.host with
    | .write 0 4 w :: _ => some w
    | .write _ _ _ :: _ => none
    | .read _ _ :: _ => none
    | .wait :: _ => none
    | .reset :: _ => none
    | [] => none

end Sys2Proof.Machine
end

