-- ==== Sys2Proof/Machine/Step.lean ====
section
/-! DEFINITION. One step of CFFU and its host. -/

namespace Sys2Proof.Machine

open Sys2Proof

/-- One step: the running command goes on, or the host acts (20_memory.md R77). -/
def step (s : State) : Host.Outcome State Fault Refusal :=
  if s.busy then busyStep s else idleStep s

/-- `s` with the command `w` as the host's next write of `CMD` (10_state.md R25): the next step runs it. -/
def State.withFetchWord (s : State) (nbits w : Nat) : State :=
  { s with host := .write 0 4 (BitVec.ofNat 32 (w % 2 ^ nbits)) :: s.host }

end Sys2Proof.Machine
end

