-- ==== Sys2Proof/Safety.lean ====
section
/-! DEFINITION. The terms claims are stated in: ready and failed units, well-formed memory, the invariant of the unit,
the laws a supplier of a primitive or a filter owes (42_framing.md R160, 41_filter.md R136), runs of steps. -/

namespace Sys2Proof.Machine

open Sys2Proof

/-- Ready: `BUSY = 0` and `STATE` is `IDLE` or `END_OF_STREAM` (00_scope.md R19, 45_system.md R220). -/
abbrev Ready (s : State) : Prop := s.busy = false ∧ (s.phase = .idle ∨ s.phase = .endOfStream)

/-- `BUSY = 0` and `STATE = FAILED` (45_system.md R220). -/
abbrev Failed (s : State) : Prop := s.busy = false ∧ s.phase = .failed

/-- A buffer holds no more than its capacity (42_framing.md R146, 10_state.md R41). A buffer is a byte sequence of
exactly its length register (R55), so equal buffers are equal data and no other form is to be kept. -/
abbrev Memory.wf (s : State) : Prop :=
  s.ubuf.length ≤ s.platform.maxBlockSize ∧ s.cbuf.length ≤ s.platform.cbufCap

/-- `BUSY = 0` means no command runs and `STATE` is `IDLE`, `END_OF_STREAM` or `FAILED` (45_system.md R220);
`BUSY = 1` means one does, and a stream command between two turns stands in `IDLE`. -/
abbrev BusyIsRunning (s : State) : Prop :=
  (s.busy = false → s.activity = .none ∧ (s.phase = .idle ∨ s.phase = .endOfStream ∨ s.phase = .failed)) ∧
  (s.busy = true → s.activity ≠ .none ∧ s.phase ≠ .failed) ∧
  ((s.activity = .looping .compress ∨ s.activity = .looping .decompress) → s.phase = .idle)

/-- `ERR` holds an error exactly in `FAILED`, where the result pair is zero (10_state.md R30, 60_exceptions.md R250,
R259). -/
abbrev ErrIsFailure (s : State) : Prop :=
  (s.phase = .failed ↔ s.errCode ≠ .none) ∧
  (s.errCode = .none → s.errState = .idle ∧ s.errPos = 0) ∧
  (s.phase = .failed → s.blkRead = 0 ∧ s.blkWritten = 0)

/-- The invariant of the unit: it holds at reset and every step keeps it. -/
abbrev Invariant (s : State) : Prop := Memory.wf s ∧ BusyIsRunning s ∧ ErrIsFailure s

/-- What the environment may only do forward: `IN` is fixed, `IPOS` never goes back, `OUT` and `DIAG` only grow
(10_state.md R45 to R47), and the parameters never change (R21). -/
abbrev StreamsGrow (s t : State) : Prop :=
  t.platform = s.platform ∧ t.input = s.input ∧ t.inputEndless = s.inputEndless ∧ s.ipos ≤ t.ipos ∧
    s.out <+: t.out ∧ s.diag <+: t.diag

/-- The round-trip law of the primitive at one block (42_framing.md R160): if compressing `b` gives `p`, then
decompressing `p` to `len b` bytes gives `b`. -/
abbrev LzoRoundTripAt (p : Platform) (alg : BitVec 8) (optimize : Bool) (b : Bytes) : Prop :=
  ∀ r, lzoCompress p ⟨alg, b, optimize⟩ = .bytes r → lzoDecompress p ⟨alg, r, b.length⟩ = .bytes b

/-- `LzoRoundTrip` (42_framing.md R160). -/
abbrev LzoRoundTrip (p : Platform) : Prop :=
  ∀ alg optimize b, b.length ≤ p.maxBlockSize → LzoRoundTripAt p alg optimize b

/-- The inverse law of the filter pair at one block (41_filter.md R136). -/
abbrev FilterInverseAt (p : Platform) (b : Bytes) : Prop :=
  ∀ r, filterFwd p b = .bytes r → filterInv p r = .bytes b

/-- `FilterInverseLaw` (41_filter.md R136). -/
abbrev FilterInverseLaw (p : Platform) : Prop := ∀ b, b.length ≤ p.maxBlockSize → FilterInverseAt p b

/-- The bytes of the input not yet consumed (20_memory.md R66). -/
def remaining (s : State) : Bytes := s.input.drop s.ipos

/-- The first `k` answers of the streams are `Ok`. -/
def answersOk : Nat → State → Prop
  | 0, _ => True
  | k + 1, s => ioAnswer s = .ok ∧ answersOk k (ioTaken s)

/-- `k` answers of the streams have been taken. -/
def takeAnswers : Nat → State → State
  | 0, s => s
  | k + 1, s => takeAnswers k (ioTaken s)

/-- What the encode-direction filter answers for a block (41_filter.md R131, R132). -/
def encodeFilter (c : Cfg) (p : Platform) (b : Bytes) : PortAnswer :=
  if c.filtSel then filterFwd p b else .bytes b

/-- What the decode-direction filter answers for a block (41_filter.md R131, R132). -/
def decodeFilter (c : Cfg) (p : Platform) (b : Bytes) : PortAnswer :=
  if c.filtSel then filterInv p b else .bytes b

/-- The diagnostics one checksum slot gives (43_block_codec.md R185, R187, R189): one under `Warn` on a mismatch. -/
def slotWarnings (c : Cfg) (pos : DWord) (which : Slot) (expected computed : Word) : List DiagRecord :=
  if c.chkEn && decide (c.policy = .warn) && decide (computed ≠ expected) then [⟨pos, which, expected, computed⟩]
  else []

/-- One block at the three places it passes: plain, filtered, compressed. -/
structure CodedBlock where
  plain : Bytes
  filtered : Bytes
  payload : Bytes
  deriving DecidableEq, Repr

/-- The Block Record of a block under a configuration (30_encoding.md R96, R98, R101). -/
def blockRecord (c : Cfg) (b : CodedBlock) : Bytes :=
  record c.chkEn (BitVec.ofNat 32 b.plain.length) (BitVec.ofNat 32 b.payload.length)
    (checksum (algOf c) b.filtered) (checksum (algOf c) b.payload) b.payload

/-- The ports take a block from plain to payload (43_block_codec.md R177, steps 2 and 4). -/
abbrev CompressesTo (c : Cfg) (p : Platform) (b : CodedBlock) : Prop :=
  encodeFilter c p b.plain = .bytes b.filtered ∧ b.filtered.length = b.plain.length ∧
    lzoCompress p ⟨c.lzoAlg, b.filtered, c.optimize⟩ = .bytes b.payload ∧ b.payload.length ≤ p.cbufCap

/-- The ports take a block back from payload to plain, and it fits the buffers (43_block_codec.md R182, steps 4 and 6,
42_framing.md R156). -/
abbrev DecompressesFrom (c : Cfg) (p : Platform) (b : CodedBlock) : Prop :=
  lzoDecompress p ⟨c.lzoAlg, b.payload, b.plain.length⟩ = .bytes b.filtered ∧ b.filtered.length = b.plain.length ∧
    decodeFilter c p b.filtered = .bytes b.plain ∧ b.plain.length ≤ p.maxBlockSize ∧ b.payload.length ≤ p.cbufCap

/-- A Block Record on the input: its block, and the two checksums its header holds, right or wrong. -/
structure StoredBlock where
  block : CodedBlock
  uchk : Word
  cchk : Word
  deriving DecidableEq, Repr

/-- The bytes of that record under a configuration (30_encoding.md R96, R101). -/
def storedRecord (c : Cfg) (r : StoredBlock) : Bytes :=
  record c.chkEn (BitVec.ofNat 32 r.block.plain.length) (BitVec.ofNat 32 r.block.payload.length) r.uchk r.cchk
    r.block.payload

/-- The diagnostics of records in a row, the first at position `pos`: each turn's are at the offset of its record
(43_block_codec.md R187, 44_stream_driver.md R207). -/
def streamWarnings (c : Cfg) : DWord → List StoredBlock → List DiagRecord
  | _, [] => []
  | pos, r :: rest =>
    slotWarnings c pos .compressed r.cchk (checksum (algOf c) r.block.payload) ++
      slotWarnings c pos .uncompressed r.uchk (checksum (algOf c) r.block.filtered) ++
      streamWarnings c (pos + BitVec.ofNat 64 (headerLen c + r.block.payload.length)) rest

/-- Every block is of `n` bytes but the last, which is of 1 to `n` bytes (44_stream_driver.md R212). -/
def chunked (n : Nat) : List CodedBlock → Prop
  | [] => True
  | [b] => 1 ≤ b.plain.length ∧ b.plain.length ≤ n
  | b :: rest => 1 ≤ b.plain.length ∧ b.plain.length = n ∧ chunked n rest

/-- The next input is a whole Block Record: a header whose sizes fit the buffers, and its payload `p` (30_encoding.md
R96, 42_framing.md R155 to R157). -/
abbrev RecordNext (s : State) (us cs uc cc : Word) (p : Bytes) : Prop :=
  nextInput (headerLen s.cfg) s = recordHeader s.cfg.chkEn us cs uc cc ∧
    nextInput cs.toNat { s with ipos := s.ipos + headerLen s.cfg } = p ∧ p.length = cs.toNat ∧
    us.toNat ≤ s.platform.maxBlockSize ∧ cs.toNat ≤ s.platform.cbufCap

/-- What step 1 of `DECOMPRESS_BLOCK` leaves of the header in the header registers (42_framing.md R155). -/
def headerStored (us cs uc cc : Word) (s : State) : State :=
  { s with
    hdrUsize := us
    hdrCsize := cs
    hdrUchk := if s.cfg.chkEn then uc else s.hdrUchk
    hdrCchk := if s.cfg.chkEn then cc else s.hdrCchk }

/-- What steps 1 to 5 of `DECOMPRESS_BLOCK` leave of a record with payload `p` that decompresses to `d`, when no slot
stops the block (43_block_codec.md R182, R185, R187 to R189). -/
def slotsPassed (us cs uc cc : Word) (p d : Bytes) (s : State) : State :=
  let warningsC := slotWarnings s.cfg s.totRead .compressed cc (checksum (algOf s.cfg) p)
  let warningsU := slotWarnings s.cfg s.totRead .uncompressed uc (checksum (algOf s.cfg) d)
  { headerStored us cs uc cc (takeAnswers 2 s) with
    chkResult := if s.cfg.chkEn then checksum (algOf s.cfg) d else s.chkResult
    warnC := s.warnC || !warningsC.isEmpty
    warnU := s.warnU || !warningsU.isEmpty
    diag := s.diag ++ (warningsC ++ warningsU)
    diagCount := s.diagCount + BitVec.ofNat 32 (warningsC ++ warningsU).length
    cbuf := p
    ubuf := d
    ipos := s.ipos + headerLen s.cfg + cs.toNat }

/-- No slot stops the block: under `Throw` both checksums are the header's (43_block_codec.md R185). -/
abbrev SlotsPass (c : Cfg) (uc cc : Word) (p d : Bytes) : Prop :=
  c.chkEn = true → c.policy = .throw → checksum (algOf c) p = cc ∧ checksum (algOf c) d = uc

/-- A command that does not end: a request it makes is never answered (70_reset_and_hazards.md R288). -/
abbrev Hangs (i : Instr) (s : State) : Prop := ∃ t, exec i s = .next t ∧ t.busy = true ∧ t.activity = .hung

/-- `n` block commands in a row, each of which ends with a block (44_stream_driver.md R205). -/
def blocksRun (i : Instr) : Nat → State → State → Prop
  | 0, s, u => u = s
  | n + 1, s, u => ∃ v, exec i s = .next v ∧ v.busy = false ∧ v.phase = .idle ∧ blocksRun i n v u

/-- The stream command and the block command of one direction (44_stream_driver.md R205). -/
def streamInstr : Direction → Instr
  | .compress => .compressStream
  | .decompress => .decompressStream

/-- The block command of a direction (44_stream_driver.md R205). -/
def blockInstr : Direction → Instr
  | .compress => .compressBlock
  | .decompress => .decompressBlock

/-- The next step goes on with a stream command: neither a reset nor a read of `STATUS` is the host's next action
(70_reset_and_hazards.md R270, R281). -/
abbrev GoesOn (d : Direction) (s : State) : Prop :=
  s.busy = true ∧ s.activity = .looping d ∧ s.phase = .idle ∧
    ∀ rest, s.host ≠ .reset :: rest ∧ s.host ≠ .read 4 4 :: rest

/-- The state in which the next turn of a running stream command would be accepted as a block command: a wait of the
host has been taken. -/
def resumed (s : State) : State :=
  { s with
    busy := false
    host := if s.host.head? = some .wait then s.host.tail else s.host }

/-- A write `IO_ERROR` of a block command (60_exceptions.md R242). -/
abbrev WriteIoError (t : State) : Prop := t.errCode = .ioError ∧ (t.errState = .cCchk ∨ t.errState = .filtered)

/-- What a stream command that ends with the input leaves, when its first turn is the block command at `s`: what `n`
block commands in a row and then the one that finds the end leave (44_stream_driver.md R205 to R208). -/
abbrev EndsAsBlocks (d : Direction) (s t : State) : Prop :=
  ∃ (n : Nat) (u v : State),
    blocksRun (blockInstr d) n s u ∧ exec (blockInstr d) u = .next v ∧ v.busy = false ∧ v.phase = .endOfStream ∧
      t = { v with activity := .none } ∧ t.totRead = u.totRead ∧ t.totWritten = u.totWritten ∧
      t.blkCount = s.blkCount + BitVec.ofNat 32 n

/-- What a stream command that fails leaves, when its first turn is the block command at `s`: what `n` block commands in
a row and then the failing one leave. The totals and `BLK_COUNT` are those of the completed blocks alone, `ERR_POS` is
where the failing block starts, and the output keeps the bytes of the completed blocks (44_stream_driver.md R209). -/
abbrev FailsAsBlocks (d : Direction) (s t : State) : Prop :=
  ∃ (n : Nat) (u : State),
    blocksRun (blockInstr d) n s u ∧ Ready u ∧ exec (blockInstr d) u = .next t ∧ t.totRead = u.totRead ∧
      t.totWritten = u.totWritten ∧ t.blkCount = s.blkCount + BitVec.ofNat 32 n ∧ t.errPos = u.totRead ∧
      u.out <+: t.out ∧ (¬WriteIoError t → t.out = u.out)

/-- What a stream command that goes on leaves: what `n` block commands in a row leave, but for `BUSY`, which stays 1
(44_stream_driver.md R211). -/
abbrev LoopsAsBlocks (d : Direction) (s t : State) : Prop :=
  ∃ (n : Nat) (u : State), 1 ≤ n ∧ blocksRun (blockInstr d) n s u ∧ t = { u with busy := true, activity := .looping d }

/-- Steps of the machine until a fault or a refusal, of the model's own core. -/
def run (k : Nat) (s : State) : Result := Host.Core.run Sys2Proof.core k s

end Sys2Proof.Machine
end

