-- ==== Sys2Proof/Certificates/Slice0/Obligations.lean ====
section
/-! DEFINITION. The statements about CFFU for the provers. `exec` answers a whole next state in most of them, so each
such equation is the frame too: every field it does not name is unchanged, and so is every byte of both buffers that
`readByte` can read. -/

open Sys2Proof Sys2Proof.Machine

/-! ### Encoding -/

/-- 30_encoding.md R86, R88, R89, R90: decoding an encoded command gives it back, and no other word decodes to it. -/
def Obligations.DecodeAndEncodeAgree : Prop :=
  (∀ i : Instr, i.wellFormed = true → decode (encode i) = .instr i) ∧
    ∀ (w : Word) (i : Instr), decode w = .instr i → w = encode i

/-- R90: the four cases of decoding, in their order, and the decoder built from the opcode table gives the same
verdict. -/
def Obligations.DecodingFollowsItsFourTests : Prop :=
  ∀ w : Word,
    (w.extractLsb' 9 23 ≠ 0 → decode w = .illegal .nonzeroReservedBits) ∧
    (w.extractLsb' 9 23 = 0 → w.extractLsb' 0 8 ∉ assignedOpcodes → decode w = .illegal .reservedOpcode) ∧
    (w.extractLsb' 9 23 = 0 → w.extractLsb' 0 8 ∈ assignedOpcodes → w.getLsbD 8 = true →
      w.extractLsb' 0 8 ∉ bselOpcodes → decode w = .illegal .bselNotAllowed) ∧
    (w.extractLsb' 9 23 = 0 → w.extractLsb' 0 8 ∈ assignedOpcodes →
      (w.getLsbD 8 = true → w.extractLsb' 0 8 ∈ bselOpcodes) →
      ∃ i, decode w = .instr i ∧ opcodeOf i = w.extractLsb' 0 8 ∧ bselOf i = w.extractLsb' 8 1 ∧
        tableMnemonic w = some i.mnemonic) ∧
    ((∃ r, decode w = .illegal r) ↔ tableMnemonic w = none)

/-- Words written out from 30_encoding.md R86 and R88 decode to their commands. -/
def Obligations.SampleWordsDecode : Prop :=
  decode 0b00000000000000000000000000000000#32 = .instr .nop ∧
  decode 0b00000000000000000000000100000001#32 = .instr (.chkCompute .c) ∧
  decode 0b00000000000000000000000000000100#32 = .instr .filtInv ∧
  decode 0b00000000000000000000000100000101#32 = .instr (.bufLoad .c) ∧
  decode 0b00000000000000000000000000001010#32 = .instr .recParse ∧
  decode 0b00000000000000000000000000010001#32 = .instr .decompressBlock ∧
  decode 0b00000000000000000000000000010010#32 = .instr .compressStream ∧
  decode 0b00000000000000000000000000101111#32 = .instr .softReset

/-! ### The host's side -/

/-- A step runs the decoded command: the host's next access is a write of `CMD`, the word decodes to `i`, and no
command is running (10_state.md R25, 45_system.md R220). The step takes the access off the host's list and adds
nothing else. That the host is a list of events is the model's form: notes/assumptions 6. -/
def Obligations.StepRunsDecodedCommand : Prop :=
  ∀ (s : State) (w : Word) (i : Instr) (rest : List HostEvent),
    s.busy = false → s.host = .write 0 4 w :: rest → decode w = .instr i →
      fetch s = some w ∧ step s = exec i { s with host := rest } ∧
        step (s.withFetchWord 32 w.toNat) = exec i s

/-- 30_encoding.md R91, 45_system.md R223, 60_exceptions.md R248: an illegal word written to `CMD` while ready is a
failure entry with `ILLEGAL_CMD` and nothing else. -/
def Obligations.IllegalWordFailsWhenReady : Prop :=
  ∀ (s : State) (w : Word) (rest : List HostEvent),
    Ready s → s.host = .write 0 4 w :: rest → legalCommandWord w = false →
      step s = .next { s with
        host := rest, errState := s.phase, errCode := .illegalCmd, errPos := s.totRead, blkRead := 0,
        blkWritten := 0, phase := .failed, busy := false, activity := .none }

/-- 45_system.md R222: in `FAILED` only the words of `NOP`, `CLR_ERR` and `SOFT_RESET` execute; any other word, legal
or not, is dropped and sets `CMD_REJ`. -/
def Obligations.FailedUnitDropsCommands : Prop :=
  ∀ (s : State) (w : Word) (rest : List HostEvent),
    Failed s → s.host = .write 0 4 w :: rest →
      (w = 0x00000000 → step s = exec .nop { s with host := rest }) ∧
      (w = 0x00000020 → step s = exec .clrErr { s with host := rest }) ∧
      (w = 0x0000002F → step s = exec .softReset { s with host := rest }) ∧
      (w ≠ 0x00000000 → w ≠ 0x00000020 → w ≠ 0x0000002F →
        step s = .next { s with host := rest, cmdRej := true })

/-- 20_memory.md R62, R75, 45_system.md R224, 10_state.md R22, R24, R26, R30, R56, 60_exceptions.md R241,
70_reset_and_hazards.md R281: a read of an offset returns the register there and changes nothing in CFFU; while
`BUSY = 1` a read of `STATUS` does; the fields of `STATUS` and `ERR`, bit by bit, and the numbers of the values of
`STATE` and `ERR.CODE`. The list of values read is the model's own: notes/assumptions 6. That a step serves a `STATUS`
read beside the running command is the model's form: notes/assumptions 11. -/
def Obligations.ReadsReturnTheRegisterMap : Prop :=
  (∀ (s : State) (off : Nat) (rest : List HostEvent),
    s.busy = false → off < 256 → off % 4 = 0 → s.host = .read off 4 :: rest →
      ∃ v, step s = .next { s with host := rest, hostReads := s.hostReads ++ [v] } ∧
        (off = 0x00 → v = 0) ∧ (off = 0x04 → v = statusWord s) ∧ (off = 0x08 → v = cfgWord s.cfg) ∧
        (off = 0x0C → v = s.blockSize) ∧ (off = 0x10 → v = errWord s) ∧
        (off = 0x14 → v = s.errPos.extractLsb' 0 32) ∧ (off = 0x18 → v = s.errPos.extractLsb' 32 32) ∧
        (off = 0x1C → v = s.blkCount) ∧ (off = 0x20 → v = s.blkRead) ∧ (off = 0x24 → v = s.blkWritten) ∧
        (off = 0x28 → v = s.totRead.extractLsb' 0 32) ∧ (off = 0x2C → v = s.totRead.extractLsb' 32 32) ∧
        (off = 0x30 → v = s.totWritten.extractLsb' 0 32) ∧ (off = 0x34 → v = s.totWritten.extractLsb' 32 32) ∧
        (off = 0x38 → v = s.hdrUsize) ∧ (off = 0x3C → v = s.hdrCsize) ∧ (off = 0x40 → v = s.hdrUchk) ∧
        (off = 0x44 → v = s.hdrCchk) ∧ (off = 0x48 → v = s.chkResult) ∧ (off = 0x4C → v = s.chkExpect) ∧
        (off = 0x50 → v = BitVec.ofNat 32 s.ubuf.length) ∧ (off = 0x54 → v = BitVec.ofNat 32 s.cbuf.length) ∧
        (off = 0x58 → v = s.xferLen) ∧ (off = 0x5C → v = s.diagCount) ∧ (0x60 ≤ off → v = 0)) ∧
  (∀ s : State,
    (statusWord s).getLsbD 0 = s.busy ∧ (statusWord s).extractLsb' 1 3 = 0 ∧
    (statusWord s).extractLsb' 4 4 = phaseNumber s.phase ∧ (statusWord s).getLsbD 8 = s.matched ∧
    (statusWord s).getLsbD 9 = s.warnC ∧ (statusWord s).getLsbD 10 = s.warnU ∧
    (statusWord s).getLsbD 11 = s.cmdRej ∧ (statusWord s).extractLsb' 12 20 = 0 ∧
    (errWord s).extractLsb' 0 4 = errNumber s.errCode ∧ (errWord s).extractLsb' 4 4 = phaseNumber s.errState ∧
    (errWord s).extractLsb' 8 24 = 0) ∧
  (∀ (s : State) (rest : List HostEvent), s.busy = true → s.host = .read 4 4 :: rest →
    step s = .next { s with host := rest, hostReads := s.hostReads ++ [statusWord s] }) ∧
  (phaseNumber .idle = 0 ∧ phaseNumber .haveHeader = 1 ∧ phaseNumber .payloadRead = 2 ∧
    phaseNumber .chkCChecked = 3 ∧ phaseNumber .decompressed = 4 ∧ phaseNumber .chkUChecked = 5 ∧
    phaseNumber .filtered = 6 ∧ phaseNumber .emitted = 7 ∧ phaseNumber .inputRead = 8 ∧
    phaseNumber .cFiltered = 9 ∧ phaseNumber .cUchk = 10 ∧ phaseNumber .cCompressed = 11 ∧
    phaseNumber .cCchk = 12 ∧ phaseNumber .cEmitted = 13 ∧ phaseNumber .endOfStream = 14 ∧
    phaseNumber .failed = 15) ∧
  errNumber .none = 0 ∧ errNumber .ioError = 1 ∧ errNumber .framingError = 2 ∧ errNumber .filterError = 3 ∧
    errNumber .compressionError = 4 ∧ errNumber .decompressionError = 5 ∧ errNumber .checksumMismatch = 6 ∧
    errNumber .illegalCmd = 7 ∧ errNumber .illegalCfg = 8 ∧ errNumber .illegalOperand = 9

/-- 45_system.md R224: a write of a read-write register other than `CFG` replaces its value and nothing else, when
ready and in `FAILED` alike. -/
def Obligations.WritesReplaceRegisters : Prop :=
  ∀ (s : State) (off : Nat) (v : Word) (rest : List HostEvent),
    s.busy = false → s.host = .write off 4 v :: rest →
      (off = 0x0C → step s = .next { s with host := rest, blockSize := v }) ∧
      (off = 0x38 → step s = .next { s with host := rest, hdrUsize := v }) ∧
      (off = 0x3C → step s = .next { s with host := rest, hdrCsize := v }) ∧
      (off = 0x40 → step s = .next { s with host := rest, hdrUchk := v }) ∧
      (off = 0x44 → step s = .next { s with host := rest, hdrCchk := v }) ∧
      (off = 0x4C → step s = .next { s with host := rest, chkExpect := v }) ∧
      (off = 0x58 → step s = .next { s with host := rest, xferLen := v })

/-- 10_state.md R56: writes to read-only registers and reserved offsets are ignored; reads of `CMD` and of reserved
offsets return 0; none of these traps; while `BUSY = 1` nothing but `STATUS` is accessed (the
model's choice, notes/assumptions 11: any other access waits). -/
def Obligations.AccessRightsNeverTrap : Prop :=
  ∀ (s : State) (off : Nat) (v : Word) (rest : List HostEvent), off < 256 → off % 4 = 0 →
    (s.busy = false → s.host = .write off 4 v :: rest →
      off ∉ [0x00, 0x08, 0x0C, 0x38, 0x3C, 0x40, 0x44, 0x4C, 0x58] → step s = .next { s with host := rest }) ∧
    (s.busy = false → s.host = .read off 4 :: rest → (off = 0x00 ∨ 0x60 ≤ off) →
      step s = .next { s with host := rest, hostReads := s.hostReads ++ [0] }) ∧
    (s.busy = true → s.host = .read off 4 :: rest → off ≠ 0x04 → ∀ t, step s = .next t →
      t.host = s.host ∧ t.hostReads = s.hostReads) ∧
    (s.busy = true → s.host = .write off 4 v :: rest → ∀ t, step s = .next t →
      t.host = s.host ∧ t.hostReads = s.hostReads)

/-- 20_memory.md R63: an access of another width or alignment is refused, for a read and for a write. Offsets of 256
and above stop under another name: notes/assumptions 8. -/
def Obligations.UndefinedAccessIsRefused : Prop :=
  ∀ (s : State) (off size : Nat) (v : Word) (rest : List HostEvent),
    s.busy = false → off < 256 → (size ≠ 4 ∨ off % 4 ≠ 0) →
      (s.host = .read off size :: rest ∨ s.host = .write off size v :: rest) → step s = .refused .undefinedAccess

/-- 10_state.md R27, R28: a write of `w` to `CFG` is legal iff `w[7:6] = 0`, `w[31:16] = 0` and `w[5:4] != 3`. A legal
write replaces `CFG` with `w`, whose fields stand where R27 puts them; an illegal one leaves it, with a failure entry
when ready and nothing in `FAILED`. -/
def Obligations.CfgWritesAreChecked : Prop :=
  ∀ (s : State) (w : Word) (rest : List HostEvent),
    (Ready s ∨ Failed s) → s.host = .write 8 4 w :: rest →
      (w.extractLsb' 6 2 = 0 ∧ w.extractLsb' 16 16 = 0 ∧ w.extractLsb' 4 2 ≠ 3 →
        ∃ c : Cfg, cfgWord c = w ∧ step s = .next { s with host := rest, cfg := c } ∧
          c.crc32 = w.getLsbD 0 ∧ c.chkEn = w.getLsbD 1 ∧ c.filtSel = w.getLsbD 2 ∧ c.optimize = w.getLsbD 3 ∧
          (c.policy = .throw ↔ w.extractLsb' 4 2 = 0) ∧ (c.policy = .warn ↔ w.extractLsb' 4 2 = 1) ∧
          (c.policy = .ignore ↔ w.extractLsb' 4 2 = 2) ∧ c.lzoAlg = w.extractLsb' 8 8) ∧
      (¬(w.extractLsb' 6 2 = 0 ∧ w.extractLsb' 16 16 = 0 ∧ w.extractLsb' 4 2 ≠ 3) →
        (Ready s → step s = .next { s with
          host := rest, errState := s.phase, errCode := .illegalCfg, errPos := s.totRead, blkRead := 0,
          blkWritten := 0, phase := .failed, busy := false, activity := .none }) ∧
        (Failed s → step s = .next { s with host := rest }))

/-! ### Reset -/

/-- 10_state.md R54: what every register reads right after reset; hardware reset puts any machine there, running or
not, and leaves the environment (70_reset_and_hazards.md R270, R273). -/
def Obligations.ResetValues : Prop :=
  (cfgWord State.reset.cfg = 0x00000002 ∧ statusWord State.reset = 0 ∧ errWord State.reset = 0 ∧
    State.reset.blockSize = State.reset.platform.defaultBlockSize ∧ State.reset.errPos = 0 ∧
    State.reset.blkCount = 0 ∧ State.reset.blkRead = 0 ∧ State.reset.blkWritten = 0 ∧ State.reset.totRead = 0 ∧
    State.reset.totWritten = 0 ∧ State.reset.hdrUsize = 0 ∧ State.reset.hdrCsize = 0 ∧ State.reset.hdrUchk = 0 ∧
    State.reset.hdrCchk = 0 ∧ State.reset.chkResult = 0 ∧ State.reset.chkExpect = 0 ∧ ulen State.reset = 0 ∧
    clen State.reset = 0 ∧ State.reset.xferLen = 0 ∧ State.reset.diagCount = 0 ∧
    (∀ b i, readByte b i State.reset = none)) ∧
  ∀ (s : State) (rest : List HostEvent), s.host = .reset :: rest →
    step s = .next { State.reset with
      blockSize := s.platform.defaultBlockSize, platform := s.platform, input := s.input,
      inputEndless := s.inputEndless, ipos := s.ipos, out := s.out, diag := s.diag, host := rest,
      hostReads := s.hostReads, ioScript := s.ioScript, freeCtr := s.freeCtr }

/-- 45_system.md R228: `SOFT_RESET` puts every register at its reset value when ready and in `FAILED`, leaves the
environment, and cannot be issued while `BUSY = 1`. -/
def Obligations.SoftResetResetsRegisters : Prop :=
  encode .softReset = 0x0000002F ∧
  ∀ s : State,
    (Ready s ∨ Failed s →
      exec .softReset s = .next { s with
        busy := false, phase := .idle, matched := false, warnC := false, warnU := false, cmdRej := false,
        cfg := ⟨false, true, false, false, .throw, 0⟩, blockSize := s.platform.defaultBlockSize, errCode := .none,
        errState := .idle, errPos := 0, blkCount := 0, blkRead := 0, blkWritten := 0, totRead := 0, totWritten := 0,
        hdrUsize := 0, hdrCsize := 0, hdrUchk := 0, hdrCchk := 0, chkResult := 0, chkExpect := 0, xferLen := 0,
        diagCount := 0, ubuf := [], cbuf := [], activity := .none }) ∧
    (s.busy = true → exec .softReset s = .refused .hostActsWhileBusy)

/-! ### System commands -/

/-- 45_system.md R225: `NOP` has no effect, when ready and when `FAILED`. -/
def Obligations.NopHasNoEffect : Prop :=
  encode .nop = 0x00000000 ∧ ∀ s : State, Ready s ∨ Failed s → exec .nop s = .next s

/-- 45_system.md R226: `CLR_ERR` leaves `FAILED`, forgets the error and clears the sticky flags; nothing else. -/
def Obligations.ClrErrLeavesFailed : Prop :=
  encode .clrErr = 0x00000020 ∧
  ∀ s : State, Ready s ∨ Failed s →
    exec .clrErr s = .next { s with
      errCode := .none, errState := .idle, errPos := 0, warnC := false, warnU := false, cmdRej := false,
      phase := .idle, busy := false }

/-- 45_system.md R227: `CLR_TOTALS` zeroes the totals and `BLK_COUNT` when ready; in `FAILED` it is dropped. -/
def Obligations.ClrTotalsZeroesTotals : Prop :=
  encode .clrTotals = 0x00000021 ∧
  ∀ s : State,
    (Ready s → exec .clrTotals s = .next { s with totRead := 0, totWritten := 0, blkCount := 0, phase := .idle }) ∧
    (Failed s → exec .clrTotals s = .next { s with cmdRej := true })

/-! ### Checksum Engine -/

/-- 40_checksum.md R121: `CHK_COMPUTE` puts the checksum of the selected buffer in `CHK_RESULT`. -/
def Obligations.ChkComputeResult : Prop :=
  encode (.chkCompute .u) = 0x00000001 ∧ encode (.chkCompute .c) = 0x00000101 ∧
  (∀ s : State, Ready s →
    exec (.chkCompute .u) s = .next { s with
      chkResult := (if s.cfg.crc32 then crc32 s.ubuf else adler32 s.ubuf), phase := .idle } ∧
    exec (.chkCompute .c) s = .next { s with
      chkResult := (if s.cfg.crc32 then crc32 s.cbuf else adler32 s.cbuf), phase := .idle }) ∧
  crc32 [] = 0x00000000 ∧ adler32 [] = 0x00000001 ∧ crc32 [0x61, 0x62, 0x63] = 0x352441C2 ∧
    adler32 [0x61, 0x62, 0x63] = 0x024D0127

/-- 40_checksum.md R122: `CHK_VERIFY` does the same and sets `MATCH` to the comparison with `CHK_EXPECT`. -/
def Obligations.ChkVerifyResult : Prop :=
  encode (.chkVerify .u) = 0x00000002 ∧ encode (.chkVerify .c) = 0x00000102 ∧
  (∀ s : State, Ready s →
    exec (.chkVerify .u) s = .next { s with
      chkResult := checksum (algOf s.cfg) s.ubuf,
      matched := decide (checksum (algOf s.cfg) s.ubuf = s.chkExpect), phase := .idle } ∧
    exec (.chkVerify .c) s = .next { s with
      chkResult := checksum (algOf s.cfg) s.cbuf,
      matched := decide (checksum (algOf s.cfg) s.cbuf = s.chkExpect), phase := .idle }) ∧
  crc32 [] = 0 ∧ adler32 [] ≠ 0 ∧ adler32 [0x61, 0x62, 0x63] = 0x024D0127

/-- 40_checksum.md R114: the table-driven byte step equals the bitwise one, and the check values. The spec marks R114
as its own inference (`[derived: ...]`). -/
def Obligations.CrcTableFormAgrees : Prop :=
  (∀ (r : Word) (x : Byte), crcByte r x = (r >>> 8) ^^^ crcTable ((r ^^^ x.zeroExtend 32).extractLsb' 0 8)) ∧
  (∀ k : Byte, crcTable k = crcShift8 (k.zeroExtend 32)) ∧
  (∀ r : Word, crcShift8 r = (crcShift^[8]) r) ∧
  crc32 [] = 0x00000000 ∧ crc32 [0x31, 0x32, 0x33, 0x34, 0x35, 0x36, 0x37, 0x38, 0x39] = 0xCBF43926 ∧
  crcTable 0 = 0x00000000 ∧ crcTable 1 = 0x77073096 ∧ crcTable 2 = 0xEE0E612C ∧ crcTable 8 = 0x0EDB8832 ∧
  crcTable 128 = 0xEDB88320 ∧ crcTable 255 = 0x2D02EF8D

/-- 40_checksum.md R118: the check values, the bounds and the closed forms of Adler-32. The spec marks R118 as its own
inference (`[derived: ...]`). -/
def Obligations.AdlerClosedForms : Prop :=
  adler32 [] = 0x00000001 ∧
  adler32 [0x57, 0x69, 0x6B, 0x69, 0x70, 0x65, 0x64, 0x69, 0x61] = 0x11E60398 ∧
  adler32 [0x31, 0x32, 0x33, 0x34, 0x35, 0x36, 0x37, 0x38, 0x39] = 0x091E01DE ∧
  ∀ v : Bytes,
    ((adler32 v).extractLsb' 0 16).toNat = (1 + (v.map BitVec.toNat).sum) % 65521 ∧
    ((adler32 v).extractLsb' 16 16).toNat =
      (v.length + ∑ i : Fin v.length, (v.length - i.val) * (v[i.val]).toNat) % 65521 ∧
    ((adler32 v).extractLsb' 0 16).toNat ≤ 65520 ∧ ((adler32 v).extractLsb' 16 16).toNat ≤ 65520

/-- 40_checksum.md R115: CRC-32 detects every single-bit change. The spec marks R115 as its own inference (`[derived:
...]`). -/
def Obligations.CrcDetectsSingleBitChange : Prop :=
  ∀ (a c : Bytes) (x : Byte) (k : Nat), k < 8 →
    crc32 (a ++ (x ^^^ (1#8 <<< k)) :: c) ≠ crc32 (a ++ x :: c)

/-- 40_checksum.md R119: Adler-32 detects every single-bit change, in its low half. The spec marks R119 as its own
inference (`[derived: ...]`). -/
def Obligations.AdlerDetectsSingleBitChange : Prop :=
  ∀ (a c : Bytes) (x : Byte) (k : Nat), k < 8 →
    (adler32 (a ++ (x ^^^ (1#8 <<< k)) :: c)).extractLsb' 0 16 ≠ (adler32 (a ++ x :: c)).extractLsb' 0 16

/-! ### Filter Pipeline -/

/-- 41_filter.md R131: the identity filter is a no-op in both directions, and the default. -/
def Obligations.IdentityFilterIsNoOp : Prop :=
  State.reset.cfg.filtSel = false ∧ ∀ s : State, s.cfg.filtSel = false →
    applyFwd s = .ok () s ∧ applyInv s = .ok () s ∧
    (Ready s → exec .filtFwd s = .next { s with phase := .idle } ∧ exec .filtInv s = .next { s with phase := .idle })

/-- 41_filter.md R137 to R139: with `FILT_SEL = 1` the filter's answer of the same length replaces `UBUF`. -/
def Obligations.FilterCommandsRewriteUbuf : Prop :=
  ∀ (s : State) (b : Bytes), Ready s → s.cfg.filtSel = true → b.length = s.ubuf.length →
    (filterFwd s.platform s.ubuf = .bytes b → exec .filtFwd s = .next { s with ubuf := b, phase := .idle }) ∧
    (filterInv s.platform s.ubuf = .bytes b → exec .filtInv s = .next { s with ubuf := b, phase := .idle })

/-- 41_filter.md R134, R135, 60_exceptions.md R244, R252: a filter that fails or answers another length is a failure
entry with `FILTER_ERROR`; the bytes of `UBUF` are then unspecified, `ULEN` is unchanged. First `FILT_FWD` and
`FILT_INV`, then step 6 of `DECOMPRESS_BLOCK`, which keeps what its steps 1 to 5 wrote; step 2 of `COMPRESS_BLOCK` is in
`CompressBlockFailures`. `freeCtr` is the model's count of free values: notes/assumptions 4 and 13. -/
def Obligations.FilterFailureEntersFailed : Prop :=
  (∀ (s : State) (r : PortAnswer), Ready s → s.cfg.filtSel = true →
    (r = .fail ∨ ∃ b, r = .bytes b ∧ b.length ≠ s.ubuf.length) →
    (filterFwd s.platform s.ubuf = r → ∃ v : Bytes, v.length = s.ubuf.length ∧
      exec .filtFwd s = .next { s with
        ubuf := v, freeCtr := s.freeCtr + 1, errState := .idle, errCode := .filterError, errPos := s.totRead,
        blkRead := 0, blkWritten := 0, phase := .failed, busy := false, activity := .none }) ∧
    (filterInv s.platform s.ubuf = r → ∃ v : Bytes, v.length = s.ubuf.length ∧
      exec .filtInv s = .next { s with
        ubuf := v, freeCtr := s.freeCtr + 1, errState := .idle, errCode := .filterError, errPos := s.totRead,
        blkRead := 0, blkWritten := 0, phase := .failed, busy := false, activity := .none })) ∧
  ∀ (s : State) (us cs uc cc : Word) (p d : Bytes), Ready s → answersOk 2 s → RecordNext s us cs uc cc p →
    lzoDecompress s.platform ⟨s.cfg.lzoAlg, p, us.toNat⟩ = .bytes d → d.length = us.toNat →
    SlotsPass s.cfg uc cc p d →
    (decodeFilter s.cfg s.platform d = .fail ∨
      ∃ f, decodeFilter s.cfg s.platform d = .bytes f ∧ f.length ≠ d.length) →
    ∃ v : Bytes, v.length = d.length ∧ exec .decompressBlock s = .next { slotsPassed us cs uc cc p d s with
      ubuf := v, freeCtr := (takeAnswers 2 s).freeCtr + 1, errState := .chkUChecked, errCode := .filterError,
      errPos := s.totRead, blkRead := 0, blkWritten := 0, phase := .failed, busy := false, activity := .none }

/-! ### Streams -/

/-- 20_memory.md R66 (a), 10_state.md R45: what `InRead(n)` delivers, from a finite and from an endless input, byte by
byte. That nothing is delivered with `IPOS` past the end of a finite input (after a failed read, U7) is the model's
choice: notes/assumptions 20. How the bytes of an endless input are held is the model's form: notes/assumptions 14. -/
def Obligations.InReadDelivers : Prop :=
  ∀ (s : State) (n : Nat), ioAnswer s = .ok →
    ∃ v, inRead n s = .ok v { ioTaken s with ipos := s.ipos + v.length } ∧
      (s.inputEndless = false → s.ipos ≤ s.input.length →
        v.length = min n (s.input.length - s.ipos) ∧
        ∀ i, i < v.length → v[i]? = s.input[s.ipos + i]?) ∧
      (s.inputEndless = false → s.input.length < s.ipos → v = []) ∧
      (s.inputEndless = true →
        v.length = n ∧ (∀ i, i < n → v[i]? = some (endlessByte s (s.ipos + i))) ∧
        ∀ i, i < n → s.ipos + i < s.input.length → v[i]? = s.input[s.ipos + i]?)

/-- 20_memory.md R66 (b), R67 (b), 60_exceptions.md R242, R250, R252: a request the stream answers with `IoError` is a
failure entry with `IO_ERROR`, whatever part of it moved: the first request of a command, the payload read of
`REC_PARSE` and `DECOMPRESS_BLOCK`, and the output write of `DECOMPRESS_BLOCK`, which keeps what its steps 1 to 6 wrote
(the write of `COMPRESS_BLOCK` is in `CompressBlockFailures`). The part that moved is a number in the answer:
notes/assumptions 4. -/
def Obligations.IoErrorEntersFailed : Prop :=
  (∀ (s : State) (m : Nat), Ready s → ioAnswer s = .ioError m →
    (∀ b, s.xferLen.toNat ≤ capacity b s.platform →
      exec (.bufLoad b) s = .next { ioTaken s with
        ipos := s.ipos + m, errState := .idle, errCode := .ioError, errPos := s.totRead, blkRead := 0,
        blkWritten := 0, phase := .failed, busy := false, activity := .none }) ∧
    (∀ b, exec (.bufStore b) s = .next { ioTaken s with
        out := s.out ++ (buffer b s).take m, errState := .idle, errCode := .ioError, errPos := s.totRead,
        blkRead := 0, blkWritten := 0, phase := .failed, busy := false, activity := .none }) ∧
    (s.hdrCsize = clen s →
      exec .recEmit s = .next { ioTaken s with
        out := s.out ++ (record s.cfg.chkEn s.hdrUsize s.hdrCsize s.hdrUchk s.hdrCchk s.cbuf).take m,
        errState := .idle, errCode := .ioError, errPos := s.totRead, blkRead := 0, blkWritten := 0,
        phase := .failed, busy := false, activity := .none }) ∧
    (∀ i, i = .recParse ∨ i = .compressBlock ∨ i = .decompressBlock →
      exec i s = .next { ioTaken s with
        ipos := s.ipos + m, errState := .idle, errCode := .ioError, errPos := s.totRead, blkRead := 0,
        blkWritten := 0, phase := .failed, busy := false, activity := .none })) ∧
  (∀ (s : State) (us cs uc cc : Word) (i : Instr) (m : Nat), (i = .recParse ∨ i = .decompressBlock) → Ready s →
    ioAnswer s = .ok → nextInput (headerLen s.cfg) s = recordHeader s.cfg.chkEn us cs uc cc →
    us.toNat ≤ s.platform.maxBlockSize → cs.toNat ≤ s.platform.cbufCap → ioAnswer (ioTaken s) = .ioError m →
    exec i s = .next { headerStored us cs uc cc (takeAnswers 2 s) with
      ipos := s.ipos + headerLen s.cfg + m, errState := .haveHeader, errCode := .ioError, errPos := s.totRead,
      blkRead := 0, blkWritten := 0, phase := .failed, busy := false, activity := .none }) ∧
  ∀ (s : State) (us cs uc cc : Word) (p d f : Bytes) (m : Nat), Ready s → answersOk 2 s →
    RecordNext s us cs uc cc p → lzoDecompress s.platform ⟨s.cfg.lzoAlg, p, us.toNat⟩ = .bytes d →
    d.length = us.toNat → SlotsPass s.cfg uc cc p d → decodeFilter s.cfg s.platform d = .bytes f →
    f.length = d.length → ioAnswer (takeAnswers 2 s) = .ioError m →
    exec .decompressBlock s = .next { slotsPassed us cs uc cc p d s with
      ubuf := f, out := s.out ++ f.take m, ioScript := (takeAnswers 3 s).ioScript,
      freeCtr := (takeAnswers 3 s).freeCtr, errState := .filtered, errCode := .ioError, errPos := s.totRead,
      blkRead := 0, blkWritten := 0, phase := .failed, busy := false, activity := .none }

/-- 70_reset_and_hazards.md R288, R271: a request of a command on a stream or a port that is never answered leaves
`BUSY = 1`; every step keeps it so, until hardware reset. The clauses: the first stream request of a command; the ports
of the sub-step commands; the later requests of `COMPRESS_BLOCK`; those of `REC_PARSE` and `DECOMPRESS_BLOCK`; a later
turn of a stream command, in its first step and in a step that goes on with it; the steps that follow. How a hung unit
is held is the model's form: notes/assumptions 9; how many turns one step runs is too: notes/assumptions 10. With
`IPOS` past the end of a finite input there are no bytes, by the model's choice: notes/assumptions 20. -/
def Obligations.UnansweredRequestKeepsBusy : Prop :=
  (∀ (s : State) (m : Nat), Ready s → ioAnswer s = .never m →
    (∀ b, Hangs (.bufStore b) s) ∧ (∀ b, s.xferLen.toNat ≤ capacity b s.platform → Hangs (.bufLoad b) s) ∧
    (s.hdrCsize = clen s → Hangs .recEmit s) ∧ Hangs .recParse s ∧ Hangs .compressBlock s ∧
    Hangs .decompressBlock s ∧ Hangs .compressStream s ∧ Hangs .decompressStream s) ∧
  (∀ s : State, Ready s →
    (s.cfg.filtSel = true → filterFwd s.platform s.ubuf = .never → Hangs .filtFwd s) ∧
    (s.cfg.filtSel = true → filterInv s.platform s.ubuf = .never → Hangs .filtInv s) ∧
    (lzoCompress s.platform ⟨s.cfg.lzoAlg, s.ubuf, s.cfg.optimize⟩ = .never → Hangs .lzoComp s) ∧
    (s.hdrUsize.toNat ≤ s.platform.maxBlockSize →
      lzoDecompress s.platform ⟨s.cfg.lzoAlg, s.cbuf, s.hdrUsize.toNat⟩ = .never → Hangs .lzoDecomp s)) ∧
  (∀ (s : State) (v : Bytes), Ready s → ioAnswer s = .ok →
    nextInput (min s.blockSize.toNat s.platform.maxBlockSize) s = v → v ≠ [] →
    (encodeFilter s.cfg s.platform v = .never → Hangs .compressBlock s) ∧
    (∀ f, encodeFilter s.cfg s.platform v = .bytes f → f.length = v.length →
      lzoCompress s.platform ⟨s.cfg.lzoAlg, f, s.cfg.optimize⟩ = .never → Hangs .compressBlock s) ∧
    (∀ b m, v = b.plain → CompressesTo s.cfg s.platform b → ioAnswer (ioTaken s) = .never m →
      Hangs .compressBlock s)) ∧
  (∀ (s : State) (us cs uc cc : Word) (m : Nat), Ready s → ioAnswer s = .ok →
    nextInput (headerLen s.cfg) s = recordHeader s.cfg.chkEn us cs uc cc → us.toNat ≤ s.platform.maxBlockSize →
    cs.toNat ≤ s.platform.cbufCap → ioAnswer (ioTaken s) = .never m → Hangs .recParse s ∧ Hangs .decompressBlock s) ∧
  (∀ (s : State) (us cs uc cc : Word) (p : Bytes), Ready s → answersOk 2 s → RecordNext s us cs uc cc p →
    ((s.cfg.chkEn = true → s.cfg.policy = .throw → checksum (algOf s.cfg) p = cc) →
      lzoDecompress s.platform ⟨s.cfg.lzoAlg, p, us.toNat⟩ = .never → Hangs .decompressBlock s) ∧
    ∀ d, lzoDecompress s.platform ⟨s.cfg.lzoAlg, p, us.toNat⟩ = .bytes d → d.length = us.toNat →
      SlotsPass s.cfg uc cc p d →
      (decodeFilter s.cfg s.platform d = .never → Hangs .decompressBlock s) ∧
      ∀ f m, decodeFilter s.cfg s.platform d = .bytes f → f.length = d.length →
        ioAnswer (takeAnswers 2 s) = .never m → Hangs .decompressBlock s) ∧
  (∀ (s u : State) (d : Direction) (n : Nat), (s.inputEndless = true → n ≤ s.input.length - s.ipos) →
    Hangs (blockInstr d) u →
    (Ready s → blocksRun (blockInstr d) n { s with totRead := 0, totWritten := 0, blkCount := 0 } u →
      Hangs (streamInstr d) s) ∧
    (GoesOn d s → blocksRun (blockInstr d) n (resumed s) u →
      ∃ t, step s = .next t ∧ t.busy = true ∧ t.activity = .hung)) ∧
  (∀ s : State, s.busy = true → s.activity = .hung → (∀ rest, s.host ≠ .reset :: rest) →
    ∃ t, step s = .next t ∧ t.busy = true ∧ t.activity = .hung ∧ t.phase = s.phase ∧ t.out = s.out ∧ t.ipos = s.ipos)

/-! ### Framing -/

/-- 42_framing.md R147, R148: `BUF_LOAD` fills the selected buffer with up to `XFER_LEN` input bytes; `BUF_STORE`
appends the selected buffer to the output. -/
def Obligations.BufferTransfersComplete : Prop :=
  ∀ (s : State) (v : Bytes), Ready s → ioAnswer s = .ok →
    (v = nextInput s.xferLen.toNat s → s.xferLen.toNat ≤ s.platform.maxBlockSize →
      exec (.bufLoad .u) s = .next { ioTaken s with
        ubuf := v, ipos := s.ipos + v.length, blkRead := BitVec.ofNat 32 v.length, blkWritten := 0,
        totRead := s.totRead + BitVec.ofNat 64 v.length, phase := .idle }) ∧
    (v = nextInput s.xferLen.toNat s → s.xferLen.toNat ≤ s.platform.cbufCap →
      exec (.bufLoad .c) s = .next { ioTaken s with
        cbuf := v, ipos := s.ipos + v.length, blkRead := BitVec.ofNat 32 v.length, blkWritten := 0,
        totRead := s.totRead + BitVec.ofNat 64 v.length, phase := .idle }) ∧
    (∀ b, v = buffer b s →
      exec (.bufStore b) s = .next { ioTaken s with
        out := s.out ++ v, blkRead := 0, blkWritten := BitVec.ofNat 32 v.length,
        totWritten := s.totWritten + BitVec.ofNat 64 v.length, phase := .idle })

/-- 42_framing.md R149 to R152: `LZO_COMP` puts the primitive's answer in `CBUF`, `LZO_DECOMP` its answer of
`HDR_USIZE` bytes in `UBUF`. -/
def Obligations.LzoCommandsComplete : Prop :=
  ∀ (s : State) (r : Bytes), Ready s →
    (lzoCompress s.platform ⟨s.cfg.lzoAlg, s.ubuf, s.cfg.optimize⟩ = .bytes r → r.length ≤ s.platform.cbufCap →
      exec .lzoComp s = .next { s with cbuf := r, phase := .idle }) ∧
    (s.hdrUsize.toNat ≤ s.platform.maxBlockSize →
      lzoDecompress s.platform ⟨s.cfg.lzoAlg, s.cbuf, s.hdrUsize.toNat⟩ = .bytes r → r.length = s.hdrUsize.toNat →
      exec .lzoDecomp s = .next { s with ubuf := r, phase := .idle })

/-- 42_framing.md R149, R151, 60_exceptions.md R245, R246: the two ways each LZO request fails. -/
def Obligations.LzoFailuresEnterFailed : Prop :=
  ∀ (s : State) (r : PortAnswer), Ready s →
    (lzoCompress s.platform ⟨s.cfg.lzoAlg, s.ubuf, s.cfg.optimize⟩ = r →
      (r = .fail ∨ ∃ b, r = .bytes b ∧ s.platform.cbufCap < b.length) →
      exec .lzoComp s = .next { s with
        errState := .idle, errCode := .compressionError, errPos := s.totRead, blkRead := 0, blkWritten := 0,
        phase := .failed, busy := false, activity := .none }) ∧
    (s.hdrUsize.toNat ≤ s.platform.maxBlockSize →
      lzoDecompress s.platform ⟨s.cfg.lzoAlg, s.cbuf, s.hdrUsize.toNat⟩ = r →
      (r = .fail ∨ ∃ b, r = .bytes b ∧ b.length ≠ s.hdrUsize.toNat) →
      exec .lzoDecomp s = .next { s with
        errState := .idle, errCode := .decompressionError, errPos := s.totRead, blkRead := 0, blkWritten := 0,
        phase := .failed, busy := false, activity := .none })

/-- 60_exceptions.md R251: the three causes of `ILLEGAL_OPERAND`, raised before any stream or port is touched, with
`ESTATE = IDLE`; the block and stream commands never raise it, in their first step or in a later one. That a command
may take several steps is the model's form: notes/assumptions 9 and 10. -/
def Obligations.IllegalOperandCauses : Prop :=
  (∀ s : State, Ready s →
    (∀ i, ((∃ b, i = .bufLoad b ∧ s.xferLen.toNat > capacity b s.platform) ∨
        (i = .lzoDecomp ∧ s.hdrUsize.toNat > s.platform.maxBlockSize) ∨
        (i = .recEmit ∧ s.hdrCsize ≠ clen s)) →
      exec i s = .next { s with
        errState := .idle, errCode := .illegalOperand, errPos := s.totRead, blkRead := 0, blkWritten := 0,
        phase := .failed, busy := false, activity := .none })) ∧
  ∀ (s t : State) (i : Instr), s.errCode ≠ .illegalOperand →
    (exec i s = .next t ∧
        (i = .compressBlock ∨ i = .decompressBlock ∨ i = .compressStream ∨ i = .decompressStream)) ∨
      (s.busy = true ∧ step s = .next t) →
    t.errCode ≠ .illegalOperand

/-- 42_framing.md R154, 30_encoding.md R96: `REC_EMIT` appends the record of the header registers and `CBUF`. -/
def Obligations.RecEmitCompletes : Prop :=
  ∀ s : State, Ready s → ioAnswer s = .ok → s.hdrCsize = clen s →
    exec .recEmit s = .next { ioTaken s with
      out := s.out ++ (be32 s.hdrUsize ++ be32 s.hdrCsize ++
        (if s.cfg.chkEn then be32 s.hdrUchk ++ be32 s.hdrCchk else []) ++ s.cbuf),
      blkRead := 0, blkWritten := BitVec.ofNat 32 ((if s.cfg.chkEn then 16 else 8) + s.cbuf.length),
      totWritten := s.totWritten + BitVec.ofNat 64 ((if s.cfg.chkEn then 16 else 8) + s.cbuf.length),
      phase := .idle }

/-- 42_framing.md R155 to R158: `REC_PARSE` reads a whole record whose sizes fit the buffers. -/
def Obligations.RecParseCompletes : Prop :=
  ∀ (s : State) (us cs uc cc : Word) (p : Bytes), Ready s → answersOk 2 s →
    nextInput (headerLen s.cfg) s = recordHeader s.cfg.chkEn us cs uc cc →
    nextInput cs.toNat { s with ipos := s.ipos + headerLen s.cfg } = p → p.length = cs.toNat →
    us.toNat ≤ s.platform.maxBlockSize → cs.toNat ≤ s.platform.cbufCap →
    exec .recParse s = .next { takeAnswers 2 s with
      hdrUsize := us, hdrCsize := cs, hdrUchk := if s.cfg.chkEn then uc else s.hdrUchk,
      hdrCchk := if s.cfg.chkEn then cc else s.hdrCchk, cbuf := p,
      ipos := s.ipos + headerLen s.cfg + cs.toNat, blkRead := BitVec.ofNat 32 (headerLen s.cfg + cs.toNat),
      blkWritten := 0, totRead := s.totRead + BitVec.ofNat 64 (headerLen s.cfg + cs.toNat), phase := .idle }

/-- 42_framing.md R155 to R158, 43_block_codec.md R183, 60_exceptions.md R243: `REC_PARSE` and `DECOMPRESS_BLOCK` on an
input that is exhausted (a no-op that reports `END_OF_STREAM`), on a truncated header (the header registers unchanged),
on a malformed header and on a truncated payload (the header registers hold the parsed header). Nothing is written to
the output. -/
def Obligations.ParsingShortOrMalformedInput : Prop :=
  ∀ (s : State) (i : Instr), (i = .recParse ∨ i = .decompressBlock) → Ready s → ioAnswer s = .ok →
    (nextInput (headerLen s.cfg) s = [] →
      exec i s = .next { ioTaken s with blkRead := 0, blkWritten := 0, phase := .endOfStream }) ∧
    (∀ h, nextInput (headerLen s.cfg) s = h → 0 < h.length → h.length < headerLen s.cfg →
      exec i s = .next { ioTaken s with
        ipos := s.ipos + h.length, errState := .idle, errCode := .framingError, errPos := s.totRead, blkRead := 0,
        blkWritten := 0, phase := .failed, busy := false, activity := .none }) ∧
    (∀ us cs uc cc, nextInput (headerLen s.cfg) s = recordHeader s.cfg.chkEn us cs uc cc →
      (us.toNat > s.platform.maxBlockSize ∨ cs.toNat > s.platform.cbufCap) →
      exec i s = .next { ioTaken s with
        ipos := s.ipos + headerLen s.cfg, hdrUsize := us, hdrCsize := cs,
        hdrUchk := if s.cfg.chkEn then uc else s.hdrUchk, hdrCchk := if s.cfg.chkEn then cc else s.hdrCchk,
        errState := .idle, errCode := .framingError, errPos := s.totRead, blkRead := 0, blkWritten := 0,
        phase := .failed, busy := false, activity := .none }) ∧
    (∀ us cs uc cc p, nextInput (headerLen s.cfg) s = recordHeader s.cfg.chkEn us cs uc cc →
      us.toNat ≤ s.platform.maxBlockSize → cs.toNat ≤ s.platform.cbufCap → answersOk 2 s →
      nextInput cs.toNat { s with ipos := s.ipos + headerLen s.cfg } = p → p.length < cs.toNat →
      exec i s = .next { takeAnswers 2 s with
        ipos := s.ipos + headerLen s.cfg + p.length, hdrUsize := us, hdrCsize := cs,
        hdrUchk := if s.cfg.chkEn then uc else s.hdrUchk, hdrCchk := if s.cfg.chkEn then cc else s.hdrCchk,
        errState := .haveHeader, errCode := .framingError, errPos := s.totRead, blkRead := 0, blkWritten := 0,
        phase := .failed, busy := false, activity := .none })

/-- 42_framing.md R162: emission and parsing are inverse. The spec marks R162 as its own inference (`[derived: ...]`). -/
def Obligations.EmitThenParseIsInverse : Prop :=
  ∀ (s t u : State) (w rest : Bytes), Ready s → s.cbuf.length ≤ s.platform.cbufCap →
    s.hdrUsize.toNat ≤ s.platform.maxBlockSize →
    exec .recEmit s = .next t → t.phase = .idle → t.busy = false → t.out = s.out ++ w →
    Ready u → u.platform = s.platform → u.cfg.chkEn = s.cfg.chkEn → u.inputEndless = false →
    remaining u = w ++ rest → answersOk 2 u →
    ∃ v, exec .recParse u = .next v ∧ v.phase = .idle ∧ v.busy = false ∧ v.errCode = u.errCode ∧
      v.hdrUsize = s.hdrUsize ∧ v.hdrCsize = s.hdrCsize ∧ v.cbuf = s.cbuf ∧
      (s.cfg.chkEn = true → v.hdrUchk = s.hdrUchk ∧ v.hdrCchk = s.hdrCchk) ∧
      v.ipos = u.ipos + w.length ∧ v.blkRead = BitVec.ofNat 32 w.length ∧ remaining v = rest

/-! ### Block Codec -/

/-- 43_block_codec.md R176, R177: `COMPRESS_BLOCK` on a non-empty input, with a filter and a primitive that answer. -/
def Obligations.CompressBlockCompletes : Prop :=
  ∀ (s : State) (b : CodedBlock), Ready s → answersOk 2 s →
    nextInput (min s.blockSize.toNat s.platform.maxBlockSize) s = b.plain → b.plain ≠ [] →
    CompressesTo s.cfg s.platform b →
    exec .compressBlock s = .next { takeAnswers 2 s with
      ubuf := b.filtered, cbuf := b.payload, hdrUsize := BitVec.ofNat 32 b.plain.length,
      hdrCsize := BitVec.ofNat 32 b.payload.length,
      hdrUchk := if s.cfg.chkEn then checksum (algOf s.cfg) b.filtered else s.hdrUchk,
      hdrCchk := if s.cfg.chkEn then checksum (algOf s.cfg) b.payload else s.hdrCchk,
      chkResult := if s.cfg.chkEn then checksum (algOf s.cfg) b.payload else s.chkResult,
      out := s.out ++ (be32 (BitVec.ofNat 32 b.plain.length) ++ be32 (BitVec.ofNat 32 b.payload.length) ++
        (if s.cfg.chkEn then be32 (checksum (algOf s.cfg) b.filtered) ++ be32 (checksum (algOf s.cfg) b.payload)
          else []) ++ b.payload),
      ipos := s.ipos + b.plain.length, blkRead := BitVec.ofNat 32 b.plain.length,
      blkWritten := BitVec.ofNat 32 (headerLen s.cfg + b.payload.length),
      totRead := s.totRead + BitVec.ofNat 64 b.plain.length,
      totWritten := s.totWritten + BitVec.ofNat 64 (headerLen s.cfg + b.payload.length),
      blkCount := s.blkCount + 1, phase := .idle }

/-- 43_block_codec.md R178: on empty input `COMPRESS_BLOCK` reports `END_OF_STREAM` and changes nothing else; with
`BLOCK_SIZE = 0` the answer is empty although the input may hold more bytes. The spec marks R178 as its own inference
(`[derived: ...]`). With `IPOS` past the end of a finite input there are no bytes, by the model's choice:
notes/assumptions 20. -/
def Obligations.CompressBlockOnEmptyInput : Prop :=
  (∀ s : State, Ready s → ioAnswer s = .ok → nextInput (min s.blockSize.toNat s.platform.maxBlockSize) s = [] →
    exec .compressBlock s = .next { ioTaken s with blkRead := 0, blkWritten := 0, phase := .endOfStream }) ∧
  (∀ s : State, s.inputEndless = false → remaining s = [] →
    nextInput (min s.blockSize.toNat s.platform.maxBlockSize) s = []) ∧
  (∀ s : State, s.blockSize = 0 → nextInput (min s.blockSize.toNat s.platform.maxBlockSize) s = [])

/-- 43_block_codec.md R180, 60_exceptions.md R242, R244, R245, R252: what a failed `COMPRESS_BLOCK` leaves behind after
a filter error (step 2), a compression error (step 4) and a write error (step 6). -/
def Obligations.CompressBlockFailures : Prop :=
  ∀ (s : State) (v : Bytes), Ready s → ioAnswer s = .ok →
    nextInput (min s.blockSize.toNat s.platform.maxBlockSize) s = v → v ≠ [] →
    ((encodeFilter s.cfg s.platform v = .fail ∨ ∃ f, encodeFilter s.cfg s.platform v = .bytes f ∧ f.length ≠ v.length) →
      ∃ g : Bytes, g.length = v.length ∧ exec .compressBlock s = .next { ioTaken s with
        ubuf := g, freeCtr := (ioTaken s).freeCtr + 1, ipos := s.ipos + v.length, errState := .inputRead,
        errCode := .filterError, errPos := s.totRead, blkRead := 0, blkWritten := 0, phase := .failed, busy := false,
        activity := .none }) ∧
    (∀ f r, encodeFilter s.cfg s.platform v = .bytes f → f.length = v.length →
      lzoCompress s.platform ⟨s.cfg.lzoAlg, f, s.cfg.optimize⟩ = r →
      (r = .fail ∨ ∃ p, r = .bytes p ∧ s.platform.cbufCap < p.length) →
      exec .compressBlock s = .next { ioTaken s with
        ubuf := f, ipos := s.ipos + v.length,
        hdrUchk := if s.cfg.chkEn then checksum (algOf s.cfg) f else s.hdrUchk,
        chkResult := if s.cfg.chkEn then checksum (algOf s.cfg) f else s.chkResult, errState := .cUchk,
        errCode := .compressionError, errPos := s.totRead, blkRead := 0, blkWritten := 0, phase := .failed,
        busy := false, activity := .none }) ∧
    (∀ b m, v = b.plain → CompressesTo s.cfg s.platform b → ioAnswer (ioTaken s) = .ioError m →
      exec .compressBlock s = .next { takeAnswers 2 s with
        ubuf := b.filtered, cbuf := b.payload, ipos := s.ipos + v.length, hdrUsize := BitVec.ofNat 32 v.length,
        hdrCsize := BitVec.ofNat 32 b.payload.length,
        hdrUchk := if s.cfg.chkEn then checksum (algOf s.cfg) b.filtered else s.hdrUchk,
        hdrCchk := if s.cfg.chkEn then checksum (algOf s.cfg) b.payload else s.hdrCchk,
        chkResult := if s.cfg.chkEn then checksum (algOf s.cfg) b.payload else s.chkResult,
        out := s.out ++ (blockRecord s.cfg b).take m, errState := .cCchk, errCode := .ioError, errPos := s.totRead,
        blkRead := 0, blkWritten := 0, phase := .failed, busy := false, activity := .none })

/-- 43_block_codec.md R182, R185, R187 to R189: `DECOMPRESS_BLOCK` on a whole well-formed record, with a primitive and a
filter that answer, when no checksum slot mismatches under `Throw`: the block is written, a mismatch under `Warn` gives
its diagnostic and its flag, and one under `Ignore` gives nothing. -/
def Obligations.DecompressBlockCompletes : Prop :=
  ∀ (s : State) (us cs uc cc : Word) (p d f : Bytes) (warnings : List DiagRecord), Ready s → answersOk 3 s →
    nextInput (headerLen s.cfg) s = recordHeader s.cfg.chkEn us cs uc cc →
    nextInput cs.toNat { s with ipos := s.ipos + headerLen s.cfg } = p → p.length = cs.toNat →
    us.toNat ≤ s.platform.maxBlockSize → cs.toNat ≤ s.platform.cbufCap →
    lzoDecompress s.platform ⟨s.cfg.lzoAlg, p, us.toNat⟩ = .bytes d → d.length = us.toNat →
    decodeFilter s.cfg s.platform d = .bytes f → f.length = d.length →
    (s.cfg.chkEn = true → s.cfg.policy = .throw →
      checksum (algOf s.cfg) p = cc ∧ checksum (algOf s.cfg) d = uc) →
    warnings = slotWarnings s.cfg s.totRead .compressed cc (checksum (algOf s.cfg) p) ++
      slotWarnings s.cfg s.totRead .uncompressed uc (checksum (algOf s.cfg) d) →
    exec .decompressBlock s = .next { takeAnswers 3 s with
      hdrUsize := us, hdrCsize := cs, hdrUchk := if s.cfg.chkEn then uc else s.hdrUchk,
      hdrCchk := if s.cfg.chkEn then cc else s.hdrCchk,
      chkResult := if s.cfg.chkEn then checksum (algOf s.cfg) d else s.chkResult,
      warnC := s.warnC || !(slotWarnings s.cfg s.totRead .compressed cc (checksum (algOf s.cfg) p)).isEmpty,
      warnU := s.warnU || !(slotWarnings s.cfg s.totRead .uncompressed uc (checksum (algOf s.cfg) d)).isEmpty,
      diag := s.diag ++ warnings, diagCount := s.diagCount + BitVec.ofNat 32 warnings.length, cbuf := p, ubuf := f,
      out := s.out ++ f, ipos := s.ipos + headerLen s.cfg + cs.toNat,
      blkRead := BitVec.ofNat 32 (headerLen s.cfg + cs.toNat), blkWritten := us,
      totRead := s.totRead + BitVec.ofNat 64 (headerLen s.cfg + cs.toNat),
      totWritten := s.totWritten + BitVec.ofNat 64 us.toNat, blkCount := s.blkCount + 1, phase := .idle }

/-- 43_block_codec.md R186, 60_exceptions.md R247: under `Throw` a mismatch of the compressed slot stops the block
before the primitive is called, and one of the uncompressed slot before the filter is called; nothing is written to the
output; `CHK_RESULT` holds the computed value and the header register the expected one. -/
def Obligations.ThrowStopsTheBlock : Prop :=
  State.reset.cfg.policy = .throw ∧
  ∀ (s : State) (us cs uc cc : Word) (p : Bytes), Ready s → answersOk 2 s →
    s.cfg.chkEn = true → s.cfg.policy = .throw →
    nextInput 16 s = be32 us ++ be32 cs ++ be32 uc ++ be32 cc →
    nextInput cs.toNat { s with ipos := s.ipos + 16 } = p → p.length = cs.toNat →
    us.toNat ≤ s.platform.maxBlockSize → cs.toNat ≤ s.platform.cbufCap →
    (checksum (algOf s.cfg) p ≠ cc →
      exec .decompressBlock s = .next { takeAnswers 2 s with
        hdrUsize := us, hdrCsize := cs, hdrUchk := uc, hdrCchk := cc, chkResult := checksum (algOf s.cfg) p, cbuf := p,
        ipos := s.ipos + 16 + cs.toNat, errState := .payloadRead, errCode := .checksumMismatch, errPos := s.totRead,
        blkRead := 0, blkWritten := 0, phase := .failed, busy := false, activity := .none }) ∧
    (∀ d, checksum (algOf s.cfg) p = cc → lzoDecompress s.platform ⟨s.cfg.lzoAlg, p, us.toNat⟩ = .bytes d →
      d.length = us.toNat → checksum (algOf s.cfg) d ≠ uc →
      exec .decompressBlock s = .next { takeAnswers 2 s with
        hdrUsize := us, hdrCsize := cs, hdrUchk := uc, hdrCchk := cc, chkResult := checksum (algOf s.cfg) d, cbuf := p,
        ubuf := d, ipos := s.ipos + 16 + cs.toNat, errState := .decompressed, errCode := .checksumMismatch,
        errPos := s.totRead, blkRead := 0, blkWritten := 0, phase := .failed, busy := false, activity := .none })

/-- 43_block_codec.md R187, R188: under `Warn` a mismatch appends one diagnostic, counts it, sets the slot's sticky flag,
and the command goes on exactly as after a match; under `Ignore` it has no effect but on `CHK_RESULT`. -/
def Obligations.WarnAndIgnoreGoOn : Prop :=
  ∀ (s : State) (b : Bytes) (expected c : Word) (pos : DWord), checksum (algOf s.cfg) b = c → c ≠ expected →
    (s.cfg.policy = .warn →
      checkSlot .compressed b expected pos s = .ok () { s with
        chkResult := c, diag := s.diag ++ [⟨pos, .compressed, expected, c⟩], diagCount := s.diagCount + 1,
        warnC := true } ∧
      checkSlot .uncompressed b expected pos s = .ok () { s with
        chkResult := c, diag := s.diag ++ [⟨pos, .uncompressed, expected, c⟩], diagCount := s.diagCount + 1,
        warnU := true }) ∧
    (s.cfg.policy = .ignore → ∀ which, checkSlot which b expected pos s = .ok () { s with chkResult := c }) ∧
    ∀ which, checkSlot which b c pos s = .ok () { s with chkResult := c }

/-- 43_block_codec.md R190, 60_exceptions.md R246: whatever the policy, a primitive that cannot reconstruct the declared
length raises `DECOMPRESSION_ERROR` in step 4, and nothing is written to the output. -/
def Obligations.PolicyDoesNotCoverDecompression : Prop :=
  ∀ (s : State) (us cs uc cc : Word) (p : Bytes) (r : PortAnswer), Ready s → answersOk 2 s →
    nextInput (headerLen s.cfg) s = recordHeader s.cfg.chkEn us cs uc cc →
    nextInput cs.toNat { s with ipos := s.ipos + headerLen s.cfg } = p → p.length = cs.toNat →
    us.toNat ≤ s.platform.maxBlockSize → cs.toNat ≤ s.platform.cbufCap →
    (s.cfg.chkEn = true → s.cfg.policy = .throw → checksum (algOf s.cfg) p = cc) →
    lzoDecompress s.platform ⟨s.cfg.lzoAlg, p, us.toNat⟩ = r →
    (r = .fail ∨ ∃ d, r = .bytes d ∧ d.length ≠ us.toNat) →
    ∃ t, exec .decompressBlock s = .next t ∧ t.phase = .failed ∧ t.errCode = .decompressionError ∧
      t.errState = .chkCChecked ∧ t.errPos = s.totRead ∧ t.out = s.out ∧ t.totRead = s.totRead ∧
      t.blkCount = s.blkCount ∧ t.ubuf = s.ubuf

/-- 43_block_codec.md R193: the round trip of one block. The two laws are asked only of the block at hand. The spec
marks R193 as its own inference (`[derived: ...]`). -/
def Obligations.BlockRoundTrip : Prop :=
  ∀ (s t u : State) (b w rest : Bytes), Ready s → exec .compressBlock s = .next t → t.busy = false → t.phase = .idle →
    nextInput (min s.blockSize.toNat s.platform.maxBlockSize) s = b → t.out = s.out ++ w →
    Ready u → u.platform = s.platform → u.cfg.crc32 = s.cfg.crc32 → u.cfg.chkEn = s.cfg.chkEn →
    u.cfg.filtSel = s.cfg.filtSel → u.cfg.lzoAlg = s.cfg.lzoAlg → u.inputEndless = false →
    remaining u = w ++ rest → answersOk 3 u →
    LzoRoundTripAt s.platform s.cfg.lzoAlg s.cfg.optimize t.ubuf →
    (s.cfg.filtSel = true → FilterInverseAt s.platform b) →
    ∃ v, exec .decompressBlock u = .next v ∧ v.busy = false ∧ v.phase = .idle ∧ v.errCode = u.errCode ∧
      v.out = u.out ++ b ∧ v.diag = u.diag ∧ v.diagCount = u.diagCount ∧ v.warnC = u.warnC ∧ v.warnU = u.warnU ∧
      remaining v = rest

/-- 43_block_codec.md R194: with checksums active and `Throw`, a single-bit change of the payload of a record that
`COMPRESS_BLOCK` wrote is caught in step 3, before the primitive is called and before any output. The spec marks R194
as its own inference (`[derived: ...]`). -/
def Obligations.PayloadCorruptionIsCaught : Prop :=
  ∀ (s t u : State) (header a c rest : Bytes) (x : Byte) (k : Nat), Ready s → exec .compressBlock s = .next t →
    t.busy = false → t.phase = .idle → t.out = s.out ++ (header ++ (a ++ x :: c)) → t.cbuf = a ++ x :: c → k < 8 →
    Ready u → u.platform = s.platform → u.cfg.crc32 = s.cfg.crc32 → s.cfg.chkEn = true → u.cfg.chkEn = true →
    u.cfg.policy = .throw → u.inputEndless = false →
    remaining u = header ++ (a ++ (x ^^^ (1#8 <<< k)) :: c) ++ rest → answersOk 2 u →
    ∃ v, exec .decompressBlock u = .next v ∧ v.busy = false ∧ v.phase = .failed ∧ v.errCode = .checksumMismatch ∧
      v.errState = .payloadRead ∧ v.out = u.out ∧ v.ubuf = u.ubuf

/-- 43_block_codec.md R192: a successful block command with checksums active leaves what the script of sub-step
commands leaves, but for `XFER_LEN`, `CHK_EXPECT`, `MATCH`, `BLK_READ` and `BLK_COUNT`. The values the script writes
are the values it read just before. The spec marks R192 as its own inference (`[derived: ...]`). -/
def Obligations.BlockCommandsEqualTheirScripts : Prop :=
  (∀ (s c : State), Ready s → s.cfg.chkEn = true → exec .compressBlock s = .next c → c.busy = false → c.phase = .idle →
    ∃ t, run 15 { s with host :=
        [.write 0x58 4 (BitVec.ofNat 32 (min s.blockSize.toNat s.platform.maxBlockSize)),
         .write 0x00 4 (encode (.bufLoad .u)), .write 0x00 4 (encode .filtFwd),
         .write 0x00 4 (encode (.chkCompute .u)), .read 0x48 4, .write 0x40 4 c.hdrUchk,
         .write 0x00 4 (encode .lzoComp), .write 0x00 4 (encode (.chkCompute .c)), .read 0x48 4,
         .write 0x44 4 c.hdrCchk, .read 0x50 4, .write 0x38 4 c.hdrUsize, .read 0x54 4, .write 0x3C 4 c.hdrCsize,
         .write 0x00 4 (encode .recEmit)] } = .next t ∧
      t = { c with
        xferLen := BitVec.ofNat 32 (min s.blockSize.toNat s.platform.maxBlockSize), blkRead := 0,
        blkCount := s.blkCount, host := [],
        hostReads := s.hostReads ++ [c.hdrUchk, c.hdrCchk, c.hdrUsize, c.hdrCsize] }) ∧
  (∀ (s c : State), Ready s → s.cfg.chkEn = true → exec .decompressBlock s = .next c → c.busy = false →
    c.phase = .idle → c.hdrCchk = checksum (algOf s.cfg) c.cbuf → c.chkResult = c.hdrUchk →
    ∃ t, run 12 { s with host :=
        [.write 0x00 4 (encode .recParse), .read 0x44 4, .write 0x4C 4 c.hdrCchk,
         .write 0x00 4 (encode (.chkVerify .c)), .read 0x04 4, .write 0x00 4 (encode .lzoDecomp), .read 0x40 4,
         .write 0x4C 4 c.hdrUchk, .write 0x00 4 (encode (.chkVerify .u)), .read 0x04 4,
         .write 0x00 4 (encode .filtInv), .write 0x00 4 (encode (.bufStore .u))] } = .next t ∧
      (∃ st1 st2 : Word, st1.getLsbD 8 = true ∧ st2.getLsbD 8 = true ∧
        t = { c with
          chkExpect := c.hdrUchk, matched := true, blkRead := 0, blkCount := s.blkCount, host := [],
          hostReads := s.hostReads ++ [c.hdrCchk, st1, c.hdrUchk, st2] }))

/-! ### Stream Driver -/

/-- 44_stream_driver.md R210: on an input that is exhausted at the first turn both stream commands end at once with
zero totals. The spec marks R210 as its own inference (`[derived: ...]`). With `IPOS` past the end of a finite input
there are no bytes, by the model's choice: notes/assumptions 20. -/
def Obligations.StreamCommandsOnEmptyInput : Prop :=
  ∀ (s : State) (i : Instr), (i = .compressStream ∨ i = .decompressStream) → Ready s → ioAnswer s = .ok →
    s.inputEndless = false → remaining s = [] →
    exec i s = .next { ioTaken s with
      totRead := 0, totWritten := 0, blkCount := 0, blkRead := 0, blkWritten := 0, phase := .endOfStream,
      activity := .none }

/-- 44_stream_driver.md R206, R208, R212: `COMPRESS_STREAM` on a finite input cut into blocks, every block of
`min(BLOCK_SIZE, LZOP_MAX_BLOCK_SIZE)` bytes but the last, writes one record a block, in order, and ends with the sums
of the bytes read and written. Then, whatever the records: it ends in `END_OF_STREAM` exactly when its block commands
in a row, from zeroed totals, reach the end of the input without a failure, and leaves what they leave (R205). The spec
marks R212 as its own inference (`[derived: ...]`). That one step runs all turns of a finite input is the model's form:
notes/assumptions 10. -/
def Obligations.CompressStreamCompletes : Prop :=
  (∀ (s : State) (bs : List CodedBlock), Ready s → s.inputEndless = false → s.ipos ≤ s.input.length →
    remaining s = (bs.map CodedBlock.plain).flatten →
    chunked (min s.blockSize.toNat s.platform.maxBlockSize) bs →
    (∀ b ∈ bs, CompressesTo s.cfg s.platform b) → answersOk (2 * bs.length + 1) s →
    ∃ t, exec .compressStream s = .next t ∧ t.busy = false ∧ t.phase = .endOfStream ∧ t.activity = .none ∧
      t.out = s.out ++ (bs.map (blockRecord s.cfg)).flatten ∧ t.ipos = s.input.length ∧
      t.totRead = BitVec.ofNat 64 (remaining s).length ∧
      t.totWritten = BitVec.ofNat 64 ((bs.map (blockRecord s.cfg)).flatten).length ∧
      t.blkCount = BitVec.ofNat 32 bs.length ∧ t.blkRead = 0 ∧ t.blkWritten = 0 ∧ t.cfg = s.cfg ∧
      t.blockSize = s.blockSize ∧ t.errCode = s.errCode ∧ t.errState = s.errState ∧ t.errPos = s.errPos ∧
      t.matched = s.matched ∧ t.warnC = s.warnC ∧ t.warnU = s.warnU ∧ t.cmdRej = s.cmdRej ∧
      t.chkExpect = s.chkExpect ∧ t.xferLen = s.xferLen ∧ t.diag = s.diag ∧ t.diagCount = s.diagCount ∧
      t.host = s.host ∧ t.hostReads = s.hostReads ∧ t.platform = s.platform ∧ t.input = s.input ∧
      (s.cfg.chkEn = false → t.hdrUchk = s.hdrUchk ∧ t.hdrCchk = s.hdrCchk ∧ t.chkResult = s.chkResult) ∧
      (∀ b, bs.getLast? = some b → t.ubuf = b.filtered ∧ t.cbuf = b.payload ∧
        t.hdrUsize = BitVec.ofNat 32 b.plain.length ∧ t.hdrCsize = BitVec.ofNat 32 b.payload.length ∧
        (s.cfg.chkEn = true → t.hdrUchk = checksum (algOf s.cfg) b.filtered ∧
          t.hdrCchk = checksum (algOf s.cfg) b.payload ∧ t.chkResult = t.hdrCchk))) ∧
  (∀ s t : State, Ready s → (exec .compressStream s = .next t ∧ t.phase = .endOfStream ↔
    EndsAsBlocks .compress { s with totRead := 0, totWritten := 0, blkCount := 0 } t)) ∧
  ∀ s t : State, GoesOn .compress s →
    (step s = .next t ∧ t.phase = .endOfStream ↔ EndsAsBlocks .compress (resumed s) t)

/-- 44_stream_driver.md R207, R208, 43_block_codec.md R185, R187, R188: `DECOMPRESS_STREAM` on a finite input of
records, none of which a slot stops, writes their blocks, in order, and ends with the sums of the bytes read and
written; each mismatch under `Warn` gives its diagnostic, with the offset of its record, and its sticky flag, and one
under `Ignore` gives nothing. Then, whatever the records and the policy: it ends in `END_OF_STREAM` exactly when its
block commands in a row, from zeroed totals, reach the end of the input without a failure, and leaves what they leave
(R205). That one step runs all turns of a finite input is the model's form: notes/assumptions 10. -/
def Obligations.DecompressStreamCompletes : Prop :=
  (∀ (s : State) (rs : List StoredBlock), Ready s → s.inputEndless = false → s.ipos ≤ s.input.length →
    remaining s = (rs.map (storedRecord s.cfg)).flatten →
    (∀ r ∈ rs, DecompressesFrom s.cfg s.platform r.block ∧
      SlotsPass s.cfg r.uchk r.cchk r.block.payload r.block.filtered) →
    answersOk (3 * rs.length + 1) s →
    ∃ t, exec .decompressStream s = .next t ∧ t.busy = false ∧ t.phase = .endOfStream ∧ t.activity = .none ∧
      t.out = s.out ++ (rs.map fun r => r.block.plain).flatten ∧ t.ipos = s.input.length ∧
      t.totRead = BitVec.ofNat 64 (remaining s).length ∧
      t.totWritten = BitVec.ofNat 64 ((rs.map fun r => r.block.plain).flatten).length ∧
      t.blkCount = BitVec.ofNat 32 rs.length ∧ t.blkRead = 0 ∧ t.blkWritten = 0 ∧ t.cfg = s.cfg ∧
      t.blockSize = s.blockSize ∧ t.errCode = s.errCode ∧ t.errState = s.errState ∧ t.errPos = s.errPos ∧
      t.matched = s.matched ∧ t.cmdRej = s.cmdRej ∧ t.chkExpect = s.chkExpect ∧ t.xferLen = s.xferLen ∧
      t.diag = s.diag ++ streamWarnings s.cfg 0 rs ∧
      t.diagCount = s.diagCount + BitVec.ofNat 32 (streamWarnings s.cfg 0 rs).length ∧
      t.warnC = (s.warnC || (streamWarnings s.cfg 0 rs).any fun w => decide (w.which = .compressed)) ∧
      t.warnU = (s.warnU || (streamWarnings s.cfg 0 rs).any fun w => decide (w.which = .uncompressed)) ∧
      t.host = s.host ∧ t.hostReads = s.hostReads ∧ t.platform = s.platform ∧ t.input = s.input ∧
      (s.cfg.chkEn = false → t.hdrUchk = s.hdrUchk ∧ t.hdrCchk = s.hdrCchk ∧ t.chkResult = s.chkResult) ∧
      (∀ r, rs.getLast? = some r → t.ubuf = r.block.plain ∧ t.cbuf = r.block.payload ∧
        t.hdrUsize = BitVec.ofNat 32 r.block.plain.length ∧ t.hdrCsize = BitVec.ofNat 32 r.block.payload.length ∧
        (s.cfg.chkEn = true → t.hdrUchk = r.uchk ∧ t.hdrCchk = r.cchk ∧
          t.chkResult = checksum (algOf s.cfg) r.block.filtered))) ∧
  (∀ s t : State, Ready s → (exec .decompressStream s = .next t ∧ t.phase = .endOfStream ↔
    EndsAsBlocks .decompress { s with totRead := 0, totWritten := 0, blkCount := 0 } t)) ∧
  ∀ s t : State, GoesOn .decompress s →
    (step s = .next t ∧ t.phase = .endOfStream ↔ EndsAsBlocks .decompress (resumed s) t)

/-- 44_stream_driver.md R212: on a finite input of `N` bytes and with `c >= 1`, `COMPRESS_STREAM` without a failure
writes `ceil(N / c)` records, all of `uncompressed_size = c` but a last one of `N mod c` when that is not 0. The spec
marks R212 as its own inference (`[derived: ...]`). That one step runs all turns is the model's form: notes/assumptions
10. With `IPOS` past the end of a finite input there are no bytes, by the model's choice: notes/assumptions 20. -/
def Obligations.CompressStreamSegmentation : Prop :=
  ∀ (s t : State) (c n : Nat), Ready s → s.inputEndless = false →
    c = min s.blockSize.toNat s.platform.maxBlockSize → 1 ≤ c → n = (remaining s).length →
    exec .compressStream s = .next t → t.phase = .endOfStream →
    ∃ records : List Bytes, t.out = s.out ++ records.flatten ∧ records.length = (n + c - 1) / c ∧
      ∀ k r, records[k]? = some r → ∃ cs uc cc p, p.length = cs.toNat ∧
        r = record s.cfg.chkEn (BitVec.ofNat 32 (if k < n / c then c else n % c)) cs uc cc p

/-- 44_stream_driver.md R211, 43_block_codec.md R178: on a finite input a stream command ends (or a request is never
answered); on an endless one `DECOMPRESS_STREAM`, and `COMPRESS_STREAM` with a block size, never report the end of the
stream, in their first step or in a later one, and while one goes on it leaves what its block commands leave. With
`BLOCK_SIZE = 0`, `COMPRESS_STREAM` ends at its first turn, having read nothing, whatever the input holds. The spec
marks R178 and R211 as its own inference (`[derived: ...]`). That one step runs all turns on a finite input, and some
of them on an endless one, is the model's form: notes/assumptions 10. With `IPOS` past the end of a finite input there
are no bytes, by the model's choice: notes/assumptions 20. -/
def Obligations.StreamCommandsEndOnFiniteInput : Prop :=
  (∀ (s t : State) (i : Instr), (i = .compressStream ∨ i = .decompressStream) → Ready s → s.inputEndless = false →
    exec i s = .next t → (t.busy = false ∧ (t.phase = .endOfStream ∨ t.phase = .failed)) ∨ t.activity = .hung) ∧
  (∀ (s t : State), Ready s → s.inputEndless = true → 1 ≤ min s.blockSize.toNat s.platform.maxBlockSize →
    exec .compressStream s = .next t → t.phase = .failed ∨ (t.busy = true ∧ t.phase ≠ .endOfStream)) ∧
  (∀ (s t : State), Ready s → s.inputEndless = true → exec .decompressStream s = .next t →
    t.phase = .failed ∨ (t.busy = true ∧ t.phase ≠ .endOfStream)) ∧
  (∀ (s t : State) (d : Direction), GoesOn d s → s.inputEndless = true →
    (d = .compress → 1 ≤ min s.blockSize.toNat s.platform.maxBlockSize) → step s = .next t →
    t.phase = .failed ∨ (t.busy = true ∧ t.phase ≠ .endOfStream)) ∧
  (∀ (s t : State) (d : Direction), t.activity = .looping d →
    (Ready s → exec (streamInstr d) s = .next t →
      LoopsAsBlocks d { s with totRead := 0, totWritten := 0, blkCount := 0 } t) ∧
    (GoesOn d s → step s = .next t → LoopsAsBlocks d (resumed s) t)) ∧
  ∀ s : State, Ready s → ioAnswer s = .ok → s.blockSize = 0 →
    exec .compressStream s = .next { ioTaken s with
      totRead := 0, totWritten := 0, blkCount := 0, blkRead := 0, blkWritten := 0, phase := .endOfStream,
      activity := .none }

/-- 44_stream_driver.md R213: the stream round trip. The two laws are asked only of the pieces of the input. The spec
marks R213 as its own inference (`[derived: ...]`). That one step runs all turns is the model's form: notes/assumptions
10. -/
def Obligations.StreamRoundTrip : Prop :=
  ∀ (s t u : State) (w : Bytes), Ready s → s.inputEndless = false → s.ipos ≤ s.input.length →
    1 ≤ min s.blockSize.toNat s.platform.maxBlockSize →
    exec .compressStream s = .next t → t.phase = .endOfStream → t.out = s.out ++ w →
    Ready u → u.platform = s.platform → u.cfg.crc32 = s.cfg.crc32 → u.cfg.chkEn = s.cfg.chkEn →
    u.cfg.filtSel = s.cfg.filtSel → u.cfg.lzoAlg = s.cfg.lzoAlg → u.inputEndless = false → u.ipos ≤ u.input.length →
    remaining u = w → answersOk (3 * (remaining s).length + 1) u →
    (∀ b f, b <:+: remaining s → b.length ≤ s.platform.maxBlockSize →
      encodeFilter s.cfg s.platform b = .bytes f → LzoRoundTripAt s.platform s.cfg.lzoAlg s.cfg.optimize f) →
    (s.cfg.filtSel = true → ∀ b, b <:+: remaining s → b.length ≤ s.platform.maxBlockSize →
      FilterInverseAt s.platform b) →
    ∃ v, exec .decompressStream u = .next v ∧ v.busy = false ∧ v.phase = .endOfStream ∧ v.errCode = u.errCode ∧
      v.out = u.out ++ remaining s ∧ v.totRead = t.totWritten ∧ v.totWritten = t.totRead ∧ v.blkCount = t.blkCount

/-! ### Rules of the whole machine -/

/-- The invariant holds right after reset. The environment fields of `State.reset` are the model's choice:
notes/assumptions 5 and 6. -/
def Obligations.ResetMeetsInvariant : Prop := Invariant State.reset

/-- 42_framing.md R146, 45_system.md R220, 10_state.md R30, 60_exceptions.md R250, R259: every step keeps the
invariant: the buffers fit, `BUSY = 0` only in the three resting states, `ERR` holds an error exactly in `FAILED`.
The two forms of a running command are the model's: notes/assumptions 9, 10 and 12. -/
def Obligations.EveryStepKeepsInvariant : Prop := ∀ s t : State, Invariant s → step s = .next t → Invariant t

/-- Under the invariant every command completes or is dropped: no command is refused and none faults (45_system.md
R220 to R223). States inside a command with `BUSY = 0` are the model's only: notes/assumptions 12. -/
def Obligations.EveryCommandIsTaken : Prop :=
  ∀ (s : State) (i : Instr), Invariant s → s.busy = false → ∃ t, exec i s = .next t ∧ Invariant t

/-- 10_state.md R45 to R47: no step moves `IPOS` back, removes or rewrites a byte of `OUT` or a record of `DIAG`,
changes `IN`, or changes the parameters. -/
def Obligations.StreamsOnlyGrow : Prop := ∀ s t : State, step s = .next t → StreamsGrow s t

/-- 60_exceptions.md R250: a command that ends in `FAILED` has recorded an error with the position `TOT_READ`, has
zeroed the result pair and has lowered `BUSY`; the totals and `BLK_COUNT` are not advanced for it. 44_stream_driver.md
R205, R209: a stream command that ends in `FAILED`, in its first step or in one that goes on with it, leaves what its
completed blocks and then the failing one leave as block commands after the totals are zeroed: `TOT_READ`,
`TOT_WRITTEN` and `BLK_COUNT` are those of the completed blocks alone, `ERR_POS` is where the failing block starts, and
the output keeps their bytes. How many turns one step runs is the model's form: notes/assumptions 10. -/
def Obligations.FailuresAreRecorded : Prop :=
  (∀ (s t : State) (i : Instr), Ready s → exec i s = .next t → t.phase = .failed →
    t.errCode ≠ .none ∧ t.errPos = t.totRead ∧ t.blkRead = 0 ∧ t.blkWritten = 0 ∧ t.busy = false ∧
    ((i ≠ .compressStream ∧ i ≠ .decompressStream) →
      t.totRead = s.totRead ∧ t.totWritten = s.totWritten ∧ t.blkCount = s.blkCount)) ∧
  (∀ (s t : State) (d : Direction), Ready s → exec (streamInstr d) s = .next t → t.phase = .failed →
    FailsAsBlocks d { s with totRead := 0, totWritten := 0, blkCount := 0 } t) ∧
  ∀ (s t : State) (d : Direction), GoesOn d s → step s = .next t → t.phase = .failed →
    FailsAsBlocks d (resumed s) t ∧ t.errCode ≠ .none ∧ t.errPos = t.totRead ∧ t.blkRead = 0 ∧ t.blkWritten = 0 ∧
      t.busy = false

/-- 60_exceptions.md R253: a failure other than a write `IO_ERROR` leaves the output of a block command untouched. By
R242 a write `IO_ERROR` is one with `ESTATE` `C_CCHK` or `FILTERED`. The spec marks R253 as its own inference
(`[derived: ...]`). -/
def Obligations.FailedBlockWritesNothing : Prop :=
  ∀ (s t : State) (i : Instr), Ready s → (i = .compressBlock ∨ i = .decompressBlock) → exec i s = .next t →
    t.phase = .failed → ¬WriteIoError t → t.out = s.out

/-- 60_exceptions.md R259: in `FAILED` no step changes `ERR` but `CLR_ERR` (word 0x20), `SOFT_RESET` (word 0x2F) and
hardware reset. -/
def Obligations.FirstFailureIsKept : Prop :=
  ∀ s t : State, Failed s → step s = .next t →
    (∀ rest, s.host ≠ .write 0 4 0x00000020 :: rest ∧ s.host ≠ .write 0 4 0x0000002F :: rest ∧ s.host ≠ .reset :: rest) →
    t.phase = .failed ∧ t.errCode = s.errCode ∧ t.errState = s.errState ∧ t.errPos = s.errPos

/-- 30_encoding.md R95, 10_state.md R40, R42, R38: no command but `SOFT_RESET` writes `CFG`, `BLOCK_SIZE`, `CHK_EXPECT`
or `XFER_LEN`, and with `CHK_EN = 0` none writes `HDR_UCHK` or `HDR_CCHK`; nor does a step that goes on with a command.
The spec marks R95 as its own inference (`[derived: ...]`). -/
def Obligations.CommandsLeaveHostRegisters : Prop :=
  ∀ (s t : State) (i : Instr),
    (i ≠ .softReset ∧ exec i s = .next t) ∨
      (s.busy = true ∧ (∀ rest, s.host ≠ .reset :: rest) ∧ step s = .next t) →
    t.cfg = s.cfg ∧ t.blockSize = s.blockSize ∧ t.chkExpect = s.chkExpect ∧ t.xferLen = s.xferLen ∧
    (s.cfg.chkEn = false → t.hdrUchk = s.hdrUchk ∧ t.hdrCchk = s.hdrCchk)
end

