-- ==== Sys2Proof/Laws/State.lean ====
section
/-! SUPPORT. What each update of the state does to each field, one lemma a field. -/

namespace Sys2Proof.Machine

open Sys2Proof

/-! ### Equality field by field -/

/-- Two states with the same fields are one. -/
theorem state_eq_of_fields {a b : State}
    (h_busy : a.busy = b.busy) (h_phase : a.phase = b.phase) (h_matched : a.matched = b.matched)
    (h_warnC : a.warnC = b.warnC) (h_warnU : a.warnU = b.warnU) (h_cmdRej : a.cmdRej = b.cmdRej)
    (h_cfg : a.cfg = b.cfg) (h_blockSize : a.blockSize = b.blockSize) (h_errCode : a.errCode = b.errCode)
    (h_errState : a.errState = b.errState) (h_errPos : a.errPos = b.errPos)
    (h_blkCount : a.blkCount = b.blkCount) (h_blkRead : a.blkRead = b.blkRead)
    (h_blkWritten : a.blkWritten = b.blkWritten) (h_totRead : a.totRead = b.totRead)
    (h_totWritten : a.totWritten = b.totWritten) (h_hdrUsize : a.hdrUsize = b.hdrUsize)
    (h_hdrCsize : a.hdrCsize = b.hdrCsize) (h_hdrUchk : a.hdrUchk = b.hdrUchk)
    (h_hdrCchk : a.hdrCchk = b.hdrCchk) (h_chkResult : a.chkResult = b.chkResult)
    (h_chkExpect : a.chkExpect = b.chkExpect) (h_xferLen : a.xferLen = b.xferLen)
    (h_diagCount : a.diagCount = b.diagCount) (h_ubuf : a.ubuf = b.ubuf) (h_cbuf : a.cbuf = b.cbuf)
    (h_activity : a.activity = b.activity) (h_platform : a.platform = b.platform) (h_input : a.input = b.input)
    (h_inputEndless : a.inputEndless = b.inputEndless) (h_ipos : a.ipos = b.ipos) (h_out : a.out = b.out)
    (h_diag : a.diag = b.diag) (h_host : a.host = b.host) (h_hostReads : a.hostReads = b.hostReads)
    (h_ioScript : a.ioScript = b.ioScript) (h_freeCtr : a.freeCtr = b.freeCtr) : a = b := by
  cases a
  cases b
  simp only at *
  subst h_busy h_phase h_matched h_warnC h_warnU h_cmdRej h_cfg h_blockSize h_errCode h_errState h_errPos
    h_blkCount h_blkRead h_blkWritten h_totRead h_totWritten h_hdrUsize h_hdrCsize h_hdrUchk h_hdrCchk
    h_chkResult h_chkExpect h_xferLen h_diagCount h_ubuf h_cbuf h_activity h_platform h_input h_inputEndless
    h_ipos h_out h_diag h_host h_hostReads h_ioScript h_freeCtr
  rfl

/-! ### Failure entry (60_exceptions.md R250) -/

@[simp] theorem failureEntry_busy (c : ErrCode) (s : State) : (failureEntry c s).busy = false := rfl
@[simp] theorem failureEntry_phase (c : ErrCode) (s : State) : (failureEntry c s).phase = .failed := rfl
@[simp] theorem failureEntry_matched (c : ErrCode) (s : State) : (failureEntry c s).matched = s.matched := rfl
@[simp] theorem failureEntry_warnC (c : ErrCode) (s : State) : (failureEntry c s).warnC = s.warnC := rfl
@[simp] theorem failureEntry_warnU (c : ErrCode) (s : State) : (failureEntry c s).warnU = s.warnU := rfl
@[simp] theorem failureEntry_cmdRej (c : ErrCode) (s : State) : (failureEntry c s).cmdRej = s.cmdRej := rfl
@[simp] theorem failureEntry_cfg (c : ErrCode) (s : State) : (failureEntry c s).cfg = s.cfg := rfl
@[simp] theorem failureEntry_blockSize (c : ErrCode) (s : State) : (failureEntry c s).blockSize = s.blockSize := rfl
@[simp] theorem failureEntry_errCode (c : ErrCode) (s : State) : (failureEntry c s).errCode = c := rfl
@[simp] theorem failureEntry_errState (c : ErrCode) (s : State) : (failureEntry c s).errState = s.phase := rfl
@[simp] theorem failureEntry_errPos (c : ErrCode) (s : State) : (failureEntry c s).errPos = s.totRead := rfl
@[simp] theorem failureEntry_blkCount (c : ErrCode) (s : State) : (failureEntry c s).blkCount = s.blkCount := rfl
@[simp] theorem failureEntry_blkRead (c : ErrCode) (s : State) : (failureEntry c s).blkRead = 0 := rfl
@[simp] theorem failureEntry_blkWritten (c : ErrCode) (s : State) : (failureEntry c s).blkWritten = 0 := rfl
@[simp] theorem failureEntry_totRead (c : ErrCode) (s : State) : (failureEntry c s).totRead = s.totRead := rfl
@[simp] theorem failureEntry_totWritten (c : ErrCode) (s : State) : (failureEntry c s).totWritten = s.totWritten := rfl
@[simp] theorem failureEntry_hdrUsize (c : ErrCode) (s : State) : (failureEntry c s).hdrUsize = s.hdrUsize := rfl
@[simp] theorem failureEntry_hdrCsize (c : ErrCode) (s : State) : (failureEntry c s).hdrCsize = s.hdrCsize := rfl
@[simp] theorem failureEntry_hdrUchk (c : ErrCode) (s : State) : (failureEntry c s).hdrUchk = s.hdrUchk := rfl
@[simp] theorem failureEntry_hdrCchk (c : ErrCode) (s : State) : (failureEntry c s).hdrCchk = s.hdrCchk := rfl
@[simp] theorem failureEntry_chkResult (c : ErrCode) (s : State) : (failureEntry c s).chkResult = s.chkResult := rfl
@[simp] theorem failureEntry_chkExpect (c : ErrCode) (s : State) : (failureEntry c s).chkExpect = s.chkExpect := rfl
@[simp] theorem failureEntry_xferLen (c : ErrCode) (s : State) : (failureEntry c s).xferLen = s.xferLen := rfl
@[simp] theorem failureEntry_diagCount (c : ErrCode) (s : State) : (failureEntry c s).diagCount = s.diagCount := rfl
@[simp] theorem failureEntry_ubuf (c : ErrCode) (s : State) : (failureEntry c s).ubuf = s.ubuf := rfl
@[simp] theorem failureEntry_cbuf (c : ErrCode) (s : State) : (failureEntry c s).cbuf = s.cbuf := rfl
@[simp] theorem failureEntry_activity (c : ErrCode) (s : State) : (failureEntry c s).activity = .none := rfl
@[simp] theorem failureEntry_platform (c : ErrCode) (s : State) : (failureEntry c s).platform = s.platform := rfl
@[simp] theorem failureEntry_input (c : ErrCode) (s : State) : (failureEntry c s).input = s.input := rfl
@[simp] theorem failureEntry_inputEndless (c : ErrCode) (s : State) : (failureEntry c s).inputEndless = s.inputEndless := rfl
@[simp] theorem failureEntry_ipos (c : ErrCode) (s : State) : (failureEntry c s).ipos = s.ipos := rfl
@[simp] theorem failureEntry_out (c : ErrCode) (s : State) : (failureEntry c s).out = s.out := rfl
@[simp] theorem failureEntry_diag (c : ErrCode) (s : State) : (failureEntry c s).diag = s.diag := rfl
@[simp] theorem failureEntry_host (c : ErrCode) (s : State) : (failureEntry c s).host = s.host := rfl
@[simp] theorem failureEntry_hostReads (c : ErrCode) (s : State) : (failureEntry c s).hostReads = s.hostReads := rfl
@[simp] theorem failureEntry_ioScript (c : ErrCode) (s : State) : (failureEntry c s).ioScript = s.ioScript := rfl
@[simp] theorem failureEntry_freeCtr (c : ErrCode) (s : State) : (failureEntry c s).freeCtr = s.freeCtr := rfl

/-! ### `Complete` (42_framing.md R159) -/

@[simp] theorem complete_busy (r w k : Nat) (s : State) : (complete r w k s).busy = false := rfl
@[simp] theorem complete_phase (r w k : Nat) (s : State) : (complete r w k s).phase = s.phase := rfl
@[simp] theorem complete_matched (r w k : Nat) (s : State) : (complete r w k s).matched = s.matched := rfl
@[simp] theorem complete_warnC (r w k : Nat) (s : State) : (complete r w k s).warnC = s.warnC := rfl
@[simp] theorem complete_warnU (r w k : Nat) (s : State) : (complete r w k s).warnU = s.warnU := rfl
@[simp] theorem complete_cmdRej (r w k : Nat) (s : State) : (complete r w k s).cmdRej = s.cmdRej := rfl
@[simp] theorem complete_cfg (r w k : Nat) (s : State) : (complete r w k s).cfg = s.cfg := rfl
@[simp] theorem complete_blockSize (r w k : Nat) (s : State) : (complete r w k s).blockSize = s.blockSize := rfl
@[simp] theorem complete_errCode (r w k : Nat) (s : State) : (complete r w k s).errCode = s.errCode := rfl
@[simp] theorem complete_errState (r w k : Nat) (s : State) : (complete r w k s).errState = s.errState := rfl
@[simp] theorem complete_errPos (r w k : Nat) (s : State) : (complete r w k s).errPos = s.errPos := rfl
@[simp] theorem complete_blkCount (r w k : Nat) (s : State) : (complete r w k s).blkCount = s.blkCount + BitVec.ofNat 32 k := rfl
@[simp] theorem complete_blkRead (r w k : Nat) (s : State) : (complete r w k s).blkRead = BitVec.ofNat 32 r := rfl
@[simp] theorem complete_blkWritten (r w k : Nat) (s : State) : (complete r w k s).blkWritten = BitVec.ofNat 32 w := rfl
@[simp] theorem complete_totRead (r w k : Nat) (s : State) : (complete r w k s).totRead = s.totRead + BitVec.ofNat 64 r := rfl
@[simp] theorem complete_totWritten (r w k : Nat) (s : State) : (complete r w k s).totWritten = s.totWritten + BitVec.ofNat 64 w := rfl
@[simp] theorem complete_hdrUsize (r w k : Nat) (s : State) : (complete r w k s).hdrUsize = s.hdrUsize := rfl
@[simp] theorem complete_hdrCsize (r w k : Nat) (s : State) : (complete r w k s).hdrCsize = s.hdrCsize := rfl
@[simp] theorem complete_hdrUchk (r w k : Nat) (s : State) : (complete r w k s).hdrUchk = s.hdrUchk := rfl
@[simp] theorem complete_hdrCchk (r w k : Nat) (s : State) : (complete r w k s).hdrCchk = s.hdrCchk := rfl
@[simp] theorem complete_chkResult (r w k : Nat) (s : State) : (complete r w k s).chkResult = s.chkResult := rfl
@[simp] theorem complete_chkExpect (r w k : Nat) (s : State) : (complete r w k s).chkExpect = s.chkExpect := rfl
@[simp] theorem complete_xferLen (r w k : Nat) (s : State) : (complete r w k s).xferLen = s.xferLen := rfl
@[simp] theorem complete_diagCount (r w k : Nat) (s : State) : (complete r w k s).diagCount = s.diagCount := rfl
@[simp] theorem complete_ubuf (r w k : Nat) (s : State) : (complete r w k s).ubuf = s.ubuf := rfl
@[simp] theorem complete_cbuf (r w k : Nat) (s : State) : (complete r w k s).cbuf = s.cbuf := rfl
@[simp] theorem complete_activity (r w k : Nat) (s : State) : (complete r w k s).activity = s.activity := rfl
@[simp] theorem complete_platform (r w k : Nat) (s : State) : (complete r w k s).platform = s.platform := rfl
@[simp] theorem complete_input (r w k : Nat) (s : State) : (complete r w k s).input = s.input := rfl
@[simp] theorem complete_inputEndless (r w k : Nat) (s : State) : (complete r w k s).inputEndless = s.inputEndless := rfl
@[simp] theorem complete_ipos (r w k : Nat) (s : State) : (complete r w k s).ipos = s.ipos := rfl
@[simp] theorem complete_out (r w k : Nat) (s : State) : (complete r w k s).out = s.out := rfl
@[simp] theorem complete_diag (r w k : Nat) (s : State) : (complete r w k s).diag = s.diag := rfl
@[simp] theorem complete_host (r w k : Nat) (s : State) : (complete r w k s).host = s.host := rfl
@[simp] theorem complete_hostReads (r w k : Nat) (s : State) : (complete r w k s).hostReads = s.hostReads := rfl
@[simp] theorem complete_ioScript (r w k : Nat) (s : State) : (complete r w k s).ioScript = s.ioScript := rfl
@[simp] theorem complete_freeCtr (r w k : Nat) (s : State) : (complete r w k s).freeCtr = s.freeCtr := rfl

/-! ### `STATE <- p` -/

@[simp] theorem setPhase_busy (p : Phase) (s : State) : (setPhase p s).busy = s.busy := rfl
@[simp] theorem setPhase_phase (p : Phase) (s : State) : (setPhase p s).phase = p := rfl
@[simp] theorem setPhase_matched (p : Phase) (s : State) : (setPhase p s).matched = s.matched := rfl
@[simp] theorem setPhase_warnC (p : Phase) (s : State) : (setPhase p s).warnC = s.warnC := rfl
@[simp] theorem setPhase_warnU (p : Phase) (s : State) : (setPhase p s).warnU = s.warnU := rfl
@[simp] theorem setPhase_cmdRej (p : Phase) (s : State) : (setPhase p s).cmdRej = s.cmdRej := rfl
@[simp] theorem setPhase_cfg (p : Phase) (s : State) : (setPhase p s).cfg = s.cfg := rfl
@[simp] theorem setPhase_blockSize (p : Phase) (s : State) : (setPhase p s).blockSize = s.blockSize := rfl
@[simp] theorem setPhase_errCode (p : Phase) (s : State) : (setPhase p s).errCode = s.errCode := rfl
@[simp] theorem setPhase_errState (p : Phase) (s : State) : (setPhase p s).errState = s.errState := rfl
@[simp] theorem setPhase_errPos (p : Phase) (s : State) : (setPhase p s).errPos = s.errPos := rfl
@[simp] theorem setPhase_blkCount (p : Phase) (s : State) : (setPhase p s).blkCount = s.blkCount := rfl
@[simp] theorem setPhase_blkRead (p : Phase) (s : State) : (setPhase p s).blkRead = s.blkRead := rfl
@[simp] theorem setPhase_blkWritten (p : Phase) (s : State) : (setPhase p s).blkWritten = s.blkWritten := rfl
@[simp] theorem setPhase_totRead (p : Phase) (s : State) : (setPhase p s).totRead = s.totRead := rfl
@[simp] theorem setPhase_totWritten (p : Phase) (s : State) : (setPhase p s).totWritten = s.totWritten := rfl
@[simp] theorem setPhase_hdrUsize (p : Phase) (s : State) : (setPhase p s).hdrUsize = s.hdrUsize := rfl
@[simp] theorem setPhase_hdrCsize (p : Phase) (s : State) : (setPhase p s).hdrCsize = s.hdrCsize := rfl
@[simp] theorem setPhase_hdrUchk (p : Phase) (s : State) : (setPhase p s).hdrUchk = s.hdrUchk := rfl
@[simp] theorem setPhase_hdrCchk (p : Phase) (s : State) : (setPhase p s).hdrCchk = s.hdrCchk := rfl
@[simp] theorem setPhase_chkResult (p : Phase) (s : State) : (setPhase p s).chkResult = s.chkResult := rfl
@[simp] theorem setPhase_chkExpect (p : Phase) (s : State) : (setPhase p s).chkExpect = s.chkExpect := rfl
@[simp] theorem setPhase_xferLen (p : Phase) (s : State) : (setPhase p s).xferLen = s.xferLen := rfl
@[simp] theorem setPhase_diagCount (p : Phase) (s : State) : (setPhase p s).diagCount = s.diagCount := rfl
@[simp] theorem setPhase_ubuf (p : Phase) (s : State) : (setPhase p s).ubuf = s.ubuf := rfl
@[simp] theorem setPhase_cbuf (p : Phase) (s : State) : (setPhase p s).cbuf = s.cbuf := rfl
@[simp] theorem setPhase_activity (p : Phase) (s : State) : (setPhase p s).activity = s.activity := rfl
@[simp] theorem setPhase_platform (p : Phase) (s : State) : (setPhase p s).platform = s.platform := rfl
@[simp] theorem setPhase_input (p : Phase) (s : State) : (setPhase p s).input = s.input := rfl
@[simp] theorem setPhase_inputEndless (p : Phase) (s : State) : (setPhase p s).inputEndless = s.inputEndless := rfl
@[simp] theorem setPhase_ipos (p : Phase) (s : State) : (setPhase p s).ipos = s.ipos := rfl
@[simp] theorem setPhase_out (p : Phase) (s : State) : (setPhase p s).out = s.out := rfl
@[simp] theorem setPhase_diag (p : Phase) (s : State) : (setPhase p s).diag = s.diag := rfl
@[simp] theorem setPhase_host (p : Phase) (s : State) : (setPhase p s).host = s.host := rfl
@[simp] theorem setPhase_hostReads (p : Phase) (s : State) : (setPhase p s).hostReads = s.hostReads := rfl
@[simp] theorem setPhase_ioScript (p : Phase) (s : State) : (setPhase p s).ioScript = s.ioScript := rfl
@[simp] theorem setPhase_freeCtr (p : Phase) (s : State) : (setPhase p s).freeCtr = s.freeCtr := rfl

/-! ### Acceptance (45_system.md R223) -/

@[simp] theorem acceptCommand_busy (s : State) : (acceptCommand s).busy = true := rfl
@[simp] theorem acceptCommand_phase (s : State) : (acceptCommand s).phase = .idle := rfl
@[simp] theorem acceptCommand_matched (s : State) : (acceptCommand s).matched = s.matched := rfl
@[simp] theorem acceptCommand_warnC (s : State) : (acceptCommand s).warnC = s.warnC := rfl
@[simp] theorem acceptCommand_warnU (s : State) : (acceptCommand s).warnU = s.warnU := rfl
@[simp] theorem acceptCommand_cmdRej (s : State) : (acceptCommand s).cmdRej = s.cmdRej := rfl
@[simp] theorem acceptCommand_cfg (s : State) : (acceptCommand s).cfg = s.cfg := rfl
@[simp] theorem acceptCommand_blockSize (s : State) : (acceptCommand s).blockSize = s.blockSize := rfl
@[simp] theorem acceptCommand_errCode (s : State) : (acceptCommand s).errCode = s.errCode := rfl
@[simp] theorem acceptCommand_errState (s : State) : (acceptCommand s).errState = s.errState := rfl
@[simp] theorem acceptCommand_errPos (s : State) : (acceptCommand s).errPos = s.errPos := rfl
@[simp] theorem acceptCommand_blkCount (s : State) : (acceptCommand s).blkCount = s.blkCount := rfl
@[simp] theorem acceptCommand_blkRead (s : State) : (acceptCommand s).blkRead = s.blkRead := rfl
@[simp] theorem acceptCommand_blkWritten (s : State) : (acceptCommand s).blkWritten = s.blkWritten := rfl
@[simp] theorem acceptCommand_totRead (s : State) : (acceptCommand s).totRead = s.totRead := rfl
@[simp] theorem acceptCommand_totWritten (s : State) : (acceptCommand s).totWritten = s.totWritten := rfl
@[simp] theorem acceptCommand_hdrUsize (s : State) : (acceptCommand s).hdrUsize = s.hdrUsize := rfl
@[simp] theorem acceptCommand_hdrCsize (s : State) : (acceptCommand s).hdrCsize = s.hdrCsize := rfl
@[simp] theorem acceptCommand_hdrUchk (s : State) : (acceptCommand s).hdrUchk = s.hdrUchk := rfl
@[simp] theorem acceptCommand_hdrCchk (s : State) : (acceptCommand s).hdrCchk = s.hdrCchk := rfl
@[simp] theorem acceptCommand_chkResult (s : State) : (acceptCommand s).chkResult = s.chkResult := rfl
@[simp] theorem acceptCommand_chkExpect (s : State) : (acceptCommand s).chkExpect = s.chkExpect := rfl
@[simp] theorem acceptCommand_xferLen (s : State) : (acceptCommand s).xferLen = s.xferLen := rfl
@[simp] theorem acceptCommand_diagCount (s : State) : (acceptCommand s).diagCount = s.diagCount := rfl
@[simp] theorem acceptCommand_ubuf (s : State) : (acceptCommand s).ubuf = s.ubuf := rfl
@[simp] theorem acceptCommand_cbuf (s : State) : (acceptCommand s).cbuf = s.cbuf := rfl
@[simp] theorem acceptCommand_activity (s : State) : (acceptCommand s).activity = s.activity := rfl
@[simp] theorem acceptCommand_platform (s : State) : (acceptCommand s).platform = s.platform := rfl
@[simp] theorem acceptCommand_input (s : State) : (acceptCommand s).input = s.input := rfl
@[simp] theorem acceptCommand_inputEndless (s : State) : (acceptCommand s).inputEndless = s.inputEndless := rfl
@[simp] theorem acceptCommand_ipos (s : State) : (acceptCommand s).ipos = s.ipos := rfl
@[simp] theorem acceptCommand_out (s : State) : (acceptCommand s).out = s.out := rfl
@[simp] theorem acceptCommand_diag (s : State) : (acceptCommand s).diag = s.diag := rfl
@[simp] theorem acceptCommand_host (s : State) : (acceptCommand s).host = s.host := rfl
@[simp] theorem acceptCommand_hostReads (s : State) : (acceptCommand s).hostReads = s.hostReads := rfl
@[simp] theorem acceptCommand_ioScript (s : State) : (acceptCommand s).ioScript = s.ioScript := rfl
@[simp] theorem acceptCommand_freeCtr (s : State) : (acceptCommand s).freeCtr = s.freeCtr := rfl

/-! ### `STATE <- IDLE ; BUSY <- 0` -/

@[simp] theorem finishIdle_busy (s : State) : (finishIdle s).busy = false := rfl
@[simp] theorem finishIdle_phase (s : State) : (finishIdle s).phase = .idle := rfl
@[simp] theorem finishIdle_matched (s : State) : (finishIdle s).matched = s.matched := rfl
@[simp] theorem finishIdle_warnC (s : State) : (finishIdle s).warnC = s.warnC := rfl
@[simp] theorem finishIdle_warnU (s : State) : (finishIdle s).warnU = s.warnU := rfl
@[simp] theorem finishIdle_cmdRej (s : State) : (finishIdle s).cmdRej = s.cmdRej := rfl
@[simp] theorem finishIdle_cfg (s : State) : (finishIdle s).cfg = s.cfg := rfl
@[simp] theorem finishIdle_blockSize (s : State) : (finishIdle s).blockSize = s.blockSize := rfl
@[simp] theorem finishIdle_errCode (s : State) : (finishIdle s).errCode = s.errCode := rfl
@[simp] theorem finishIdle_errState (s : State) : (finishIdle s).errState = s.errState := rfl
@[simp] theorem finishIdle_errPos (s : State) : (finishIdle s).errPos = s.errPos := rfl
@[simp] theorem finishIdle_blkCount (s : State) : (finishIdle s).blkCount = s.blkCount := rfl
@[simp] theorem finishIdle_blkRead (s : State) : (finishIdle s).blkRead = s.blkRead := rfl
@[simp] theorem finishIdle_blkWritten (s : State) : (finishIdle s).blkWritten = s.blkWritten := rfl
@[simp] theorem finishIdle_totRead (s : State) : (finishIdle s).totRead = s.totRead := rfl
@[simp] theorem finishIdle_totWritten (s : State) : (finishIdle s).totWritten = s.totWritten := rfl
@[simp] theorem finishIdle_hdrUsize (s : State) : (finishIdle s).hdrUsize = s.hdrUsize := rfl
@[simp] theorem finishIdle_hdrCsize (s : State) : (finishIdle s).hdrCsize = s.hdrCsize := rfl
@[simp] theorem finishIdle_hdrUchk (s : State) : (finishIdle s).hdrUchk = s.hdrUchk := rfl
@[simp] theorem finishIdle_hdrCchk (s : State) : (finishIdle s).hdrCchk = s.hdrCchk := rfl
@[simp] theorem finishIdle_chkResult (s : State) : (finishIdle s).chkResult = s.chkResult := rfl
@[simp] theorem finishIdle_chkExpect (s : State) : (finishIdle s).chkExpect = s.chkExpect := rfl
@[simp] theorem finishIdle_xferLen (s : State) : (finishIdle s).xferLen = s.xferLen := rfl
@[simp] theorem finishIdle_diagCount (s : State) : (finishIdle s).diagCount = s.diagCount := rfl
@[simp] theorem finishIdle_ubuf (s : State) : (finishIdle s).ubuf = s.ubuf := rfl
@[simp] theorem finishIdle_cbuf (s : State) : (finishIdle s).cbuf = s.cbuf := rfl
@[simp] theorem finishIdle_activity (s : State) : (finishIdle s).activity = s.activity := rfl
@[simp] theorem finishIdle_platform (s : State) : (finishIdle s).platform = s.platform := rfl
@[simp] theorem finishIdle_input (s : State) : (finishIdle s).input = s.input := rfl
@[simp] theorem finishIdle_inputEndless (s : State) : (finishIdle s).inputEndless = s.inputEndless := rfl
@[simp] theorem finishIdle_ipos (s : State) : (finishIdle s).ipos = s.ipos := rfl
@[simp] theorem finishIdle_out (s : State) : (finishIdle s).out = s.out := rfl
@[simp] theorem finishIdle_diag (s : State) : (finishIdle s).diag = s.diag := rfl
@[simp] theorem finishIdle_host (s : State) : (finishIdle s).host = s.host := rfl
@[simp] theorem finishIdle_hostReads (s : State) : (finishIdle s).hostReads = s.hostReads := rfl
@[simp] theorem finishIdle_ioScript (s : State) : (finishIdle s).ioScript = s.ioScript := rfl
@[simp] theorem finishIdle_freeCtr (s : State) : (finishIdle s).freeCtr = s.freeCtr := rfl

/-! ### A dropped command (45_system.md R222) -/

@[simp] theorem dropCommand_busy (s : State) : (dropCommand s).busy = s.busy := rfl
@[simp] theorem dropCommand_phase (s : State) : (dropCommand s).phase = s.phase := rfl
@[simp] theorem dropCommand_matched (s : State) : (dropCommand s).matched = s.matched := rfl
@[simp] theorem dropCommand_warnC (s : State) : (dropCommand s).warnC = s.warnC := rfl
@[simp] theorem dropCommand_warnU (s : State) : (dropCommand s).warnU = s.warnU := rfl
@[simp] theorem dropCommand_cmdRej (s : State) : (dropCommand s).cmdRej = true := rfl
@[simp] theorem dropCommand_cfg (s : State) : (dropCommand s).cfg = s.cfg := rfl
@[simp] theorem dropCommand_blockSize (s : State) : (dropCommand s).blockSize = s.blockSize := rfl
@[simp] theorem dropCommand_errCode (s : State) : (dropCommand s).errCode = s.errCode := rfl
@[simp] theorem dropCommand_errState (s : State) : (dropCommand s).errState = s.errState := rfl
@[simp] theorem dropCommand_errPos (s : State) : (dropCommand s).errPos = s.errPos := rfl
@[simp] theorem dropCommand_blkCount (s : State) : (dropCommand s).blkCount = s.blkCount := rfl
@[simp] theorem dropCommand_blkRead (s : State) : (dropCommand s).blkRead = s.blkRead := rfl
@[simp] theorem dropCommand_blkWritten (s : State) : (dropCommand s).blkWritten = s.blkWritten := rfl
@[simp] theorem dropCommand_totRead (s : State) : (dropCommand s).totRead = s.totRead := rfl
@[simp] theorem dropCommand_totWritten (s : State) : (dropCommand s).totWritten = s.totWritten := rfl
@[simp] theorem dropCommand_hdrUsize (s : State) : (dropCommand s).hdrUsize = s.hdrUsize := rfl
@[simp] theorem dropCommand_hdrCsize (s : State) : (dropCommand s).hdrCsize = s.hdrCsize := rfl
@[simp] theorem dropCommand_hdrUchk (s : State) : (dropCommand s).hdrUchk = s.hdrUchk := rfl
@[simp] theorem dropCommand_hdrCchk (s : State) : (dropCommand s).hdrCchk = s.hdrCchk := rfl
@[simp] theorem dropCommand_chkResult (s : State) : (dropCommand s).chkResult = s.chkResult := rfl
@[simp] theorem dropCommand_chkExpect (s : State) : (dropCommand s).chkExpect = s.chkExpect := rfl
@[simp] theorem dropCommand_xferLen (s : State) : (dropCommand s).xferLen = s.xferLen := rfl
@[simp] theorem dropCommand_diagCount (s : State) : (dropCommand s).diagCount = s.diagCount := rfl
@[simp] theorem dropCommand_ubuf (s : State) : (dropCommand s).ubuf = s.ubuf := rfl
@[simp] theorem dropCommand_cbuf (s : State) : (dropCommand s).cbuf = s.cbuf := rfl
@[simp] theorem dropCommand_activity (s : State) : (dropCommand s).activity = s.activity := rfl
@[simp] theorem dropCommand_platform (s : State) : (dropCommand s).platform = s.platform := rfl
@[simp] theorem dropCommand_input (s : State) : (dropCommand s).input = s.input := rfl
@[simp] theorem dropCommand_inputEndless (s : State) : (dropCommand s).inputEndless = s.inputEndless := rfl
@[simp] theorem dropCommand_ipos (s : State) : (dropCommand s).ipos = s.ipos := rfl
@[simp] theorem dropCommand_out (s : State) : (dropCommand s).out = s.out := rfl
@[simp] theorem dropCommand_diag (s : State) : (dropCommand s).diag = s.diag := rfl
@[simp] theorem dropCommand_host (s : State) : (dropCommand s).host = s.host := rfl
@[simp] theorem dropCommand_hostReads (s : State) : (dropCommand s).hostReads = s.hostReads := rfl
@[simp] theorem dropCommand_ioScript (s : State) : (dropCommand s).ioScript = s.ioScript := rfl
@[simp] theorem dropCommand_freeCtr (s : State) : (dropCommand s).freeCtr = s.freeCtr := rfl

/-! ### `CLR_ERR` (45_system.md R226) -/

@[simp] theorem clearError_busy (s : State) : (clearError s).busy = false := rfl
@[simp] theorem clearError_phase (s : State) : (clearError s).phase = .idle := rfl
@[simp] theorem clearError_matched (s : State) : (clearError s).matched = s.matched := rfl
@[simp] theorem clearError_warnC (s : State) : (clearError s).warnC = false := rfl
@[simp] theorem clearError_warnU (s : State) : (clearError s).warnU = false := rfl
@[simp] theorem clearError_cmdRej (s : State) : (clearError s).cmdRej = false := rfl
@[simp] theorem clearError_cfg (s : State) : (clearError s).cfg = s.cfg := rfl
@[simp] theorem clearError_blockSize (s : State) : (clearError s).blockSize = s.blockSize := rfl
@[simp] theorem clearError_errCode (s : State) : (clearError s).errCode = .none := rfl
@[simp] theorem clearError_errState (s : State) : (clearError s).errState = .idle := rfl
@[simp] theorem clearError_errPos (s : State) : (clearError s).errPos = 0 := rfl
@[simp] theorem clearError_blkCount (s : State) : (clearError s).blkCount = s.blkCount := rfl
@[simp] theorem clearError_blkRead (s : State) : (clearError s).blkRead = s.blkRead := rfl
@[simp] theorem clearError_blkWritten (s : State) : (clearError s).blkWritten = s.blkWritten := rfl
@[simp] theorem clearError_totRead (s : State) : (clearError s).totRead = s.totRead := rfl
@[simp] theorem clearError_totWritten (s : State) : (clearError s).totWritten = s.totWritten := rfl
@[simp] theorem clearError_hdrUsize (s : State) : (clearError s).hdrUsize = s.hdrUsize := rfl
@[simp] theorem clearError_hdrCsize (s : State) : (clearError s).hdrCsize = s.hdrCsize := rfl
@[simp] theorem clearError_hdrUchk (s : State) : (clearError s).hdrUchk = s.hdrUchk := rfl
@[simp] theorem clearError_hdrCchk (s : State) : (clearError s).hdrCchk = s.hdrCchk := rfl
@[simp] theorem clearError_chkResult (s : State) : (clearError s).chkResult = s.chkResult := rfl
@[simp] theorem clearError_chkExpect (s : State) : (clearError s).chkExpect = s.chkExpect := rfl
@[simp] theorem clearError_xferLen (s : State) : (clearError s).xferLen = s.xferLen := rfl
@[simp] theorem clearError_diagCount (s : State) : (clearError s).diagCount = s.diagCount := rfl
@[simp] theorem clearError_ubuf (s : State) : (clearError s).ubuf = s.ubuf := rfl
@[simp] theorem clearError_cbuf (s : State) : (clearError s).cbuf = s.cbuf := rfl
@[simp] theorem clearError_activity (s : State) : (clearError s).activity = s.activity := rfl
@[simp] theorem clearError_platform (s : State) : (clearError s).platform = s.platform := rfl
@[simp] theorem clearError_input (s : State) : (clearError s).input = s.input := rfl
@[simp] theorem clearError_inputEndless (s : State) : (clearError s).inputEndless = s.inputEndless := rfl
@[simp] theorem clearError_ipos (s : State) : (clearError s).ipos = s.ipos := rfl
@[simp] theorem clearError_out (s : State) : (clearError s).out = s.out := rfl
@[simp] theorem clearError_diag (s : State) : (clearError s).diag = s.diag := rfl
@[simp] theorem clearError_host (s : State) : (clearError s).host = s.host := rfl
@[simp] theorem clearError_hostReads (s : State) : (clearError s).hostReads = s.hostReads := rfl
@[simp] theorem clearError_ioScript (s : State) : (clearError s).ioScript = s.ioScript := rfl
@[simp] theorem clearError_freeCtr (s : State) : (clearError s).freeCtr = s.freeCtr := rfl

/-! ### Reset of the registers (70_reset_and_hazards.md R270, R273) -/

@[simp] theorem resetRegisters_busy (s : State) : (resetRegisters s).busy = false := rfl
@[simp] theorem resetRegisters_phase (s : State) : (resetRegisters s).phase = .idle := rfl
@[simp] theorem resetRegisters_matched (s : State) : (resetRegisters s).matched = false := rfl
@[simp] theorem resetRegisters_warnC (s : State) : (resetRegisters s).warnC = false := rfl
@[simp] theorem resetRegisters_warnU (s : State) : (resetRegisters s).warnU = false := rfl
@[simp] theorem resetRegisters_cmdRej (s : State) : (resetRegisters s).cmdRej = false := rfl
@[simp] theorem resetRegisters_cfg (s : State) : (resetRegisters s).cfg = Cfg.reset := rfl
@[simp] theorem resetRegisters_blockSize (s : State) : (resetRegisters s).blockSize = s.platform.defaultBlockSize := rfl
@[simp] theorem resetRegisters_errCode (s : State) : (resetRegisters s).errCode = .none := rfl
@[simp] theorem resetRegisters_errState (s : State) : (resetRegisters s).errState = .idle := rfl
@[simp] theorem resetRegisters_errPos (s : State) : (resetRegisters s).errPos = 0 := rfl
@[simp] theorem resetRegisters_blkCount (s : State) : (resetRegisters s).blkCount = 0 := rfl
@[simp] theorem resetRegisters_blkRead (s : State) : (resetRegisters s).blkRead = 0 := rfl
@[simp] theorem resetRegisters_blkWritten (s : State) : (resetRegisters s).blkWritten = 0 := rfl
@[simp] theorem resetRegisters_totRead (s : State) : (resetRegisters s).totRead = 0 := rfl
@[simp] theorem resetRegisters_totWritten (s : State) : (resetRegisters s).totWritten = 0 := rfl
@[simp] theorem resetRegisters_hdrUsize (s : State) : (resetRegisters s).hdrUsize = 0 := rfl
@[simp] theorem resetRegisters_hdrCsize (s : State) : (resetRegisters s).hdrCsize = 0 := rfl
@[simp] theorem resetRegisters_hdrUchk (s : State) : (resetRegisters s).hdrUchk = 0 := rfl
@[simp] theorem resetRegisters_hdrCchk (s : State) : (resetRegisters s).hdrCchk = 0 := rfl
@[simp] theorem resetRegisters_chkResult (s : State) : (resetRegisters s).chkResult = 0 := rfl
@[simp] theorem resetRegisters_chkExpect (s : State) : (resetRegisters s).chkExpect = 0 := rfl
@[simp] theorem resetRegisters_xferLen (s : State) : (resetRegisters s).xferLen = 0 := rfl
@[simp] theorem resetRegisters_diagCount (s : State) : (resetRegisters s).diagCount = 0 := rfl
@[simp] theorem resetRegisters_ubuf (s : State) : (resetRegisters s).ubuf = [] := rfl
@[simp] theorem resetRegisters_cbuf (s : State) : (resetRegisters s).cbuf = [] := rfl
@[simp] theorem resetRegisters_activity (s : State) : (resetRegisters s).activity = .none := rfl
@[simp] theorem resetRegisters_platform (s : State) : (resetRegisters s).platform = s.platform := rfl
@[simp] theorem resetRegisters_input (s : State) : (resetRegisters s).input = s.input := rfl
@[simp] theorem resetRegisters_inputEndless (s : State) : (resetRegisters s).inputEndless = s.inputEndless := rfl
@[simp] theorem resetRegisters_ipos (s : State) : (resetRegisters s).ipos = s.ipos := rfl
@[simp] theorem resetRegisters_out (s : State) : (resetRegisters s).out = s.out := rfl
@[simp] theorem resetRegisters_diag (s : State) : (resetRegisters s).diag = s.diag := rfl
@[simp] theorem resetRegisters_host (s : State) : (resetRegisters s).host = s.host := rfl
@[simp] theorem resetRegisters_hostReads (s : State) : (resetRegisters s).hostReads = s.hostReads := rfl
@[simp] theorem resetRegisters_ioScript (s : State) : (resetRegisters s).ioScript = s.ioScript := rfl
@[simp] theorem resetRegisters_freeCtr (s : State) : (resetRegisters s).freeCtr = s.freeCtr := rfl

/-! ### `CHK_RESULT <- c` -/

@[simp] theorem setChkResult_busy (c : Word) (s : State) : (setChkResult c s).busy = s.busy := rfl
@[simp] theorem setChkResult_phase (c : Word) (s : State) : (setChkResult c s).phase = s.phase := rfl
@[simp] theorem setChkResult_matched (c : Word) (s : State) : (setChkResult c s).matched = s.matched := rfl
@[simp] theorem setChkResult_warnC (c : Word) (s : State) : (setChkResult c s).warnC = s.warnC := rfl
@[simp] theorem setChkResult_warnU (c : Word) (s : State) : (setChkResult c s).warnU = s.warnU := rfl
@[simp] theorem setChkResult_cmdRej (c : Word) (s : State) : (setChkResult c s).cmdRej = s.cmdRej := rfl
@[simp] theorem setChkResult_cfg (c : Word) (s : State) : (setChkResult c s).cfg = s.cfg := rfl
@[simp] theorem setChkResult_blockSize (c : Word) (s : State) : (setChkResult c s).blockSize = s.blockSize := rfl
@[simp] theorem setChkResult_errCode (c : Word) (s : State) : (setChkResult c s).errCode = s.errCode := rfl
@[simp] theorem setChkResult_errState (c : Word) (s : State) : (setChkResult c s).errState = s.errState := rfl
@[simp] theorem setChkResult_errPos (c : Word) (s : State) : (setChkResult c s).errPos = s.errPos := rfl
@[simp] theorem setChkResult_blkCount (c : Word) (s : State) : (setChkResult c s).blkCount = s.blkCount := rfl
@[simp] theorem setChkResult_blkRead (c : Word) (s : State) : (setChkResult c s).blkRead = s.blkRead := rfl
@[simp] theorem setChkResult_blkWritten (c : Word) (s : State) : (setChkResult c s).blkWritten = s.blkWritten := rfl
@[simp] theorem setChkResult_totRead (c : Word) (s : State) : (setChkResult c s).totRead = s.totRead := rfl
@[simp] theorem setChkResult_totWritten (c : Word) (s : State) : (setChkResult c s).totWritten = s.totWritten := rfl
@[simp] theorem setChkResult_hdrUsize (c : Word) (s : State) : (setChkResult c s).hdrUsize = s.hdrUsize := rfl
@[simp] theorem setChkResult_hdrCsize (c : Word) (s : State) : (setChkResult c s).hdrCsize = s.hdrCsize := rfl
@[simp] theorem setChkResult_hdrUchk (c : Word) (s : State) : (setChkResult c s).hdrUchk = s.hdrUchk := rfl
@[simp] theorem setChkResult_hdrCchk (c : Word) (s : State) : (setChkResult c s).hdrCchk = s.hdrCchk := rfl
@[simp] theorem setChkResult_chkResult (c : Word) (s : State) : (setChkResult c s).chkResult = c := rfl
@[simp] theorem setChkResult_chkExpect (c : Word) (s : State) : (setChkResult c s).chkExpect = s.chkExpect := rfl
@[simp] theorem setChkResult_xferLen (c : Word) (s : State) : (setChkResult c s).xferLen = s.xferLen := rfl
@[simp] theorem setChkResult_diagCount (c : Word) (s : State) : (setChkResult c s).diagCount = s.diagCount := rfl
@[simp] theorem setChkResult_ubuf (c : Word) (s : State) : (setChkResult c s).ubuf = s.ubuf := rfl
@[simp] theorem setChkResult_cbuf (c : Word) (s : State) : (setChkResult c s).cbuf = s.cbuf := rfl
@[simp] theorem setChkResult_activity (c : Word) (s : State) : (setChkResult c s).activity = s.activity := rfl
@[simp] theorem setChkResult_platform (c : Word) (s : State) : (setChkResult c s).platform = s.platform := rfl
@[simp] theorem setChkResult_input (c : Word) (s : State) : (setChkResult c s).input = s.input := rfl
@[simp] theorem setChkResult_inputEndless (c : Word) (s : State) : (setChkResult c s).inputEndless = s.inputEndless := rfl
@[simp] theorem setChkResult_ipos (c : Word) (s : State) : (setChkResult c s).ipos = s.ipos := rfl
@[simp] theorem setChkResult_out (c : Word) (s : State) : (setChkResult c s).out = s.out := rfl
@[simp] theorem setChkResult_diag (c : Word) (s : State) : (setChkResult c s).diag = s.diag := rfl
@[simp] theorem setChkResult_host (c : Word) (s : State) : (setChkResult c s).host = s.host := rfl
@[simp] theorem setChkResult_hostReads (c : Word) (s : State) : (setChkResult c s).hostReads = s.hostReads := rfl
@[simp] theorem setChkResult_ioScript (c : Word) (s : State) : (setChkResult c s).ioScript = s.ioScript := rfl
@[simp] theorem setChkResult_freeCtr (c : Word) (s : State) : (setChkResult c s).freeCtr = s.freeCtr := rfl

/-! ### `MATCH` (40_checksum.md R122) -/

@[simp] theorem setMatch_busy (c : Word) (s : State) : (setMatch c s).busy = s.busy := rfl
@[simp] theorem setMatch_phase (c : Word) (s : State) : (setMatch c s).phase = s.phase := rfl
@[simp] theorem setMatch_matched (c : Word) (s : State) : (setMatch c s).matched = decide (c = s.chkExpect) := rfl
@[simp] theorem setMatch_warnC (c : Word) (s : State) : (setMatch c s).warnC = s.warnC := rfl
@[simp] theorem setMatch_warnU (c : Word) (s : State) : (setMatch c s).warnU = s.warnU := rfl
@[simp] theorem setMatch_cmdRej (c : Word) (s : State) : (setMatch c s).cmdRej = s.cmdRej := rfl
@[simp] theorem setMatch_cfg (c : Word) (s : State) : (setMatch c s).cfg = s.cfg := rfl
@[simp] theorem setMatch_blockSize (c : Word) (s : State) : (setMatch c s).blockSize = s.blockSize := rfl
@[simp] theorem setMatch_errCode (c : Word) (s : State) : (setMatch c s).errCode = s.errCode := rfl
@[simp] theorem setMatch_errState (c : Word) (s : State) : (setMatch c s).errState = s.errState := rfl
@[simp] theorem setMatch_errPos (c : Word) (s : State) : (setMatch c s).errPos = s.errPos := rfl
@[simp] theorem setMatch_blkCount (c : Word) (s : State) : (setMatch c s).blkCount = s.blkCount := rfl
@[simp] theorem setMatch_blkRead (c : Word) (s : State) : (setMatch c s).blkRead = s.blkRead := rfl
@[simp] theorem setMatch_blkWritten (c : Word) (s : State) : (setMatch c s).blkWritten = s.blkWritten := rfl
@[simp] theorem setMatch_totRead (c : Word) (s : State) : (setMatch c s).totRead = s.totRead := rfl
@[simp] theorem setMatch_totWritten (c : Word) (s : State) : (setMatch c s).totWritten = s.totWritten := rfl
@[simp] theorem setMatch_hdrUsize (c : Word) (s : State) : (setMatch c s).hdrUsize = s.hdrUsize := rfl
@[simp] theorem setMatch_hdrCsize (c : Word) (s : State) : (setMatch c s).hdrCsize = s.hdrCsize := rfl
@[simp] theorem setMatch_hdrUchk (c : Word) (s : State) : (setMatch c s).hdrUchk = s.hdrUchk := rfl
@[simp] theorem setMatch_hdrCchk (c : Word) (s : State) : (setMatch c s).hdrCchk = s.hdrCchk := rfl
@[simp] theorem setMatch_chkResult (c : Word) (s : State) : (setMatch c s).chkResult = s.chkResult := rfl
@[simp] theorem setMatch_chkExpect (c : Word) (s : State) : (setMatch c s).chkExpect = s.chkExpect := rfl
@[simp] theorem setMatch_xferLen (c : Word) (s : State) : (setMatch c s).xferLen = s.xferLen := rfl
@[simp] theorem setMatch_diagCount (c : Word) (s : State) : (setMatch c s).diagCount = s.diagCount := rfl
@[simp] theorem setMatch_ubuf (c : Word) (s : State) : (setMatch c s).ubuf = s.ubuf := rfl
@[simp] theorem setMatch_cbuf (c : Word) (s : State) : (setMatch c s).cbuf = s.cbuf := rfl
@[simp] theorem setMatch_activity (c : Word) (s : State) : (setMatch c s).activity = s.activity := rfl
@[simp] theorem setMatch_platform (c : Word) (s : State) : (setMatch c s).platform = s.platform := rfl
@[simp] theorem setMatch_input (c : Word) (s : State) : (setMatch c s).input = s.input := rfl
@[simp] theorem setMatch_inputEndless (c : Word) (s : State) : (setMatch c s).inputEndless = s.inputEndless := rfl
@[simp] theorem setMatch_ipos (c : Word) (s : State) : (setMatch c s).ipos = s.ipos := rfl
@[simp] theorem setMatch_out (c : Word) (s : State) : (setMatch c s).out = s.out := rfl
@[simp] theorem setMatch_diag (c : Word) (s : State) : (setMatch c s).diag = s.diag := rfl
@[simp] theorem setMatch_host (c : Word) (s : State) : (setMatch c s).host = s.host := rfl
@[simp] theorem setMatch_hostReads (c : Word) (s : State) : (setMatch c s).hostReads = s.hostReads := rfl
@[simp] theorem setMatch_ioScript (c : Word) (s : State) : (setMatch c s).ioScript = s.ioScript := rfl
@[simp] theorem setMatch_freeCtr (c : Word) (s : State) : (setMatch c s).freeCtr = s.freeCtr := rfl

/-! ### `DiagEmit` (20_memory.md R68) -/

@[simp] theorem diagEmit_busy (r : DiagRecord) (s : State) : (diagEmit r s).busy = s.busy := rfl
@[simp] theorem diagEmit_phase (r : DiagRecord) (s : State) : (diagEmit r s).phase = s.phase := rfl
@[simp] theorem diagEmit_matched (r : DiagRecord) (s : State) : (diagEmit r s).matched = s.matched := rfl
@[simp] theorem diagEmit_warnC (r : DiagRecord) (s : State) : (diagEmit r s).warnC = s.warnC := rfl
@[simp] theorem diagEmit_warnU (r : DiagRecord) (s : State) : (diagEmit r s).warnU = s.warnU := rfl
@[simp] theorem diagEmit_cmdRej (r : DiagRecord) (s : State) : (diagEmit r s).cmdRej = s.cmdRej := rfl
@[simp] theorem diagEmit_cfg (r : DiagRecord) (s : State) : (diagEmit r s).cfg = s.cfg := rfl
@[simp] theorem diagEmit_blockSize (r : DiagRecord) (s : State) : (diagEmit r s).blockSize = s.blockSize := rfl
@[simp] theorem diagEmit_errCode (r : DiagRecord) (s : State) : (diagEmit r s).errCode = s.errCode := rfl
@[simp] theorem diagEmit_errState (r : DiagRecord) (s : State) : (diagEmit r s).errState = s.errState := rfl
@[simp] theorem diagEmit_errPos (r : DiagRecord) (s : State) : (diagEmit r s).errPos = s.errPos := rfl
@[simp] theorem diagEmit_blkCount (r : DiagRecord) (s : State) : (diagEmit r s).blkCount = s.blkCount := rfl
@[simp] theorem diagEmit_blkRead (r : DiagRecord) (s : State) : (diagEmit r s).blkRead = s.blkRead := rfl
@[simp] theorem diagEmit_blkWritten (r : DiagRecord) (s : State) : (diagEmit r s).blkWritten = s.blkWritten := rfl
@[simp] theorem diagEmit_totRead (r : DiagRecord) (s : State) : (diagEmit r s).totRead = s.totRead := rfl
@[simp] theorem diagEmit_totWritten (r : DiagRecord) (s : State) : (diagEmit r s).totWritten = s.totWritten := rfl
@[simp] theorem diagEmit_hdrUsize (r : DiagRecord) (s : State) : (diagEmit r s).hdrUsize = s.hdrUsize := rfl
@[simp] theorem diagEmit_hdrCsize (r : DiagRecord) (s : State) : (diagEmit r s).hdrCsize = s.hdrCsize := rfl
@[simp] theorem diagEmit_hdrUchk (r : DiagRecord) (s : State) : (diagEmit r s).hdrUchk = s.hdrUchk := rfl
@[simp] theorem diagEmit_hdrCchk (r : DiagRecord) (s : State) : (diagEmit r s).hdrCchk = s.hdrCchk := rfl
@[simp] theorem diagEmit_chkResult (r : DiagRecord) (s : State) : (diagEmit r s).chkResult = s.chkResult := rfl
@[simp] theorem diagEmit_chkExpect (r : DiagRecord) (s : State) : (diagEmit r s).chkExpect = s.chkExpect := rfl
@[simp] theorem diagEmit_xferLen (r : DiagRecord) (s : State) : (diagEmit r s).xferLen = s.xferLen := rfl
@[simp] theorem diagEmit_diagCount (r : DiagRecord) (s : State) : (diagEmit r s).diagCount = s.diagCount + 1 := rfl
@[simp] theorem diagEmit_ubuf (r : DiagRecord) (s : State) : (diagEmit r s).ubuf = s.ubuf := rfl
@[simp] theorem diagEmit_cbuf (r : DiagRecord) (s : State) : (diagEmit r s).cbuf = s.cbuf := rfl
@[simp] theorem diagEmit_activity (r : DiagRecord) (s : State) : (diagEmit r s).activity = s.activity := rfl
@[simp] theorem diagEmit_platform (r : DiagRecord) (s : State) : (diagEmit r s).platform = s.platform := rfl
@[simp] theorem diagEmit_input (r : DiagRecord) (s : State) : (diagEmit r s).input = s.input := rfl
@[simp] theorem diagEmit_inputEndless (r : DiagRecord) (s : State) : (diagEmit r s).inputEndless = s.inputEndless := rfl
@[simp] theorem diagEmit_ipos (r : DiagRecord) (s : State) : (diagEmit r s).ipos = s.ipos := rfl
@[simp] theorem diagEmit_out (r : DiagRecord) (s : State) : (diagEmit r s).out = s.out := rfl
@[simp] theorem diagEmit_diag (r : DiagRecord) (s : State) : (diagEmit r s).diag = s.diag ++ [r] := rfl
@[simp] theorem diagEmit_host (r : DiagRecord) (s : State) : (diagEmit r s).host = s.host := rfl
@[simp] theorem diagEmit_hostReads (r : DiagRecord) (s : State) : (diagEmit r s).hostReads = s.hostReads := rfl
@[simp] theorem diagEmit_ioScript (r : DiagRecord) (s : State) : (diagEmit r s).ioScript = s.ioScript := rfl
@[simp] theorem diagEmit_freeCtr (r : DiagRecord) (s : State) : (diagEmit r s).freeCtr = s.freeCtr := rfl

/-! ### The totals zeroed (45_system.md R227) -/

@[simp] theorem zeroTotals_busy (s : State) : (zeroTotals s).busy = s.busy := rfl
@[simp] theorem zeroTotals_phase (s : State) : (zeroTotals s).phase = s.phase := rfl
@[simp] theorem zeroTotals_matched (s : State) : (zeroTotals s).matched = s.matched := rfl
@[simp] theorem zeroTotals_warnC (s : State) : (zeroTotals s).warnC = s.warnC := rfl
@[simp] theorem zeroTotals_warnU (s : State) : (zeroTotals s).warnU = s.warnU := rfl
@[simp] theorem zeroTotals_cmdRej (s : State) : (zeroTotals s).cmdRej = s.cmdRej := rfl
@[simp] theorem zeroTotals_cfg (s : State) : (zeroTotals s).cfg = s.cfg := rfl
@[simp] theorem zeroTotals_blockSize (s : State) : (zeroTotals s).blockSize = s.blockSize := rfl
@[simp] theorem zeroTotals_errCode (s : State) : (zeroTotals s).errCode = s.errCode := rfl
@[simp] theorem zeroTotals_errState (s : State) : (zeroTotals s).errState = s.errState := rfl
@[simp] theorem zeroTotals_errPos (s : State) : (zeroTotals s).errPos = s.errPos := rfl
@[simp] theorem zeroTotals_blkCount (s : State) : (zeroTotals s).blkCount = 0 := rfl
@[simp] theorem zeroTotals_blkRead (s : State) : (zeroTotals s).blkRead = s.blkRead := rfl
@[simp] theorem zeroTotals_blkWritten (s : State) : (zeroTotals s).blkWritten = s.blkWritten := rfl
@[simp] theorem zeroTotals_totRead (s : State) : (zeroTotals s).totRead = 0 := rfl
@[simp] theorem zeroTotals_totWritten (s : State) : (zeroTotals s).totWritten = 0 := rfl
@[simp] theorem zeroTotals_hdrUsize (s : State) : (zeroTotals s).hdrUsize = s.hdrUsize := rfl
@[simp] theorem zeroTotals_hdrCsize (s : State) : (zeroTotals s).hdrCsize = s.hdrCsize := rfl
@[simp] theorem zeroTotals_hdrUchk (s : State) : (zeroTotals s).hdrUchk = s.hdrUchk := rfl
@[simp] theorem zeroTotals_hdrCchk (s : State) : (zeroTotals s).hdrCchk = s.hdrCchk := rfl
@[simp] theorem zeroTotals_chkResult (s : State) : (zeroTotals s).chkResult = s.chkResult := rfl
@[simp] theorem zeroTotals_chkExpect (s : State) : (zeroTotals s).chkExpect = s.chkExpect := rfl
@[simp] theorem zeroTotals_xferLen (s : State) : (zeroTotals s).xferLen = s.xferLen := rfl
@[simp] theorem zeroTotals_diagCount (s : State) : (zeroTotals s).diagCount = s.diagCount := rfl
@[simp] theorem zeroTotals_ubuf (s : State) : (zeroTotals s).ubuf = s.ubuf := rfl
@[simp] theorem zeroTotals_cbuf (s : State) : (zeroTotals s).cbuf = s.cbuf := rfl
@[simp] theorem zeroTotals_activity (s : State) : (zeroTotals s).activity = s.activity := rfl
@[simp] theorem zeroTotals_platform (s : State) : (zeroTotals s).platform = s.platform := rfl
@[simp] theorem zeroTotals_input (s : State) : (zeroTotals s).input = s.input := rfl
@[simp] theorem zeroTotals_inputEndless (s : State) : (zeroTotals s).inputEndless = s.inputEndless := rfl
@[simp] theorem zeroTotals_ipos (s : State) : (zeroTotals s).ipos = s.ipos := rfl
@[simp] theorem zeroTotals_out (s : State) : (zeroTotals s).out = s.out := rfl
@[simp] theorem zeroTotals_diag (s : State) : (zeroTotals s).diag = s.diag := rfl
@[simp] theorem zeroTotals_host (s : State) : (zeroTotals s).host = s.host := rfl
@[simp] theorem zeroTotals_hostReads (s : State) : (zeroTotals s).hostReads = s.hostReads := rfl
@[simp] theorem zeroTotals_ioScript (s : State) : (zeroTotals s).ioScript = s.ioScript := rfl
@[simp] theorem zeroTotals_freeCtr (s : State) : (zeroTotals s).freeCtr = s.freeCtr := rfl

/-! ### The sizes of a record (43_block_codec.md R177) -/

@[simp] theorem setSizes_busy (n : Nat) (s : State) : (setSizes n s).busy = s.busy := rfl
@[simp] theorem setSizes_phase (n : Nat) (s : State) : (setSizes n s).phase = s.phase := rfl
@[simp] theorem setSizes_matched (n : Nat) (s : State) : (setSizes n s).matched = s.matched := rfl
@[simp] theorem setSizes_warnC (n : Nat) (s : State) : (setSizes n s).warnC = s.warnC := rfl
@[simp] theorem setSizes_warnU (n : Nat) (s : State) : (setSizes n s).warnU = s.warnU := rfl
@[simp] theorem setSizes_cmdRej (n : Nat) (s : State) : (setSizes n s).cmdRej = s.cmdRej := rfl
@[simp] theorem setSizes_cfg (n : Nat) (s : State) : (setSizes n s).cfg = s.cfg := rfl
@[simp] theorem setSizes_blockSize (n : Nat) (s : State) : (setSizes n s).blockSize = s.blockSize := rfl
@[simp] theorem setSizes_errCode (n : Nat) (s : State) : (setSizes n s).errCode = s.errCode := rfl
@[simp] theorem setSizes_errState (n : Nat) (s : State) : (setSizes n s).errState = s.errState := rfl
@[simp] theorem setSizes_errPos (n : Nat) (s : State) : (setSizes n s).errPos = s.errPos := rfl
@[simp] theorem setSizes_blkCount (n : Nat) (s : State) : (setSizes n s).blkCount = s.blkCount := rfl
@[simp] theorem setSizes_blkRead (n : Nat) (s : State) : (setSizes n s).blkRead = s.blkRead := rfl
@[simp] theorem setSizes_blkWritten (n : Nat) (s : State) : (setSizes n s).blkWritten = s.blkWritten := rfl
@[simp] theorem setSizes_totRead (n : Nat) (s : State) : (setSizes n s).totRead = s.totRead := rfl
@[simp] theorem setSizes_totWritten (n : Nat) (s : State) : (setSizes n s).totWritten = s.totWritten := rfl
@[simp] theorem setSizes_hdrUsize (n : Nat) (s : State) : (setSizes n s).hdrUsize = BitVec.ofNat 32 n := rfl
@[simp] theorem setSizes_hdrCsize (n : Nat) (s : State) : (setSizes n s).hdrCsize = clen s := rfl
@[simp] theorem setSizes_hdrUchk (n : Nat) (s : State) : (setSizes n s).hdrUchk = s.hdrUchk := rfl
@[simp] theorem setSizes_hdrCchk (n : Nat) (s : State) : (setSizes n s).hdrCchk = s.hdrCchk := rfl
@[simp] theorem setSizes_chkResult (n : Nat) (s : State) : (setSizes n s).chkResult = s.chkResult := rfl
@[simp] theorem setSizes_chkExpect (n : Nat) (s : State) : (setSizes n s).chkExpect = s.chkExpect := rfl
@[simp] theorem setSizes_xferLen (n : Nat) (s : State) : (setSizes n s).xferLen = s.xferLen := rfl
@[simp] theorem setSizes_diagCount (n : Nat) (s : State) : (setSizes n s).diagCount = s.diagCount := rfl
@[simp] theorem setSizes_ubuf (n : Nat) (s : State) : (setSizes n s).ubuf = s.ubuf := rfl
@[simp] theorem setSizes_cbuf (n : Nat) (s : State) : (setSizes n s).cbuf = s.cbuf := rfl
@[simp] theorem setSizes_activity (n : Nat) (s : State) : (setSizes n s).activity = s.activity := rfl
@[simp] theorem setSizes_platform (n : Nat) (s : State) : (setSizes n s).platform = s.platform := rfl
@[simp] theorem setSizes_input (n : Nat) (s : State) : (setSizes n s).input = s.input := rfl
@[simp] theorem setSizes_inputEndless (n : Nat) (s : State) : (setSizes n s).inputEndless = s.inputEndless := rfl
@[simp] theorem setSizes_ipos (n : Nat) (s : State) : (setSizes n s).ipos = s.ipos := rfl
@[simp] theorem setSizes_out (n : Nat) (s : State) : (setSizes n s).out = s.out := rfl
@[simp] theorem setSizes_diag (n : Nat) (s : State) : (setSizes n s).diag = s.diag := rfl
@[simp] theorem setSizes_host (n : Nat) (s : State) : (setSizes n s).host = s.host := rfl
@[simp] theorem setSizes_hostReads (n : Nat) (s : State) : (setSizes n s).hostReads = s.hostReads := rfl
@[simp] theorem setSizes_ioScript (n : Nat) (s : State) : (setSizes n s).ioScript = s.ioScript := rfl
@[simp] theorem setSizes_freeCtr (n : Nat) (s : State) : (setSizes n s).freeCtr = s.freeCtr := rfl

/-! ### A value for the host -/

@[simp] theorem giveHost_busy (v : Word) (s : State) : (giveHost v s).busy = s.busy := rfl
@[simp] theorem giveHost_phase (v : Word) (s : State) : (giveHost v s).phase = s.phase := rfl
@[simp] theorem giveHost_matched (v : Word) (s : State) : (giveHost v s).matched = s.matched := rfl
@[simp] theorem giveHost_warnC (v : Word) (s : State) : (giveHost v s).warnC = s.warnC := rfl
@[simp] theorem giveHost_warnU (v : Word) (s : State) : (giveHost v s).warnU = s.warnU := rfl
@[simp] theorem giveHost_cmdRej (v : Word) (s : State) : (giveHost v s).cmdRej = s.cmdRej := rfl
@[simp] theorem giveHost_cfg (v : Word) (s : State) : (giveHost v s).cfg = s.cfg := rfl
@[simp] theorem giveHost_blockSize (v : Word) (s : State) : (giveHost v s).blockSize = s.blockSize := rfl
@[simp] theorem giveHost_errCode (v : Word) (s : State) : (giveHost v s).errCode = s.errCode := rfl
@[simp] theorem giveHost_errState (v : Word) (s : State) : (giveHost v s).errState = s.errState := rfl
@[simp] theorem giveHost_errPos (v : Word) (s : State) : (giveHost v s).errPos = s.errPos := rfl
@[simp] theorem giveHost_blkCount (v : Word) (s : State) : (giveHost v s).blkCount = s.blkCount := rfl
@[simp] theorem giveHost_blkRead (v : Word) (s : State) : (giveHost v s).blkRead = s.blkRead := rfl
@[simp] theorem giveHost_blkWritten (v : Word) (s : State) : (giveHost v s).blkWritten = s.blkWritten := rfl
@[simp] theorem giveHost_totRead (v : Word) (s : State) : (giveHost v s).totRead = s.totRead := rfl
@[simp] theorem giveHost_totWritten (v : Word) (s : State) : (giveHost v s).totWritten = s.totWritten := rfl
@[simp] theorem giveHost_hdrUsize (v : Word) (s : State) : (giveHost v s).hdrUsize = s.hdrUsize := rfl
@[simp] theorem giveHost_hdrCsize (v : Word) (s : State) : (giveHost v s).hdrCsize = s.hdrCsize := rfl
@[simp] theorem giveHost_hdrUchk (v : Word) (s : State) : (giveHost v s).hdrUchk = s.hdrUchk := rfl
@[simp] theorem giveHost_hdrCchk (v : Word) (s : State) : (giveHost v s).hdrCchk = s.hdrCchk := rfl
@[simp] theorem giveHost_chkResult (v : Word) (s : State) : (giveHost v s).chkResult = s.chkResult := rfl
@[simp] theorem giveHost_chkExpect (v : Word) (s : State) : (giveHost v s).chkExpect = s.chkExpect := rfl
@[simp] theorem giveHost_xferLen (v : Word) (s : State) : (giveHost v s).xferLen = s.xferLen := rfl
@[simp] theorem giveHost_diagCount (v : Word) (s : State) : (giveHost v s).diagCount = s.diagCount := rfl
@[simp] theorem giveHost_ubuf (v : Word) (s : State) : (giveHost v s).ubuf = s.ubuf := rfl
@[simp] theorem giveHost_cbuf (v : Word) (s : State) : (giveHost v s).cbuf = s.cbuf := rfl
@[simp] theorem giveHost_activity (v : Word) (s : State) : (giveHost v s).activity = s.activity := rfl
@[simp] theorem giveHost_platform (v : Word) (s : State) : (giveHost v s).platform = s.platform := rfl
@[simp] theorem giveHost_input (v : Word) (s : State) : (giveHost v s).input = s.input := rfl
@[simp] theorem giveHost_inputEndless (v : Word) (s : State) : (giveHost v s).inputEndless = s.inputEndless := rfl
@[simp] theorem giveHost_ipos (v : Word) (s : State) : (giveHost v s).ipos = s.ipos := rfl
@[simp] theorem giveHost_out (v : Word) (s : State) : (giveHost v s).out = s.out := rfl
@[simp] theorem giveHost_diag (v : Word) (s : State) : (giveHost v s).diag = s.diag := rfl
@[simp] theorem giveHost_host (v : Word) (s : State) : (giveHost v s).host = s.host := rfl
@[simp] theorem giveHost_hostReads (v : Word) (s : State) : (giveHost v s).hostReads = s.hostReads ++ [v] := rfl
@[simp] theorem giveHost_ioScript (v : Word) (s : State) : (giveHost v s).ioScript = s.ioScript := rfl
@[simp] theorem giveHost_freeCtr (v : Word) (s : State) : (giveHost v s).freeCtr = s.freeCtr := rfl

/-! ### `UBUF` after a failed filter (41_filter.md R135) -/

@[simp] theorem scrambleUbuf_busy (s : State) : (scrambleUbuf s).busy = s.busy := rfl
@[simp] theorem scrambleUbuf_phase (s : State) : (scrambleUbuf s).phase = s.phase := rfl
@[simp] theorem scrambleUbuf_matched (s : State) : (scrambleUbuf s).matched = s.matched := rfl
@[simp] theorem scrambleUbuf_warnC (s : State) : (scrambleUbuf s).warnC = s.warnC := rfl
@[simp] theorem scrambleUbuf_warnU (s : State) : (scrambleUbuf s).warnU = s.warnU := rfl
@[simp] theorem scrambleUbuf_cmdRej (s : State) : (scrambleUbuf s).cmdRej = s.cmdRej := rfl
@[simp] theorem scrambleUbuf_cfg (s : State) : (scrambleUbuf s).cfg = s.cfg := rfl
@[simp] theorem scrambleUbuf_blockSize (s : State) : (scrambleUbuf s).blockSize = s.blockSize := rfl
@[simp] theorem scrambleUbuf_errCode (s : State) : (scrambleUbuf s).errCode = s.errCode := rfl
@[simp] theorem scrambleUbuf_errState (s : State) : (scrambleUbuf s).errState = s.errState := rfl
@[simp] theorem scrambleUbuf_errPos (s : State) : (scrambleUbuf s).errPos = s.errPos := rfl
@[simp] theorem scrambleUbuf_blkCount (s : State) : (scrambleUbuf s).blkCount = s.blkCount := rfl
@[simp] theorem scrambleUbuf_blkRead (s : State) : (scrambleUbuf s).blkRead = s.blkRead := rfl
@[simp] theorem scrambleUbuf_blkWritten (s : State) : (scrambleUbuf s).blkWritten = s.blkWritten := rfl
@[simp] theorem scrambleUbuf_totRead (s : State) : (scrambleUbuf s).totRead = s.totRead := rfl
@[simp] theorem scrambleUbuf_totWritten (s : State) : (scrambleUbuf s).totWritten = s.totWritten := rfl
@[simp] theorem scrambleUbuf_hdrUsize (s : State) : (scrambleUbuf s).hdrUsize = s.hdrUsize := rfl
@[simp] theorem scrambleUbuf_hdrCsize (s : State) : (scrambleUbuf s).hdrCsize = s.hdrCsize := rfl
@[simp] theorem scrambleUbuf_hdrUchk (s : State) : (scrambleUbuf s).hdrUchk = s.hdrUchk := rfl
@[simp] theorem scrambleUbuf_hdrCchk (s : State) : (scrambleUbuf s).hdrCchk = s.hdrCchk := rfl
@[simp] theorem scrambleUbuf_chkResult (s : State) : (scrambleUbuf s).chkResult = s.chkResult := rfl
@[simp] theorem scrambleUbuf_chkExpect (s : State) : (scrambleUbuf s).chkExpect = s.chkExpect := rfl
@[simp] theorem scrambleUbuf_xferLen (s : State) : (scrambleUbuf s).xferLen = s.xferLen := rfl
@[simp] theorem scrambleUbuf_diagCount (s : State) : (scrambleUbuf s).diagCount = s.diagCount := rfl
@[simp] theorem scrambleUbuf_ubuf (s : State) : (scrambleUbuf s).ubuf = (List.range s.ubuf.length).map fun i => Config.freeByte s.freeCtr i := rfl
@[simp] theorem scrambleUbuf_cbuf (s : State) : (scrambleUbuf s).cbuf = s.cbuf := rfl
@[simp] theorem scrambleUbuf_activity (s : State) : (scrambleUbuf s).activity = s.activity := rfl
@[simp] theorem scrambleUbuf_platform (s : State) : (scrambleUbuf s).platform = s.platform := rfl
@[simp] theorem scrambleUbuf_input (s : State) : (scrambleUbuf s).input = s.input := rfl
@[simp] theorem scrambleUbuf_inputEndless (s : State) : (scrambleUbuf s).inputEndless = s.inputEndless := rfl
@[simp] theorem scrambleUbuf_ipos (s : State) : (scrambleUbuf s).ipos = s.ipos := rfl
@[simp] theorem scrambleUbuf_out (s : State) : (scrambleUbuf s).out = s.out := rfl
@[simp] theorem scrambleUbuf_diag (s : State) : (scrambleUbuf s).diag = s.diag := rfl
@[simp] theorem scrambleUbuf_host (s : State) : (scrambleUbuf s).host = s.host := rfl
@[simp] theorem scrambleUbuf_hostReads (s : State) : (scrambleUbuf s).hostReads = s.hostReads := rfl
@[simp] theorem scrambleUbuf_ioScript (s : State) : (scrambleUbuf s).ioScript = s.ioScript := rfl
@[simp] theorem scrambleUbuf_freeCtr (s : State) : (scrambleUbuf s).freeCtr = s.freeCtr + 1 := rfl

/-! ### An answer of the streams taken -/

@[simp] theorem ioTaken_busy (s : State) : (ioTaken s).busy = s.busy := by
  unfold ioTaken; split <;> rfl
@[simp] theorem ioTaken_phase (s : State) : (ioTaken s).phase = s.phase := by
  unfold ioTaken; split <;> rfl
@[simp] theorem ioTaken_matched (s : State) : (ioTaken s).matched = s.matched := by
  unfold ioTaken; split <;> rfl
@[simp] theorem ioTaken_warnC (s : State) : (ioTaken s).warnC = s.warnC := by
  unfold ioTaken; split <;> rfl
@[simp] theorem ioTaken_warnU (s : State) : (ioTaken s).warnU = s.warnU := by
  unfold ioTaken; split <;> rfl
@[simp] theorem ioTaken_cmdRej (s : State) : (ioTaken s).cmdRej = s.cmdRej := by
  unfold ioTaken; split <;> rfl
@[simp] theorem ioTaken_cfg (s : State) : (ioTaken s).cfg = s.cfg := by
  unfold ioTaken; split <;> rfl
@[simp] theorem ioTaken_blockSize (s : State) : (ioTaken s).blockSize = s.blockSize := by
  unfold ioTaken; split <;> rfl
@[simp] theorem ioTaken_errCode (s : State) : (ioTaken s).errCode = s.errCode := by
  unfold ioTaken; split <;> rfl
@[simp] theorem ioTaken_errState (s : State) : (ioTaken s).errState = s.errState := by
  unfold ioTaken; split <;> rfl
@[simp] theorem ioTaken_errPos (s : State) : (ioTaken s).errPos = s.errPos := by
  unfold ioTaken; split <;> rfl
@[simp] theorem ioTaken_blkCount (s : State) : (ioTaken s).blkCount = s.blkCount := by
  unfold ioTaken; split <;> rfl
@[simp] theorem ioTaken_blkRead (s : State) : (ioTaken s).blkRead = s.blkRead := by
  unfold ioTaken; split <;> rfl
@[simp] theorem ioTaken_blkWritten (s : State) : (ioTaken s).blkWritten = s.blkWritten := by
  unfold ioTaken; split <;> rfl
@[simp] theorem ioTaken_totRead (s : State) : (ioTaken s).totRead = s.totRead := by
  unfold ioTaken; split <;> rfl
@[simp] theorem ioTaken_totWritten (s : State) : (ioTaken s).totWritten = s.totWritten := by
  unfold ioTaken; split <;> rfl
@[simp] theorem ioTaken_hdrUsize (s : State) : (ioTaken s).hdrUsize = s.hdrUsize := by
  unfold ioTaken; split <;> rfl
@[simp] theorem ioTaken_hdrCsize (s : State) : (ioTaken s).hdrCsize = s.hdrCsize := by
  unfold ioTaken; split <;> rfl
@[simp] theorem ioTaken_hdrUchk (s : State) : (ioTaken s).hdrUchk = s.hdrUchk := by
  unfold ioTaken; split <;> rfl
@[simp] theorem ioTaken_hdrCchk (s : State) : (ioTaken s).hdrCchk = s.hdrCchk := by
  unfold ioTaken; split <;> rfl
@[simp] theorem ioTaken_chkResult (s : State) : (ioTaken s).chkResult = s.chkResult := by
  unfold ioTaken; split <;> rfl
@[simp] theorem ioTaken_chkExpect (s : State) : (ioTaken s).chkExpect = s.chkExpect := by
  unfold ioTaken; split <;> rfl
@[simp] theorem ioTaken_xferLen (s : State) : (ioTaken s).xferLen = s.xferLen := by
  unfold ioTaken; split <;> rfl
@[simp] theorem ioTaken_diagCount (s : State) : (ioTaken s).diagCount = s.diagCount := by
  unfold ioTaken; split <;> rfl
@[simp] theorem ioTaken_ubuf (s : State) : (ioTaken s).ubuf = s.ubuf := by
  unfold ioTaken; split <;> rfl
@[simp] theorem ioTaken_cbuf (s : State) : (ioTaken s).cbuf = s.cbuf := by
  unfold ioTaken; split <;> rfl
@[simp] theorem ioTaken_activity (s : State) : (ioTaken s).activity = s.activity := by
  unfold ioTaken; split <;> rfl
@[simp] theorem ioTaken_platform (s : State) : (ioTaken s).platform = s.platform := by
  unfold ioTaken; split <;> rfl
@[simp] theorem ioTaken_input (s : State) : (ioTaken s).input = s.input := by
  unfold ioTaken; split <;> rfl
@[simp] theorem ioTaken_inputEndless (s : State) : (ioTaken s).inputEndless = s.inputEndless := by
  unfold ioTaken; split <;> rfl
@[simp] theorem ioTaken_ipos (s : State) : (ioTaken s).ipos = s.ipos := by
  unfold ioTaken; split <;> rfl
@[simp] theorem ioTaken_out (s : State) : (ioTaken s).out = s.out := by
  unfold ioTaken; split <;> rfl
@[simp] theorem ioTaken_diag (s : State) : (ioTaken s).diag = s.diag := by
  unfold ioTaken; split <;> rfl
@[simp] theorem ioTaken_host (s : State) : (ioTaken s).host = s.host := by
  unfold ioTaken; split <;> rfl
@[simp] theorem ioTaken_hostReads (s : State) : (ioTaken s).hostReads = s.hostReads := by
  unfold ioTaken; split <;> rfl

/-! ### A sticky flag set (43_block_codec.md R187) -/

@[simp] theorem setWarn_busy (w : Slot) (s : State) : (setWarn w s).busy = s.busy := by
  cases w <;> rfl
@[simp] theorem setWarn_phase (w : Slot) (s : State) : (setWarn w s).phase = s.phase := by
  cases w <;> rfl
@[simp] theorem setWarn_matched (w : Slot) (s : State) : (setWarn w s).matched = s.matched := by
  cases w <;> rfl
@[simp] theorem setWarn_cmdRej (w : Slot) (s : State) : (setWarn w s).cmdRej = s.cmdRej := by
  cases w <;> rfl
@[simp] theorem setWarn_cfg (w : Slot) (s : State) : (setWarn w s).cfg = s.cfg := by
  cases w <;> rfl
@[simp] theorem setWarn_blockSize (w : Slot) (s : State) : (setWarn w s).blockSize = s.blockSize := by
  cases w <;> rfl
@[simp] theorem setWarn_errCode (w : Slot) (s : State) : (setWarn w s).errCode = s.errCode := by
  cases w <;> rfl
@[simp] theorem setWarn_errState (w : Slot) (s : State) : (setWarn w s).errState = s.errState := by
  cases w <;> rfl
@[simp] theorem setWarn_errPos (w : Slot) (s : State) : (setWarn w s).errPos = s.errPos := by
  cases w <;> rfl
@[simp] theorem setWarn_blkCount (w : Slot) (s : State) : (setWarn w s).blkCount = s.blkCount := by
  cases w <;> rfl
@[simp] theorem setWarn_blkRead (w : Slot) (s : State) : (setWarn w s).blkRead = s.blkRead := by
  cases w <;> rfl
@[simp] theorem setWarn_blkWritten (w : Slot) (s : State) : (setWarn w s).blkWritten = s.blkWritten := by
  cases w <;> rfl
@[simp] theorem setWarn_totRead (w : Slot) (s : State) : (setWarn w s).totRead = s.totRead := by
  cases w <;> rfl
@[simp] theorem setWarn_totWritten (w : Slot) (s : State) : (setWarn w s).totWritten = s.totWritten := by
  cases w <;> rfl
@[simp] theorem setWarn_hdrUsize (w : Slot) (s : State) : (setWarn w s).hdrUsize = s.hdrUsize := by
  cases w <;> rfl
@[simp] theorem setWarn_hdrCsize (w : Slot) (s : State) : (setWarn w s).hdrCsize = s.hdrCsize := by
  cases w <;> rfl
@[simp] theorem setWarn_hdrUchk (w : Slot) (s : State) : (setWarn w s).hdrUchk = s.hdrUchk := by
  cases w <;> rfl
@[simp] theorem setWarn_hdrCchk (w : Slot) (s : State) : (setWarn w s).hdrCchk = s.hdrCchk := by
  cases w <;> rfl
@[simp] theorem setWarn_chkResult (w : Slot) (s : State) : (setWarn w s).chkResult = s.chkResult := by
  cases w <;> rfl
@[simp] theorem setWarn_chkExpect (w : Slot) (s : State) : (setWarn w s).chkExpect = s.chkExpect := by
  cases w <;> rfl
@[simp] theorem setWarn_xferLen (w : Slot) (s : State) : (setWarn w s).xferLen = s.xferLen := by
  cases w <;> rfl
@[simp] theorem setWarn_diagCount (w : Slot) (s : State) : (setWarn w s).diagCount = s.diagCount := by
  cases w <;> rfl
@[simp] theorem setWarn_ubuf (w : Slot) (s : State) : (setWarn w s).ubuf = s.ubuf := by
  cases w <;> rfl
@[simp] theorem setWarn_cbuf (w : Slot) (s : State) : (setWarn w s).cbuf = s.cbuf := by
  cases w <;> rfl
@[simp] theorem setWarn_activity (w : Slot) (s : State) : (setWarn w s).activity = s.activity := by
  cases w <;> rfl
@[simp] theorem setWarn_platform (w : Slot) (s : State) : (setWarn w s).platform = s.platform := by
  cases w <;> rfl
@[simp] theorem setWarn_input (w : Slot) (s : State) : (setWarn w s).input = s.input := by
  cases w <;> rfl
@[simp] theorem setWarn_inputEndless (w : Slot) (s : State) : (setWarn w s).inputEndless = s.inputEndless := by
  cases w <;> rfl
@[simp] theorem setWarn_ipos (w : Slot) (s : State) : (setWarn w s).ipos = s.ipos := by
  cases w <;> rfl
@[simp] theorem setWarn_out (w : Slot) (s : State) : (setWarn w s).out = s.out := by
  cases w <;> rfl
@[simp] theorem setWarn_diag (w : Slot) (s : State) : (setWarn w s).diag = s.diag := by
  cases w <;> rfl
@[simp] theorem setWarn_host (w : Slot) (s : State) : (setWarn w s).host = s.host := by
  cases w <;> rfl
@[simp] theorem setWarn_hostReads (w : Slot) (s : State) : (setWarn w s).hostReads = s.hostReads := by
  cases w <;> rfl
@[simp] theorem setWarn_ioScript (w : Slot) (s : State) : (setWarn w s).ioScript = s.ioScript := by
  cases w <;> rfl
@[simp] theorem setWarn_freeCtr (w : Slot) (s : State) : (setWarn w s).freeCtr = s.freeCtr := by
  cases w <;> rfl

/-! ### A buffer rewritten (20_memory.md R64) -/

@[simp] theorem setBuffer_busy (b : BufSel) (v : Bytes) (s : State) : (setBuffer b v s).busy = s.busy := by
  cases b <;> rfl
@[simp] theorem setBuffer_phase (b : BufSel) (v : Bytes) (s : State) : (setBuffer b v s).phase = s.phase := by
  cases b <;> rfl
@[simp] theorem setBuffer_matched (b : BufSel) (v : Bytes) (s : State) : (setBuffer b v s).matched = s.matched := by
  cases b <;> rfl
@[simp] theorem setBuffer_warnC (b : BufSel) (v : Bytes) (s : State) : (setBuffer b v s).warnC = s.warnC := by
  cases b <;> rfl
@[simp] theorem setBuffer_warnU (b : BufSel) (v : Bytes) (s : State) : (setBuffer b v s).warnU = s.warnU := by
  cases b <;> rfl
@[simp] theorem setBuffer_cmdRej (b : BufSel) (v : Bytes) (s : State) : (setBuffer b v s).cmdRej = s.cmdRej := by
  cases b <;> rfl
@[simp] theorem setBuffer_cfg (b : BufSel) (v : Bytes) (s : State) : (setBuffer b v s).cfg = s.cfg := by
  cases b <;> rfl
@[simp] theorem setBuffer_blockSize (b : BufSel) (v : Bytes) (s : State) : (setBuffer b v s).blockSize = s.blockSize := by
  cases b <;> rfl
@[simp] theorem setBuffer_errCode (b : BufSel) (v : Bytes) (s : State) : (setBuffer b v s).errCode = s.errCode := by
  cases b <;> rfl
@[simp] theorem setBuffer_errState (b : BufSel) (v : Bytes) (s : State) : (setBuffer b v s).errState = s.errState := by
  cases b <;> rfl
@[simp] theorem setBuffer_errPos (b : BufSel) (v : Bytes) (s : State) : (setBuffer b v s).errPos = s.errPos := by
  cases b <;> rfl
@[simp] theorem setBuffer_blkCount (b : BufSel) (v : Bytes) (s : State) : (setBuffer b v s).blkCount = s.blkCount := by
  cases b <;> rfl
@[simp] theorem setBuffer_blkRead (b : BufSel) (v : Bytes) (s : State) : (setBuffer b v s).blkRead = s.blkRead := by
  cases b <;> rfl
@[simp] theorem setBuffer_blkWritten (b : BufSel) (v : Bytes) (s : State) : (setBuffer b v s).blkWritten = s.blkWritten := by
  cases b <;> rfl
@[simp] theorem setBuffer_totRead (b : BufSel) (v : Bytes) (s : State) : (setBuffer b v s).totRead = s.totRead := by
  cases b <;> rfl
@[simp] theorem setBuffer_totWritten (b : BufSel) (v : Bytes) (s : State) : (setBuffer b v s).totWritten = s.totWritten := by
  cases b <;> rfl
@[simp] theorem setBuffer_hdrUsize (b : BufSel) (v : Bytes) (s : State) : (setBuffer b v s).hdrUsize = s.hdrUsize := by
  cases b <;> rfl
@[simp] theorem setBuffer_hdrCsize (b : BufSel) (v : Bytes) (s : State) : (setBuffer b v s).hdrCsize = s.hdrCsize := by
  cases b <;> rfl
@[simp] theorem setBuffer_hdrUchk (b : BufSel) (v : Bytes) (s : State) : (setBuffer b v s).hdrUchk = s.hdrUchk := by
  cases b <;> rfl
@[simp] theorem setBuffer_hdrCchk (b : BufSel) (v : Bytes) (s : State) : (setBuffer b v s).hdrCchk = s.hdrCchk := by
  cases b <;> rfl
@[simp] theorem setBuffer_chkResult (b : BufSel) (v : Bytes) (s : State) : (setBuffer b v s).chkResult = s.chkResult := by
  cases b <;> rfl
@[simp] theorem setBuffer_chkExpect (b : BufSel) (v : Bytes) (s : State) : (setBuffer b v s).chkExpect = s.chkExpect := by
  cases b <;> rfl
@[simp] theorem setBuffer_xferLen (b : BufSel) (v : Bytes) (s : State) : (setBuffer b v s).xferLen = s.xferLen := by
  cases b <;> rfl
@[simp] theorem setBuffer_diagCount (b : BufSel) (v : Bytes) (s : State) : (setBuffer b v s).diagCount = s.diagCount := by
  cases b <;> rfl
@[simp] theorem setBuffer_activity (b : BufSel) (v : Bytes) (s : State) : (setBuffer b v s).activity = s.activity := by
  cases b <;> rfl
@[simp] theorem setBuffer_platform (b : BufSel) (v : Bytes) (s : State) : (setBuffer b v s).platform = s.platform := by
  cases b <;> rfl
@[simp] theorem setBuffer_input (b : BufSel) (v : Bytes) (s : State) : (setBuffer b v s).input = s.input := by
  cases b <;> rfl
@[simp] theorem setBuffer_inputEndless (b : BufSel) (v : Bytes) (s : State) : (setBuffer b v s).inputEndless = s.inputEndless := by
  cases b <;> rfl
@[simp] theorem setBuffer_ipos (b : BufSel) (v : Bytes) (s : State) : (setBuffer b v s).ipos = s.ipos := by
  cases b <;> rfl
@[simp] theorem setBuffer_out (b : BufSel) (v : Bytes) (s : State) : (setBuffer b v s).out = s.out := by
  cases b <;> rfl
@[simp] theorem setBuffer_diag (b : BufSel) (v : Bytes) (s : State) : (setBuffer b v s).diag = s.diag := by
  cases b <;> rfl
@[simp] theorem setBuffer_host (b : BufSel) (v : Bytes) (s : State) : (setBuffer b v s).host = s.host := by
  cases b <;> rfl
@[simp] theorem setBuffer_hostReads (b : BufSel) (v : Bytes) (s : State) : (setBuffer b v s).hostReads = s.hostReads := by
  cases b <;> rfl
@[simp] theorem setBuffer_ioScript (b : BufSel) (v : Bytes) (s : State) : (setBuffer b v s).ioScript = s.ioScript := by
  cases b <;> rfl
@[simp] theorem setBuffer_freeCtr (b : BufSel) (v : Bytes) (s : State) : (setBuffer b v s).freeCtr = s.freeCtr := by
  cases b <;> rfl

/-! ### Compress step 3 (43_block_codec.md R177) -/

@[simp] theorem computeUchk_busy (s : State) : (computeUchk s).busy = s.busy := by
  unfold computeUchk; split <;> rfl
@[simp] theorem computeUchk_phase (s : State) : (computeUchk s).phase = s.phase := by
  unfold computeUchk; split <;> rfl
@[simp] theorem computeUchk_matched (s : State) : (computeUchk s).matched = s.matched := by
  unfold computeUchk; split <;> rfl
@[simp] theorem computeUchk_warnC (s : State) : (computeUchk s).warnC = s.warnC := by
  unfold computeUchk; split <;> rfl
@[simp] theorem computeUchk_warnU (s : State) : (computeUchk s).warnU = s.warnU := by
  unfold computeUchk; split <;> rfl
@[simp] theorem computeUchk_cmdRej (s : State) : (computeUchk s).cmdRej = s.cmdRej := by
  unfold computeUchk; split <;> rfl
@[simp] theorem computeUchk_cfg (s : State) : (computeUchk s).cfg = s.cfg := by
  unfold computeUchk; split <;> rfl
@[simp] theorem computeUchk_blockSize (s : State) : (computeUchk s).blockSize = s.blockSize := by
  unfold computeUchk; split <;> rfl
@[simp] theorem computeUchk_errCode (s : State) : (computeUchk s).errCode = s.errCode := by
  unfold computeUchk; split <;> rfl
@[simp] theorem computeUchk_errState (s : State) : (computeUchk s).errState = s.errState := by
  unfold computeUchk; split <;> rfl
@[simp] theorem computeUchk_errPos (s : State) : (computeUchk s).errPos = s.errPos := by
  unfold computeUchk; split <;> rfl
@[simp] theorem computeUchk_blkCount (s : State) : (computeUchk s).blkCount = s.blkCount := by
  unfold computeUchk; split <;> rfl
@[simp] theorem computeUchk_blkRead (s : State) : (computeUchk s).blkRead = s.blkRead := by
  unfold computeUchk; split <;> rfl
@[simp] theorem computeUchk_blkWritten (s : State) : (computeUchk s).blkWritten = s.blkWritten := by
  unfold computeUchk; split <;> rfl
@[simp] theorem computeUchk_totRead (s : State) : (computeUchk s).totRead = s.totRead := by
  unfold computeUchk; split <;> rfl
@[simp] theorem computeUchk_totWritten (s : State) : (computeUchk s).totWritten = s.totWritten := by
  unfold computeUchk; split <;> rfl
@[simp] theorem computeUchk_hdrUsize (s : State) : (computeUchk s).hdrUsize = s.hdrUsize := by
  unfold computeUchk; split <;> rfl
@[simp] theorem computeUchk_hdrCsize (s : State) : (computeUchk s).hdrCsize = s.hdrCsize := by
  unfold computeUchk; split <;> rfl
@[simp] theorem computeUchk_hdrCchk (s : State) : (computeUchk s).hdrCchk = s.hdrCchk := by
  unfold computeUchk; split <;> rfl
@[simp] theorem computeUchk_chkExpect (s : State) : (computeUchk s).chkExpect = s.chkExpect := by
  unfold computeUchk; split <;> rfl
@[simp] theorem computeUchk_xferLen (s : State) : (computeUchk s).xferLen = s.xferLen := by
  unfold computeUchk; split <;> rfl
@[simp] theorem computeUchk_diagCount (s : State) : (computeUchk s).diagCount = s.diagCount := by
  unfold computeUchk; split <;> rfl
@[simp] theorem computeUchk_ubuf (s : State) : (computeUchk s).ubuf = s.ubuf := by
  unfold computeUchk; split <;> rfl
@[simp] theorem computeUchk_cbuf (s : State) : (computeUchk s).cbuf = s.cbuf := by
  unfold computeUchk; split <;> rfl
@[simp] theorem computeUchk_activity (s : State) : (computeUchk s).activity = s.activity := by
  unfold computeUchk; split <;> rfl
@[simp] theorem computeUchk_platform (s : State) : (computeUchk s).platform = s.platform := by
  unfold computeUchk; split <;> rfl
@[simp] theorem computeUchk_input (s : State) : (computeUchk s).input = s.input := by
  unfold computeUchk; split <;> rfl
@[simp] theorem computeUchk_inputEndless (s : State) : (computeUchk s).inputEndless = s.inputEndless := by
  unfold computeUchk; split <;> rfl
@[simp] theorem computeUchk_ipos (s : State) : (computeUchk s).ipos = s.ipos := by
  unfold computeUchk; split <;> rfl
@[simp] theorem computeUchk_out (s : State) : (computeUchk s).out = s.out := by
  unfold computeUchk; split <;> rfl
@[simp] theorem computeUchk_diag (s : State) : (computeUchk s).diag = s.diag := by
  unfold computeUchk; split <;> rfl
@[simp] theorem computeUchk_host (s : State) : (computeUchk s).host = s.host := by
  unfold computeUchk; split <;> rfl
@[simp] theorem computeUchk_hostReads (s : State) : (computeUchk s).hostReads = s.hostReads := by
  unfold computeUchk; split <;> rfl
@[simp] theorem computeUchk_ioScript (s : State) : (computeUchk s).ioScript = s.ioScript := by
  unfold computeUchk; split <;> rfl
@[simp] theorem computeUchk_freeCtr (s : State) : (computeUchk s).freeCtr = s.freeCtr := by
  unfold computeUchk; split <;> rfl

/-! ### Compress step 5 (43_block_codec.md R177) -/

@[simp] theorem computeCchk_busy (s : State) : (computeCchk s).busy = s.busy := by
  unfold computeCchk; split <;> rfl
@[simp] theorem computeCchk_phase (s : State) : (computeCchk s).phase = s.phase := by
  unfold computeCchk; split <;> rfl
@[simp] theorem computeCchk_matched (s : State) : (computeCchk s).matched = s.matched := by
  unfold computeCchk; split <;> rfl
@[simp] theorem computeCchk_warnC (s : State) : (computeCchk s).warnC = s.warnC := by
  unfold computeCchk; split <;> rfl
@[simp] theorem computeCchk_warnU (s : State) : (computeCchk s).warnU = s.warnU := by
  unfold computeCchk; split <;> rfl
@[simp] theorem computeCchk_cmdRej (s : State) : (computeCchk s).cmdRej = s.cmdRej := by
  unfold computeCchk; split <;> rfl
@[simp] theorem computeCchk_cfg (s : State) : (computeCchk s).cfg = s.cfg := by
  unfold computeCchk; split <;> rfl
@[simp] theorem computeCchk_blockSize (s : State) : (computeCchk s).blockSize = s.blockSize := by
  unfold computeCchk; split <;> rfl
@[simp] theorem computeCchk_errCode (s : State) : (computeCchk s).errCode = s.errCode := by
  unfold computeCchk; split <;> rfl
@[simp] theorem computeCchk_errState (s : State) : (computeCchk s).errState = s.errState := by
  unfold computeCchk; split <;> rfl
@[simp] theorem computeCchk_errPos (s : State) : (computeCchk s).errPos = s.errPos := by
  unfold computeCchk; split <;> rfl
@[simp] theorem computeCchk_blkCount (s : State) : (computeCchk s).blkCount = s.blkCount := by
  unfold computeCchk; split <;> rfl
@[simp] theorem computeCchk_blkRead (s : State) : (computeCchk s).blkRead = s.blkRead := by
  unfold computeCchk; split <;> rfl
@[simp] theorem computeCchk_blkWritten (s : State) : (computeCchk s).blkWritten = s.blkWritten := by
  unfold computeCchk; split <;> rfl
@[simp] theorem computeCchk_totRead (s : State) : (computeCchk s).totRead = s.totRead := by
  unfold computeCchk; split <;> rfl
@[simp] theorem computeCchk_totWritten (s : State) : (computeCchk s).totWritten = s.totWritten := by
  unfold computeCchk; split <;> rfl
@[simp] theorem computeCchk_hdrUsize (s : State) : (computeCchk s).hdrUsize = s.hdrUsize := by
  unfold computeCchk; split <;> rfl
@[simp] theorem computeCchk_hdrCsize (s : State) : (computeCchk s).hdrCsize = s.hdrCsize := by
  unfold computeCchk; split <;> rfl
@[simp] theorem computeCchk_hdrUchk (s : State) : (computeCchk s).hdrUchk = s.hdrUchk := by
  unfold computeCchk; split <;> rfl
@[simp] theorem computeCchk_chkExpect (s : State) : (computeCchk s).chkExpect = s.chkExpect := by
  unfold computeCchk; split <;> rfl
@[simp] theorem computeCchk_xferLen (s : State) : (computeCchk s).xferLen = s.xferLen := by
  unfold computeCchk; split <;> rfl
@[simp] theorem computeCchk_diagCount (s : State) : (computeCchk s).diagCount = s.diagCount := by
  unfold computeCchk; split <;> rfl
@[simp] theorem computeCchk_ubuf (s : State) : (computeCchk s).ubuf = s.ubuf := by
  unfold computeCchk; split <;> rfl
@[simp] theorem computeCchk_cbuf (s : State) : (computeCchk s).cbuf = s.cbuf := by
  unfold computeCchk; split <;> rfl
@[simp] theorem computeCchk_activity (s : State) : (computeCchk s).activity = s.activity := by
  unfold computeCchk; split <;> rfl
@[simp] theorem computeCchk_platform (s : State) : (computeCchk s).platform = s.platform := by
  unfold computeCchk; split <;> rfl
@[simp] theorem computeCchk_input (s : State) : (computeCchk s).input = s.input := by
  unfold computeCchk; split <;> rfl
@[simp] theorem computeCchk_inputEndless (s : State) : (computeCchk s).inputEndless = s.inputEndless := by
  unfold computeCchk; split <;> rfl
@[simp] theorem computeCchk_ipos (s : State) : (computeCchk s).ipos = s.ipos := by
  unfold computeCchk; split <;> rfl
@[simp] theorem computeCchk_out (s : State) : (computeCchk s).out = s.out := by
  unfold computeCchk; split <;> rfl
@[simp] theorem computeCchk_diag (s : State) : (computeCchk s).diag = s.diag := by
  unfold computeCchk; split <;> rfl
@[simp] theorem computeCchk_host (s : State) : (computeCchk s).host = s.host := by
  unfold computeCchk; split <;> rfl
@[simp] theorem computeCchk_hostReads (s : State) : (computeCchk s).hostReads = s.hostReads := by
  unfold computeCchk; split <;> rfl
@[simp] theorem computeCchk_ioScript (s : State) : (computeCchk s).ioScript = s.ioScript := by
  unfold computeCchk; split <;> rfl
@[simp] theorem computeCchk_freeCtr (s : State) : (computeCchk s).freeCtr = s.freeCtr := by
  unfold computeCchk; split <;> rfl

/-! ### A header stored (30_encoding.md R102) -/

@[simp] theorem storeHeader_busy (h : Bytes) (s : State) : (storeHeader h s).busy = s.busy := by
  unfold storeHeader; dsimp only; split <;> rfl
@[simp] theorem storeHeader_phase (h : Bytes) (s : State) : (storeHeader h s).phase = s.phase := by
  unfold storeHeader; dsimp only; split <;> rfl
@[simp] theorem storeHeader_matched (h : Bytes) (s : State) : (storeHeader h s).matched = s.matched := by
  unfold storeHeader; dsimp only; split <;> rfl
@[simp] theorem storeHeader_warnC (h : Bytes) (s : State) : (storeHeader h s).warnC = s.warnC := by
  unfold storeHeader; dsimp only; split <;> rfl
@[simp] theorem storeHeader_warnU (h : Bytes) (s : State) : (storeHeader h s).warnU = s.warnU := by
  unfold storeHeader; dsimp only; split <;> rfl
@[simp] theorem storeHeader_cmdRej (h : Bytes) (s : State) : (storeHeader h s).cmdRej = s.cmdRej := by
  unfold storeHeader; dsimp only; split <;> rfl
@[simp] theorem storeHeader_cfg (h : Bytes) (s : State) : (storeHeader h s).cfg = s.cfg := by
  unfold storeHeader; dsimp only; split <;> rfl
@[simp] theorem storeHeader_blockSize (h : Bytes) (s : State) : (storeHeader h s).blockSize = s.blockSize := by
  unfold storeHeader; dsimp only; split <;> rfl
@[simp] theorem storeHeader_errCode (h : Bytes) (s : State) : (storeHeader h s).errCode = s.errCode := by
  unfold storeHeader; dsimp only; split <;> rfl
@[simp] theorem storeHeader_errState (h : Bytes) (s : State) : (storeHeader h s).errState = s.errState := by
  unfold storeHeader; dsimp only; split <;> rfl
@[simp] theorem storeHeader_errPos (h : Bytes) (s : State) : (storeHeader h s).errPos = s.errPos := by
  unfold storeHeader; dsimp only; split <;> rfl
@[simp] theorem storeHeader_blkCount (h : Bytes) (s : State) : (storeHeader h s).blkCount = s.blkCount := by
  unfold storeHeader; dsimp only; split <;> rfl
@[simp] theorem storeHeader_blkRead (h : Bytes) (s : State) : (storeHeader h s).blkRead = s.blkRead := by
  unfold storeHeader; dsimp only; split <;> rfl
@[simp] theorem storeHeader_blkWritten (h : Bytes) (s : State) : (storeHeader h s).blkWritten = s.blkWritten := by
  unfold storeHeader; dsimp only; split <;> rfl
@[simp] theorem storeHeader_totRead (h : Bytes) (s : State) : (storeHeader h s).totRead = s.totRead := by
  unfold storeHeader; dsimp only; split <;> rfl
@[simp] theorem storeHeader_totWritten (h : Bytes) (s : State) : (storeHeader h s).totWritten = s.totWritten := by
  unfold storeHeader; dsimp only; split <;> rfl
@[simp] theorem storeHeader_hdrUsize (h : Bytes) (s : State) : (storeHeader h s).hdrUsize = headerField h 0 := by
  unfold storeHeader; dsimp only; split <;> rfl
@[simp] theorem storeHeader_hdrCsize (h : Bytes) (s : State) : (storeHeader h s).hdrCsize = headerField h 1 := by
  unfold storeHeader; dsimp only; split <;> rfl
@[simp] theorem storeHeader_chkResult (h : Bytes) (s : State) : (storeHeader h s).chkResult = s.chkResult := by
  unfold storeHeader; dsimp only; split <;> rfl
@[simp] theorem storeHeader_chkExpect (h : Bytes) (s : State) : (storeHeader h s).chkExpect = s.chkExpect := by
  unfold storeHeader; dsimp only; split <;> rfl
@[simp] theorem storeHeader_xferLen (h : Bytes) (s : State) : (storeHeader h s).xferLen = s.xferLen := by
  unfold storeHeader; dsimp only; split <;> rfl
@[simp] theorem storeHeader_diagCount (h : Bytes) (s : State) : (storeHeader h s).diagCount = s.diagCount := by
  unfold storeHeader; dsimp only; split <;> rfl
@[simp] theorem storeHeader_ubuf (h : Bytes) (s : State) : (storeHeader h s).ubuf = s.ubuf := by
  unfold storeHeader; dsimp only; split <;> rfl
@[simp] theorem storeHeader_cbuf (h : Bytes) (s : State) : (storeHeader h s).cbuf = s.cbuf := by
  unfold storeHeader; dsimp only; split <;> rfl
@[simp] theorem storeHeader_activity (h : Bytes) (s : State) : (storeHeader h s).activity = s.activity := by
  unfold storeHeader; dsimp only; split <;> rfl
@[simp] theorem storeHeader_platform (h : Bytes) (s : State) : (storeHeader h s).platform = s.platform := by
  unfold storeHeader; dsimp only; split <;> rfl
@[simp] theorem storeHeader_input (h : Bytes) (s : State) : (storeHeader h s).input = s.input := by
  unfold storeHeader; dsimp only; split <;> rfl
@[simp] theorem storeHeader_inputEndless (h : Bytes) (s : State) : (storeHeader h s).inputEndless = s.inputEndless := by
  unfold storeHeader; dsimp only; split <;> rfl
@[simp] theorem storeHeader_ipos (h : Bytes) (s : State) : (storeHeader h s).ipos = s.ipos := by
  unfold storeHeader; dsimp only; split <;> rfl
@[simp] theorem storeHeader_out (h : Bytes) (s : State) : (storeHeader h s).out = s.out := by
  unfold storeHeader; dsimp only; split <;> rfl
@[simp] theorem storeHeader_diag (h : Bytes) (s : State) : (storeHeader h s).diag = s.diag := by
  unfold storeHeader; dsimp only; split <;> rfl
@[simp] theorem storeHeader_host (h : Bytes) (s : State) : (storeHeader h s).host = s.host := by
  unfold storeHeader; dsimp only; split <;> rfl
@[simp] theorem storeHeader_hostReads (h : Bytes) (s : State) : (storeHeader h s).hostReads = s.hostReads := by
  unfold storeHeader; dsimp only; split <;> rfl
@[simp] theorem storeHeader_ioScript (h : Bytes) (s : State) : (storeHeader h s).ioScript = s.ioScript := by
  unfold storeHeader; dsimp only; split <;> rfl
@[simp] theorem storeHeader_freeCtr (h : Bytes) (s : State) : (storeHeader h s).freeCtr = s.freeCtr := by
  unfold storeHeader; dsimp only; split <;> rfl

/-! ### The end of input (43_block_codec.md R178, R183) -/

@[simp] theorem finishEos_busy (s : State) : (finishEos s).busy = false := rfl
@[simp] theorem finishEos_phase (s : State) : (finishEos s).phase = .endOfStream := rfl
@[simp] theorem finishEos_matched (s : State) : (finishEos s).matched = s.matched := rfl
@[simp] theorem finishEos_warnC (s : State) : (finishEos s).warnC = s.warnC := rfl
@[simp] theorem finishEos_warnU (s : State) : (finishEos s).warnU = s.warnU := rfl
@[simp] theorem finishEos_cmdRej (s : State) : (finishEos s).cmdRej = s.cmdRej := rfl
@[simp] theorem finishEos_cfg (s : State) : (finishEos s).cfg = s.cfg := rfl
@[simp] theorem finishEos_blockSize (s : State) : (finishEos s).blockSize = s.blockSize := rfl
@[simp] theorem finishEos_errCode (s : State) : (finishEos s).errCode = s.errCode := rfl
@[simp] theorem finishEos_errState (s : State) : (finishEos s).errState = s.errState := rfl
@[simp] theorem finishEos_errPos (s : State) : (finishEos s).errPos = s.errPos := rfl
@[simp] theorem finishEos_blkRead (s : State) : (finishEos s).blkRead = 0 := rfl
@[simp] theorem finishEos_blkWritten (s : State) : (finishEos s).blkWritten = 0 := rfl
@[simp] theorem finishEos_hdrUsize (s : State) : (finishEos s).hdrUsize = s.hdrUsize := rfl
@[simp] theorem finishEos_hdrCsize (s : State) : (finishEos s).hdrCsize = s.hdrCsize := rfl
@[simp] theorem finishEos_hdrUchk (s : State) : (finishEos s).hdrUchk = s.hdrUchk := rfl
@[simp] theorem finishEos_hdrCchk (s : State) : (finishEos s).hdrCchk = s.hdrCchk := rfl
@[simp] theorem finishEos_chkResult (s : State) : (finishEos s).chkResult = s.chkResult := rfl
@[simp] theorem finishEos_chkExpect (s : State) : (finishEos s).chkExpect = s.chkExpect := rfl
@[simp] theorem finishEos_xferLen (s : State) : (finishEos s).xferLen = s.xferLen := rfl
@[simp] theorem finishEos_diagCount (s : State) : (finishEos s).diagCount = s.diagCount := rfl
@[simp] theorem finishEos_ubuf (s : State) : (finishEos s).ubuf = s.ubuf := rfl
@[simp] theorem finishEos_cbuf (s : State) : (finishEos s).cbuf = s.cbuf := rfl
@[simp] theorem finishEos_activity (s : State) : (finishEos s).activity = s.activity := rfl
@[simp] theorem finishEos_platform (s : State) : (finishEos s).platform = s.platform := rfl
@[simp] theorem finishEos_input (s : State) : (finishEos s).input = s.input := rfl
@[simp] theorem finishEos_inputEndless (s : State) : (finishEos s).inputEndless = s.inputEndless := rfl
@[simp] theorem finishEos_ipos (s : State) : (finishEos s).ipos = s.ipos := rfl
@[simp] theorem finishEos_out (s : State) : (finishEos s).out = s.out := rfl
@[simp] theorem finishEos_diag (s : State) : (finishEos s).diag = s.diag := rfl
@[simp] theorem finishEos_host (s : State) : (finishEos s).host = s.host := rfl
@[simp] theorem finishEos_hostReads (s : State) : (finishEos s).hostReads = s.hostReads := rfl
@[simp] theorem finishEos_ioScript (s : State) : (finishEos s).ioScript = s.ioScript := rfl
@[simp] theorem finishEos_freeCtr (s : State) : (finishEos s).freeCtr = s.freeCtr := rfl

/-! ### The fields the updates above change by cases -/

@[simp] theorem finishEos_totRead (s : State) : (finishEos s).totRead = s.totRead := by simp [finishEos]
@[simp] theorem finishEos_totWritten (s : State) : (finishEos s).totWritten = s.totWritten := by simp [finishEos]
@[simp] theorem finishEos_blkCount (s : State) : (finishEos s).blkCount = s.blkCount := by simp [finishEos]
@[simp] theorem computeUchk_hdrUchk (s : State) :
    (computeUchk s).hdrUchk = if s.cfg.chkEn then checksum (algOf s.cfg) s.ubuf else s.hdrUchk := by
  unfold computeUchk; split <;> rfl
@[simp] theorem computeUchk_chkResult (s : State) :
    (computeUchk s).chkResult = if s.cfg.chkEn then checksum (algOf s.cfg) s.ubuf else s.chkResult := by
  unfold computeUchk; split <;> rfl
@[simp] theorem computeCchk_hdrCchk (s : State) :
    (computeCchk s).hdrCchk = if s.cfg.chkEn then checksum (algOf s.cfg) s.cbuf else s.hdrCchk := by
  unfold computeCchk; split <;> rfl
@[simp] theorem computeCchk_chkResult (s : State) :
    (computeCchk s).chkResult = if s.cfg.chkEn then checksum (algOf s.cfg) s.cbuf else s.chkResult := by
  unfold computeCchk; split <;> rfl
@[simp] theorem storeHeader_hdrUchk (h : Bytes) (s : State) :
    (storeHeader h s).hdrUchk = if s.cfg.chkEn then headerField h 2 else s.hdrUchk := by
  unfold storeHeader; dsimp only; split <;> rfl
@[simp] theorem storeHeader_hdrCchk (h : Bytes) (s : State) :
    (storeHeader h s).hdrCchk = if s.cfg.chkEn then headerField h 3 else s.hdrCchk := by
  unfold storeHeader; dsimp only; split <;> rfl
@[simp] theorem buffer_setBuffer_same (b : BufSel) (v : Bytes) (s : State) : buffer b (setBuffer b v s) = v := by
  cases b <;> rfl
@[simp] theorem setBuffer_u_cbuf (v : Bytes) (s : State) : (setBuffer .u v s).cbuf = s.cbuf := rfl
@[simp] theorem setBuffer_c_ubuf (v : Bytes) (s : State) : (setBuffer .c v s).ubuf = s.ubuf := rfl
@[simp] theorem setBuffer_u_ubuf (v : Bytes) (s : State) : (setBuffer .u v s).ubuf = v := rfl
@[simp] theorem setBuffer_c_cbuf (v : Bytes) (s : State) : (setBuffer .c v s).cbuf = v := rfl
@[simp] theorem setWarn_compressed_warnC (s : State) : (setWarn .compressed s).warnC = true := rfl
@[simp] theorem setWarn_compressed_warnU (s : State) : (setWarn .compressed s).warnU = s.warnU := rfl
@[simp] theorem setWarn_uncompressed_warnC (s : State) : (setWarn .uncompressed s).warnC = s.warnC := rfl
@[simp] theorem setWarn_uncompressed_warnU (s : State) : (setWarn .uncompressed s).warnU = true := rfl

end Sys2Proof.Machine
end

