-- ==== Sys2Proof/Laws/Ops.lean ====
section
/-! SUPPORT. What each shared operation can do, said once: acceptance, the order of steps inside a command, the
streams, the ports, and the frame every step inside a command keeps. -/

namespace Sys2Proof.Machine

open Sys2Proof

/-! ### Acceptance (45_system.md R220 to R223) -/

theorem condition_ready {s : State} (h : Ready s) : condition s = .ready := by
  obtain ⟨hb, hp | hp⟩ := h <;> simp [condition, hb, hp]

theorem condition_failed {s : State} (h : Failed s) : condition s = .failed := by
  obtain ⟨hb, hp⟩ := h
  simp [condition, hb, hp]

theorem condition_busy {s : State} (h : s.busy = true) : condition s = .busy := by
  simp [condition, h]

/-- The condition says which of the three cases a state is in. -/
theorem condition_cases (s : State) :
    (condition s = .ready ∧ Ready s) ∨ (condition s = .failed ∧ Failed s) ∨
      (condition s = .busy ∧ ¬Ready s ∧ ¬Failed s) := by
  cases hb : s.busy <;> cases hp : s.phase <;> simp [condition, Ready, Failed, hb, hp]

theorem runCommand_ready (body : State → Micro Unit) {s : State} (h : Ready s) :
    runCommand body s = .next (body (acceptCommand s)).state := by
  simp only [runCommand, condition_ready h]

theorem runCommand_failed (body : State → Micro Unit) {s : State} (h : Failed s) :
    runCommand body s = .next (dropCommand s) := by
  simp only [runCommand, condition_failed h]

theorem runCommand_busy (body : State → Micro Unit) {s : State} (h : s.busy = true) :
    runCommand body s = .refused .hostActsWhileBusy := by
  simp only [runCommand, condition_busy h]

/-- A command that answers a next state was accepted when ready, or dropped in `FAILED`. -/
theorem runCommand_inv {body : State → Micro Unit} {s t : State} (h : runCommand body s = .next t) :
    (Ready s ∧ t = (body (acceptCommand s)).state) ∨ (Failed s ∧ t = dropCommand s) := by
  rcases condition_cases s with ⟨hc, hr⟩ | ⟨hc, hf⟩ | ⟨hc, -, -⟩ <;> simp only [runCommand, hc] at h
  · exact .inl ⟨hr, by simpa using h.symm⟩
  · exact .inr ⟨hf, by simpa using h.symm⟩
  · simp at h

theorem runAlways_ready (f : State → State) {s : State} (h : Ready s) : runAlways f s = .next (f s) := by
  simp only [runAlways, condition_ready h]

theorem runAlways_failed (f : State → State) {s : State} (h : Failed s) : runAlways f s = .next (f s) := by
  simp only [runAlways, condition_failed h]

/-- A command that executes in both resting conditions answers its effect. -/
theorem runAlways_inv {f : State → State} {s t : State} (h : runAlways f s = .next t) :
    (Ready s ∨ Failed s) ∧ t = f s := by
  rcases condition_cases s with ⟨hc, hr⟩ | ⟨hc, hf⟩ | ⟨hc, -, -⟩ <;> simp only [runAlways, hc] at h
  · exact ⟨.inl hr, by simpa using h.symm⟩
  · exact ⟨.inr hf, by simpa using h.symm⟩
  · simp at h

theorem illegalCommand_ready {s : State} (h : Ready s) :
    illegalCommand s = .next (failureEntry .illegalCmd s) := by
  simp only [illegalCommand, condition_ready h]

theorem illegalCommand_failed {s : State} (h : Failed s) : illegalCommand s = .next (dropCommand s) := by
  simp only [illegalCommand, condition_failed h]

/-! ### The order of steps (00_scope.md R18) -/

@[simp] theorem andThen_ok {α β : Type} (a : α) (s : State) (k : α → State → Micro β) :
    (Micro.ok a s).andThen k = k a s := rfl
@[simp] theorem andThen_ended {α β : Type} (s : State) (k : α → State → Micro β) :
    (Micro.ended s : Micro α).andThen k = .ended s := rfl
@[simp] theorem andThen_raise {α β : Type} (c : ErrCode) (s : State) (k : α → State → Micro β) :
    (raise c s : Micro α).andThen k = raise c s := rfl
@[simp] theorem andThen_hang {α β : Type} (s : State) (k : α → State → Micro β) :
    (hang s : Micro α).andThen k = hang s := rfl
@[simp] theorem state_ok {α : Type} (a : α) (s : State) : (Micro.ok a s).state = s := rfl
@[simp] theorem state_ended {α : Type} (s : State) : (Micro.ended s : Micro α).state = s := rfl
@[simp] theorem state_raise {α : Type} (c : ErrCode) (s : State) : (raise c s : Micro α).state = failureEntry c s := rfl
@[simp] theorem state_hang {α : Type} (s : State) :
    (hang s : Micro α).state = { s with busy := true, activity := .hung } := rfl

/-- What a step inside a command answers, as two conditions: on the value and state it goes on with, and on the state
the command ended in. -/
def Micro.Holds {α : Type} (m : Micro α) (goes : α → State → Prop) (ends : State → Prop) : Prop :=
  match m with
  | .ok a s => goes a s
  | .ended s => ends s

theorem Micro.Holds.andThen {α β : Type} {m : Micro α} {k : α → State → Micro β} {P : α → State → Prop}
    {P' : β → State → Prop} {Q : State → Prop} (hm : m.Holds P Q) (hk : ∀ a s, P a s → (k a s).Holds P' Q) :
    (m.andThen k).Holds P' Q := by
  cases m with
  | ok a s => exact hk a s hm
  | ended s => exact hm

theorem Micro.Holds.mono {α : Type} {m : Micro α} {P P' : α → State → Prop} {Q Q' : State → Prop}
    (hm : m.Holds P Q) (hP : ∀ a s, P a s → P' a s) (hQ : ∀ s, Q s → Q' s) : m.Holds P' Q' := by
  cases m with
  | ok a s => exact hP a s hm
  | ended s => exact hQ s hm

/-- Two steps answer a value exactly when each does. -/
theorem andThen_eq_ok {α β : Type} {m : Micro α} {k : α → State → Micro β} {b : β} {t : State} :
    m.andThen k = .ok b t ↔ ∃ a u, m = .ok a u ∧ k a u = .ok b t := by
  cases m <;> simp

/-! ### The streams (20_memory.md R66 to R68) -/

/-- Taking an answer moves the script on or counts a free value, and nothing else. -/
theorem ioTaken_eq (s : State) :
    ∃ script ctr, ioTaken s = { s with ioScript := script, freeCtr := ctr } := by
  unfold ioTaken
  split
  · exact ⟨_, _, rfl⟩
  · exact ⟨_, _, rfl⟩

/-- The two fields `ioTaken` changes, put back together. -/
@[simp] theorem ioTaken_fields (s : State) :
    { s with ioScript := (ioTaken s).ioScript, freeCtr := (ioTaken s).freeCtr } = ioTaken s := by
  unfold ioTaken
  split <;> rfl

/-- Taking an answer depends on the script and the counter alone. -/
theorem ioTaken_congr {s t : State} (h : t.ioScript = s.ioScript) (h' : t.freeCtr = s.freeCtr) :
    ioTaken t = { t with ioScript := (ioTaken s).ioScript, freeCtr := (ioTaken s).freeCtr } := by
  unfold ioTaken
  rw [h]
  cases s.ioScript <;> simp [h']

/-- Taking several answers changes the script and the counter alone. -/
theorem takeAnswers_eq (k : Nat) (s : State) :
    ∃ script ctr, takeAnswers k s = { s with ioScript := script, freeCtr := ctr } := by
  induction k generalizing s with
  | zero => exact ⟨_, _, rfl⟩
  | succ k ih =>
    obtain ⟨a, b, h⟩ := ih (ioTaken s)
    obtain ⟨x, y, hs⟩ := ioTaken_eq s
    exact ⟨a, b, by rw [takeAnswers, h, hs]⟩

/-- Fewer answers are `Ok` when more are. -/
theorem answersOk_mono {j k : Nat} {s : State} (hjk : j ≤ k) (h : answersOk k s) : answersOk j s := by
  induction k generalizing j s with
  | zero =>
    obtain rfl : j = 0 := by omega
    trivial
  | succ k ih =>
    cases j with
    | zero => trivial
    | succ j => exact ⟨h.1, ih (by omega) h.2⟩

/-- The streams' next answer depends on the script and the counter alone. -/
theorem ioAnswer_congr {s t : State} (h : s.ioScript = t.ioScript) (h' : s.freeCtr = t.freeCtr) :
    ioAnswer s = ioAnswer t := by
  unfold ioAnswer
  rw [h, h']

theorem inRead_ok {n : Nat} {s : State} (h : ioAnswer s = .ok) :
    inRead n s = .ok (nextInput n s) { ioTaken s with ipos := s.ipos + (nextInput n s).length } := by
  simp only [inRead, h]

theorem inRead_ioError {n m : Nat} {s : State} (h : ioAnswer s = .ioError m) :
    inRead n s = raise .ioError { ioTaken s with ipos := s.ipos + m } := by
  simp only [inRead, h]

theorem inRead_never {n m : Nat} {s : State} (h : ioAnswer s = .never m) :
    inRead n s = hang { ioTaken s with ipos := s.ipos + m } := by
  simp only [inRead, h]

/-- All that `InRead(n)` can answer. -/
theorem inRead_cases (n : Nat) (s : State) :
    inRead n s = .ok (nextInput n s) { ioTaken s with ipos := s.ipos + (nextInput n s).length } ∨
      (∃ m, inRead n s = raise .ioError { ioTaken s with ipos := s.ipos + m }) ∨
      ∃ m, inRead n s = hang { ioTaken s with ipos := s.ipos + m } := by
  cases h : ioAnswer s with
  | ok => exact .inl (inRead_ok h)
  | ioError m => exact .inr (.inl ⟨m, inRead_ioError h⟩)
  | never m => exact .inr (.inr ⟨m, inRead_never h⟩)

theorem outWrite_ok {v : Bytes} {s : State} (h : ioAnswer s = .ok) :
    outWrite v s = .ok () { ioTaken s with out := s.out ++ v } := by
  simp only [outWrite, h]

theorem outWrite_ioError {v : Bytes} {m : Nat} {s : State} (h : ioAnswer s = .ioError m) :
    outWrite v s = raise .ioError { ioTaken s with out := s.out ++ v.take m } := by
  simp only [outWrite, h]

theorem outWrite_never {v : Bytes} {m : Nat} {s : State} (h : ioAnswer s = .never m) :
    outWrite v s = hang { ioTaken s with out := s.out ++ v.take m } := by
  simp only [outWrite, h]

/-- All that `OutWrite(v)` can answer. -/
theorem outWrite_cases (v : Bytes) (s : State) :
    outWrite v s = .ok () { ioTaken s with out := s.out ++ v } ∨
      (∃ m, outWrite v s = raise .ioError { ioTaken s with out := s.out ++ v.take m }) ∨
      ∃ m, outWrite v s = hang { ioTaken s with out := s.out ++ v.take m } := by
  cases h : ioAnswer s with
  | ok => exact .inl (outWrite_ok h)
  | ioError m => exact .inr (.inl ⟨m, outWrite_ioError h⟩)
  | never m => exact .inr (.inr ⟨m, outWrite_never h⟩)

/-- What the input delivers depends on the input and the cursor alone. -/
theorem nextInput_congr {s t : State} (n : Nat) (h : s.input = t.input) (h' : s.inputEndless = t.inputEndless)
    (h'' : s.ipos = t.ipos) : nextInput n s = nextInput n t := by
  unfold nextInput endlessByte
  rw [h, h', h'']

/-- The input delivers at most what is asked. -/
theorem nextInput_length_le (n : Nat) (s : State) : (nextInput n s).length ≤ n := by
  unfold nextInput
  split <;> simp

/-- A finite input delivers the next bytes of what remains of it. -/
theorem nextInput_finite {n : Nat} {s : State} (h : s.inputEndless = false) :
    nextInput n s = (remaining s).take n := by
  simp [nextInput, h, remaining]

/-- An endless input delivers all that is asked. -/
theorem nextInput_endless_length {n : Nat} {s : State} (h : s.inputEndless = true) :
    (nextInput n s).length = n := by
  simp [nextInput, h]

/-! Acceptance does not touch the environment. -/

theorem ioAnswer_acceptCommand (s : State) : ioAnswer (acceptCommand s) = ioAnswer s := rfl

theorem ioTaken_acceptCommand (s : State) : ioTaken (acceptCommand s) = acceptCommand (ioTaken s) := by
  unfold ioTaken
  cases h : s.ioScript <;> simp [acceptCommand, h]

theorem nextInput_acceptCommand (n : Nat) (s : State) : nextInput n (acceptCommand s) = nextInput n s := rfl

theorem nextInput_ioTaken (n : Nat) (s : State) : nextInput n (ioTaken s) = nextInput n s :=
  nextInput_congr n (by simp) (by simp) (by simp)

/-! The checksum steps of the compress path, as one update. -/

theorem computeUchk_eq (s : State) : computeUchk s = { s with
    hdrUchk := if s.cfg.chkEn then checksum (algOf s.cfg) s.ubuf else s.hdrUchk,
    chkResult := if s.cfg.chkEn then checksum (algOf s.cfg) s.ubuf else s.chkResult } := by
  unfold computeUchk
  split <;> rfl

theorem computeCchk_eq (s : State) : computeCchk s = { s with
    hdrCchk := if s.cfg.chkEn then checksum (algOf s.cfg) s.cbuf else s.hdrCchk,
    chkResult := if s.cfg.chkEn then checksum (algOf s.cfg) s.cbuf else s.chkResult } := by
  unfold computeCchk
  split <;> rfl

/-! ### The frame of the steps inside a command -/

/-- What every step inside a command keeps: the registers no command writes, the error registers, the totals, the
condition, and the invariants of the buffers and streams. -/
structure Going (s t : State) : Prop where
  busy : t.busy = s.busy
  activity : t.activity = s.activity
  phase : t.phase = .failed → s.phase = .failed
  eos : t.phase = .endOfStream → s.phase = .endOfStream
  matched : t.matched = s.matched
  cmdRej : t.cmdRej = s.cmdRej
  cfg : t.cfg = s.cfg
  blockSize : t.blockSize = s.blockSize
  errCode : t.errCode = s.errCode
  errState : t.errState = s.errState
  errPos : t.errPos = s.errPos
  blkCount : t.blkCount = s.blkCount
  blkRead : t.blkRead = s.blkRead
  blkWritten : t.blkWritten = s.blkWritten
  totRead : t.totRead = s.totRead
  totWritten : t.totWritten = s.totWritten
  hdrUchk : s.cfg.chkEn = false → t.hdrUchk = s.hdrUchk
  hdrCchk : s.cfg.chkEn = false → t.hdrCchk = s.hdrCchk
  chkExpect : t.chkExpect = s.chkExpect
  xferLen : t.xferLen = s.xferLen
  platform : t.platform = s.platform
  input : t.input = s.input
  inputEndless : t.inputEndless = s.inputEndless
  ipos : s.ipos ≤ t.ipos
  out : s.out <+: t.out
  diag : s.diag <+: t.diag
  host : t.host = s.host
  hostReads : t.hostReads = s.hostReads
  wfU : s.ubuf.length ≤ s.platform.maxBlockSize → t.ubuf.length ≤ t.platform.maxBlockSize
  wfC : s.cbuf.length ≤ s.platform.cbufCap → t.cbuf.length ≤ t.platform.cbufCap

theorem Going.refl (s : State) : Going s s := by
  constructor <;> simp

theorem Going.trans {s t u : State} (h : Going s t) (k : Going t u) : Going s u where
  busy := k.busy.trans h.busy
  activity := k.activity.trans h.activity
  phase := fun hp => h.phase (k.phase hp)
  eos := fun hp => h.eos (k.eos hp)
  matched := k.matched.trans h.matched
  cmdRej := k.cmdRej.trans h.cmdRej
  cfg := k.cfg.trans h.cfg
  blockSize := k.blockSize.trans h.blockSize
  errCode := k.errCode.trans h.errCode
  errState := k.errState.trans h.errState
  errPos := k.errPos.trans h.errPos
  blkCount := k.blkCount.trans h.blkCount
  blkRead := k.blkRead.trans h.blkRead
  blkWritten := k.blkWritten.trans h.blkWritten
  totRead := k.totRead.trans h.totRead
  totWritten := k.totWritten.trans h.totWritten
  hdrUchk := fun hc => (k.hdrUchk (by rw [h.cfg]; exact hc)).trans (h.hdrUchk hc)
  hdrCchk := fun hc => (k.hdrCchk (by rw [h.cfg]; exact hc)).trans (h.hdrCchk hc)
  chkExpect := k.chkExpect.trans h.chkExpect
  xferLen := k.xferLen.trans h.xferLen
  platform := k.platform.trans h.platform
  input := k.input.trans h.input
  inputEndless := k.inputEndless.trans h.inputEndless
  ipos := h.ipos.trans k.ipos
  out := h.out.trans k.out
  diag := h.diag.trans k.diag
  host := k.host.trans h.host
  hostReads := k.hostReads.trans h.hostReads
  wfU := fun hw => k.wfU (h.wfU hw)
  wfC := fun hw => k.wfC (h.wfC hw)

/-- Every step inside a command keeps the buffers within their capacities. -/
theorem Going.wf {s t : State} (h : Going s t) (hw : Memory.wf s) : Memory.wf t := ⟨h.wfU hw.1, h.wfC hw.2⟩

/-- A step inside a command that writes nothing to the output. -/
abbrev Quiet (s t : State) : Prop := Going s t ∧ t.out = s.out

theorem Quiet.refl (s : State) : Quiet s s := ⟨Going.refl s, rfl⟩

theorem Quiet.trans {s t u : State} (h : Quiet s t) (k : Quiet t u) : Quiet s u :=
  ⟨h.1.trans k.1, k.2.trans h.2⟩

/-- How a command that began in `s` ends early: by a failure entry, whose cause is `IO_ERROR` if any output was
written, or by a request that is never answered. -/
def Ends (s t : State) : Prop :=
  ∃ u, Going s u ∧
    ((∃ c, c ≠ .none ∧ c ≠ .illegalOperand ∧ (c = .ioError ∨ u.out = s.out) ∧ t = failureEntry c u) ∨
      t = { u with busy := true, activity := .hung })

theorem Quiet.ends {s t u : State} (h : Quiet s t) (k : Ends t u) : Ends s u := by
  obtain ⟨v, hv, hk⟩ := k
  refine ⟨v, h.1.trans hv, ?_⟩
  rcases hk with ⟨c, h1, h2, h3, h4⟩ | h4
  · exact .inl ⟨c, h1, h2, by rwa [h.2] at h3, h4⟩
  · exact .inr h4

theorem Quiet.ends_raise {s t : State} (h : Quiet s t) {c : ErrCode} (h1 : c ≠ .none) (h2 : c ≠ .illegalOperand) :
    Ends s (failureEntry c t) := ⟨t, h.1, .inl ⟨c, h1, h2, .inr h.2, rfl⟩⟩

theorem Going.ends_hang {s t : State} (h : Going s t) : Ends s { t with busy := true, activity := .hung } :=
  ⟨t, h, .inr rfl⟩

theorem Going.ends_ioError {s t : State} (h : Going s t) : Ends s (failureEntry .ioError t) :=
  ⟨t, h, .inl ⟨_, by simp, by simp, .inl rfl, rfl⟩⟩

/-- Steps in a row, all but the last of them quiet. -/
theorem Micro.Holds.andThen_quiet {α β : Type} {m : Micro α} {k : α → State → Micro β} {s : State}
    {P : α → State → Prop} {P' : β → State → Prop}
    (hm : m.Holds (fun a t => Quiet s t ∧ P a t) (Ends s))
    (hk : ∀ a t, Quiet s t → P a t → (k a t).Holds P' (Ends t)) : (m.andThen k).Holds P' (Ends s) := by
  cases m with
  | ok a t =>
    have := hk a t hm.1 hm.2
    cases hkt : k a t with
    | ok b u => simpa [Micro.Holds, hkt] using this
    | ended u =>
      simp only [andThen_ok, hkt, Micro.Holds] at this ⊢
      exact hm.1.ends this
  | ended t => exact hm

theorem going_ioTaken (s : State) : Going s (ioTaken s) := by
  constructor <;> simp

theorem quiet_setPhase {p : Phase} (hp : p ≠ .failed ∧ p ≠ .endOfStream) (s : State) : Quiet s (setPhase p s) := by
  refine ⟨?_, rfl⟩
  constructor <;> simp [hp]

theorem quiet_computeUchk (s : State) : Quiet s (computeUchk s) := by
  refine ⟨?_, by simp⟩
  unfold computeUchk
  split <;> constructor <;> simp_all

theorem quiet_computeCchk (s : State) : Quiet s (computeCchk s) := by
  refine ⟨?_, by simp⟩
  unfold computeCchk
  split <;> constructor <;> simp_all

theorem quiet_setSizes (n : Nat) (s : State) : Quiet s (setSizes n s) := by
  refine ⟨?_, rfl⟩
  constructor <;> simp

theorem quiet_setChkResult (c : Word) (s : State) : Quiet s (setChkResult c s) := by
  refine ⟨?_, rfl⟩
  constructor <;> simp

theorem quiet_storeHeader (h : Bytes) (s : State) : Quiet s (storeHeader h s) := by
  refine ⟨?_, by simp⟩
  unfold storeHeader
  dsimp only
  split <;> constructor <;> simp_all

/-- `InRead(n)`: the cursor moves on, and a whole answer moves it by what is delivered. -/
theorem inRead_holds (n : Nat) (s : State) :
    (inRead n s).Holds
      (fun v t => Quiet s t ∧ (v = nextInput n s ∧ t = { ioTaken s with ipos := s.ipos + v.length })) (Ends s) := by
  have hq : ∀ m, Quiet s { ioTaken s with ipos := s.ipos + m } := fun m => by
    refine ⟨?_, by simp⟩
    constructor <;> simp
  rcases inRead_cases n s with h | ⟨m, h⟩ | ⟨m, h⟩ <;> rw [h]
  · exact ⟨hq _, rfl, rfl⟩
  · exact (hq m).1.ends_ioError
  · exact (hq m).1.ends_hang

/-- `OutWrite(v)`: the output grows, by `v` in a whole answer. -/
theorem outWrite_holds (v : Bytes) (s : State) :
    (outWrite v s).Holds (fun _ t => Going s t ∧ t = { ioTaken s with out := s.out ++ v }) (Ends s) := by
  have hq : ∀ w, Going s { ioTaken s with out := s.out ++ w } := fun w => by constructor <;> simp
  rcases outWrite_cases v s with h | ⟨m, h⟩ | ⟨m, h⟩ <;> rw [h]
  · exact ⟨hq _, rfl⟩
  · exact (hq _).ends_ioError
  · exact (hq _).ends_hang

/-! ### The ports (10_state.md R48, R49) -/

/-- A filter port's answer: `UBUF` keeps its length. -/
theorem takeFilterAnswer_holds (r : PortAnswer) (s : State) :
    (takeFilterAnswer r s).Holds
      (fun _ t => Quiet s t ∧ ∃ b, r = .bytes b ∧ b.length = s.ubuf.length ∧ t = { s with ubuf := b }) (Ends s) := by
  have hq : ∀ b : Bytes, b.length = s.ubuf.length → Quiet s { s with ubuf := b } := fun b hb => by
    refine ⟨?_, rfl⟩
    constructor <;> simp [hb]
  have hs : Quiet s (scrambleUbuf s) := by
    refine ⟨?_, by simp⟩
    constructor <;> simp [scrambleUbuf]
  cases r with
  | bytes b =>
    by_cases hb : b.length = s.ubuf.length
    · simp only [takeFilterAnswer, if_pos hb]
      exact ⟨hq b hb, b, rfl, hb, rfl⟩
    · simpa [takeFilterAnswer, hb, Micro.Holds, raise] using hs.ends_raise (c := .filterError) (by simp) (by simp)
  | fail => exact hs.ends_raise (c := .filterError) (by simp) (by simp)
  | never => exact hs.1.ends_hang

theorem applyFwd_holds (s : State) :
    (applyFwd s).Holds (fun _ t => Quiet s t ∧ ∃ b, encodeFilter s.cfg s.platform s.ubuf = .bytes b ∧
      b.length = s.ubuf.length ∧ t = { s with ubuf := b }) (Ends s) := by
  unfold applyFwd encodeFilter
  split
  · exact takeFilterAnswer_holds _ s
  · exact ⟨Quiet.refl s, s.ubuf, rfl, rfl, rfl⟩

theorem applyInv_holds (s : State) :
    (applyInv s).Holds (fun _ t => Quiet s t ∧ ∃ b, decodeFilter s.cfg s.platform s.ubuf = .bytes b ∧
      b.length = s.ubuf.length ∧ t = { s with ubuf := b }) (Ends s) := by
  unfold applyInv decodeFilter
  split
  · exact takeFilterAnswer_holds _ s
  · exact ⟨Quiet.refl s, s.ubuf, rfl, rfl, rfl⟩

theorem applyFwd_ok {s : State} {f : Bytes} (h : encodeFilter s.cfg s.platform s.ubuf = .bytes f)
    (hl : f.length = s.ubuf.length) : applyFwd s = .ok () { s with ubuf := f } := by
  unfold encodeFilter at h
  unfold applyFwd
  split at h
  · rename_i hf
    simp only [hf, if_true, h, takeFilterAnswer, if_pos hl]
  · rename_i hf
    simp only [if_neg hf]
    injection h with h
    subst h
    rfl

theorem applyInv_ok {s : State} {f : Bytes} (h : decodeFilter s.cfg s.platform s.ubuf = .bytes f)
    (hl : f.length = s.ubuf.length) : applyInv s = .ok () { s with ubuf := f } := by
  unfold decodeFilter at h
  unfold applyInv
  split at h
  · rename_i hf
    simp only [hf, if_true, h, takeFilterAnswer, if_pos hl]
  · rename_i hf
    simp only [if_neg hf]
    injection h with h
    subst h
    rfl

theorem applyFwd_error {s : State} (h : encodeFilter s.cfg s.platform s.ubuf = .fail ∨
    ∃ f, encodeFilter s.cfg s.platform s.ubuf = .bytes f ∧ f.length ≠ s.ubuf.length) :
    applyFwd s = raise .filterError (scrambleUbuf s) := by
  unfold encodeFilter at h
  unfold applyFwd
  split at h
  · rename_i hf
    rcases h with h | ⟨f, h, hl⟩
    · simp only [hf, if_true, h, takeFilterAnswer]
    · simp only [hf, if_true, h, takeFilterAnswer, if_neg hl]
  · simp at h

theorem applyInv_error {s : State} (h : decodeFilter s.cfg s.platform s.ubuf = .fail ∨
    ∃ f, decodeFilter s.cfg s.platform s.ubuf = .bytes f ∧ f.length ≠ s.ubuf.length) :
    applyInv s = raise .filterError (scrambleUbuf s) := by
  unfold decodeFilter at h
  unfold applyInv
  split at h
  · rename_i hf
    rcases h with h | ⟨f, h, hl⟩
    · simp only [hf, if_true, h, takeFilterAnswer]
    · simp only [hf, if_true, h, takeFilterAnswer, if_neg hl]
  · simp at h

theorem doCompress_ok {s : State} {r : Bytes} (h : lzoCompress s.platform (compressRequest s) = .bytes r)
    (hl : r.length ≤ s.platform.cbufCap) : doCompress s = .ok () { s with cbuf := r } := by
  simp only [doCompress, h, if_neg (Nat.not_lt.mpr hl)]

theorem doCompress_error {s : State} (h : lzoCompress s.platform (compressRequest s) = .fail ∨
    ∃ r, lzoCompress s.platform (compressRequest s) = .bytes r ∧ s.platform.cbufCap < r.length) :
    doCompress s = raise .compressionError s := by
  rcases h with h | ⟨r, h, hl⟩
  · simp only [doCompress, h]
  · simp only [doCompress, h, if_pos hl]

theorem doDecompress_ok {n : Nat} {s : State} {r : Bytes}
    (h : lzoDecompress s.platform (decompressRequest n s) = .bytes r) (hl : r.length = n) :
    doDecompress n s = .ok () { s with ubuf := r } := by
  simp only [doDecompress, h, if_pos hl]

theorem doDecompress_error {n : Nat} {s : State} (h : lzoDecompress s.platform (decompressRequest n s) = .fail ∨
    ∃ r, lzoDecompress s.platform (decompressRequest n s) = .bytes r ∧ r.length ≠ n) :
    doDecompress n s = raise .decompressionError s := by
  rcases h with h | ⟨r, h, hl⟩
  · simp only [doDecompress, h]
  · simp only [doDecompress, h, if_neg hl]

/-- `DoCompress`: a whole answer leaves in `CBUF` at most `CBUF_CAP` bytes and changes nothing else. -/
theorem doCompress_holds (s : State) :
    (doCompress s).Holds
      (fun _ t => Quiet s t ∧ (∃ r, t = { s with cbuf := r } ∧ r.length ≤ s.platform.cbufCap ∧
        lzoCompress s.platform (compressRequest s) = .bytes r)) (Ends s) := by
  unfold doCompress
  split
  · rename_i r hr
    split
    · exact (Quiet.refl s).ends_raise (by simp) (by simp)
    · rename_i hl
      have hl : r.length ≤ s.platform.cbufCap := by omega
      refine ⟨⟨?_, rfl⟩, r, rfl, hl, hr⟩
      constructor <;> simp +contextual [hl]
  · exact (Quiet.refl s).ends_raise (by simp) (by simp)
  · exact (Going.refl s).ends_hang

/-- `DoDecompress(n)`: a whole answer leaves `n` bytes in `UBUF` and changes nothing else. -/
theorem doDecompress_holds (n : Nat) (s : State) (hn : n ≤ s.platform.maxBlockSize) :
    (doDecompress n s).Holds
      (fun _ t => Quiet s t ∧ (∃ r, t = { s with ubuf := r } ∧ r.length = n ∧
        lzoDecompress s.platform (decompressRequest n s) = .bytes r)) (Ends s) := by
  unfold doDecompress
  split
  · rename_i r hr
    split
    · rename_i hl
      refine ⟨⟨?_, rfl⟩, r, rfl, hl, hr⟩
      constructor <;> simp +contextual [hl, hn]
    · exact (Quiet.refl s).ends_raise (by simp) (by simp)
  · exact (Quiet.refl s).ends_raise (by simp) (by simp)
  · exact (Going.refl s).ends_hang

end Sys2Proof.Machine
end

