-- ==== Sys2Proof/Laws/Blocks.lean ====
section
/-! SUPPORT. The byte order of the header fields, and what parsing, the checksum slots and one block of either path can
do, said once. -/

namespace Sys2Proof.Machine

open Sys2Proof

/-! ### Byte order and headers (00_scope.md R17, 30_encoding.md R101, R102) -/

@[simp] theorem be32_length (v : Word) : (be32 v).length = 4 := rfl

theorem unbe32_be32 (v : Word) : unbe32 (be32 v) = v := by
  ext i hi
  simp [unbe32, be32]
  grind

@[simp] theorem recordHeader_length (en : Bool) (us cs uc cc : Word) :
    (recordHeader en us cs uc cc).length = if en then 16 else 8 := by
  cases en <;> rfl

theorem headerField_zero (en : Bool) (us cs uc cc : Word) : headerField (recordHeader en us cs uc cc) 0 = us := by
  have : (recordHeader en us cs uc cc).take 4 = be32 us := by cases en <;> rfl
  simp [headerField, this, unbe32_be32]

theorem headerField_one (en : Bool) (us cs uc cc : Word) : headerField (recordHeader en us cs uc cc) 1 = cs := by
  have : ((recordHeader en us cs uc cc).drop 4).take 4 = be32 cs := by cases en <;> rfl
  simp [headerField, this, unbe32_be32]

theorem headerField_two (us cs uc cc : Word) : headerField (recordHeader true us cs uc cc) 2 = uc := by
  have : ((recordHeader true us cs uc cc).drop 8).take 4 = be32 uc := rfl
  simp [headerField, this, unbe32_be32]

theorem headerField_three (us cs uc cc : Word) : headerField (recordHeader true us cs uc cc) 3 = cc := by
  have : ((recordHeader true us cs uc cc).drop 12).take 4 = be32 cc := rfl
  simp [headerField, this, unbe32_be32]

/-- Storing the header of a record puts its fields in the header registers. -/
theorem storeHeader_recordHeader (s : State) (us cs uc cc : Word) :
    storeHeader (recordHeader s.cfg.chkEn us cs uc cc) s = { s with
      hdrUsize := us, hdrCsize := cs, hdrUchk := if s.cfg.chkEn then uc else s.hdrUchk,
      hdrCchk := if s.cfg.chkEn then cc else s.hdrCchk } := by
  cases h : s.cfg.chkEn
  · simp [storeHeader, h, headerField_zero, headerField_one]
  · simp [storeHeader, h, headerField_zero, headerField_one, headerField_two, headerField_three]

/-- The header length is that of the record's header part. -/
theorem headerLen_eq (c : Cfg) (us cs uc cc : Word) : (recordHeader c.chkEn us cs uc cc).length = headerLen c := by
  simp [headerLen]

theorem headerLen_pos (c : Cfg) : 0 < headerLen c := by
  unfold headerLen
  split <;> omega

theorem headerLen_le (c : Cfg) : headerLen c ≤ 16 := by
  unfold headerLen
  split <;> omega

/-! ### Parsing (42_framing.md R155 to R157) -/

/-- `ParseHeader`: the end of the input, or a well-formed header of which all bytes are consumed. -/
theorem parseHeader_holds (s : State) :
    (parseHeader s).Holds (fun a t => Quiet s t ∧
      ((a = .eos ∧ nextInput (headerLen s.cfg) s = [] ∧ t = ioTaken s) ∨
        (a = .header ∧ (nextInput (headerLen s.cfg) s).length = headerLen s.cfg ∧ t.phase = .haveHeader ∧
          t.ipos = s.ipos + headerLen s.cfg ∧ t.hdrUsize.toNat ≤ s.platform.maxBlockSize ∧
          t.hdrCsize.toNat ≤ s.platform.cbufCap ∧ t.ubuf = s.ubuf ∧ t.cbuf = s.cbuf ∧ t.diag = s.diag))) (Ends s) := by
  have hi : ∀ m, Quiet s { ioTaken s with ipos := s.ipos + m } := fun m => by
    refine ⟨?_, by simp⟩
    constructor <;> simp
  unfold parseHeader
  rcases inRead_cases (headerLen s.cfg) s with h | ⟨m, h⟩ | ⟨m, h⟩ <;> rw [h]
  · have hq := hi (nextInput (headerLen s.cfg) s).length
    have hle := nextInput_length_le (headerLen s.cfg) s
    generalize nextInput (headerLen s.cfg) s = v at *
    simp only [andThen_ok]
    split
    · rename_i h0
      have h0 := List.length_eq_zero_iff.mp h0
      subst h0
      exact ⟨by simpa using hq, .inl ⟨rfl, rfl, by simp⟩⟩
    · split
      · exact hq.ends_raise (c := .framingError) (by simp) (by simp)
      · rename_i h0 h1
        simp only [ioTaken_cfg] at h1
        split
        · exact (hq.trans (quiet_storeHeader _ _)).ends_raise (by simp) (by simp)
        · rename_i h2
          have hl : v.length = headerLen s.cfg := by omega
          refine ⟨(hq.trans (quiet_storeHeader _ _)).trans (quiet_setPhase (by simp) _), .inr ⟨rfl, hl, rfl, ?_⟩⟩
          simp [malformedHeader] at h2
          simp [hl]
          simpa using h2
  · exact (hi m).1.ends_ioError
  · exact (hi m).1.ends_hang

/-- `ParseHeader` on an exhausted input. -/
theorem parseHeader_eos {s : State} (ha : ioAnswer s = .ok) (h : nextInput (headerLen s.cfg) s = []) :
    parseHeader s = .ok .eos (ioTaken s) := by
  simp [parseHeader, inRead_ok ha, h]

/-- `ParseHeader` on the bytes of a header part. -/
theorem parseHeader_header {s : State} {us cs uc cc : Word} (ha : ioAnswer s = .ok)
    (h : nextInput (headerLen s.cfg) s = recordHeader s.cfg.chkEn us cs uc cc)
    (hu : us.toNat ≤ s.platform.maxBlockSize) (hc : cs.toNat ≤ s.platform.cbufCap) :
    parseHeader s = .ok .header { ioTaken s with
      ipos := s.ipos + headerLen s.cfg, hdrUsize := us, hdrCsize := cs,
      hdrUchk := if s.cfg.chkEn then uc else s.hdrUchk,
      hdrCchk := if s.cfg.chkEn then cc else s.hdrCchk, phase := .haveHeader } := by
  have hp := headerLen_pos s.cfg
  obtain ⟨script, ctr, ht⟩ := ioTaken_eq s
  have hs := storeHeader_recordHeader { s with ioScript := script, freeCtr := ctr, ipos := s.ipos + headerLen s.cfg }
    us cs uc cc
  simp only [parseHeader, inRead_ok ha, andThen_ok, h, headerLen_eq, ht, hs]
  rw [if_neg (by omega), if_neg (by simp), if_neg (by simp [malformedHeader, hu, hc])]
  rfl

/-- `ReadPayload` on an input that holds the whole payload. -/
theorem readPayload_ok {s : State} {p : Bytes} (ha : ioAnswer s = .ok) (h : nextInput s.hdrCsize.toNat s = p)
    (hp : p.length = s.hdrCsize.toNat) :
    readPayload s = .ok () { ioTaken s with ipos := s.ipos + p.length, cbuf := p, phase := .payloadRead } := by
  simp [readPayload, inRead_ok ha, h, hp, setPhase]

/-- `ReadPayload`: `HDR_CSIZE` bytes are in `CBUF` and the cursor has passed them. -/
theorem readPayload_holds (s : State) (hc : s.hdrCsize.toNat ≤ s.platform.cbufCap) :
    (readPayload s).Holds (fun _ t => Quiet s t ∧
      (t.ipos = s.ipos + s.hdrCsize.toNat ∧ t.cbuf = nextInput s.hdrCsize.toNat s ∧
        t.cbuf.length = s.hdrCsize.toNat ∧ t.phase = .payloadRead ∧ t.hdrUsize = s.hdrUsize ∧
        t.hdrCsize = s.hdrCsize ∧ t.ubuf = s.ubuf ∧ t.diag = s.diag)) (Ends s) := by
  unfold readPayload
  refine (inRead_holds s.hdrCsize.toNat s).andThen_quiet ?_
  rintro v t hq ⟨rfl, ht⟩
  have hle := nextInput_length_le s.hdrCsize.toNat s
  have hs : t.hdrCsize = s.hdrCsize := by rw [ht]; simp
  simp only [hs]
  split
  · exact (Quiet.refl t).ends_raise (by simp) (by simp)
  · have hl : (nextInput s.hdrCsize.toNat s).length = s.hdrCsize.toNat := by omega
    subst ht
    refine ⟨⟨?_, by simp [setPhase]⟩, by simp [hl, setPhase]⟩
    constructor <;> simp [setPhase, hl, hc]

/-! ### The checksum slots (43_block_codec.md R185 to R189) -/

theorem quiet_diagEmit (r : DiagRecord) (s : State) : Quiet s (diagEmit r s) := by
  refine ⟨?_, rfl⟩
  constructor <;> simp

theorem quiet_setWarn (w : Slot) (s : State) : Quiet s (setWarn w s) := by
  refine ⟨?_, by simp⟩
  constructor <;> simp

theorem setPhase_same (s : State) : setPhase s.phase s = s := rfl

/-- `CheckSlot`: `CHK_RESULT` is the computed value, and the buffers, the header registers and the cursor are kept. -/
theorem checkSlot_holds (w : Slot) (b : Bytes) (e : Word) (pos : DWord) (s : State) :
    (checkSlot w b e pos s).Holds (fun _ t => Quiet s t ∧
      (t.ubuf = s.ubuf ∧ t.cbuf = s.cbuf ∧ t.hdrUsize = s.hdrUsize ∧ t.hdrCsize = s.hdrCsize ∧ t.ipos = s.ipos ∧
        t.phase = s.phase ∧ t.chkResult = checksum (algOf s.cfg) b)) (Ends s) := by
  have hq := quiet_setChkResult (checksum (algOf s.cfg) b) s
  unfold checkSlot
  split
  · exact ⟨hq, by simp⟩
  · unfold applyPolicy
    split
    · exact hq.ends_raise (c := .checksumMismatch) (by simp) (by simp)
    · exact ⟨(hq.trans (quiet_diagEmit _ _)).trans (quiet_setWarn _ _), by simp⟩
    · exact ⟨hq, by simp⟩

/-- A slot that matches: only `CHK_RESULT` changes, whatever the policy. -/
theorem checkSlot_match {w : Slot} {b : Bytes} {e : Word} {pos : DWord} {s : State}
    (h : checksum (algOf s.cfg) b = e) : checkSlot w b e pos s = .ok () { s with chkResult := e } := by
  simp [checkSlot, h, setChkResult]

theorem checkCompressed_holds (pos : DWord) (s : State) :
    (checkCompressed pos s).Holds (fun _ t => Quiet s t ∧
      (t.ubuf = s.ubuf ∧ t.cbuf = s.cbuf ∧ t.hdrUsize = s.hdrUsize ∧ t.hdrCsize = s.hdrCsize ∧ t.ipos = s.ipos ∧
        t.phase = s.phase)) (Ends s) := by
  unfold checkCompressed
  split
  · exact (checkSlot_holds _ _ _ _ s).mono (fun _ t h => ⟨h.1, by simp [h.2]⟩) fun _ h => h
  · exact ⟨Quiet.refl s, by simp⟩

theorem checkUncompressed_holds (pos : DWord) (s : State) :
    (checkUncompressed pos s).Holds (fun _ t => Quiet s t ∧
      (t.ubuf = s.ubuf ∧ t.cbuf = s.cbuf ∧ t.hdrUsize = s.hdrUsize ∧ t.hdrCsize = s.hdrCsize ∧ t.ipos = s.ipos ∧
        t.phase = s.phase)) (Ends s) := by
  unfold checkUncompressed
  split
  · exact (checkSlot_holds _ _ _ _ s).mono (fun _ t h => ⟨h.1, by simp [h.2]⟩) fun _ h => h
  · exact ⟨Quiet.refl s, by simp⟩

/-! ### One block (43_block_codec.md R177, R182) -/

/-- Compress steps 2 to 7: a record of the filtered and compressed block. -/
theorem compressLoaded_holds (n : Nat) (s : State) :
    (compressLoaded n s).Holds (fun _ t =>
      ∃ u, Going s u ∧ u.phase = .cEmitted ∧ u.ipos = s.ipos ∧ u.ubuf.length = s.ubuf.length ∧
        u.cbuf.length ≤ s.platform.cbufCap ∧ u.hdrUsize = BitVec.ofNat 32 n ∧ u.hdrCsize = clen u ∧
        u.out = s.out ++ currentRecord u ∧
        t = complete n (headerLen s.cfg + u.cbuf.length) 1 (setPhase .idle u)) (Ends s) := by
  unfold compressLoaded
  refine (applyFwd_holds s).andThen_quiet ?_
  rintro - t h1 ⟨f, -, hf, ht⟩
  have h2 : Quiet t (setPhase .cUchk (computeUchk (setPhase .cFiltered t))) :=
    ((quiet_setPhase (by simp) _).trans (quiet_computeUchk _)).trans (quiet_setPhase (by simp) _)
  have hvi : (setPhase .cUchk (computeUchk (setPhase .cFiltered t))).ipos = s.ipos := by simp [ht]
  have hvu : (setPhase .cUchk (computeUchk (setPhase .cFiltered t))).ubuf.length = s.ubuf.length := by simp [ht, hf]
  have hvp := (h1.trans h2).1.platform
  have hvc := (h1.trans h2).1.cfg
  have hvo := (h1.trans h2).2
  generalize setPhase .cUchk (computeUchk (setPhase .cFiltered t)) = v at *
  refine Micro.Holds.mono ?_ (fun _ _ h => h) (fun u (h : Ends v u) => h2.ends h)
  refine (doCompress_holds v).andThen_quiet ?_
  rintro - w h3 ⟨r, hw, hr, -⟩
  have h4 : Quiet w (setSizes n (setPhase .cCchk (computeCchk (setPhase .cCompressed w)))) :=
    (((quiet_setPhase (by simp) _).trans (quiet_computeCchk _)).trans (quiet_setPhase (by simp) _)).trans
      (quiet_setSizes _ _)
  have hx := Quiet.trans h3 h4
  have hxi : (setSizes n (setPhase .cCchk (computeCchk (setPhase .cCompressed w)))).ipos = v.ipos := by simp [hw]
  have hxu : (setSizes n (setPhase .cCchk (computeCchk (setPhase .cCompressed w)))).ubuf = v.ubuf := by simp [hw]
  have hxc : (setSizes n (setPhase .cCchk (computeCchk (setPhase .cCompressed w)))).cbuf = r := by simp [hw]
  have hxs : (setSizes n (setPhase .cCchk (computeCchk (setPhase .cCompressed w)))).hdrUsize = BitVec.ofNat 32 n ∧
    (setSizes n (setPhase .cCchk (computeCchk (setPhase .cCompressed w)))).hdrCsize = BitVec.ofNat 32 r.length := by
    simp [hw, clen]
  generalize setSizes n (setPhase .cCchk (computeCchk (setPhase .cCompressed w))) = x at *
  refine Micro.Holds.mono ?_ (fun _ _ h => h) (fun u (h : Ends x u) => h4.ends h)
  have hout := outWrite_holds (currentRecord x) x
  unfold emitRecord
  cases ho : outWrite (currentRecord x) x with
  | ended y => simpa [ho, Micro.Holds] using hout
  | ok a y =>
    simp only [ho, Micro.Holds] at hout
    obtain ⟨h5, hy⟩ := hout
    have hyr : currentRecord (setPhase .cEmitted y) = currentRecord x := by simp [hy, currentRecord]
    refine ⟨setPhase .cEmitted y,
      (((h1.trans h2).trans hx).1.trans h5).trans (quiet_setPhase (by simp) y).1, rfl, ?_, ?_, ?_, ?_, ?_, ?_, ?_⟩
    · simp [hy, hxi, hvi]
    · simp [hy, hxu, hvu]
    · simpa [hy, hxc, ← hvp] using hr
    · simp [hy, hxs]
    · simp [hy, hxs, hxc, clen]
    · rw [hyr]
      simp [hy, hx.2, hvo]
    · simp [hy, hxc, hx.1.cfg, hvc]


theorem blockRequest_le (s : State) : blockRequest s ≤ s.platform.maxBlockSize := Nat.min_le_right _ _

/-- `COMPRESS_BLOCK`'s body: the end of the input, or a record of what was read. -/
theorem compressBody_holds (s : State) :
    (compressBody s).Holds (fun _ t =>
      (nextInput (blockRequest s) s = [] ∧ t = finishEos (ioTaken s)) ∨
      (nextInput (blockRequest s) s ≠ [] ∧
        ∃ u, Going s u ∧ u.phase = .cEmitted ∧ u.ipos = s.ipos + (nextInput (blockRequest s) s).length ∧
          u.ubuf.length = (nextInput (blockRequest s) s).length ∧ u.cbuf.length ≤ s.platform.cbufCap ∧
          u.hdrUsize = BitVec.ofNat 32 (nextInput (blockRequest s) s).length ∧ u.hdrCsize = clen u ∧
          u.out = s.out ++ currentRecord u ∧
          t = complete (nextInput (blockRequest s) s).length (headerLen s.cfg + u.cbuf.length) 1
            (setPhase .idle u))) (Ends s) := by
  unfold compressBody
  refine (inRead_holds (blockRequest s) s).andThen_quiet ?_
  rintro v t hq ⟨rfl, ht⟩
  have hle := (nextInput_length_le (blockRequest s) s).trans (blockRequest_le s)
  generalize nextInput (blockRequest s) s = v at *
  split
  · rename_i h0
    rw [List.length_eq_zero_iff] at h0
    refine .inl ⟨h0, ?_⟩
    subst h0
    rw [ht]
    simp
  · rename_i h0
    have hv : v ≠ [] := fun hn => h0 (by simp [hn])
    have hx : Quiet t (setPhase .inputRead { t with ubuf := v }) := by
      refine ⟨?_, rfl⟩
      constructor <;> simp [setPhase]
      exact fun _ => by rw [hq.1.platform]; exact hle
    have hxi : (setPhase .inputRead { t with ubuf := v }).ipos = s.ipos + v.length := by simp [ht, setPhase]
    have hxu : (setPhase .inputRead { t with ubuf := v }).ubuf = v := rfl
    generalize setPhase .inputRead { t with ubuf := v } = x at *
    refine (compressLoaded_holds v.length x).mono ?_ (fun u h => hx.ends h)
    rintro - y ⟨u, h1, h2, h3, h4, h5, h6, h7, h8, h9⟩
    refine .inr ⟨hv, u, (hq.trans hx).1.trans h1, h2, ?_, ?_, ?_, h6, h7, ?_, ?_⟩
    · rw [h3, hxi]
    · rw [h4, hxu]
    · rw [← (hq.trans hx).1.platform]; exact h5
    · rw [h8, (hq.trans hx).2]
    · rw [h9, (hq.trans hx).1.cfg]

/-- Decompress steps 2 to 8: the block of the record whose header has been parsed. -/
theorem decompressParsed_holds (pos : DWord) (s : State) (hu : s.hdrUsize.toNat ≤ s.platform.maxBlockSize)
    (hc : s.hdrCsize.toNat ≤ s.platform.cbufCap) :
    (decompressParsed pos s).Holds (fun _ t =>
      ∃ u, Going s u ∧ u.phase = .emitted ∧ u.ipos = s.ipos + s.hdrCsize.toNat ∧ u.hdrUsize = s.hdrUsize ∧
        u.hdrCsize = s.hdrCsize ∧ u.cbuf.length = s.hdrCsize.toNat ∧ u.ubuf.length = s.hdrUsize.toNat ∧
        u.out = s.out ++ u.ubuf ∧
        t = complete (headerLen s.cfg + s.hdrCsize.toNat) s.hdrUsize.toNat 1 (setPhase .idle u)) (Ends s) := by
  unfold decompressParsed
  refine (readPayload_holds s hc).andThen_quiet ?_
  rintro - t1 q1 ⟨i1, -, c1, -, us1, cs1, -, -⟩
  refine (checkCompressed_holds pos t1).andThen_quiet ?_
  rintro - t2 q2 ⟨-, c2, us2, cs2, i2, -⟩
  have q3 : Quiet t2 (setPhase .chkCChecked t2) := quiet_setPhase (by simp) t2
  have p3 := ((q1.trans q2).trans q3).1.platform
  refine Micro.Holds.mono ?_ (fun _ _ h => h) (fun u (h : Ends (setPhase .chkCChecked t2) u) => q3.ends h)
  refine (doDecompress_holds _ _ (by rw [p3, us2, us1]; exact hu)).andThen_quiet ?_
  rintro - t4 q4 ⟨d, h4, hd, -⟩
  have q5 : Quiet t4 (setPhase .decompressed t4) := quiet_setPhase (by simp) t4
  refine Micro.Holds.mono ?_ (fun _ _ h => h) (fun u (h : Ends (setPhase .decompressed t4) u) => q5.ends h)
  refine (checkUncompressed_holds pos _).andThen_quiet ?_
  rintro - t6 q6 ⟨u6, c6, us6, cs6, i6, -⟩
  have q7 : Quiet t6 (setPhase .chkUChecked t6) := quiet_setPhase (by simp) t6
  refine Micro.Holds.mono ?_ (fun _ _ h => h) (fun u (h : Ends (setPhase .chkUChecked t6) u) => q7.ends h)
  refine (applyInv_holds _).andThen_quiet ?_
  rintro - t8 q8 ⟨f, -, hf, h8⟩
  have q9 : Quiet t8 (setPhase .filtered t8) := quiet_setPhase (by simp) t8
  refine Micro.Holds.mono ?_ (fun _ _ h => h) (fun u (h : Ends (setPhase .filtered t8) u) => q9.ends h)
  have hq : Quiet s (setPhase .filtered t8) :=
    (((((((q1.trans q2).trans q3).trans q4).trans q5).trans q6).trans q7).trans q8).trans q9
  have hxi : (setPhase .filtered t8).ipos = s.ipos + s.hdrCsize.toNat := by simp [h8, i6, h4, i2, i1]
  have hxu : (setPhase .filtered t8).ubuf.length = s.hdrUsize.toNat := by simp [h8, hf, u6, h4, hd, us2, us1]
  have hxc : (setPhase .filtered t8).cbuf.length = s.hdrCsize.toNat := by simp [h8, c6, h4, c2, c1]
  have hxus : (setPhase .filtered t8).hdrUsize = s.hdrUsize := by simp [h8, us6, h4, us2, us1]
  have hxcs : (setPhase .filtered t8).hdrCsize = s.hdrCsize := by simp [h8, cs6, h4, cs2, cs1]
  have hu8 : t8.ubuf = (setPhase .filtered t8).ubuf := rfl
  rw [hu8]
  generalize setPhase .filtered t8 = x at *
  have hout := outWrite_holds x.ubuf x
  cases ho : outWrite x.ubuf x with
  | ended y => simpa [ho, Micro.Holds] using hout
  | ok a y =>
    simp only [ho, Micro.Holds] at hout
    obtain ⟨h5, hy⟩ := hout
    refine ⟨setPhase .emitted y, (hq.1.trans h5).trans (quiet_setPhase (by simp) y).1, rfl, ?_, ?_, ?_, ?_, ?_, ?_, ?_⟩
    · simp [hy, hxi]
    · simp [hy, hxus]
    · simp [hy, hxcs]
    · simp [hy, hxc]
    · simp [hy, hxu]
    · simp [hy, hq.2]
    · simp [hy, hxus, hxcs, hq.1.cfg]

/-- `DECOMPRESS_BLOCK`'s body: the end of the input, or the block of a record. -/
theorem decompressBody_holds (s : State) :
    (decompressBody s).Holds (fun _ t =>
      (nextInput (headerLen s.cfg) s = [] ∧ t = finishEos (ioTaken s)) ∨
        ∃ u, Going s u ∧ u.phase = .emitted ∧ u.ipos = s.ipos + (headerLen s.cfg + u.hdrCsize.toNat) ∧
          u.hdrUsize.toNat ≤ s.platform.maxBlockSize ∧ u.hdrCsize.toNat ≤ s.platform.cbufCap ∧
          u.cbuf.length = u.hdrCsize.toNat ∧ u.ubuf.length = u.hdrUsize.toNat ∧ u.out = s.out ++ u.ubuf ∧
          t = complete (headerLen s.cfg + u.hdrCsize.toNat) u.hdrUsize.toNat 1 (setPhase .idle u)) (Ends s) := by
  unfold decompressBody
  refine (parseHeader_holds s).andThen_quiet ?_
  rintro a t hq (⟨rfl, h0, rfl⟩ | ⟨rfl, -, -, hi, hu, hc, -, -, -⟩)
  · exact .inl ⟨h0, rfl⟩
  · have hp := hq.1.platform
    refine (decompressParsed_holds s.totRead t (by rwa [hp]) (by rwa [hp])).mono ?_ fun _ h => h
    rintro - y ⟨u, h1, h2, h3, h4, h5, h6, h7, h8, h9⟩
    refine .inr ⟨u, hq.1.trans h1, h2, ?_, ?_, ?_, ?_, ?_, ?_, ?_⟩
    · rw [h3, hi, h5]; omega
    · rwa [h4]
    · rwa [h5]
    · rw [h6, h5]
    · rw [h7, h4]
    · rw [h8, hq.2]
    · rw [h9, h4, h5, hq.1.cfg]

end Sys2Proof.Machine
end

