-- ==== Sys2Proof/Laws/Commands.lean ====
section
/-! SUPPORT. Each command as its body under the acceptance rules, the host's write of a legal word, and the turns of the
stream loop. -/

namespace Sys2Proof.Machine

open Sys2Proof

/-! ### Each command as its body -/

theorem exec_nop_eq (s : State) : exec .nop s = runAlways (fun s => s) s := rfl

theorem exec_chkCompute_eq (b : BufSel) (s : State) : exec (.chkCompute b) s =
    runCommand (fun s => .ok () (finishIdle (setChkResult (checksum (algOf s.cfg) (buffer b s)) s))) s := rfl

theorem exec_chkVerify_eq (b : BufSel) (s : State) : exec (.chkVerify b) s =
    runCommand (fun s => .ok () (finishIdle (setMatch (checksum (algOf s.cfg) (buffer b s))
      (setChkResult (checksum (algOf s.cfg) (buffer b s)) s)))) s := rfl

theorem exec_filtFwd_eq (s : State) : exec .filtFwd s =
    runCommand (fun s => (applyFwd s).andThen fun _ s => .ok () (finishIdle s)) s := rfl

theorem exec_filtInv_eq (s : State) : exec .filtInv s =
    runCommand (fun s => (applyInv s).andThen fun _ s => .ok () (finishIdle s)) s := rfl

theorem exec_bufLoad_eq (b : BufSel) (s : State) : exec (.bufLoad b) s =
    runCommand (fun s =>
      if s.xferLen.toNat > capacity b s.platform then raise .illegalOperand s
      else (inRead s.xferLen.toNat s).andThen fun v s =>
        .ok () (complete v.length 0 0 (setPhase .idle (setBuffer b v s)))) s := rfl

theorem exec_bufStore_eq (b : BufSel) (s : State) : exec (.bufStore b) s =
    runCommand (fun s => (outWrite (buffer b s) s).andThen fun _ s =>
      .ok () (complete 0 (buffer b s).length 0 (setPhase .idle s))) s := rfl

theorem exec_lzoComp_eq (s : State) : exec .lzoComp s =
    runCommand (fun s => (doCompress s).andThen fun _ s => .ok () (finishIdle s)) s := rfl

theorem exec_lzoDecomp_eq (s : State) : exec .lzoDecomp s =
    runCommand (fun s =>
      if s.hdrUsize.toNat > s.platform.maxBlockSize then raise .illegalOperand s
      else (doDecompress s.hdrUsize.toNat s).andThen fun _ s => .ok () (finishIdle s)) s := rfl

theorem exec_recEmit_eq (s : State) : exec .recEmit s =
    runCommand (fun s =>
      if s.hdrCsize ≠ clen s then raise .illegalOperand s
      else (emitRecord s).andThen fun _ s =>
        .ok () (complete 0 (headerLen s.cfg + s.cbuf.length) 0 (setPhase .idle s))) s := rfl

/-- The body of `REC_PARSE` (42_framing.md R158). -/
abbrev recParseBody (s : State) : Micro Unit :=
  (parseHeader s).andThen fun a s =>
    match a with
    | .eos => .ok () (finishEos s)
    | .header => (readPayload s).andThen fun _ s =>
        .ok () (complete (headerLen s.cfg + s.hdrCsize.toNat) 0 0 (setPhase .idle s))

theorem exec_recParse_eq (s : State) : exec .recParse s = runCommand recParseBody s := rfl

theorem exec_compressBlock_eq (s : State) : exec .compressBlock s = runCommand compressBody s := rfl

theorem exec_decompressBlock_eq (s : State) : exec .decompressBlock s = runCommand decompressBody s := rfl

theorem exec_compressStream_eq (s : State) : exec .compressStream s =
    runCommand (fun s => .ok () (streamCommand .compress s)) s := rfl

theorem exec_decompressStream_eq (s : State) : exec .decompressStream s =
    runCommand (fun s => .ok () (streamCommand .decompress s)) s := rfl

theorem exec_clrErr_eq (s : State) : exec .clrErr s = runAlways clearError s := rfl

theorem exec_clrTotals_eq (s : State) : exec .clrTotals s =
    runCommand (fun s => .ok () (finishIdle (zeroTotals s))) s := rfl

theorem exec_softReset_eq (s : State) : exec .softReset s = runAlways resetRegisters s := rfl

/-! ### The host's accesses while no command runs -/

/-- A step with the host's write of `CMD` next is that write of `CMD`. -/
theorem step_writeCmd {s : State} {w : Word} {rest : List HostEvent} (hb : s.busy = false)
    (hh : s.host = .write 0 4 w :: rest) : step s = writeCmd w { s with host := rest } := by
  cases s
  subst hb
  simp at hh
  simp [step, idleStep, hh, hostAction, hostWrite, checkAccess, definedAccess, regAt, registerMap, writeReg]

/-- A step with a defined write of another offset next. -/
theorem step_write {s : State} {off : Nat} {v : Word} {rest : List HostEvent} (hb : s.busy = false)
    (ho : off < 256) (ha : off % 4 = 0) (hh : s.host = .write off 4 v :: rest) :
    step s = match regAt off with
      | some r => writeReg r v { s with host := rest }
      | none => .next { s with host := rest } := by
  cases s
  subst hb
  simp at hh
  cases h : regAt off <;>
    simp [step, idleStep, hh, hostAction, hostWrite, checkAccess, definedAccess, ha, Nat.not_le.mpr ho, h]

/-- A step with a defined read next. -/
theorem step_read {s : State} {off : Nat} {rest : List HostEvent} (hb : s.busy = false) (ho : off < 256)
    (ha : off % 4 = 0) (hh : s.host = .read off 4 :: rest) :
    step s = .next { s with host := rest, hostReads := s.hostReads ++ [readOffset off { s with host := rest }] } := by
  cases s
  subst hb
  simp at hh
  simp [step, idleStep, hh, hostAction, hostRead, checkAccess, definedAccess, ha, Nat.not_le.mpr ho, giveHost]

/-! ### Command words -/

/-- A word whose bits above `BSEL` are zero is its low 9 bits. -/
theorem word_of_low_bits {w : Word} (h : w.extractLsb' 9 23 = 0) : w = (0 : BitVec 23) ++ w.extractLsb' 0 9 := by
  apply BitVec.eq_of_getLsbD_eq
  intro i hi
  rw [BitVec.getLsbD_append, BitVec.getLsbD_extractLsb']
  by_cases h9 : i < 9
  · simp [h9]
  · have := congrArg (fun b => b.getLsbD (i - 9)) h
    rw [BitVec.getLsbD_extractLsb', show 9 + (i - 9) = i by omega] at this
    simpa [h9, show i - 9 < 23 by omega] using this

/-- A word is no command exactly when R90's verdict is against it. -/
theorem decode_illegal_iff (w : Word) : (∃ r, decode w = .illegal r) ↔ legalCommandWord w = false := by
  by_cases h : w.extractLsb' 9 23 = 0
  · have hall : ∀ v : BitVec 9,
        (match decode ((0 : BitVec 23) ++ v) with | .illegal _ => true | .instr _ => false) =
          !legalCommandWord ((0 : BitVec 23) ++ v) := by decide +kernel
    have hv := hall (w.extractLsb' 0 9)
    rw [← word_of_low_bits h] at hv
    cases hd : decode w <;> simp [hd] at hv ⊢ <;> simp [hv]
  · have h' : ¬BitVec.extractLsb' 9 23 w = 0#23 := h
    simp [decode, fieldZero, h', legalCommandWord]

end Sys2Proof.Machine
end

