-- ==== Sys2Proof/Laws/Stream.lean ====
section
/-! SUPPORT. The frame that whole commands keep, and the turns of the stream loop (44_stream_driver.md R205 to R211). -/

namespace Sys2Proof.Machine

open Sys2Proof

/-! ### What whole commands keep -/

/-- What every command but `SOFT_RESET` keeps: the registers only the host writes, the checksum registers of the header
with `CHK_EN = 0`, the parameters, and the direction in which the streams go. -/
structure Frame (s t : State) : Prop where
  cfg : t.cfg = s.cfg
  blockSize : t.blockSize = s.blockSize
  hdrUchk : s.cfg.chkEn = false → t.hdrUchk = s.hdrUchk
  hdrCchk : s.cfg.chkEn = false → t.hdrCchk = s.hdrCchk
  chkExpect : t.chkExpect = s.chkExpect
  xferLen : t.xferLen = s.xferLen
  platform : t.platform = s.platform
  input : t.input = s.input
  inputEndless : t.inputEndless = s.inputEndless
  ipos : s.ipos ≤ t.ipos
  out : s.out <+: t.out
  diag : s.diag <+: t.diag
  host : t.host = s.host
  hostReads : t.hostReads = s.hostReads
  wfU : s.ubuf.length ≤ s.platform.maxBlockSize → t.ubuf.length ≤ t.platform.maxBlockSize
  wfC : s.cbuf.length ≤ s.platform.cbufCap → t.cbuf.length ≤ t.platform.cbufCap

theorem Frame.refl (s : State) : Frame s s := by
  constructor <;> simp

theorem Frame.trans {s t u : State} (h : Frame s t) (k : Frame t u) : Frame s u where
  cfg := k.cfg.trans h.cfg
  blockSize := k.blockSize.trans h.blockSize
  hdrUchk := fun hc => (k.hdrUchk (by rw [h.cfg]; exact hc)).trans (h.hdrUchk hc)
  hdrCchk := fun hc => (k.hdrCchk (by rw [h.cfg]; exact hc)).trans (h.hdrCchk hc)
  chkExpect := k.chkExpect.trans h.chkExpect
  xferLen := k.xferLen.trans h.xferLen
  platform := k.platform.trans h.platform
  input := k.input.trans h.input
  inputEndless := k.inputEndless.trans h.inputEndless
  ipos := h.ipos.trans k.ipos
  out := h.out.trans k.out
  diag := h.diag.trans k.diag
  host := k.host.trans h.host
  hostReads := k.hostReads.trans h.hostReads
  wfU := fun hw => k.wfU (h.wfU hw)
  wfC := fun hw => k.wfC (h.wfC hw)

theorem Frame.wf {s t : State} (h : Frame s t) (hw : Memory.wf s) : Memory.wf t := ⟨h.wfU hw.1, h.wfC hw.2⟩

theorem Going.frame {s t : State} (h : Going s t) : Frame s t where
  cfg := h.cfg
  blockSize := h.blockSize
  hdrUchk := h.hdrUchk
  hdrCchk := h.hdrCchk
  chkExpect := h.chkExpect
  xferLen := h.xferLen
  platform := h.platform
  input := h.input
  inputEndless := h.inputEndless
  ipos := h.ipos
  out := h.out
  diag := h.diag
  host := h.host
  hostReads := h.hostReads
  wfU := h.wfU
  wfC := h.wfC

theorem frame_failureEntry (c : ErrCode) (s : State) : Frame s (failureEntry c s) := by constructor <;> simp
theorem frame_complete (rd wr k : Nat) (s : State) : Frame s (complete rd wr k s) := by constructor <;> simp
theorem frame_setPhase (p : Phase) (s : State) : Frame s (setPhase p s) := by constructor <;> simp
theorem frame_acceptCommand (s : State) : Frame s (acceptCommand s) := by constructor <;> simp
theorem frame_finishIdle (s : State) : Frame s (finishIdle s) := by constructor <;> simp
theorem frame_finishEos (s : State) : Frame s (finishEos s) := by constructor <;> simp
theorem frame_dropCommand (s : State) : Frame s (dropCommand s) := by constructor <;> simp
theorem frame_clearError (s : State) : Frame s (clearError s) := by constructor <;> simp
theorem frame_zeroTotals (s : State) : Frame s (zeroTotals s) := by constructor <;> simp
theorem frame_setChkResult (c : Word) (s : State) : Frame s (setChkResult c s) := by constructor <;> simp
theorem frame_setMatch (c : Word) (s : State) : Frame s (setMatch c s) := by constructor <;> simp
theorem frame_ioTaken (s : State) : Frame s (ioTaken s) := (going_ioTaken s).frame
theorem frame_busy (b : Bool) (s : State) : Frame s { s with busy := b } := by constructor <;> simp
theorem frame_activity (a : Activity) (s : State) : Frame s { s with activity := a } := by constructor <;> simp

theorem Ends.frame {s t : State} (h : Ends s t) : Frame s t := by
  obtain ⟨u, hu, ⟨c, -, -, -, rfl⟩ | rfl⟩ := h
  · exact hu.frame.trans (frame_failureEntry c u)
  · exact hu.frame.trans ((frame_busy true u).trans (frame_activity .hung _))

/-- How a command that began in `s` ends early. -/
theorem Ends.cases {s t : State} (h : Ends s t) :
    (t.busy = false ∧ t.phase = .failed ∧ t.activity = .none ∧ t.errCode ≠ .none ∧ t.errCode ≠ .illegalOperand ∧
        t.errPos = t.totRead ∧ t.blkRead = 0 ∧ t.blkWritten = 0 ∧ t.totRead = s.totRead ∧
        t.totWritten = s.totWritten ∧ t.blkCount = s.blkCount ∧ (t.errCode = .ioError ∨ t.out = s.out)) ∨
      (t.busy = true ∧ t.activity = .hung ∧ (t.phase = .failed → s.phase = .failed) ∧ t.errCode = s.errCode ∧
        t.errState = s.errState ∧ t.errPos = s.errPos ∧ (t.phase = .endOfStream → s.phase = .endOfStream)) := by
  obtain ⟨u, hu, ⟨c, h1, h2, h3, rfl⟩ | rfl⟩ := h
  · refine .inl ⟨rfl, rfl, rfl, h1, h2, rfl, rfl, rfl, hu.totRead, hu.totWritten, hu.blkCount, ?_⟩
    exact h3
  · exact .inr ⟨rfl, rfl, hu.phase, hu.errCode, hu.errState, hu.errPos, hu.eos⟩

/-! ### Turns -/

/-- How many bytes a turn consumes when it is not the last. -/
def turnRead (d : Direction) (s u : State) : Nat :=
  match d with
  | .compress => (nextInput (blockRequest s) s).length
  | .decompress => headerLen s.cfg + u.hdrCsize.toNat

/-- How many bytes a turn writes when it is not the last. -/
def turnWritten (d : Direction) (s u : State) : Nat :=
  match d with
  | .compress => headerLen s.cfg + u.cbuf.length
  | .decompress => u.hdrUsize.toNat

/-- One turn: the end of the input, or one block. -/
theorem turnBody_holds (d : Direction) (s : State) :
    (turnBody d s).Holds (fun _ t =>
      t = finishEos (ioTaken s) ∨
        ∃ u, Going s u ∧ u.phase ≠ .failed ∧ 0 < turnRead d s u ∧ turnRead d s u < 2 ^ 32 ∧
          u.ipos = s.ipos + turnRead d s u ∧
          t = complete (turnRead d s u) (turnWritten d s u) 1 (setPhase .idle u)) (Ends s) := by
  cases d with
  | compress =>
    refine (compressBody_holds s).mono ?_ fun _ h => h
    rintro - t (⟨-, h⟩ | ⟨hn, u, h1, h2, h3, -, -, -, -, -, h9⟩)
    · exact .inl h
    · refine .inr ⟨u, h1, by simp [h2], List.length_pos_of_ne_nil hn, ?_, h3, h9⟩
      have := (nextInput_length_le (blockRequest s) s).trans (blockRequest_le s)
      have := s.platform.maxBlockSizeLessOne.isLt
      simp only [turnRead, Platform.maxBlockSize] at *
      omega
  | decompress =>
    refine (decompressBody_holds s).mono ?_ fun _ h => h
    rintro - t (⟨-, h⟩ | ⟨u, h1, h2, h3, -, h5, -, -, -, h9⟩)
    · exact .inl h
    · refine .inr ⟨u, h1, by simp [h2], ?_, ?_, h3, h9⟩
      · have := headerLen_pos s.cfg
        simp only [turnRead]
        omega
      · have := s.platform.cbufCapacity.isLt
        have := headerLen_le s.cfg
        simp only [turnRead, Platform.cbufCap] at *
        omega

/-- The exit test fails after a turn that consumed bytes. -/
theorem loopExit_complete {rd wr k : Nat} {s : State} (h0 : 0 < rd) (h : rd < 2 ^ 32) :
    loopExit (complete rd wr k s) = false := by
  have hne : BitVec.ofNat 32 rd ≠ 0#32 := by
    intro hz
    have hn := congrArg BitVec.toNat hz
    rw [BitVec.toNat_ofNat, Nat.mod_eq_of_lt h] at hn
    simp at hn
    omega
  have hbeq : (BitVec.ofNat 32 rd == 0#32) = false := by simpa using hne
  show ((BitVec.ofNat 32 rd == 0#32) && _) = false
  rw [hbeq, Bool.false_and]

/-- The exit test holds at the end of the input. -/
theorem loopExit_finishEos (s : State) : loopExit (finishEos s) = true := rfl

/-- The state with which the loop goes on to its next turn. -/
def turnDone (d : Direction) (s u : State) : State :=
  { complete (turnRead d s u) (turnWritten d s u) 1 (setPhase .idle u) with busy := true }

/-- All that one more turn of the loop can do: an early end, the exit at the end of the input, or a block and then the
turns that are left. -/
theorem streamLoop_succ (d : Direction) (k : Nat) (s : State) :
    (Ends s (streamLoop d (k + 1) s) ∧ turnBody d s = .ended (streamLoop d (k + 1) s)) ∨
      (turnBody d s = .ok () (finishEos (ioTaken s)) ∧
        streamLoop d (k + 1) s = { finishEos (ioTaken s) with activity := .none }) ∨
      ∃ u, Going s u ∧ u.phase ≠ .failed ∧ 0 < turnRead d s u ∧ turnRead d s u < 2 ^ 32 ∧
        u.ipos = s.ipos + turnRead d s u ∧
        turnBody d s = .ok () (complete (turnRead d s u) (turnWritten d s u) 1 (setPhase .idle u)) ∧
        streamLoop d (k + 1) s = streamLoop d k (turnDone d s u) := by
  have ht := turnBody_holds d s
  cases hb : turnBody d s with
  | ended t =>
    have hs : streamLoop d (k + 1) s = t := by simp only [streamLoop, hb]
    rw [hb] at ht
    exact .inl ⟨by rw [hs]; exact ht, by rw [hs]⟩
  | ok a t =>
    rw [hb] at ht
    rcases ht with h | ⟨u, h1, h2, h3, h4, h5, h6⟩
    · subst h
      exact .inr (.inl ⟨rfl, by simp only [streamLoop, hb, loopExit_finishEos, if_true]⟩)
    · subst h6
      refine .inr (.inr ⟨u, h1, h2, h3, h4, h5, rfl, ?_⟩)
      have he := loopExit_complete (wr := turnWritten d s u) (k := 1) (s := setPhase .idle u) h3 h4
      simp only [streamLoop, hb, he]
      rfl

theorem frame_turnDone {d : Direction} {s u : State} (h : Going s u) : Frame s (turnDone d s u) :=
  ((h.frame.trans (frame_setPhase .idle u)).trans (frame_complete _ _ 1 _)).trans (frame_busy true _)

/-- The loop keeps the frame of whole commands. -/
theorem streamLoop_frame (d : Direction) (k : Nat) (s : State) : Frame s (streamLoop d k s) := by
  induction k generalizing s with
  | zero => exact Frame.refl s
  | succ k ih =>
    rcases streamLoop_succ d k s with ⟨h, -⟩ | ⟨-, h⟩ | ⟨u, hu, -, -, -, -, -, h⟩
    · exact h.frame
    · rw [h]
      exact ((frame_ioTaken s).trans (frame_finishEos _)).trans (frame_activity .none _)
    · rw [h]
      exact (frame_turnDone hu).trans (ih _)

end Sys2Proof.Machine
end

