-- ==== Sys2Proof/Laws/Memory.lean ====
section
/-! SUPPORT. The two buffers: reading after writing, and that every operation over them keeps `Memory.wf` (42_framing.md
R146, 20_memory.md R64). -/

namespace Sys2Proof.Machine

open Sys2Proof

theorem reset_wf : Memory.wf State.reset := ⟨Nat.zero_le _, Nat.zero_le _⟩

theorem resetRegisters_wf (s : State) : Memory.wf (resetRegisters s) := ⟨Nat.zero_le _, Nat.zero_le _⟩

/-- A read after a write of the same buffer gives the byte written. -/
theorem readByte_setBuffer_same (b : BufSel) (i : Nat) (v : Bytes) (s : State) :
    readByte b i (setBuffer b v s) = v[i]? := by
  cases b <;> rfl

/-- A write of one buffer leaves every byte of the other. -/
theorem readByte_setBuffer_other {b other : BufSel} (h : b ≠ other) (i : Nat) (v : Bytes) (s : State) :
    readByte other i (setBuffer b v s) = readByte other i s := by
  cases b <;> cases other <;> first | rfl | exact absurd rfl h

/-- A write within the capacity keeps the form. -/
theorem setBuffer_wf {b : BufSel} {v : Bytes} {s : State} (hv : v.length ≤ capacity b s.platform) (h : Memory.wf s) :
    Memory.wf (setBuffer b v s) := by
  cases b
  · exact ⟨hv, h.2⟩
  · exact ⟨h.1, hv⟩

theorem scrambleUbuf_wf {s : State} (h : Memory.wf s) : Memory.wf (scrambleUbuf s) := by
  refine ⟨?_, h.2⟩
  simpa [scrambleUbuf] using h.1

/-- A step inside a command that keeps the frame keeps the form, whether the command goes on or ends. -/
theorem Micro.Holds.wf {α : Type} {m : Micro α} {s : State} {P : α → State → Prop} (h : Memory.wf s)
    (hm : m.Holds (fun a t => Quiet s t ∧ P a t) (Ends s)) : Memory.wf m.state := by
  cases m with
  | ok a t => exact hm.1.1.wf h
  | ended t => exact (Ends.frame hm).wf h

theorem inRead_wf (n : Nat) {s : State} (h : Memory.wf s) : Memory.wf (inRead n s).state :=
  (inRead_holds n s).wf h

theorem outWrite_wf (v : Bytes) {s : State} (h : Memory.wf s) : Memory.wf (outWrite v s).state := by
  have hm := outWrite_holds v s
  cases ho : outWrite v s with
  | ok a t =>
    rw [ho] at hm
    exact hm.1.wf h
  | ended t =>
    rw [ho] at hm
    exact (Ends.frame hm).wf h

theorem applyFwd_wf {s : State} (h : Memory.wf s) : Memory.wf (applyFwd s).state := (applyFwd_holds s).wf h

theorem applyInv_wf {s : State} (h : Memory.wf s) : Memory.wf (applyInv s).state := (applyInv_holds s).wf h

theorem doCompress_wf {s : State} (h : Memory.wf s) : Memory.wf (doCompress s).state := (doCompress_holds s).wf h

theorem doDecompress_wf {n : Nat} {s : State} (hn : n ≤ s.platform.maxBlockSize) (h : Memory.wf s) :
    Memory.wf (doDecompress n s).state := (doDecompress_holds n s hn).wf h

theorem parseHeader_wf {s : State} (h : Memory.wf s) : Memory.wf (parseHeader s).state := (parseHeader_holds s).wf h

theorem readPayload_wf {s : State} (hc : s.hdrCsize.toNat ≤ s.platform.cbufCap) (h : Memory.wf s) :
    Memory.wf (readPayload s).state := (readPayload_holds s hc).wf h

/-- The stream loop keeps the form. -/
theorem streamLoop_wf (d : Direction) (k : Nat) {s : State} (h : Memory.wf s) : Memory.wf (streamLoop d k s) :=
  (streamLoop_frame d k s).wf h

end Sys2Proof.Machine
end

