-- ==== Sys2Proof/Laws/Exact.lean ====
section
/-! SUPPORT. The block bodies as one equation each, on an input and ports that answer: what `COMPRESS_BLOCK` leaves
before its record is written, what a parsed record leaves, and what a checksum slot leaves. -/

namespace Sys2Proof.Machine

open Sys2Proof

/-! ### Answers of the streams in a row -/

theorem takeAnswers_acceptCommand (k : Nat) (s : State) :
    takeAnswers k (acceptCommand s) = acceptCommand (takeAnswers k s) := by
  induction k generalizing s with
  | zero => rfl
  | succ k ih => rw [takeAnswers, ioTaken_acceptCommand, ih, takeAnswers]

theorem answersOk_congr {s t : State} (k : Nat) (h : t.ioScript = s.ioScript) (h' : t.freeCtr = s.freeCtr)
    (ha : answersOk k s) : answersOk k t := by
  induction k generalizing s t with
  | zero => trivial
  | succ k ih =>
    refine ⟨(ioAnswer_congr h h').trans ha.1, ih (s := ioTaken s) ?_ ?_ ha.2⟩
    · rw [ioTaken_congr h h']
    · rw [ioTaken_congr h h']

theorem answersOk_acceptCommand {k : Nat} {s : State} (h : answersOk k s) : answersOk k (acceptCommand s) :=
  answersOk_congr k (s := s) rfl rfl h

/-- After `j` answers, the rest of the answers are `Ok` too. -/
theorem answersOk_takeAnswers {j k : Nat} {s : State} (ha : answersOk (j + k) s) : answersOk k (takeAnswers j s) := by
  induction j generalizing s with
  | zero => simpa [takeAnswers] using ha
  | succ j ih =>
    rw [Nat.succ_add] at ha
    exact ih ha.2

/-- The bytes remaining after some have been consumed. -/
theorem remaining_ipos (s : State) (k : Nat) : remaining { s with ipos := s.ipos + k } = (remaining s).drop k := by
  simp [remaining, Nat.add_comm]

/-- A finite input delivers what it begins with. -/
theorem nextInput_of_remaining {s : State} {w rest : Bytes} (hf : s.inputEndless = false)
    (hr : remaining s = w ++ rest) : nextInput w.length s = w := by
  rw [nextInput_finite hf, hr, List.take_left']
  rfl

/-- Block sizes and capacities fit a register (00_scope.md R10, R12). -/
theorem platform_bounds (p : Platform) : p.maxBlockSize < 2 ^ 32 ∧ p.cbufCap + 16 < 2 ^ 32 := by
  have := p.maxBlockSizeLessOne.isLt
  have := p.cbufCapacity.isLt
  simp only [Platform.maxBlockSize, Platform.cbufCap]
  omega

/-! ### The compress path (43_block_codec.md R177) -/

/-- The state when step 1 has put `v` in `UBUF`. -/
def blockRead (s : State) (v : Bytes) : State :=
  setPhase .inputRead { ioTaken s with ipos := s.ipos + v.length, ubuf := v }

/-- The state when step 6 is about to write the record of `b`. -/
def recordReady (s : State) (b : CodedBlock) : State :=
  { ioTaken s with
    ipos := s.ipos + b.plain.length
    ubuf := b.filtered
    cbuf := b.payload
    hdrUsize := BitVec.ofNat 32 b.plain.length
    hdrCsize := BitVec.ofNat 32 b.payload.length
    hdrUchk := if s.cfg.chkEn then checksum (algOf s.cfg) b.filtered else s.hdrUchk
    hdrCchk := if s.cfg.chkEn then checksum (algOf s.cfg) b.payload else s.hdrCchk
    chkResult := if s.cfg.chkEn then checksum (algOf s.cfg) b.payload else s.chkResult
    phase := .cCchk }

/-- The state when the record of `b` has been written. -/
def recordWritten (s : State) (b : CodedBlock) : State :=
  { recordReady s b with
    out := s.out ++ blockRecord s.cfg b
    ioScript := (takeAnswers 2 s).ioScript
    freeCtr := (takeAnswers 2 s).freeCtr }

theorem blockRecord_length (c : Cfg) (b : CodedBlock) : (blockRecord c b).length = headerLen c + b.payload.length := by
  rw [blockRecord, record, List.length_append, headerLen_eq]

theorem currentRecord_recordReady (s : State) (b : CodedBlock) :
    currentRecord (recordReady s b) = blockRecord s.cfg b := by
  simp only [currentRecord, blockRecord, recordReady, record, recordHeader, ioTaken_cfg]
  cases s.cfg.chkEn <;> simp

theorem compressBody_loaded {s : State} {v : Bytes} (ha : ioAnswer s = .ok)
    (hn : nextInput (blockRequest s) s = v) (hv : v ≠ []) :
    compressBody s = compressLoaded v.length (blockRead s v) := by
  rw [compressBody, inRead_ok ha, hn, andThen_ok, if_neg (by simpa using hv)]
  rfl

theorem recordReady_eq (s : State) (b : CodedBlock) :
    setSizes b.plain.length (setPhase .cCchk (computeCchk (setPhase .cCompressed
      { setPhase .cUchk (computeUchk (setPhase .cFiltered { blockRead s b.plain with ubuf := b.filtered })) with
        cbuf := b.payload }))) = recordReady s b := by
  obtain ⟨x, y, hxy⟩ := ioTaken_eq s
  simp only [blockRead, recordReady, hxy]
  simp only [setSizes, setPhase, computeCchk_eq, computeUchk_eq, clen]
  cases s.cfg.chkEn <;> simp

/-- Steps 1 to 5: all that is left is to write the record. -/
theorem compressBody_emit {s : State} {b : CodedBlock} (ha : ioAnswer s = .ok)
    (hn : nextInput (blockRequest s) s = b.plain) (hne : b.plain ≠ []) (hc : CompressesTo s.cfg s.platform b) :
    compressBody s = (outWrite (blockRecord s.cfg b) (recordReady s b)).andThen fun _ t =>
      .ok () (complete b.plain.length (headerLen t.cfg + t.cbuf.length) 1 (setPhase .idle (setPhase .cEmitted t))) := by
  obtain ⟨h1, h2, h3, h4⟩ := hc
  have hf : applyFwd (blockRead s b.plain) = .ok () { blockRead s b.plain with ubuf := b.filtered } :=
    applyFwd_ok (by simpa [blockRead, setPhase] using h1) (by simpa [blockRead, setPhase] using h2)
  rw [compressBody_loaded ha hn hne, compressLoaded, hf, andThen_ok, doCompress_ok (r := b.payload), andThen_ok,
    recordReady_eq, emitRecord, currentRecord_recordReady]
  · simpa [blockRead, compressRequest] using h3
  · simpa [blockRead] using h4

/-- A whole block of the compress path. -/
theorem compressBody_ok {s : State} {b : CodedBlock} (ha : answersOk 2 s)
    (hn : nextInput (blockRequest s) s = b.plain) (hne : b.plain ≠ []) (hc : CompressesTo s.cfg s.platform b) :
    compressBody s = .ok () (complete b.plain.length (headerLen s.cfg + b.payload.length) 1
      (setPhase .idle (recordWritten s b))) := by
  have hi : ioAnswer (recordReady s b) = .ok := ha.2.1
  have ht : ioTaken (recordReady s b) = { recordReady s b with
      ioScript := (takeAnswers 2 s).ioScript, freeCtr := (takeAnswers 2 s).freeCtr } := ioTaken_congr rfl rfl
  rw [compressBody_emit ha.1 hn hne hc, outWrite_ok hi, ht]
  obtain ⟨x, y, hxy⟩ := ioTaken_eq s
  simp only [andThen_ok, recordWritten, recordReady, hxy, complete, setPhase]

/-- All that a block of the compress path did, when it ended without a failure. -/
theorem compressBody_inv {s t : State} (h : compressBody s = .ok () t) :
    ioAnswer s = .ok ∧ ((nextInput (blockRequest s) s = [] ∧ t = finishEos (ioTaken s)) ∨
      ∃ b : CodedBlock, nextInput (blockRequest s) s = b.plain ∧ b.plain ≠ [] ∧ CompressesTo s.cfg s.platform b ∧
        ioAnswer (ioTaken s) = .ok ∧
        t = complete b.plain.length (headerLen s.cfg + b.payload.length) 1 (setPhase .idle (recordWritten s b))) := by
  have ha : ioAnswer s = .ok := by
    cases ha : ioAnswer s with
    | ok => rfl
    | ioError m =>
      rw [compressBody, inRead_ioError ha] at h
      cases h
    | never m =>
      rw [compressBody, inRead_never ha] at h
      cases h
  refine ⟨ha, ?_⟩
  by_cases hv : nextInput (blockRequest s) s = []
  · rw [compressBody, inRead_ok ha, hv] at h
    simp at h
    exact .inl ⟨hv, h.symm⟩
  · right
    have hl := h
    rw [compressBody_loaded ha rfl hv, compressLoaded] at hl
    obtain ⟨_, t1, h1, hl⟩ := andThen_eq_ok.mp hl
    have k1 := applyFwd_holds (blockRead s (nextInput (blockRequest s) s))
    rw [h1] at k1
    obtain ⟨-, f, k1, kl, rfl⟩ := k1
    obtain ⟨_, t2, h2, -⟩ := andThen_eq_ok.mp hl
    have k2 := doCompress_holds (setPhase .cUchk (computeUchk (setPhase .cFiltered
      { blockRead s (nextInput (blockRequest s) s) with ubuf := f })))
    rw [h2] at k2
    obtain ⟨-, p, -, kp, kc⟩ := k2
    have hc : CompressesTo s.cfg s.platform ⟨nextInput (blockRequest s) s, f, p⟩ := by
      refine ⟨by simpa [blockRead, setPhase] using k1, by simpa [blockRead, setPhase] using kl, ?_,
        by simpa [blockRead] using kp⟩
      simpa [blockRead, compressRequest] using kc
    have ha2 : ioAnswer (ioTaken s) = .ok := by
      have hi : ioAnswer (recordReady s ⟨nextInput (blockRequest s) s, f, p⟩) = ioAnswer (ioTaken s) := rfl
      rw [compressBody_emit ha rfl hv hc] at h
      cases ha2 : ioAnswer (ioTaken s) with
      | ok => rfl
      | ioError m =>
        rw [outWrite_ioError (hi.trans ha2)] at h
        cases h
      | never m =>
        rw [outWrite_never (hi.trans ha2)] at h
        cases h
    refine ⟨⟨nextInput (blockRequest s) s, f, p⟩, rfl, hv, hc, ha2, ?_⟩
    rw [compressBody_ok ⟨ha, ha2, trivial⟩ rfl hv hc] at h
    injection h with _ h
    exact h.symm

/-! ### The decompress path (43_block_codec.md R182) -/

/-- The state when a header with these fields has been parsed. -/
def headerParsed (s : State) (us cs uc cc : Word) : State :=
  { ioTaken s with
    ipos := s.ipos + headerLen s.cfg
    hdrUsize := us
    hdrCsize := cs
    hdrUchk := if s.cfg.chkEn then uc else s.hdrUchk
    hdrCchk := if s.cfg.chkEn then cc else s.hdrCchk
    phase := .haveHeader }

/-- The state when the payload behind that header has been read. -/
def payloadLoaded (s : State) (us cs uc cc : Word) (p : Bytes) : State :=
  { s with
    ipos := s.ipos + headerLen s.cfg + p.length
    hdrUsize := us
    hdrCsize := cs
    hdrUchk := if s.cfg.chkEn then uc else s.hdrUchk
    hdrCchk := if s.cfg.chkEn then cc else s.hdrCchk
    cbuf := p
    phase := .payloadRead
    ioScript := (takeAnswers 2 s).ioScript
    freeCtr := (takeAnswers 2 s).freeCtr }

theorem parseHeader_parsed {s : State} {us cs uc cc : Word} (ha : ioAnswer s = .ok)
    (h : nextInput (headerLen s.cfg) s = recordHeader s.cfg.chkEn us cs uc cc)
    (hu : us.toNat ≤ s.platform.maxBlockSize) (hc : cs.toNat ≤ s.platform.cbufCap) :
    parseHeader s = .ok .header (headerParsed s us cs uc cc) := parseHeader_header ha h hu hc

theorem readPayload_loaded {s : State} {us cs uc cc : Word} {p : Bytes} (ha : answersOk 2 s)
    (hp : nextInput cs.toNat { s with ipos := s.ipos + headerLen s.cfg } = p) (hl : p.length = cs.toNat) :
    readPayload (headerParsed s us cs uc cc) = .ok () (payloadLoaded s us cs uc cc p) := by
  have hi : ioAnswer (headerParsed s us cs uc cc) = .ok := ha.2.1
  have hn : nextInput (headerParsed s us cs uc cc).hdrCsize.toNat (headerParsed s us cs uc cc) = p := by
    rw [← hp]
    exact nextInput_congr _ (by simp [headerParsed]) (by simp [headerParsed]) (by simp [headerParsed])
  rw [readPayload_ok hi hn hl, ioTaken_congr (s := ioTaken s) (t := headerParsed s us cs uc cc) rfl rfl]
  obtain ⟨x, y, hxy⟩ := ioTaken_eq s
  simp only [headerParsed, payloadLoaded, takeAnswers, hxy]

/-- Steps 1 and 2 on a whole well-formed record. -/
theorem decompressBody_loaded {s : State} {us cs uc cc : Word} {p : Bytes} (ha : answersOk 2 s)
    (hh : nextInput (headerLen s.cfg) s = recordHeader s.cfg.chkEn us cs uc cc)
    (hp : nextInput cs.toNat { s with ipos := s.ipos + headerLen s.cfg } = p) (hl : p.length = cs.toNat)
    (hu : us.toNat ≤ s.platform.maxBlockSize) (hc : cs.toNat ≤ s.platform.cbufCap) :
    decompressBody s =
      (checkCompressed s.totRead (payloadLoaded s us cs uc cc p)).andThen fun _ t =>
      (doDecompress t.hdrUsize.toNat (setPhase .chkCChecked t)).andThen fun _ t =>
      (checkUncompressed s.totRead (setPhase .decompressed t)).andThen fun _ t =>
      (applyInv (setPhase .chkUChecked t)).andThen fun _ t =>
      (outWrite t.ubuf (setPhase .filtered t)).andThen fun _ t =>
      .ok () (complete (headerLen t.cfg + t.hdrCsize.toNat) t.hdrUsize.toNat 1
        (setPhase .idle (setPhase .emitted t))) := by
  rw [decompressBody, parseHeader_parsed ha.1 hh hu hc, andThen_ok]
  simp only [decompressParsed]
  rw [readPayload_loaded ha hp hl, andThen_ok]

/-- The state after the compressed slot, when it does not stop the block. -/
def compressedChecked (pos : DWord) (s : State) : State :=
  { s with
    chkResult := if s.cfg.chkEn then checksum (algOf s.cfg) s.cbuf else s.chkResult
    warnC := s.warnC ||
      !(slotWarnings s.cfg pos .compressed s.hdrCchk (checksum (algOf s.cfg) s.cbuf)).isEmpty
    diag := s.diag ++ slotWarnings s.cfg pos .compressed s.hdrCchk (checksum (algOf s.cfg) s.cbuf)
    diagCount := s.diagCount +
      BitVec.ofNat 32 (slotWarnings s.cfg pos .compressed s.hdrCchk (checksum (algOf s.cfg) s.cbuf)).length }

/-- The state after the uncompressed slot, when it does not stop the block. -/
def uncompressedChecked (pos : DWord) (s : State) : State :=
  { s with
    chkResult := if s.cfg.chkEn then checksum (algOf s.cfg) s.ubuf else s.chkResult
    warnU := s.warnU ||
      !(slotWarnings s.cfg pos .uncompressed s.hdrUchk (checksum (algOf s.cfg) s.ubuf)).isEmpty
    diag := s.diag ++ slotWarnings s.cfg pos .uncompressed s.hdrUchk (checksum (algOf s.cfg) s.ubuf)
    diagCount := s.diagCount +
      BitVec.ofNat 32 (slotWarnings s.cfg pos .uncompressed s.hdrUchk (checksum (algOf s.cfg) s.ubuf)).length }

theorem checkCompressed_ok (pos : DWord) {s : State}
    (h : s.cfg.chkEn = true → s.cfg.policy = .throw → checksum (algOf s.cfg) s.cbuf = s.hdrCchk) :
    checkCompressed pos s = .ok () (compressedChecked pos s) := by
  unfold checkCompressed checkSlot applyPolicy compressedChecked slotWarnings
  cases he : s.cfg.chkEn
  · simp
  · by_cases hm : checksum (algOf s.cfg) s.cbuf = s.hdrCchk
    · simp [hm, setChkResult]
    · cases hp : s.cfg.policy
      · exact absurd (h he hp) hm
      · simp [hm, hp, setChkResult, setWarn, diagEmit]
      · simp [hm, hp, setChkResult]

theorem checkUncompressed_ok (pos : DWord) {s : State}
    (h : s.cfg.chkEn = true → s.cfg.policy = .throw → checksum (algOf s.cfg) s.ubuf = s.hdrUchk) :
    checkUncompressed pos s = .ok () (uncompressedChecked pos s) := by
  unfold checkUncompressed checkSlot applyPolicy uncompressedChecked slotWarnings
  cases he : s.cfg.chkEn
  · simp
  · by_cases hm : checksum (algOf s.cfg) s.ubuf = s.hdrUchk
    · simp [hm, setChkResult]
    · cases hp : s.cfg.policy
      · exact absurd (h he hp) hm
      · simp [hm, hp, setChkResult, setWarn, diagEmit]
      · simp [hm, hp, setChkResult]

/-- A slot looks at its header register only with checksums active. -/
theorem slotWarnings_en (c : Cfg) (pos : DWord) (w : Slot) (e e' h : Word) :
    slotWarnings c pos w (if c.chkEn then e else e') h = slotWarnings c pos w e h := by
  unfold slotWarnings
  cases c.chkEn <;> simp

/-- Steps 1 to 5: all that is left is to filter the block and to write it. -/
theorem decompressBody_slots {s : State} {us cs uc cc : Word} {p d : Bytes} (ha : answersOk 2 s)
    (hr : RecordNext s us cs uc cc p)
    (hz : lzoDecompress s.platform ⟨s.cfg.lzoAlg, p, us.toNat⟩ = .bytes d) (hd : d.length = us.toNat)
    (hs : SlotsPass s.cfg uc cc p d) :
    decompressBody s =
      (applyInv { slotsPassed us cs uc cc p d s with phase := .chkUChecked }).andThen fun _ t =>
      (outWrite t.ubuf (setPhase .filtered t)).andThen fun _ t =>
      .ok () (complete (headerLen t.cfg + t.hdrCsize.toNat) t.hdrUsize.toNat 1
        (setPhase .idle (setPhase .emitted t))) := by
  obtain ⟨hh, hp, hl, hu, hc⟩ := hr
  rw [decompressBody_loaded ha hh hp hl hu hc, checkCompressed_ok, andThen_ok, doDecompress_ok (r := d), andThen_ok,
    checkUncompressed_ok, andThen_ok]
  · refine congrArg (fun x => (applyInv x).andThen _) ?_
    have hcc := slotWarnings_en s.cfg s.totRead .compressed cc s.hdrCchk (checksum (algOf s.cfg) p)
    have huu := slotWarnings_en s.cfg s.totRead .uncompressed uc s.hdrUchk (checksum (algOf s.cfg) d)
    obtain ⟨x, y, hxy⟩ := takeAnswers_eq 2 s
    simp only [slotsPassed, headerStored, uncompressedChecked, compressedChecked, payloadLoaded, setPhase, hxy, hcc,
      huu, hl]
    apply state_eq_of_fields <;> try rfl
    · cases s.cfg.chkEn <;> rfl
    · simp [BitVec.ofNat_add, BitVec.add_assoc]
    · simp
  · intro h1 h2
    simp [payloadLoaded, compressedChecked, setPhase] at h1 h2 ⊢
    simp [h1, (hs h1 h2).2]
  · simpa [payloadLoaded, compressedChecked, setPhase, decompressRequest] using hz
  · simpa [payloadLoaded, compressedChecked, setPhase] using hd
  · intro h1 h2
    simp [payloadLoaded] at h1 h2 ⊢
    simp [h1, (hs h1 h2).1]

/-! ### Runs -/

/-- One step of a run. -/
theorem run_succ {k : Nat} {s t : State} (h : step s = .next t) : run (k + 1) s = run k t := by
  have hc : Sys2Proof.core.step s = .next t := h
  simp only [run, Host.Core.run, hc]
  rfl

/-- A command that ended without a failure and without a hang did all its steps. -/
theorem runCommand_succeeded {body : State → Micro Unit} {s t : State} (hr : Ready s)
    (h : runCommand body s = .next t) (hb : t.busy = false) (hp : t.phase ≠ .failed)
    (he : ∀ u, body (acceptCommand s) = .ended u → Ends (acceptCommand s) u) :
    body (acceptCommand s) = .ok () t := by
  rw [runCommand_ready _ hr] at h
  injection h with h
  cases hm : body (acceptCommand s) with
  | ok a u =>
    rw [hm] at h
    simp at h
    rw [h]
  | ended u =>
    rw [hm] at h
    have hu := he u hm
    simp at h
    subst h
    rcases hu.cases with ⟨-, h', -⟩ | ⟨h', -⟩
    · exact absurd h' hp
    · simp [h'] at hb

end Sys2Proof.Machine
end

