-- ==== Sys2Proof/Laws/PerInstr.lean ====
section
/-! SUPPORT. Statements about every instruction, one lemma per constructor of `Instr`. -/

namespace Sys2Proof.Laws.EncodeLegal

open Sys2Proof

/-- The command word of the instruction is legal by R90, and it matches the row of the opcode table that bears the
instruction's mnemonic. -/
def Statement (i : Instr) : Prop :=
  legalCommandWord (encode i) = true ∧ tableMnemonic (encode i) = some i.mnemonic

theorem nop : Statement .nop := by unfold Statement; decide
theorem chkCompute (b : BufSel) : Statement (.chkCompute b) := by unfold Statement; cases b <;> decide
theorem chkVerify (b : BufSel) : Statement (.chkVerify b) := by unfold Statement; cases b <;> decide
theorem filtFwd : Statement .filtFwd := by unfold Statement; decide
theorem filtInv : Statement .filtInv := by unfold Statement; decide
theorem bufLoad (b : BufSel) : Statement (.bufLoad b) := by unfold Statement; cases b <;> decide
theorem bufStore (b : BufSel) : Statement (.bufStore b) := by unfold Statement; cases b <;> decide
theorem lzoComp : Statement .lzoComp := by unfold Statement; decide
theorem lzoDecomp : Statement .lzoDecomp := by unfold Statement; decide
theorem recEmit : Statement .recEmit := by unfold Statement; decide
theorem recParse : Statement .recParse := by unfold Statement; decide
theorem compressBlock : Statement .compressBlock := by unfold Statement; decide
theorem decompressBlock : Statement .decompressBlock := by unfold Statement; decide
theorem compressStream : Statement .compressStream := by unfold Statement; decide
theorem decompressStream : Statement .decompressStream := by unfold Statement; decide
theorem clrErr : Statement .clrErr := by unfold Statement; decide
theorem clrTotals : Statement .clrTotals := by unfold Statement; decide
theorem softReset : Statement .softReset := by unfold Statement; decide

end Sys2Proof.Laws.EncodeLegal
end

