-- ==== Sys2Proof/Laws/Turns.lean ====
section
/-! SUPPORT. A turn of the stream loop is the body of the block command (44_stream_driver.md R205): no step inside a
command looks at `activity`. -/

namespace Sys2Proof.Machine

open Sys2Proof

/-! ### Steps that do not look at `activity` -/

/-- A step inside a command with another activity in the state it goes on with. -/
def Micro.withActivity {α : Type} (a : Activity) (m : Micro α) : Micro α :=
  match m with
  | .ok x s => .ok x { s with activity := a }
  | .ended s => .ended s

/-- A step inside a command does not look at `activity`: it carries it along, or sets it when the command ends. -/
def ActivityBlind {α : Type} (f : State → Micro α) : Prop :=
  ∀ (a : Activity) (s : State), f { s with activity := a } = (f s).withActivity a

theorem ActivityBlind.andThen {α β : Type} {f : State → Micro α} {k : α → State → Micro β} (hf : ActivityBlind f)
    (hk : ∀ x, ActivityBlind (k x)) : ActivityBlind fun s => (f s).andThen k := by
  intro a s
  simp only [hf a s]
  cases f s with
  | ok x t => exact hk x a t
  | ended t => rfl

theorem ActivityBlind.comp {α : Type} {f : State → Micro α} {g : State → State} (hf : ActivityBlind f)
    (hg : ∀ a s, g { s with activity := a } = { g s with activity := a }) : ActivityBlind fun s => f (g s) := by
  intro a s
  show f (g _) = _
  rw [hg]
  exact hf a (g s)

/-! ### The streams and the ports -/

theorem ioTaken_withActivity (a : Activity) (s : State) :
    ioTaken { s with activity := a } = { ioTaken s with activity := a } := by
  unfold ioTaken
  cases s.ioScript <;> rfl

theorem blind_inRead (n : Nat) : ActivityBlind (inRead n) := by
  intro a s
  simp only [inRead, ioTaken_withActivity]
  change (match ioAnswer s with | .ok => _ | .ioError _ => _ | .never _ => _) = _
  cases ioAnswer s <;> rfl

theorem blind_outWrite (v : Bytes) : ActivityBlind (outWrite v) := by
  intro a s
  simp only [outWrite, ioTaken_withActivity]
  change (match ioAnswer s with | .ok => _ | .ioError _ => _ | .never _ => _) = _
  cases ioAnswer s <;> rfl

theorem blind_takeFilterAnswer (r : PortAnswer) : ActivityBlind (takeFilterAnswer r) := by
  intro a s
  cases r with
  | bytes b =>
    by_cases hb : b.length = s.ubuf.length
    · simp only [takeFilterAnswer, if_pos hb, Micro.withActivity]
    · simp only [takeFilterAnswer, if_neg hb]
      rfl
  | fail => rfl
  | never => rfl

theorem blind_applyFwd : ActivityBlind applyFwd := by
  intro a s
  unfold applyFwd
  cases s.cfg.filtSel
  · rfl
  · exact blind_takeFilterAnswer _ a s

theorem blind_applyInv : ActivityBlind applyInv := by
  intro a s
  unfold applyInv
  cases s.cfg.filtSel
  · rfl
  · exact blind_takeFilterAnswer _ a s

theorem blind_doCompress : ActivityBlind doCompress := by
  intro a s
  simp only [doCompress]
  change (match lzoCompress s.platform (compressRequest s) with | .bytes _ => _ | .fail => _ | .never => _) = _
  cases lzoCompress s.platform (compressRequest s) with
  | bytes r => by_cases hb : r.length > s.platform.cbufCap <;> simp only [hb, if_true, if_false] <;> rfl
  | fail => rfl
  | never => rfl

theorem blind_doDecompress (n : Nat) : ActivityBlind (doDecompress n) := by
  intro a s
  simp only [doDecompress]
  change (match lzoDecompress s.platform (decompressRequest n s) with | .bytes _ => _ | .fail => _ | .never => _) = _
  cases lzoDecompress s.platform (decompressRequest n s) with
  | bytes r => by_cases hb : r.length = n <;> simp only [hb, if_true, if_false] <;> rfl
  | fail => rfl
  | never => rfl

/-! ### The two paths (43_block_codec.md R177, R182) -/

theorem blind_checkSlot (w : Slot) (b : Bytes) (e : Word) (pos : DWord) : ActivityBlind (checkSlot w b e pos) := by
  intro a s
  simp only [checkSlot]
  by_cases hm : checksum (algOf s.cfg) b = e
  · simp only [hm, if_true]
    rfl
  · simp only [hm, if_false, applyPolicy]
    change (match s.cfg.policy with | .throw => _ | .warn => _ | .ignore => _) =
      (match s.cfg.policy with | .throw => _ | .warn => _ | .ignore => _ : Micro Unit).withActivity a
    cases s.cfg.policy <;> cases w <;> rfl

theorem computeUchk_withActivity (a : Activity) (s : State) :
    computeUchk { s with activity := a } = { computeUchk s with activity := a } := by
  unfold computeUchk
  cases s.cfg.chkEn <;> rfl

theorem computeCchk_withActivity (a : Activity) (s : State) :
    computeCchk { s with activity := a } = { computeCchk s with activity := a } := by
  unfold computeCchk
  cases s.cfg.chkEn <;> rfl

theorem storeHeader_withActivity (h : Bytes) (a : Activity) (s : State) :
    storeHeader h { s with activity := a } = { storeHeader h s with activity := a } := by
  unfold storeHeader
  dsimp only
  cases s.cfg.chkEn <;> rfl

theorem blind_compressLoaded (n : Nat) : ActivityBlind (compressLoaded n) := by
  refine blind_applyFwd.andThen fun _ => ?_
  refine (blind_doCompress.comp fun a s => ?_).andThen fun _ => ?_
  · exact congrArg (setPhase .cUchk) (computeUchk_withActivity a (setPhase .cFiltered s))
  refine ActivityBlind.andThen
    (f := fun s => emitRecord (setSizes n (setPhase .cCchk (computeCchk (setPhase .cCompressed s)))))
    (fun a s => ?_) fun _ _ _ => rfl
  have h : setSizes n (setPhase .cCchk (computeCchk (setPhase .cCompressed { s with activity := a }))) =
      { setSizes n (setPhase .cCchk (computeCchk (setPhase .cCompressed s))) with activity := a } :=
    congrArg (fun t => setSizes n (setPhase .cCchk t)) (computeCchk_withActivity a (setPhase .cCompressed s))
  show emitRecord (setSizes n _) = _
  rw [h]
  exact blind_outWrite _ a _

theorem blind_compressBody : ActivityBlind compressBody := by
  intro a s
  have h := blind_inRead (blockRequest s) a s
  show (inRead (blockRequest s) _).andThen _ = _
  rw [h]
  unfold compressBody
  cases inRead (blockRequest s) s with
  | ended t => rfl
  | ok v t =>
    by_cases hv : v.length = 0
    · simp only [Micro.withActivity, andThen_ok, hv, if_true]
      rfl
    · simp only [Micro.withActivity, andThen_ok, hv, if_false]
      exact blind_compressLoaded v.length a (setPhase .inputRead { t with ubuf := v })

theorem blind_parseHeader : ActivityBlind parseHeader := by
  intro a s
  have h := blind_inRead (headerLen s.cfg) a s
  show (inRead (headerLen s.cfg) _).andThen _ = _
  rw [h]
  unfold parseHeader
  cases inRead (headerLen s.cfg) s with
  | ended t => rfl
  | ok v t =>
    simp only [Micro.withActivity, andThen_ok, storeHeader_withActivity]
    split
    · rfl
    · split
      · rfl
      · change (if malformedHeader (storeHeader v t) = true then _ else _) = _
        split <;> rfl

theorem blind_readPayload : ActivityBlind readPayload := by
  intro a s
  have h := blind_inRead s.hdrCsize.toNat a s
  show (inRead s.hdrCsize.toNat _).andThen _ = _
  rw [h]
  unfold readPayload
  cases inRead s.hdrCsize.toNat s with
  | ended t => rfl
  | ok v t =>
    simp only [Micro.withActivity, andThen_ok]
    split <;> rfl

theorem blind_checkCompressed (pos : DWord) : ActivityBlind (checkCompressed pos) := by
  intro a s
  unfold checkCompressed
  cases s.cfg.chkEn
  · rfl
  · exact blind_checkSlot _ _ _ _ a s

theorem blind_checkUncompressed (pos : DWord) : ActivityBlind (checkUncompressed pos) := by
  intro a s
  unfold checkUncompressed
  cases s.cfg.chkEn
  · rfl
  · exact blind_checkSlot _ _ _ _ a s

theorem blind_decompressParsed (pos : DWord) : ActivityBlind (decompressParsed pos) := by
  refine blind_readPayload.andThen fun _ => ?_
  refine (blind_checkCompressed pos).andThen fun _ => ?_
  refine ActivityBlind.andThen (f := fun s => doDecompress s.hdrUsize.toNat (setPhase .chkCChecked s))
    (fun a s => blind_doDecompress _ a (setPhase .chkCChecked s)) fun _ => ?_
  refine ((blind_checkUncompressed pos).comp fun _ _ => rfl).andThen fun _ => ?_
  refine (blind_applyInv.comp fun _ _ => rfl).andThen fun _ => ?_
  exact ActivityBlind.andThen (f := fun s => outWrite s.ubuf (setPhase .filtered s))
    (fun a s => blind_outWrite _ a (setPhase .filtered s)) fun _ => fun _ _ => rfl

theorem blind_decompressBody : ActivityBlind decompressBody := by
  intro a s
  have h := blind_parseHeader a s
  unfold decompressBody
  rw [h]
  cases parseHeader s with
  | ended t => rfl
  | ok v t =>
    cases v with
    | eos => rfl
    | header => exact blind_decompressParsed s.totRead a t

/-- A turn of the loop is the block command's body, whatever the activity (44_stream_driver.md R205). -/
theorem turnBody_activity (d : Direction) (a : Activity) (s : State) :
    turnBody d { s with activity := a } = (turnBody d s).withActivity a := by
  cases d
  · exact blind_compressBody a s
  · exact blind_decompressBody a s

/-- A block command is one turn of its direction. -/
theorem ready_blockInstr (d : Direction) {s : State} (h : Ready s) :
    exec (blockInstr d) s = .next (turnBody d (acceptCommand s)).state := by
  cases d
  · exact runCommand_ready compressBody h
  · exact runCommand_ready decompressBody h

/-- The state a turn of the loop starts in, when its block command would be accepted at `u`. -/
def turnStart (d : Direction) (u : State) : State := { acceptCommand u with activity := .looping d }

/-- The loop begins in the state in which its first block command would be accepted, with the totals zeroed. -/
theorem ready_streamInstr (d : Direction) {s : State} (h : Ready s) :
    exec (streamInstr d) s = .next (streamLoop d (streamFuel s)
      (turnStart d { s with totRead := 0, totWritten := 0, blkCount := 0 })) := by
  cases d
  · exact runCommand_ready (fun s => .ok () (streamCommand .compress s)) h
  · exact runCommand_ready (fun s => .ok () (streamCommand .decompress s)) h

/-- All that one turn of the loop can do, said as the block command: it ends early, it finds the end of the input, or it
completes a block and leaves the other turns to start where it ended (44_stream_driver.md R205 to R208). -/
theorem streamLoop_turn (d : Direction) (k : Nat) {u : State} (hr : Ready u) :
    (exec (blockInstr d) u = .next (streamLoop d (k + 1) (turnStart d u)) ∧
        Ends (acceptCommand u) (streamLoop d (k + 1) (turnStart d u))) ∨
      (∃ v, exec (blockInstr d) u = .next v ∧ v.busy = false ∧ v.phase = .endOfStream ∧ v.totRead = u.totRead ∧
        v.totWritten = u.totWritten ∧ v.blkCount = u.blkCount ∧
        streamLoop d (k + 1) (turnStart d u) = { v with activity := .none }) ∨
      ∃ v, exec (blockInstr d) u = .next v ∧ Ready v ∧ v.phase = .idle ∧ v.blkCount = u.blkCount + 1 ∧
        u.ipos < v.ipos ∧ streamLoop d (k + 1) (turnStart d u) = streamLoop d k (turnStart d v) := by
  have hx := ready_blockInstr d hr
  have ht : turnBody d (turnStart d u) = _ := turnBody_activity d (.looping d) (acceptCommand u)
  have hb := turnBody_holds d (acceptCommand u)
  cases hm : turnBody d (acceptCommand u) with
  | ended t =>
    rw [hm] at hx ht hb
    have hl : streamLoop d (k + 1) (turnStart d u) = t := by simp only [streamLoop, ht, Micro.withActivity]
    exact .inl ⟨by rw [hl]; exact hx, by rw [hl]; exact hb⟩
  | ok a t =>
    rw [hm] at hx ht hb
    rcases hb with rfl | ⟨w, h1, -, h3, h4, h5, rfl⟩
    · refine .inr (.inl ⟨_, hx, rfl, rfl, by simp, by simp, by simp, ?_⟩)
      simp only [streamLoop, ht, Micro.withActivity]
      rfl
    · refine .inr (.inr ⟨_, hx, ⟨rfl, .inl rfl⟩, rfl, ?_, ?_, ?_⟩)
      · have hc := h1.blkCount
        simp at hc
        simp [hc]
      · show u.ipos < w.ipos
        rw [h5]
        exact Nat.lt_add_of_pos_right h3
      · have he : loopExit { complete _ (turnWritten d (acceptCommand u) w) 1 (setPhase .idle w) with
            activity := .looping d } = false :=
          loopExit_complete (wr := turnWritten d (acceptCommand u) w) (k := 1) (s := setPhase .idle w) h3 h4
        simp only [streamLoop, ht, Micro.withActivity, he]
        rfl

theorem ready_resumed {d : Direction} {s : State} (h : GoesOn d s) : Ready (resumed s) := ⟨rfl, .inl h.2.2.1⟩

/-- A step that goes on with a stream command runs its next turns. -/
theorem step_goesOn {d : Direction} {s : State} (h : GoesOn d s) :
    step s = .next (streamLoop d (streamFuel s) (turnStart d (resumed s))) := by
  obtain ⟨hb, ha, hp, hh⟩ := h
  cases s
  subst hb ha hp
  simp only [step, if_true, busyStep, resumed, turnStart, acceptCommand]
  split
  · exact absurd rfl (hh _).1
  · rfl
  · rw [if_neg]
    · rfl
    · rintro ⟨rfl, rfl⟩
      exact (hh _).2 rfl
  · rfl
  · rfl

end Sys2Proof.Machine
end

