-- ==== Sys2Proof/Tests/Slice0.lean ====
section
/-! SUPPORT. The model's own tests: ill-formed terms refused, words decoded, one step of each command against the vectors
of spec/95_test_vectors.md (named in each docstring), and for every obligation with hypotheses a concrete state and
operands that meet them. -/

namespace Sys2Proof.Tests

-- One theorem at a time: each `decide +kernel` waits for the kernel, and a hundred waiting threads need too much memory.
set_option Elab.async false

open Sys2Proof Sys2Proof.Machine

/-- A word by its number. A statement about each word of a short list ranges over numbers: `decide` would try all
`2^32` words. -/
abbrev w32 (n : Nat) : Word := BitVec.ofNat 32 n

/-! ### Ill-formed terms -/

/-- 30_encoding.md R90 (1): a bit above 8 set, the lowest and the highest. -/
theorem test_reserved_bits_refused :
    legalCommandWord 0x00000200 = false ∧ legalCommandWord 0x80000000 = false ∧
      decode 0x00000200 = .illegal .nonzeroReservedBits ∧ decode 0x80000000 = .illegal .nonzeroReservedBits := by
  decide

/-- R90 (2): reserved opcodes at the edges of the assigned ranges (V-Y1). -/
theorem test_reserved_opcodes_refused :
    ∀ w ∈ [0x0B, 0x0F, 0x14, 0x1F, 0x22, 0x2E, 0x30, 0xFF],
      legalCommandWord (w32 w) = false ∧ decode (w32 w) = .illegal .reservedOpcode := by decide +kernel

/-- R90 (3): `BSEL = 1` on a command without `BSEL` (V-Y1). -/
theorem test_bsel_refused :
    ∀ w ∈ [0x100, 0x103, 0x104, 0x107, 0x110, 0x12F],
      legalCommandWord (w32 w) = false ∧ decode (w32 w) = .illegal .bselNotAllowed := by decide +kernel

/-- 10_state.md R28: the illegal `CFG` words of V-Y3, and its largest legal one. -/
theorem test_cfg_words_refused :
    (∀ w ∈ [0x30, 0x32, 0x40, 0x80, 0x10000, 0xFFFFFFFF, 0xFF3F],
      legalCfgWord (w32 w) = false ∧ cfgOfWord (w32 w) = none) ∧ (cfgOfWord 0xFF2F).map cfgWord = some 0xFF2F := by decide +kernel

/-- 20_memory.md R63: another width or alignment is no defined access. -/
theorem test_accesses_refused :
    definedAccess 0 2 = false ∧ definedAccess 4 8 = false ∧ definedAccess 1 4 = false ∧ definedAccess 254 4 = false ∧
      definedAccess 252 4 = true := by decide

/-- Every instruction is well formed: the types leave nothing to refuse. -/
theorem test_instructions_well_formed : Instr.wellFormed (.bufLoad .c) = true ∧ Instr.wellFormed .nop = true := by
  decide

/-! ### Decoding: words written out from 30_encoding.md R86 and R88 -/

theorem test_decode_checksum :
    decode 0b00000000000000000000000000000001#32 = .instr (.chkCompute .u) ∧
    decode 0b00000000000000000000000100000001#32 = .instr (.chkCompute .c) ∧
    decode 0b00000000000000000000000000000010#32 = .instr (.chkVerify .u) ∧
    decode 0b00000000000000000000000100000010#32 = .instr (.chkVerify .c) := by decide

theorem test_decode_filter :
    decode 0b00000000000000000000000000000011#32 = .instr .filtFwd ∧
    decode 0b00000000000000000000000000000100#32 = .instr .filtInv := by decide

theorem test_decode_framing :
    decode 0b00000000000000000000000000000101#32 = .instr (.bufLoad .u) ∧
    decode 0b00000000000000000000000100000101#32 = .instr (.bufLoad .c) ∧
    decode 0b00000000000000000000000000000110#32 = .instr (.bufStore .u) ∧
    decode 0b00000000000000000000000100000110#32 = .instr (.bufStore .c) ∧
    decode 0b00000000000000000000000000000111#32 = .instr .lzoComp ∧
    decode 0b00000000000000000000000000001000#32 = .instr .lzoDecomp ∧
    decode 0b00000000000000000000000000001001#32 = .instr .recEmit ∧
    decode 0b00000000000000000000000000001010#32 = .instr .recParse := by decide

theorem test_decode_block_and_stream :
    decode 0b00000000000000000000000000010000#32 = .instr .compressBlock ∧
    decode 0b00000000000000000000000000010001#32 = .instr .decompressBlock ∧
    decode 0b00000000000000000000000000010010#32 = .instr .compressStream ∧
    decode 0b00000000000000000000000000010011#32 = .instr .decompressStream := by decide

theorem test_decode_system :
    decode 0b00000000000000000000000000000000#32 = .instr .nop ∧
    decode 0b00000000000000000000000000100000#32 = .instr .clrErr ∧
    decode 0b00000000000000000000000000100001#32 = .instr .clrTotals ∧
    decode 0b00000000000000000000000000101111#32 = .instr .softReset := by decide

/-- The host's question of a table row, and of a number too long for a word. -/
theorem test_decode_table_word :
    decodeTableWord 32 0x105 = some (.bufLoad .c) ∧ decodeTableWord 32 0x10B = none ∧
      decodeTableWord 64 0x100000000 = none := by decide

/-! ### A small machine (spec/95_test_vectors.md section 1) -/

/-- `61 62 63`. -/
def abc : Bytes := [0x61, 0x62, 0x63]

/-- The record `COMPRESS_BLOCK` writes for `61 62 63` under S0 and Adler-32 (V-C0). -/
def r19 : Bytes :=
  [0x00, 0x00, 0x00, 0x03, 0x00, 0x00, 0x00, 0x03, 0x02, 0x4D, 0x01, 0x27, 0x02, 0x4D, 0x01, 0x27, 0x61, 0x62, 0x63]

/-- The record under S1 (section 8). -/
def r20 : Bytes :=
  [0x00, 0x00, 0x00, 0x03, 0x00, 0x00, 0x00, 0x04, 0x02, 0x4D, 0x01, 0x27, 0x05, 0x4E, 0x01, 0xE7, 0xC0, 0x61, 0x62, 0x63]

/-- `r20` with one bit of its payload flipped. -/
def r20' : Bytes := r20.set 17 0x60

/-- What S0, S1 (`LZO_ALG = 1`) and X1 answer for the blocks the tests use, some answers that fail, and some that never
come. -/
def platform : Platform where
  maxBlockSizeLessOne := 63
  defaultBlockSize := 16
  cbufCapacity := 96
  lzoCompressKnown :=
    [(⟨0, [], false⟩, .bytes []), (⟨0, [0x61], false⟩, .bytes [0x61]), (⟨0, abc, false⟩, .bytes abc),
     (⟨0, [0x62, 0x63, 0x64], false⟩, .bytes [0x62, 0x63, 0x64]),
     (⟨0, [0x61, 0x62, 0x63, 0x64], false⟩, .bytes [0x61, 0x62, 0x63, 0x64]),
     (⟨0, [0x65, 0x66], false⟩, .bytes [0x65, 0x66]), (⟨1, abc, false⟩, .bytes (0xC0 :: abc)),
     (⟨1, abc, true⟩, .bytes (0xC1 :: abc)), (⟨0, [0xEE], false⟩, .fail), (⟨0, [0xBB], false⟩, .never),
     (⟨0, [0xDD], false⟩, .bytes (List.replicate 97 0))]
  lzoDecompressKnown :=
    [(⟨0, [], 0⟩, .bytes []), (⟨0, [0x61], 1⟩, .bytes [0x61]), (⟨0, abc, 3⟩, .bytes abc),
     (⟨0, [0x62, 0x63, 0x64], 3⟩, .bytes [0x62, 0x63, 0x64]),
     (⟨0, [0x61, 0x62, 0x63, 0x64], 4⟩, .bytes [0x61, 0x62, 0x63, 0x64]),
     (⟨0, [0x65, 0x66], 2⟩, .bytes [0x65, 0x66]), (⟨1, 0xC0 :: abc, 3⟩, .bytes abc),
     (⟨1, [0xC0, 0x60, 0x62, 0x63], 3⟩, .bytes [0x60, 0x62, 0x63]), (⟨0, abc, 4⟩, .fail), (⟨0, abc, 64⟩, .fail),
     (⟨0, abc, 2⟩, .bytes abc), (⟨1, [0xE0, 0x61, 0x62, 0x63], 3⟩, .fail), (⟨0, [0xEE], 1⟩, .bytes [0xEE]),
     (⟨0, [0xDD], 1⟩, .bytes [0xDD]), (⟨0, [0xAA], 1⟩, .bytes [0xAA]), (⟨0, [0xBB], 1⟩, .never)]
  filterFwdKnown :=
    [([], .bytes []), ([0x61], .bytes [0x62]), (abc, .bytes [0x62, 0x63, 0x64]),
     ([0x00, 0x7F, 0xFF], .bytes [0x01, 0x80, 0x00]), ([0xEE], .fail), ([0xDD], .bytes [0xDD, 0xDD]), ([0xAA], .never)]
  filterInvKnown :=
    [([], .bytes []), ([0x62], .bytes [0x61]), ([0x62, 0x63, 0x64], .bytes abc),
     ([0x01, 0x80, 0x00], .bytes [0x00, 0x7F, 0xFF]), ([0xEE], .fail), ([0xDD], .bytes []), ([0xAA], .never)]

/-- Right after reset, with streams that answer. -/
def base : State :=
  { State.reset with
    platform := platform, blockSize := 16,
    ioScript := [.ok, .ok, .ok, .ok, .ok, .ok, .ok, .ok] }

/-- `base` with an input. -/
def withIn (b : Bytes) : State := { base with input := b }

/-- A `CFG` word written. -/
def withCfg (w : Word) (s : State) : State :=
  match cfgOfWord w with
  | some c => { s with cfg := c }
  | none => s

/-- A failed unit (V-Y4). -/
def failedBase : State := { base with phase := .failed, errCode := .illegalCmd }

/-- A unit whose last request is never answered. -/
def hungBase : State := { base with busy := true, activity := .hung }

/-- One step in which the host writes `w` to `CMD`. -/
def cmd (w : Word) (s : State) : Result := step (s.withFetchWord 32 w.toNat)

/-- The next state holds what `p` asks. -/
def check (r : Result) (p : State → Bool) : Bool :=
  match r with
  | .next t => p t
  | .fault _ => false
  | .refused _ => false

/-- The next state, if there is one. -/
def nextOf (r : Result) : State :=
  match r with
  | .next t => t
  | .fault _ => base
  | .refused _ => base

theorem eq_nextOf {r : Result} (h : check r (fun _ => true) = true) : r = .next (nextOf r) := by
  cases r <;> simp_all [check, nextOf]

/-! ### One step of each command -/

/-- V-Y4: `NOP` in `FAILED` and in `END_OF_STREAM` changes nothing. -/
theorem test_nop :
    check (cmd 0 failedBase) (fun t => decide (t = failedBase)) = true ∧
    check (cmd 0 { base with phase := .endOfStream }) (fun t => statusWord t == 0x0E0) = true := by decide +kernel

/-- V-K1, V-K2, V-K5. -/
theorem test_chk_compute :
    check (cmd 0x001 { base with ubuf := abc }) (fun t => t.chkResult == 0x024D0127 && statusWord t == 0) = true ∧
    check (cmd 0x101 (withCfg 0x003 base)) (fun t => t.chkResult == 0) = true := by decide +kernel

/-- V-K3, V-K4. -/
theorem test_chk_verify :
    check (cmd 0x002 { base with ubuf := abc, chkExpect := 0x024D0127 })
      (fun t => t.chkResult == 0x024D0127 && statusWord t == 0x100) = true ∧
    check (cmd 0x102 { base with cbuf := abc, chkExpect := 0x024D0126, matched := true })
      (fun t => statusWord t == 0) = true := by decide +kernel

/-- V-L1, V-L6. -/
theorem test_filt_fwd :
    check (cmd 0x003 (withCfg 0x006 { base with ubuf := [0x00, 0x7F, 0xFF] }))
      (fun t => t.ubuf == [0x01, 0x80, 0x00] && statusWord t == 0) = true ∧
    check (cmd 0x003 (withCfg 0x006 { base with ubuf := [0xEE] }))
      (fun t => statusWord t == 0x0F0 && errWord t == 0x03 && ulen t == 1) = true := by decide +kernel

/-- V-L2, V-L3. -/
theorem test_filt_inv :
    check (cmd 0x004 (withCfg 0x006 { base with ubuf := [0x01, 0x80, 0x00] }))
      (fun t => t.ubuf == [0x00, 0x7F, 0xFF]) = true ∧
    check (cmd 0x004 { base with ubuf := [0x00, 0x7F, 0xFF] }) (fun t => t.ubuf == [0x00, 0x7F, 0xFF]) = true := by
  decide +kernel

/-- V-B1, V-B2. -/
theorem test_buf_load :
    check (cmd 0x005 { withIn abc with xferLen := 16 })
      (fun t => t.ubuf == abc && t.blkRead == 3 && t.totRead == 3 && statusWord t == 0) = true ∧
    check (cmd 0x105 { withIn abc with xferLen := 97 }) (fun t => errWord t == 0x09 && t.ipos == 0) = true := by
  decide +kernel

/-- V-B4. -/
theorem test_buf_store :
    check (cmd 0x006 { base with ubuf := abc, out := [0x00], blkRead := 7 })
      (fun t => t.out == 0x00 :: abc && t.blkWritten == 3 && t.blkRead == 0 && t.totWritten == 3) = true ∧
    check (cmd 0x106 { base with ubuf := abc }) (fun t => t.out == []) = true := by decide +kernel

/-- V-B5, S0 and S1 with `OPTIMIZE = 1`. -/
theorem test_lzo_comp :
    check (cmd 0x007 { base with ubuf := abc }) (fun t => t.cbuf == abc && t.hdrCsize == 0) = true ∧
    check (cmd 0x007 (withCfg 0x10A { base with ubuf := abc })) (fun t => t.cbuf == 0xC1 :: abc) = true := by
  decide +kernel

/-- V-B6. -/
theorem test_lzo_decomp :
    check (cmd 0x008 { base with cbuf := abc, hdrUsize := 3 }) (fun t => t.ubuf == abc && statusWord t == 0) = true ∧
    check (cmd 0x008 { base with cbuf := abc, hdrUsize := 4 }) (fun t => errWord t == 0x05) = true ∧
    check (cmd 0x008 { base with cbuf := abc, hdrUsize := 65 }) (fun t => errWord t == 0x09) = true := by
  decide +kernel

/-- V-F17, V-F18. -/
theorem test_rec_emit :
    check (cmd 0x009 base) (fun t => t.out == List.replicate 16 0 && t.blkWritten == 16 && t.blkCount == 0) = true ∧
    check (cmd 0x009 { base with hdrCsize := 1 }) (fun t => statusWord t == 0x0F0 && errWord t == 0x09) = true := by
  decide +kernel

/-- V-F19, V-F3. -/
theorem test_rec_parse :
    check (cmd 0x00A (withIn r19)) (fun t => t.hdrUsize == 3 && t.hdrCsize == 3 && t.hdrUchk == 0x024D0127 &&
      t.cbuf == abc && t.blkRead == 19 && t.totRead == 19 && t.blkCount == 0 && statusWord t == 0) = true ∧
    check (cmd 0x00A (withIn (r19.take 18))) (fun t => errWord t == 0x12 && t.hdrCchk == 0x024D0127 &&
      t.ipos == 18 && clen t == 0) = true := by decide +kernel

/-- V-C0, V-C7 but for the output. -/
theorem test_compress_block :
    check (cmd 0x010 (withIn abc)) (fun t => t.out == r19 && t.blkRead == 3 && t.blkWritten == 19 && t.blkCount == 1 &&
      t.hdrUchk == 0x024D0127 && t.chkResult == 0x024D0127 && statusWord t == 0) = true ∧
    check (cmd 0x010 { withIn abc with ioScript := [.ok, .ioError 5] }) (fun t => errWord t == 0xC1 &&
      t.hdrCsize == 3 && t.ipos == 3 && t.totRead == 0) = true := by decide +kernel

/-- V-P3, V-P2. -/
theorem test_decompress_block :
    check (cmd 0x011 (withCfg 0x112 (withIn r20'))) (fun t => statusWord t == 0x600 &&
      decide (t.diag = [⟨0, .compressed, 0x054E01E7, 0x054B01E6⟩, ⟨0, .uncompressed, 0x024D0127, 0x024A0126⟩]) &&
      t.out == [0x60, 0x62, 0x63] && t.blkRead == 20 && t.blkWritten == 3 && t.chkResult == 0x024A0126) = true ∧
    check (cmd 0x011 (withCfg 0x102 (withIn r20'))) (fun t => statusWord t == 0x0F0 && errWord t == 0x26 &&
      t.chkResult == 0x054B01E6 && t.out == [] && ulen t == 0 && clen t == 4 && t.ipos == 20) = true := by
  decide +kernel

/-- V-S1, the first half. -/
theorem test_compress_stream :
    check (cmd 0x012 { withIn [0x61, 0x62, 0x63, 0x64, 0x65, 0x66] with blockSize := 4, totRead := 9 })
      (fun t => statusWord t == 0x0E0 && t.blkCount == 2 && t.totRead == 6 && t.totWritten == 38 && t.blkRead == 0 &&
        t.out.drop 20 == [0, 0, 0, 2, 0, 0, 0, 2, 0x01, 0x32, 0x00, 0xCC, 0x01, 0x32, 0x00, 0xCC, 0x65, 0x66]) = true := by
  decide +kernel

/-- V-S5. -/
theorem test_decompress_stream :
    check (cmd 0x013 (withCfg 0x102 (withIn (r20 ++ r20')))) (fun t => statusWord t == 0x0F0 && errWord t == 0x26 &&
      t.errPos == 20 && t.blkCount == 1 && t.totWritten == 3 && t.out == abc) = true := by decide +kernel

/-- V-S6: the first record's payload is damaged, and the policy is Warn. -/
theorem test_decompress_stream_warn :
    check (cmd 0x013 (withCfg 0x112 (withIn (r20' ++ r20)))) (fun t => statusWord t == 0x6E0 && t.diagCount == 2 &&
      t.diag.all (fun r => r.pos == 0) && t.blkCount == 2 && t.totRead == 40 && t.totWritten == 6 &&
      t.out == [0x60, 0x62, 0x63, 0x61, 0x62, 0x63]) = true := by decide +kernel

/-- V-Y4: `CLR_ERR` in `FAILED`. -/
theorem test_clr_err :
    check (cmd 0x020 { failedBase with cmdRej := true, errPos := 8, totRead := 8 })
      (fun t => statusWord t == 0 && errWord t == 0 && t.errPos == 0 && t.totRead == 8) = true := by decide +kernel

/-- V-Y5. -/
theorem test_clr_totals :
    check (cmd 0x021 { base with totRead := 3, totWritten := 19, blkCount := 1, blkRead := 3, blkWritten := 19 })
      (fun t => t.totRead == 0 && t.totWritten == 0 && t.blkCount == 0 && t.blkRead == 3 && t.blkWritten == 19) = true := by
  decide +kernel

/-- V-Y4: `SOFT_RESET`. -/
theorem test_soft_reset :
    check (cmd 0x02F (withCfg 0x013 { base with ipos := 3, out := r19, ubuf := abc, blockSize := 1, totRead := 3 }))
      (fun t => cfgWord t.cfg == 2 && t.totRead == 0 && t.blockSize == 16 && ulen t == 0 && t.ipos == 3 &&
        t.out == r19) = true := by decide +kernel

/-- V-Y4: a dropped command, and the illegal word `0xEE` in `END_OF_STREAM`. -/
theorem test_acceptance :
    check (cmd 0x010 failedBase) (fun t => statusWord t == 0x8F0) = true ∧
    check (cmd 0x0EE { base with phase := .endOfStream }) (fun t => errWord t == 0xE7) = true := by decide +kernel

/-! ### The hypotheses of the obligations can be met -/

theorem witness_DecodeAndEncodeAgree :
    Instr.wellFormed (.chkCompute .c) = true ∧ decode 0x00000101 = .instr (.chkCompute .c) := by decide

theorem witness_DecodingFollowsItsFourTests :
    (∀ w ∈ [0x00000200, 0x80000000], (w32 w).extractLsb' 9 23 ≠ 0) ∧
    (∀ w ∈ [0x0000000B, 0x000001FF], (w32 w).extractLsb' 9 23 = 0 ∧ (w32 w).extractLsb' 0 8 ∉ assignedOpcodes) ∧
    (∀ w ∈ [0x00000100, 0x0000012F], (w32 w).extractLsb' 9 23 = 0 ∧ (w32 w).extractLsb' 0 8 ∈ assignedOpcodes ∧
      (w32 w).getLsbD 8 = true ∧ (w32 w).extractLsb' 0 8 ∉ bselOpcodes) ∧
    ∀ w ∈ [0x00000000, 0x0000002F, 0x00000101, 0x00000106], (w32 w).extractLsb' 9 23 = 0 ∧
      (w32 w).extractLsb' 0 8 ∈ assignedOpcodes ∧ ((w32 w).getLsbD 8 = true → (w32 w).extractLsb' 0 8 ∈ bselOpcodes) := by decide +kernel

/-- `base` with the host's next access. -/
def withHost (e : HostEvent) (s : State) : State := { s with host := [e] }

theorem witness_StepRunsDecodedCommand :
    (withHost (.write 0 4 0x106) base).busy = false ∧
    (withHost (.write 0 4 0x106) base).host = .write 0 4 0x106 :: [] ∧ decode 0x106 = .instr (.bufStore .c) := by decide

theorem witness_IllegalWordFailsWhenReady :
    Ready (withHost (.write 0 4 0x0B) base) ∧
    Ready (withHost (.write 0 4 0xEE) { base with phase := .endOfStream }) ∧
    (withHost (.write 0 4 0x0B) base).host = .write 0 4 0x0B :: [] ∧
    legalCommandWord 0x0B = false ∧ legalCommandWord 0xEE = false := by decide

theorem witness_FailedUnitDropsCommands :
    ∀ w ∈ [0x00, 0x20, 0x2F, 0x10, 0xFFFFFFFF], Failed (withHost (.write 0 4 (w32 w)) failedBase) ∧
      (withHost (.write 0 4 (w32 w)) failedBase).host = .write 0 4 (w32 w) :: [] := by decide +kernel

theorem witness_ReadsReturnTheRegisterMap :
    (∀ off ∈ [0x00, 0x04, 0x08, 0x0C, 0x10, 0x14, 0x18, 0x1C, 0x20, 0x24, 0x28, 0x2C, 0x30, 0x34, 0x38, 0x3C, 0x40, 0x44,
        0x48, 0x4C, 0x50, 0x54, 0x58, 0x5C, 0x60, 0xFC],
      (withHost (.read off 4) base).busy = false ∧ off < 256 ∧ off % 4 = 0 ∧
        (withHost (.read off 4) base).host = .read off 4 :: []) ∧
    (withHost (.read 4 4) hungBase).busy = true ∧ (withHost (.read 4 4) hungBase).host = .read 4 4 :: [] := by decide

theorem witness_WritesReplaceRegisters :
    ∀ off ∈ [0x0C, 0x38, 0x3C, 0x40, 0x44, 0x4C, 0x58], (withHost (.write off 4 1) base).busy = false ∧
      (withHost (.write off 4 1) base).host = .write off 4 1 :: [] := by decide

theorem witness_AccessRightsNeverTrap :
    (∀ off ∈ [0x04, 0x10, 0x5C, 0x60, 0xFC], off < 256 ∧ off % 4 = 0 ∧ (withHost (.write off 4 1) base).busy = false ∧
      (withHost (.write off 4 1) base).host = .write off 4 1 :: [] ∧
      off ∉ [0x00, 0x08, 0x0C, 0x38, 0x3C, 0x40, 0x44, 0x4C, 0x58]) ∧
    (∀ off ∈ [0x00, 0x60, 0xFC], (withHost (.read off 4) base).host = .read off 4 :: [] ∧ (off = 0x00 ∨ 0x60 ≤ off)) ∧
    (∀ off ∈ [0x00, 0x08, 0xFC], (withHost (.read off 4) hungBase).busy = true ∧ off ≠ 0x04 ∧
      check (step (withHost (.read off 4) hungBase)) (fun _ => true) = true) ∧
    ∀ off ∈ [0x00, 0x04, 0xFC], (withHost (.write off 4 1) hungBase).busy = true ∧
      check (step (withHost (.write off 4 1) hungBase)) (fun _ => true) = true := by decide

theorem witness_UndefinedAccessIsRefused :
    ∀ a ∈ [(0, 2), (4, 8), (1, 4), (255, 4), (255, 1)], a.1 < 256 ∧ (a.2 ≠ 4 ∨ a.1 % 4 ≠ 0) ∧
      (withHost (.read a.1 a.2) base).busy = false ∧
      (withHost (.read a.1 a.2) base).host = .read a.1 a.2 :: [] ∧
      (withHost (.write a.1 a.2 1) base).host = .write a.1 a.2 1 :: [] := by decide

theorem witness_CfgWritesAreChecked :
    (∀ w ∈ [0x0000, 0xFF2F], (w32 w).extractLsb' 6 2 = 0 ∧ (w32 w).extractLsb' 16 16 = 0 ∧ (w32 w).extractLsb' 4 2 ≠ 3) ∧
    (∀ w ∈ [0x30, 0x40, 0x80, 0x10000, 0x80000000],
      ¬((w32 w).extractLsb' 6 2 = 0 ∧ (w32 w).extractLsb' 16 16 = 0 ∧ (w32 w).extractLsb' 4 2 ≠ 3)) ∧
    Ready (withHost (.write 8 4 0x30) base) ∧ Failed (withHost (.write 8 4 0x30) failedBase) ∧
    (withHost (.write 8 4 0x30) base).host = .write 8 4 0x30 :: [] := by decide +kernel

theorem witness_ResetValues :
    (withHost .reset hungBase).host = .reset :: [] ∧ (withHost .reset hungBase).busy = true ∧
      (withHost .reset failedBase).host = .reset :: [] := by decide

theorem witness_SoftResetResetsRegisters : Ready base ∧ Failed failedBase ∧ hungBase.busy = true := by decide

theorem witness_NopHasNoEffect : Ready { base with phase := .endOfStream } ∧ Failed failedBase := by decide

theorem witness_ClrErrLeavesFailed : Ready base ∧ Failed failedBase := by decide

theorem witness_ClrTotalsZeroesTotals : Ready base ∧ Failed failedBase := by decide

theorem witness_ChkComputeResult : Ready { base with ubuf := abc } := by decide

theorem witness_ChkVerifyResult : Ready { base with cbuf := abc } := by decide

theorem witness_CrcDetectsSingleBitChange : 0 < 8 ∧ 7 < 8 := by decide

theorem witness_AdlerDetectsSingleBitChange : 0 < 8 ∧ 7 < 8 := by decide

theorem witness_IdentityFilterIsNoOp : base.cfg.filtSel = false ∧ Ready base := by decide

theorem witness_FilterCommandsRewriteUbuf :
    (Ready (withCfg 0x006 { base with ubuf := abc }) ∧ (withCfg 0x006 { base with ubuf := abc }).cfg.filtSel = true ∧
      [0x62#8, 0x63#8, 0x64#8].length = (withCfg 0x006 { base with ubuf := abc }).ubuf.length ∧
      filterFwd platform abc = .bytes [0x62, 0x63, 0x64]) ∧
    filterInv platform [0x62, 0x63, 0x64] = .bytes abc ∧ filterFwd platform [] = .bytes [] ∧
    filterInv platform [] = .bytes [] := by decide

/-- The record of a block of one byte that both ports leave as it is. -/
def oneByteRecord (x : Byte) : Bytes := record true 1 1 (adler32 [x]) (adler32 [x]) [x]

theorem witness_FilterFailureEntersFailed :
    ((∀ b ∈ [[0xEE#8], [0xDD#8]], Ready (withCfg 0x006 { base with ubuf := b }) ∧
      (withCfg 0x006 { base with ubuf := b }).cfg.filtSel = true) ∧
      filterFwd platform [0xEE] = .fail ∧ filterInv platform [0xEE] = .fail ∧
      filterFwd platform [0xDD] = .bytes [0xDD, 0xDD] ∧ [0xDD#8, 0xDD#8].length ≠ [0xDD#8].length ∧
      filterInv platform [0xDD] = .bytes [] ∧ ([] : Bytes).length ≠ [0xDD#8].length) ∧
    (∀ x ∈ [0xEE#8, 0xDD#8], Ready (withCfg 0x006 (withIn (oneByteRecord x))) ∧
      ioAnswer (withIn (oneByteRecord x)) = .ok ∧ ioAnswer (ioTaken (withIn (oneByteRecord x))) = .ok ∧
      RecordNext (withCfg 0x006 (withIn (oneByteRecord x))) 1 1 (adler32 [x]) (adler32 [x]) [x] ∧
      lzoDecompress platform ⟨0, [x], (1#32).toNat⟩ = .bytes [x] ∧ [x].length = (1#32).toNat ∧
      SlotsPass (withCfg 0x006 base).cfg (adler32 [x]) (adler32 [x]) [x] [x]) ∧
    decodeFilter (withCfg 0x006 base).cfg platform [0xEE] = .fail ∧
    decodeFilter (withCfg 0x006 base).cfg platform [0xDD] = .bytes [] :=
  ⟨by decide, by decide +kernel, by decide, by decide⟩

theorem witness_InReadDelivers :
    (ioAnswer (withIn abc) = .ok ∧ (withIn abc).inputEndless = false ∧ (withIn abc).ipos ≤ (withIn abc).input.length) ∧
    (ioAnswer { withIn abc with ipos := 3 } = .ok ∧
      ({ withIn abc with ipos := 3 } : State).ipos ≤ ({ withIn abc with ipos := 3 } : State).input.length) ∧
    (ioAnswer { withIn abc with ipos := 4 } = .ok ∧ ({ withIn abc with ipos := 4 } : State).inputEndless = false ∧
      ({ withIn abc with ipos := 4 } : State).input.length < ({ withIn abc with ipos := 4 } : State).ipos) ∧
    ioAnswer { withIn abc with inputEndless := true } = .ok ∧
      ({ withIn abc with inputEndless := true } : State).inputEndless = true := by decide

theorem witness_IoErrorEntersFailed :
    (Ready { base with ioScript := [.ioError 2] } ∧ ioAnswer { base with ioScript := [.ioError 2] } = .ioError 2 ∧
      (∀ b ∈ [BufSel.u, BufSel.c], base.xferLen.toNat ≤ capacity b base.platform) ∧
      (64#32).toNat ≤ capacity .u platform ∧ (96#32).toNat ≤ capacity .c platform ∧ base.hdrCsize = clen base) ∧
    (∀ x ∈ [(r19, 3, 3, 0x024D0127), (recordHeader true 64 96 0 0, 64, 96, 0)],
      Ready { withIn x.1 with ioScript := [.ok, .ioError 1] } ∧
      ioAnswer { withIn x.1 with ioScript := [.ok, .ioError 1] } = .ok ∧
      nextInput (headerLen base.cfg) { withIn x.1 with ioScript := [.ok, .ioError 1] } =
        recordHeader base.cfg.chkEn (w32 x.2.1) (w32 x.2.2.1) (w32 x.2.2.2) (w32 x.2.2.2) ∧
      (w32 x.2.1).toNat ≤ platform.maxBlockSize ∧ (w32 x.2.2.1).toNat ≤ platform.cbufCap ∧
      ioAnswer (ioTaken { withIn x.1 with ioScript := [.ok, .ioError 1] }) = .ioError 1) ∧
    (Ready { withIn r19 with ioScript := [.ok, .ok, .ioError 2] } ∧
      RecordNext { withIn r19 with ioScript := [.ok, .ok, .ioError 2] } 3 3 0x024D0127 0x024D0127 abc ∧
      lzoDecompress platform ⟨0, abc, (3#32).toNat⟩ = .bytes abc ∧ abc.length = (3#32).toNat ∧
      SlotsPass base.cfg 0x024D0127 0x024D0127 abc abc ∧ decodeFilter base.cfg platform abc = .bytes abc ∧
      ioAnswer (takeAnswers 2 { withIn r19 with ioScript := [.ok, .ok, .ioError 2] }) = .ioError 2) ∧
    answersOk 2 { withIn r19 with ioScript := [.ok, .ok, .ioError 2] } := by
  refine ⟨by decide, by decide +kernel, by decide +kernel, ⟨by decide, by decide, trivial⟩⟩

theorem witness_UnansweredRequestKeepsBusy :
    (Ready { base with ioScript := [.never 0] } ∧ ioAnswer { base with ioScript := [.never 0] } = .never 0 ∧
      base.xferLen.toNat ≤ capacity .u platform ∧ base.hdrCsize = clen base) ∧
    (filterFwd platform [0xAA] = .never ∧ filterInv platform [0xAA] = .never ∧
      lzoCompress platform ⟨0, [0xBB], false⟩ = .never ∧ lzoDecompress platform ⟨0, [0xBB], (1#32).toNat⟩ = .never) ∧
    (encodeFilter (withCfg 0x006 base).cfg platform [0xAA] = .never ∧
      encodeFilter base.cfg platform [0xBB] = .bytes [0xBB] ∧ CompressesTo base.cfg platform ⟨abc, abc, abc⟩ ∧
      nextInput (min base.blockSize.toNat platform.maxBlockSize) (withIn [0xAA]) = [0xAA] ∧
      ioAnswer (withIn [0xAA]) = .ok ∧ ioAnswer (ioTaken { withIn abc with ioScript := [.ok, .never 2] }) = .never 2) ∧
    (ioAnswer { withIn r19 with ioScript := [.ok, .never 1] } = .ok ∧
      RecordNext { withIn r19 with ioScript := [.ok, .never 1] } 3 3 0x024D0127 0x024D0127 abc ∧
      ioAnswer (ioTaken { withIn r19 with ioScript := [.ok, .never 1] }) = .never 1) ∧
    (RecordNext (withIn (oneByteRecord 0xBB)) 1 1 (adler32 [0xBB]) (adler32 [0xBB]) [0xBB] ∧
      checksum (algOf base.cfg) [0xBB] = adler32 [0xBB] ∧
      RecordNext (withCfg 0x006 (withIn (oneByteRecord 0xAA))) 1 1 (adler32 [0xAA]) (adler32 [0xAA]) [0xAA] ∧
      lzoDecompress platform ⟨0, [0xAA], (1#32).toNat⟩ = .bytes [0xAA] ∧
      SlotsPass (withCfg 0x006 base).cfg (adler32 [0xAA]) (adler32 [0xAA]) [0xAA] [0xAA] ∧
      decodeFilter (withCfg 0x006 base).cfg platform [0xAA] = .never ∧
      decodeFilter base.cfg platform abc = .bytes abc ∧
      ioAnswer (takeAnswers 2 { withIn r19 with ioScript := [.ok, .ok, .never 0] }) = .never 0) ∧
    answersOk 2 { withIn r19 with ioScript := [.ok, .ok, .never 0] } ∧
    (hungBase.busy = true ∧ hungBase.activity = .hung ∧ ∀ rest, hungBase.host ≠ .reset :: rest) := by
  refine ⟨by decide, by decide, by decide +kernel, by decide +kernel, by decide +kernel,
    ⟨by decide, by decide, trivial⟩, by decide, by decide, fun rest h => ?_⟩
  cases h

/-- A stream whose second block command never reads its input, on a finite and on an endless input. -/
def stalling (endless : Bool) : State :=
  { withIn [0x61, 0x62, 0x63, 0x64, 0x65, 0x66] with
    blockSize := 4, inputEndless := endless, ioScript := [.ok, .ok, .never 0] }

/-- What its first block command leaves. -/
def stalled (endless : Bool) : State := nextOf (exec .compressBlock (stalling endless))

/-- A stream command in progress, between two of its turns. -/
def goingOn (d : Direction) (s : State) : State := { s with busy := true, activity := .looping d }

theorem goesOn_of_head {d : Direction} {s : State} (h : s.busy = true ∧ s.activity = .looping d ∧ s.phase = .idle)
    (hh : s.host.head? ≠ some .reset ∧ s.host.head? ≠ some (.read 4 4)) : GoesOn d s :=
  ⟨h.1, h.2.1, h.2.2, fun _ => ⟨fun e => hh.1 (by rw [e]; rfl), fun e => hh.2 (by rw [e]; rfl)⟩⟩

theorem goingOn_goesOn (d : Direction) {s : State} (h : s.phase = .idle) (hh : s.host = []) :
    GoesOn d (goingOn d s) := goesOn_of_head ⟨rfl, rfl, h⟩ (by simp [goingOn, hh])

theorem witness_UnansweredRequestKeepsBusy_stream (e : Bool) :
    Ready (stalling e) ∧ 1 ≤ (stalling e).input.length - (stalling e).ipos ∧
    { stalling e with totRead := 0, totWritten := 0, blkCount := 0 } = stalling e ∧
    blocksRun (blockInstr .compress) 1 (stalling e) (stalled e) ∧ Hangs (blockInstr .compress) (stalled e) := by
  cases e <;> exact ⟨by decide, by decide, by decide, ⟨_, eq_nextOf (by decide +kernel), by decide +kernel,
    by decide +kernel, rfl⟩, ⟨_, eq_nextOf (by decide +kernel), by decide +kernel, by decide +kernel⟩⟩

/-- What the host may do next while a stream command goes on. -/
def goingOnHosts : List (List HostEvent) := [[], [.wait, .reset], [.write 0 4 0x2F], [.write 4 4 0], [.read 0 4], [.read 4 1]]

/-- A stalling stream command in progress, with the host's next accesses. -/
def paused (e : Bool) (h : List HostEvent) : State := { goingOn .compress (stalling e) with host := h }

theorem witness_UnansweredRequestKeepsBusy_goesOn (e : Bool) (h : List HostEvent) (hh : h ∈ goingOnHosts) :
    GoesOn .compress (paused e h) ∧ 1 ≤ (paused e h).input.length - (paused e h).ipos ∧
    ∃ u, blocksRun (blockInstr .compress) 1 (resumed (paused e h)) u ∧ Hangs (blockInstr .compress) u := by
  have key : ∀ e : Bool, ∀ h ∈ goingOnHosts,
      (h.head? ≠ some .reset ∧ h.head? ≠ some (.read 4 4)) ∧
      check (exec .compressBlock (resumed (paused e h)))
        (fun t => !t.busy && decide (t.phase = .idle) &&
          check (exec .compressBlock t) fun u => u.busy && decide (u.activity = .hung)) = true := by decide +kernel
  obtain ⟨k1, k2⟩ := key e h hh
  refine ⟨goesOn_of_head ⟨rfl, rfl, rfl⟩ k1, (by decide : 1 ≤ 6), ?_⟩
  cases h1 : exec .compressBlock (resumed (paused e h)) with
  | fault f => simp [h1, check] at k2
  | refused r => simp [h1, check] at k2
  | next v =>
    rw [h1] at k2
    simp only [check, Bool.and_eq_true, Bool.not_eq_true', decide_eq_true_eq] at k2
    refine ⟨v, ⟨v, h1, k2.1.1, k2.1.2, rfl⟩, ?_⟩
    cases h2 : exec .compressBlock v with
    | fault f => simp [h2] at k2
    | refused r => simp [h2] at k2
    | next u =>
      simp only [h2, decide_eq_true_eq, Bool.and_eq_true] at k2
      exact ⟨u, h2, k2.2.1, k2.2.2⟩

theorem witness_BufferTransfersComplete :
    (Ready { withIn abc with xferLen := 64 } ∧ ioAnswer { withIn abc with xferLen := 64 } = .ok ∧
      abc = nextInput (64#32).toNat { withIn abc with xferLen := 64 } ∧ (64#32).toNat ≤ platform.maxBlockSize) ∧
    (Ready { withIn abc with xferLen := 96 } ∧
      abc = nextInput (96#32).toNat { withIn abc with xferLen := 96 } ∧ (96#32).toNat ≤ platform.cbufCap) ∧
    ([] = nextInput (0#32).toNat (withIn abc)) ∧
    ∀ b ∈ [BufSel.u, BufSel.c], [] = buffer b base := by decide

theorem witness_LzoCommandsComplete :
    (Ready { base with ubuf := abc } ∧ lzoCompress platform ⟨0, abc, false⟩ = .bytes abc ∧
      abc.length ≤ platform.cbufCap) ∧
    (Ready { base with cbuf := abc, hdrUsize := 3 } ∧ (3#32).toNat ≤ platform.maxBlockSize ∧
      lzoDecompress platform ⟨0, abc, (3#32).toNat⟩ = .bytes abc ∧ abc.length = (3#32).toNat) ∧
    lzoCompress platform ⟨0, [], false⟩ = .bytes [] ∧ lzoDecompress platform ⟨0, [], 0⟩ = .bytes [] := by
  decide +kernel

theorem witness_LzoFailuresEnterFailed :
    Ready { base with ubuf := [0xEE] } ∧ lzoCompress platform ⟨0, [0xEE], false⟩ = .fail ∧
    lzoCompress platform ⟨0, [0xDD], false⟩ = .bytes (List.replicate 97 0) ∧
    platform.cbufCap < (List.replicate 97 (0 : Byte)).length ∧
    (Ready { base with cbuf := abc, hdrUsize := 4 } ∧ (4#32).toNat ≤ platform.maxBlockSize ∧
      lzoDecompress platform ⟨0, abc, (4#32).toNat⟩ = .fail) ∧
    ((64#32).toNat ≤ platform.maxBlockSize ∧ lzoDecompress platform ⟨0, abc, (64#32).toNat⟩ = .fail) ∧
    lzoDecompress platform ⟨0, abc, (2#32).toNat⟩ = .bytes abc ∧ abc.length ≠ (2#32).toNat := by decide +kernel

theorem witness_IllegalOperandCauses :
    (Ready { base with xferLen := 65 } ∧ ({ base with xferLen := 65 } : State).xferLen.toNat > capacity .u platform) ∧
    (97#32).toNat > capacity .c platform ∧
    (Ready { base with hdrUsize := 65 } ∧ (65#32).toNat > platform.maxBlockSize) ∧
    (Ready { base with hdrCsize := 1 } ∧ ({ base with hdrCsize := 1 } : State).hdrCsize ≠ clen base) ∧
    base.errCode ≠ .illegalOperand ∧
    check (exec .compressBlock base) (fun _ => true) = true ∧ check (exec .decompressBlock base) (fun _ => true) = true ∧
    check (exec .compressStream base) (fun _ => true) = true ∧
    check (exec .decompressStream base) (fun _ => true) = true ∧
    ∀ d ∈ [Direction.compress, .decompress], (goingOn d base).errCode ≠ .illegalOperand ∧
      (goingOn d base).busy = true ∧ check (step (goingOn d base)) (fun _ => true) = true := by decide +kernel

theorem witness_RecEmitCompletes :
    (Ready { base with cbuf := abc, hdrCsize := 3 } ∧ ioAnswer { base with cbuf := abc, hdrCsize := 3 } = .ok ∧
      ({ base with cbuf := abc, hdrCsize := 3 } : State).hdrCsize = clen { base with cbuf := abc, hdrCsize := 3 }) ∧
    base.hdrCsize = clen base := by decide

theorem witness_RecParseCompletes :
    Ready (withIn r19) ∧ answersOk 2 (withIn r19) ∧
    nextInput (headerLen (withIn r19).cfg) (withIn r19) = recordHeader true 3 3 0x024D0127 0x024D0127 ∧
    nextInput (3#32).toNat { withIn r19 with ipos := (withIn r19).ipos + headerLen (withIn r19).cfg } = abc ∧
    abc.length = (3#32).toNat ∧ (3#32).toNat ≤ platform.maxBlockSize ∧ (3#32).toNat ≤ platform.cbufCap := by
  refine ⟨by decide, ⟨by decide, by decide, trivial⟩, by decide, by decide, by decide, by decide, by decide⟩

theorem witness_ParsingShortOrMalformedInput :
    (Ready base ∧ ioAnswer base = .ok ∧ nextInput (headerLen base.cfg) base = []) ∧
    (∀ n ∈ [1, 15], nextInput (headerLen base.cfg) (withIn (r19.take n)) = r19.take n ∧ 0 < (r19.take n).length ∧
      (r19.take n).length < headerLen base.cfg) ∧
    (nextInput (headerLen base.cfg) (withIn (recordHeader true 65 3 0 0)) = recordHeader true 65 3 0 0 ∧
      (65#32).toNat > platform.maxBlockSize) ∧
    (nextInput (headerLen base.cfg) (withIn (recordHeader true 3 97 0 0)) = recordHeader true 3 97 0 0 ∧
      (97#32).toNat > platform.cbufCap) ∧
    (nextInput (headerLen base.cfg) (withIn (recordHeader true 64 96 0 0)) = recordHeader true 64 96 0 0 ∧
      (64#32).toNat ≤ platform.maxBlockSize ∧ (96#32).toNat ≤ platform.cbufCap ∧
      nextInput (96#32).toNat { withIn (recordHeader true 64 96 0 0) with ipos := 16 } = [] ∧
      ([] : Bytes).length < (96#32).toNat) ∧ answersOk 2 (withIn (recordHeader true 64 96 0 0)) := by
  refine ⟨by decide, by decide, by decide, by decide, by decide, ⟨by decide, by decide, trivial⟩⟩

/-- The emitting side of `EmitThenParseIsInverse`: the record `r19`. -/
def emitting : State :=
  { base with cbuf := abc, hdrUsize := 3, hdrCsize := 3, hdrUchk := 0x024D0127, hdrCchk := 0x024D0127 }

theorem witness_EmitThenParseIsInverse :
    (Ready emitting ∧ emitting.cbuf.length ≤ platform.cbufCap ∧ emitting.hdrUsize.toNat ≤ platform.maxBlockSize) ∧
    exec .recEmit emitting = .next (nextOf (exec .recEmit emitting)) ∧
    ((nextOf (exec .recEmit emitting)).phase = .idle ∧ (nextOf (exec .recEmit emitting)).busy = false ∧
      (nextOf (exec .recEmit emitting)).out = emitting.out ++ r19) ∧
    (Ready (withIn (r19 ++ [0x05])) ∧ (withIn (r19 ++ [0x05])).platform = emitting.platform ∧
      (withIn (r19 ++ [0x05])).cfg.chkEn = emitting.cfg.chkEn ∧ (withIn (r19 ++ [0x05])).inputEndless = false ∧
      remaining (withIn (r19 ++ [0x05])) = r19 ++ [0x05]) ∧ answersOk 2 (withIn (r19 ++ [0x05])) :=
  ⟨by decide, eq_nextOf (by decide +kernel), by decide +kernel, by decide, ⟨by decide, by decide, trivial⟩⟩

theorem witness_CompressBlockCompletes :
    Ready (withIn abc) ∧ answersOk 2 (withIn abc) ∧
    nextInput (min (withIn abc).blockSize.toNat platform.maxBlockSize) (withIn abc) = abc ∧ abc ≠ [] ∧
    CompressesTo (withIn abc).cfg platform ⟨abc, abc, abc⟩ ∧
    CompressesTo (withCfg 0x006 base).cfg platform ⟨abc, [0x62, 0x63, 0x64], [0x62, 0x63, 0x64]⟩ := by
  refine ⟨by decide, ⟨by decide, by decide, trivial⟩, by decide, by decide, by decide +kernel, by decide +kernel⟩

theorem witness_CompressBlockOnEmptyInput :
    (Ready base ∧ ioAnswer base = .ok ∧ nextInput (min base.blockSize.toNat platform.maxBlockSize) base = []) ∧
    (base.inputEndless = false ∧ remaining base = []) ∧
    ({ withIn abc with blockSize := 0 } : State).blockSize = 0 := by decide

theorem witness_CompressBlockFailures :
    (∀ x ∈ [(withCfg 0x006 (withIn [0xEE]), [0xEE#8]), (withCfg 0x006 (withIn [0xDD]), [0xDD#8]),
        (withIn [0xEE], [0xEE#8]), (withIn [0xDD], [0xDD#8]), ({ withIn abc with ioScript := [.ok, .ioError 5] }, abc)],
      Ready x.1 ∧ ioAnswer x.1 = .ok ∧ nextInput (min x.1.blockSize.toNat x.1.platform.maxBlockSize) x.1 = x.2 ∧
        x.2 ≠ []) ∧
    (encodeFilter (withCfg 0x006 (withIn [0xEE])).cfg platform [0xEE] = .fail ∧
      encodeFilter (withCfg 0x006 (withIn [0xDD])).cfg platform [0xDD] = .bytes [0xDD, 0xDD]) ∧
    (encodeFilter base.cfg platform [0xEE] = .bytes [0xEE] ∧ lzoCompress platform ⟨0, [0xEE], false⟩ = .fail) ∧
    (encodeFilter base.cfg platform [0xDD] = .bytes [0xDD] ∧
      lzoCompress platform ⟨0, [0xDD], false⟩ = .bytes (List.replicate 97 0) ∧
      platform.cbufCap < (List.replicate 97 (0 : Byte)).length) ∧
    CompressesTo base.cfg platform ⟨abc, abc, abc⟩ ∧
    ioAnswer (ioTaken { withIn abc with ioScript := [.ok, .ioError 5] }) = .ioError 5 := by decide +kernel

theorem witness_DecompressBlockCompletes :
    (Ready (withIn r19) ∧ answersOk 3 (withIn r19)) ∧
    (nextInput (headerLen base.cfg) (withIn r19) = recordHeader true 3 3 0x024D0127 0x024D0127 ∧
      nextInput (3#32).toNat { withIn r19 with ipos := (withIn r19).ipos + headerLen base.cfg } = abc ∧
      abc.length = (3#32).toNat ∧ (3#32).toNat ≤ platform.maxBlockSize ∧ (3#32).toNat ≤ platform.cbufCap ∧
      lzoDecompress platform ⟨0, abc, (3#32).toNat⟩ = .bytes abc ∧ decodeFilter base.cfg platform abc = .bytes abc) ∧
    (checksum (algOf base.cfg) abc = 0x024D0127 ∧ base.cfg.policy = .throw ∧
      slotWarnings base.cfg 0 .compressed 0x024D0127 (checksum (algOf base.cfg) abc) ++
        slotWarnings base.cfg 0 .uncompressed 0x024D0127 (checksum (algOf base.cfg) abc) = []) ∧
    (withCfg 0x012 base).cfg.policy ≠ .throw ∧ (withCfg 0x022 base).cfg.policy ≠ .throw := by
  refine ⟨⟨by decide, ⟨by decide, by decide, by decide, trivial⟩⟩, by decide +kernel, by decide +kernel, by decide,
    by decide⟩

theorem witness_ThrowStopsTheBlock :
    (∀ b ∈ [r20', r20.set 11 0x26], Ready (withCfg 0x102 (withIn b)) ∧ (withCfg 0x102 (withIn b)).cfg.chkEn = true ∧
      (withCfg 0x102 (withIn b)).cfg.policy = .throw) ∧
    (answersOk 2 (withCfg 0x102 (withIn r20')) ∧ answersOk 2 (withCfg 0x102 (withIn (r20.set 11 0x26)))) ∧
    (nextInput 16 (withCfg 0x102 (withIn r20')) = be32 3 ++ be32 4 ++ be32 0x024D0127 ++ be32 0x054E01E7 ∧
      nextInput (4#32).toNat { withCfg 0x102 (withIn r20') with ipos := 16 } = [0xC0, 0x60, 0x62, 0x63] ∧
      checksum (algOf (withCfg 0x102 base).cfg) [0xC0, 0x60, 0x62, 0x63] ≠ 0x054E01E7) ∧
    (nextInput 16 (withCfg 0x102 (withIn (r20.set 11 0x26))) = be32 3 ++ be32 4 ++ be32 0x024D0126 ++ be32 0x054E01E7 ∧
      nextInput (4#32).toNat { withCfg 0x102 (withIn (r20.set 11 0x26)) with ipos := 16 } = 0xC0 :: abc ∧
      checksum (algOf (withCfg 0x102 base).cfg) (0xC0 :: abc) = 0x054E01E7 ∧
      lzoDecompress platform ⟨1, 0xC0 :: abc, (3#32).toNat⟩ = .bytes abc ∧
      checksum (algOf (withCfg 0x102 base).cfg) abc ≠ 0x024D0126) := by
  refine ⟨by decide, ⟨⟨by decide, by decide, trivial⟩, ⟨by decide, by decide, trivial⟩⟩, by decide +kernel,
    by decide +kernel⟩

theorem witness_WarnAndIgnoreGoOn :
    checksum (algOf (withCfg 0x012 base).cfg) abc = 0x024D0127 ∧ (0x024D0127#32 ≠ 0x024D0126#32) ∧
    (withCfg 0x012 base).cfg.policy = .warn ∧ (withCfg 0x022 base).cfg.policy = .ignore := by decide +kernel

theorem witness_PolicyDoesNotCoverDecompression :
    (∀ c ∈ [0x002, 0x012, 0x022],
      Ready (withCfg (w32 c) (withIn (recordHeader true 4 3 0x024D0127 0x024D0127 ++ abc)))) ∧
    answersOk 2 (withIn (recordHeader true 4 3 0x024D0127 0x024D0127 ++ abc)) ∧
    (nextInput (headerLen base.cfg) (withIn (recordHeader true 4 3 0x024D0127 0x024D0127 ++ abc)) =
        recordHeader true 4 3 0x024D0127 0x024D0127 ∧
      nextInput (3#32).toNat { withIn (recordHeader true 4 3 0x024D0127 0x024D0127 ++ abc) with
        ipos := 0 + headerLen base.cfg } = abc ∧
      (4#32).toNat ≤ platform.maxBlockSize ∧ (3#32).toNat ≤ platform.cbufCap ∧
      checksum (algOf base.cfg) abc = 0x024D0127 ∧ lzoDecompress platform ⟨0, abc, (4#32).toNat⟩ = .fail) ∧
    (nextInput (headerLen base.cfg) (withIn (recordHeader true 2 3 0x024D0127 0x024D0127 ++ abc)) =
        recordHeader true 2 3 0x024D0127 0x024D0127 ∧
      lzoDecompress platform ⟨0, abc, (2#32).toNat⟩ = .bytes abc ∧ abc.length ≠ (2#32).toNat) := by
  refine ⟨by decide +kernel, ⟨by decide, by decide, trivial⟩, by decide +kernel, by decide +kernel⟩

/-- A round trip with the example filter: the writing side and what it writes (V-C11, with Adler-32). -/
def writing : State := withCfg 0x006 (withIn abc)

/-- The record `writing` writes. -/
def written : Bytes := (nextOf (exec .compressBlock writing)).out

/-- The reading side. -/
def reading : State := withCfg 0x006 (withIn (written ++ [0x07]))

theorem witness_BlockRoundTrip :
    (Ready writing ∧ exec .compressBlock writing = .next (nextOf (exec .compressBlock writing)) ∧
      (nextOf (exec .compressBlock writing)).busy = false ∧ (nextOf (exec .compressBlock writing)).phase = .idle ∧
      nextInput (min writing.blockSize.toNat platform.maxBlockSize) writing = abc ∧
      (nextOf (exec .compressBlock writing)).out = writing.out ++ written) ∧
    (Ready reading ∧ reading.platform = writing.platform ∧ reading.cfg = writing.cfg ∧
      reading.inputEndless = false ∧ remaining reading = written ++ [0x07]) ∧ answersOk 3 reading ∧
    LzoRoundTripAt platform writing.cfg.lzoAlg writing.cfg.optimize (nextOf (exec .compressBlock writing)).ubuf ∧
    FilterInverseAt platform abc := by
  refine ⟨⟨by decide, eq_nextOf (by decide +kernel), by decide +kernel, by decide +kernel, by decide,
    by decide +kernel⟩, by decide +kernel, ⟨by decide, by decide, by decide, trivial⟩, fun r h => ?_, fun r h => ?_⟩
  · have e : (nextOf (exec .compressBlock writing)).ubuf = [0x62, 0x63, 0x64] := by decide +kernel
    rw [e] at h ⊢
    have k : lzoCompress platform ⟨writing.cfg.lzoAlg, [0x62, 0x63, 0x64], writing.cfg.optimize⟩ =
        .bytes [0x62, 0x63, 0x64] := by decide +kernel
    rw [k] at h
    cases h
    decide +kernel
  · have k : filterFwd platform abc = .bytes [0x62, 0x63, 0x64] := by decide
    rw [k] at h
    cases h
    decide

theorem witness_PayloadCorruptionIsCaught :
    (Ready (withIn abc) ∧ exec .compressBlock (withIn abc) = .next (nextOf (exec .compressBlock (withIn abc))) ∧
      (nextOf (exec .compressBlock (withIn abc))).busy = false ∧
      (nextOf (exec .compressBlock (withIn abc))).phase = .idle ∧
      (nextOf (exec .compressBlock (withIn abc))).out = (withIn abc).out ++ (r19.take 16 ++ ([0x61#8] ++ 0x62#8 :: [0x63#8])) ∧
      (nextOf (exec .compressBlock (withIn abc))).cbuf = [0x61#8] ++ 0x62#8 :: [0x63#8]) ∧ 7 < 8 ∧
    (∀ k ∈ ([0, 7] : List Nat), Ready (withIn (r19.take 16 ++ ([0x61#8] ++ (0x62#8 ^^^ (1#8 <<< k)) :: [0x63#8]) ++ [])) ∧
      remaining (withIn (r19.take 16 ++ ([0x61#8] ++ (0x62#8 ^^^ (1#8 <<< k)) :: [0x63#8]) ++ [])) =
        r19.take 16 ++ ([0x61#8] ++ (0x62#8 ^^^ (1#8 <<< k)) :: [0x63#8]) ++ []) ∧
    base.cfg.chkEn = true ∧ base.cfg.policy = .throw ∧ base.inputEndless = false ∧ answersOk 2 (withIn r19) := by
  refine ⟨⟨by decide, eq_nextOf (by decide +kernel), by decide +kernel, by decide +kernel, by decide +kernel,
    by decide +kernel⟩, by decide, by decide, by decide, by decide, by decide, ⟨by decide, by decide, trivial⟩⟩

theorem witness_BlockCommandsEqualTheirScripts :
    (Ready (withIn abc) ∧ (withIn abc).cfg.chkEn = true ∧
      exec .compressBlock (withIn abc) = .next (nextOf (exec .compressBlock (withIn abc))) ∧
      (nextOf (exec .compressBlock (withIn abc))).busy = false ∧
      (nextOf (exec .compressBlock (withIn abc))).phase = .idle) ∧
    (Ready (withIn r19) ∧ exec .decompressBlock (withIn r19) = .next (nextOf (exec .decompressBlock (withIn r19))) ∧
      (nextOf (exec .decompressBlock (withIn r19))).busy = false ∧
      (nextOf (exec .decompressBlock (withIn r19))).phase = .idle ∧
      (nextOf (exec .decompressBlock (withIn r19))).hdrCchk =
        checksum (algOf (withIn r19).cfg) (nextOf (exec .decompressBlock (withIn r19))).cbuf ∧
      (nextOf (exec .decompressBlock (withIn r19))).chkResult =
        (nextOf (exec .decompressBlock (withIn r19))).hdrUchk) := by
  refine ⟨⟨by decide, by decide, eq_nextOf (by decide +kernel), by decide +kernel, by decide +kernel⟩, by decide,
    eq_nextOf (by decide +kernel), by decide +kernel, by decide +kernel, by decide +kernel, by decide +kernel⟩

theorem witness_StreamCommandsOnEmptyInput :
    Ready base ∧ ioAnswer base = .ok ∧ base.inputEndless = false ∧ remaining base = [] := by decide

/-- The two blocks of V-S1. -/
def blocks : List CodedBlock :=
  [⟨[0x61, 0x62, 0x63, 0x64], [0x61, 0x62, 0x63, 0x64], [0x61, 0x62, 0x63, 0x64]⟩,
   ⟨[0x65, 0x66], [0x65, 0x66], [0x65, 0x66]⟩]

/-- V-S1's start. -/
def streaming : State := { withIn [0x61, 0x62, 0x63, 0x64, 0x65, 0x66] with blockSize := 4 }

theorem witness_CompressStreamCompletes :
    (Ready streaming ∧ streaming.inputEndless = false ∧ streaming.ipos ≤ streaming.input.length ∧
      remaining streaming = (blocks.map CodedBlock.plain).flatten) ∧
    chunked (min streaming.blockSize.toNat platform.maxBlockSize) blocks ∧
    (∀ b ∈ blocks, CompressesTo streaming.cfg platform b) ∧ answersOk (2 * blocks.length + 1) streaming ∧
    chunked (min streaming.blockSize.toNat platform.maxBlockSize) [] ∧
    (exec .compressStream streaming = .next (nextOf (exec .compressStream streaming)) ∧
      (nextOf (exec .compressStream streaming)).phase = .endOfStream) ∧
    GoesOn .compress (goingOn .compress streaming) ∧
    step (goingOn .compress streaming) = .next (nextOf (step (goingOn .compress streaming))) ∧
    (nextOf (step (goingOn .compress streaming))).phase = .endOfStream := by
  refine ⟨by decide, ⟨by decide, by decide, by decide, by decide⟩, by decide +kernel,
    ⟨by decide, by decide, by decide, by decide, by decide, trivial⟩, trivial,
    ⟨eq_nextOf (by decide +kernel), by decide +kernel⟩, goingOn_goesOn _ rfl rfl, eq_nextOf (by decide +kernel),
    by decide +kernel⟩

/-- Records with the right checksums. -/
def stored (c : Cfg) (bs : List CodedBlock) : List StoredBlock :=
  bs.map fun b => ⟨b, checksum (algOf c) b.filtered, checksum (algOf c) b.payload⟩

/-- The two records of V-S6: both checksums of the first are wrong. -/
def damaged : List StoredBlock :=
  [⟨⟨[0x60, 0x62, 0x63], [0x60, 0x62, 0x63], [0xC0, 0x60, 0x62, 0x63]⟩, 0x024D0127, 0x054E01E7⟩,
   ⟨⟨abc, abc, 0xC0 :: abc⟩, 0x024D0127, 0x054E01E7⟩]

/-- Records under Throw, Warn and Ignore. -/
def recordRuns : List (State × List StoredBlock) :=
  [(base, stored base.cfg blocks), (withCfg 0x112 base, damaged), (withCfg 0x122 base, damaged), (base, [])]

/-- The state such a run starts in. -/
def recordRun (x : State × List StoredBlock) : State :=
  { x.1 with input := (x.2.map (storedRecord x.1.cfg)).flatten }

theorem witness_DecompressStreamCompletes :
    (∀ x ∈ recordRuns, Ready (recordRun x) ∧ (recordRun x).inputEndless = false ∧
      (recordRun x).ipos ≤ (recordRun x).input.length ∧
      remaining (recordRun x) = (x.2.map (storedRecord (recordRun x).cfg)).flatten ∧
      ∀ r ∈ x.2, DecompressesFrom (recordRun x).cfg (recordRun x).platform r.block ∧
        SlotsPass (recordRun x).cfg r.uchk r.cchk r.block.payload r.block.filtered) ∧
    (answersOk (3 * damaged.length + 1) base ∧ 3 * blocks.length + 1 = 3 * damaged.length + 1) ∧
    (streamWarnings (withCfg 0x112 base).cfg 0 damaged).length = 2 ∧
    (withIn (r20' ++ r20)).input = (recordRun (withCfg 0x112 base, damaged)).input ∧
    (∀ x ∈ recordRuns, check (exec .decompressStream (recordRun x)) (fun t => decide (t.phase = .endOfStream)) = true ∧
      check (step (goingOn .decompress (recordRun x))) (fun t => decide (t.phase = .endOfStream)) = true) ∧
    ∀ x, x ∈ recordRuns → GoesOn .decompress (goingOn .decompress (recordRun x)) := by
  refine ⟨by decide +kernel,
    ⟨⟨by decide, by decide, by decide, by decide, by decide, by decide, by decide, trivial⟩, by decide⟩,
    by decide +kernel, by decide +kernel, by decide +kernel, fun x hx => ?_⟩
  have key : ∀ x ∈ recordRuns, (recordRun x).phase = .idle ∧ (recordRun x).host = [] := by decide +kernel
  exact goingOn_goesOn _ (key x hx).1 (key x hx).2

theorem witness_CompressStreamSegmentation :
    Ready streaming ∧ streaming.inputEndless = false ∧ 4 = min streaming.blockSize.toNat platform.maxBlockSize ∧
    1 ≤ 4 ∧ 6 = (remaining streaming).length ∧
    exec .compressStream streaming = .next (nextOf (exec .compressStream streaming)) ∧
    (nextOf (exec .compressStream streaming)).phase = .endOfStream :=
  ⟨by decide, by decide, by decide, by decide, by decide, eq_nextOf (by decide +kernel), by decide +kernel⟩

/-- An endless input whose second request fails. -/
def endless : State := { streaming with inputEndless := true, ioScript := [.ok, .ioError 0] }

/-- An endless input whose fourth request fails, after one whole record. -/
def endlessRecords : State :=
  { withIn r19 with inputEndless := true, ioScript := [.ok, .ok, .ok, .ioError 0] }

theorem witness_StreamCommandsEndOnFiniteInput :
    (Ready streaming ∧ streaming.inputEndless = false ∧
      exec .compressStream streaming = .next (nextOf (exec .compressStream streaming)) ∧
      exec .decompressStream streaming = .next (nextOf (exec .decompressStream streaming))) ∧
    (Ready endless ∧ endless.inputEndless = true ∧ 1 ≤ min endless.blockSize.toNat platform.maxBlockSize ∧
      exec .compressStream endless = .next (nextOf (exec .compressStream endless))) ∧
    (Ready endlessRecords ∧ endlessRecords.inputEndless = true ∧
      exec .decompressStream endlessRecords = .next (nextOf (exec .decompressStream endlessRecords)) ∧
      (nextOf (exec .decompressStream endlessRecords)).blkCount = 1) ∧
    (GoesOn .compress (goingOn .compress endless) ∧
      step (goingOn .compress endless) = .next (nextOf (step (goingOn .compress endless)))) ∧
    (GoesOn .decompress (goingOn .decompress endlessRecords) ∧
      step (goingOn .decompress endlessRecords) = .next (nextOf (step (goingOn .decompress endlessRecords)))) ∧
    ∀ e : Bool, Ready { streaming with blockSize := 0, inputEndless := e } ∧
      ioAnswer { streaming with blockSize := 0, inputEndless := e } = .ok :=
  ⟨⟨by decide, by decide, eq_nextOf (by decide +kernel), eq_nextOf (by decide +kernel)⟩,
    ⟨by decide, by decide, by decide, eq_nextOf (by decide +kernel)⟩,
    ⟨by decide, by decide, eq_nextOf (by decide +kernel), by decide +kernel⟩,
    ⟨goingOn_goesOn _ rfl rfl, eq_nextOf (by decide +kernel)⟩,
    ⟨goingOn_goesOn _ rfl rfl, eq_nextOf (by decide +kernel)⟩, by decide⟩

/-- An endless input of which nothing is listed, and a primitive that compresses its first byte to nothing. -/
def unending : State :=
  { base with
    platform := { platform with lzoCompressKnown := [(⟨0, [Config.endlessInput 0], false⟩, .bytes [])] }
    inputEndless := true
    blockSize := 1 }

theorem unending_compressBlock :
    ∃ v, exec .compressBlock unending = .next v ∧ v.busy = false ∧ v.phase = .idle := by
  have hz : lzoCompress unending.platform ⟨0, [Config.endlessInput 0], false⟩ = .bytes [] := by
    simp [lzoCompress, unending]
  have h := compressBody_ok (s := acceptCommand unending)
    (b := ⟨[Config.endlessInput 0], [Config.endlessInput 0], []⟩) ⟨rfl, rfl, trivial⟩ rfl (by simp)
    ⟨rfl, rfl, hz, by decide⟩
  refine ⟨_, (ready_blockInstr .compress (s := unending) (by decide)).trans (congrArg _ (congrArg Micro.state h)), rfl, rfl⟩

theorem unending_turn : (streamLoop .compress 1 (turnStart .compress unending)).activity = .looping .compress := by
  obtain ⟨v, hv, hb, hp⟩ := unending_compressBlock
  rcases streamLoop_turn .compress 0 (u := unending) (by decide) with ⟨h, he⟩ | ⟨w, h, -, hw, -⟩ | ⟨w, -, -, -, -, -, h⟩
  · rw [show exec (blockInstr .compress) unending = .next v from hv] at h
    injection h with h
    rw [← h] at he
    rcases he.cases with ⟨-, hf, -⟩ | ⟨hf, -⟩
    · rw [hf] at hp
      cases hp
    · rw [hf] at hb
      cases hb
  · rw [show exec (blockInstr .compress) unending = .next v from hv] at h
    injection h with h
    rw [← h, hp] at hw
    cases hw
  · rw [h]
    rfl

theorem witness_StreamCommandsEndOnFiniteInput_looping :
    (∃ t, Ready unending ∧ exec (streamInstr .compress) unending = .next t ∧ t.activity = .looping .compress) ∧
    ∃ t, GoesOn .compress (goingOn .compress unending) ∧ step (goingOn .compress unending) = .next t ∧
      t.activity = .looping .compress :=
  ⟨⟨_, by decide, ready_streamInstr .compress (by decide), unending_turn⟩,
    ⟨_, goingOn_goesOn _ rfl rfl, step_goesOn (goingOn_goesOn _ rfl rfl), unending_turn⟩⟩

/-- A one-byte input for the stream round trip. -/
def oneByte : State := withIn [0x61]

/-- What `COMPRESS_STREAM` makes of it. -/
def oneRecord : Bytes := (nextOf (exec .compressStream oneByte)).out

theorem witness_StreamRoundTrip :
    (Ready oneByte ∧ oneByte.inputEndless = false ∧ oneByte.ipos ≤ oneByte.input.length ∧
      1 ≤ min oneByte.blockSize.toNat platform.maxBlockSize) ∧
    (exec .compressStream oneByte = .next (nextOf (exec .compressStream oneByte)) ∧
      (nextOf (exec .compressStream oneByte)).phase = .endOfStream ∧
      (nextOf (exec .compressStream oneByte)).out = oneByte.out ++ oneRecord) ∧
    (Ready (withIn oneRecord) ∧ (withIn oneRecord).cfg = oneByte.cfg ∧ (withIn oneRecord).inputEndless = false ∧
      (withIn oneRecord).ipos ≤ (withIn oneRecord).input.length ∧ remaining (withIn oneRecord) = oneRecord) ∧
    answersOk (3 * (remaining oneByte).length + 1) (withIn oneRecord) ∧
    (∀ b f, b <:+: remaining oneByte → b.length ≤ platform.maxBlockSize →
      encodeFilter oneByte.cfg platform b = .bytes f →
      LzoRoundTripAt platform oneByte.cfg.lzoAlg oneByte.cfg.optimize f) ∧ oneByte.cfg.filtSel = false := by
  refine ⟨by decide, ⟨eq_nextOf (by decide +kernel), by decide +kernel, by decide +kernel⟩, by decide +kernel,
    ⟨by decide, by decide, by decide, by decide, trivial⟩, fun b f hb _ hf r hr => ?_, by decide⟩
  have hfb : f = b := by
    have : encodeFilter oneByte.cfg platform b = .bytes b := rfl
    rw [this] at hf
    exact (PortAnswer.bytes.inj hf).symm
  subst hfb
  have cases2 : f = [] ∨ f = [0x61] := by
    have e : remaining oneByte = [0x61] := by decide
    rw [e] at hb
    obtain ⟨p, q, h⟩ := hb
    rcases f with _ | ⟨x, _ | ⟨y, t⟩⟩
    · exact .inl rfl
    · rcases p with _ | ⟨p0, p⟩ <;> simp_all
    · exfalso
      have := congrArg List.length h
      simp at this
      omega
  rcases cases2 with rfl | rfl
  · have k : lzoCompress platform ⟨oneByte.cfg.lzoAlg, [], oneByte.cfg.optimize⟩ = .bytes [] := by decide
    rw [k] at hr
    cases hr
    decide
  · have k : lzoCompress platform ⟨oneByte.cfg.lzoAlg, [0x61], oneByte.cfg.optimize⟩ = .bytes [0x61] := by decide
    rw [k] at hr
    cases hr
    decide

theorem witness_EveryStepKeepsInvariant :
    Invariant (withHost (.write 0 4 0x10) (withIn abc)) ∧
    check (step (withHost (.write 0 4 0x10) (withIn abc))) (fun t => decide (t.blkCount = 1)) = true ∧
    Invariant hungBase ∧ Invariant failedBase := by
  refine ⟨?_, by decide +kernel, ?_, ?_⟩ <;> decide +kernel

theorem witness_EveryCommandIsTaken : Invariant base ∧ base.busy = false ∧ Invariant failedBase := by decide

theorem witness_StreamsOnlyGrow :
    check (step (withHost (.write 0 4 0x10) (withIn abc))) (fun t => t.ipos == 3 && t.out == r19) = true := by
  decide +kernel

/-- A stream whose second block fails at its first request. -/
def failing : State := { streaming with ioScript := [.ok, .ok, .ioError 0] }

/-- Two records, the second of them with a broken payload. -/
def failingRecords : State := withCfg 0x102 (withIn (r20 ++ r20'))

theorem witness_FailuresAreRecorded :
    (Ready { base with hdrCsize := 1 } ∧
      exec .recEmit { base with hdrCsize := 1 } = .next (nextOf (exec .recEmit { base with hdrCsize := 1 })) ∧
      (nextOf (exec .recEmit { base with hdrCsize := 1 })).phase = .failed) ∧
    (Ready failing ∧ exec (streamInstr .compress) failing = .next (nextOf (exec .compressStream failing)) ∧
      (nextOf (exec .compressStream failing)).phase = .failed ∧
      (nextOf (exec .compressStream failing)).blkCount = 1 ∧
      (nextOf (exec .compressStream failing)).totRead = 4) ∧
    (Ready failingRecords ∧
      exec (streamInstr .decompress) failingRecords = .next (nextOf (exec .decompressStream failingRecords)) ∧
      (nextOf (exec .decompressStream failingRecords)).phase = .failed ∧
      (nextOf (exec .decompressStream failingRecords)).errCode = .checksumMismatch ∧
      (nextOf (exec .decompressStream failingRecords)).out = abc) :=
  ⟨⟨by decide, eq_nextOf (by decide), by decide⟩,
    ⟨by decide, eq_nextOf (by decide +kernel), by decide +kernel, by decide +kernel, by decide +kernel⟩,
    by decide, eq_nextOf (by decide +kernel), by decide +kernel, by decide +kernel, by decide +kernel⟩

theorem witness_FailuresAreRecorded_goesOn :
    (GoesOn .compress (goingOn .compress endless) ∧
      step (goingOn .compress endless) = .next (nextOf (step (goingOn .compress endless))) ∧
      (nextOf (step (goingOn .compress endless))).phase = .failed) ∧
    GoesOn .decompress (goingOn .decompress failingRecords) ∧
    step (goingOn .decompress failingRecords) = .next (nextOf (step (goingOn .decompress failingRecords))) ∧
    (nextOf (step (goingOn .decompress failingRecords))).phase = .failed ∧
    (nextOf (step (goingOn .decompress failingRecords))).errPos = 20 ∧
    (nextOf (step (goingOn .decompress failingRecords))).blkCount = 1 :=
  ⟨⟨goingOn_goesOn _ rfl rfl, eq_nextOf (by decide +kernel), by decide +kernel⟩, goingOn_goesOn _ rfl rfl,
    eq_nextOf (by decide +kernel), by decide +kernel, by decide +kernel, by decide +kernel⟩

theorem witness_FailedBlockWritesNothing :
    (Ready (withIn (r19.take 5)) ∧
      exec .decompressBlock (withIn (r19.take 5)) = .next (nextOf (exec .decompressBlock (withIn (r19.take 5)))) ∧
      (nextOf (exec .decompressBlock (withIn (r19.take 5)))).phase = .failed ∧
      (nextOf (exec .decompressBlock (withIn (r19.take 5)))).errCode = .framingError) ∧
    (Ready { withIn abc with ioScript := [.ioError 2] } ∧
      check (exec .compressBlock { withIn abc with ioScript := [.ioError 2] })
        (fun t => decide (t.phase = .failed ∧ t.errCode = .ioError ∧ t.errState = .idle)) = true) ∧
    (Ready (withIn [0xEE]) ∧ exec .compressBlock (withIn [0xEE]) = .next (nextOf (exec .compressBlock (withIn [0xEE]))) ∧
      (nextOf (exec .compressBlock (withIn [0xEE]))).errCode = .compressionError) := by
  refine ⟨⟨by decide, eq_nextOf (by decide +kernel), by decide +kernel, by decide +kernel⟩, by decide +kernel,
    by decide, eq_nextOf (by decide +kernel), by decide +kernel⟩

theorem witness_FirstFailureIsKept :
    Failed (withHost (.write 0 4 0x0B) failedBase) ∧
    step (withHost (.write 0 4 0x0B) failedBase) = .next (nextOf (step (withHost (.write 0 4 0x0B) failedBase))) ∧
    ∀ rest, (withHost (.write 0 4 0x0B) failedBase).host ≠ .write 0 4 0x00000020 :: rest ∧
      (withHost (.write 0 4 0x0B) failedBase).host ≠ .write 0 4 0x0000002F :: rest ∧
      (withHost (.write 0 4 0x0B) failedBase).host ≠ .reset :: rest := by
  refine ⟨by decide, eq_nextOf (by decide), fun rest => ?_⟩
  simp [withHost]

theorem witness_CommandsLeaveHostRegisters :
    Instr.compressBlock ≠ .softReset ∧ (withCfg 0x000 (withIn abc)).cfg.chkEn = false ∧
    exec .compressBlock (withCfg 0x000 (withIn abc)) =
      .next (nextOf (exec .compressBlock (withCfg 0x000 (withIn abc)))) ∧
    ((goingOn .compress streaming).busy = true ∧ (∀ rest, (goingOn .compress streaming).host ≠ .reset :: rest) ∧
      step (goingOn .compress streaming) = .next (nextOf (step (goingOn .compress streaming)))) :=
  ⟨by decide, by decide, eq_nextOf (by decide +kernel), rfl, (fun _ h => by cases h),
    eq_nextOf (by decide +kernel)⟩

end Sys2Proof.Tests
end

section
/-! PROOF. The values after reset (10_state.md R54) and the step of hardware reset (70_reset_and_hazards.md R270, R273). -/

namespace Sys2Proof.Proofs.ResetState

open Sys2Proof Sys2Proof.Machine

/-! ### The registers made of fields, right after reset (R54) -/

theorem cfgWord_reset : cfgWord State.reset.cfg = 0x00000002 := by decide

/-- `BUSY = 0`, `STATE = IDLE` and every flag 0: no field of `STATUS` reads the open parameters. -/
theorem statusWord_reset : statusWord State.reset = 0 := by
  simp [statusWord, State.reset, phaseNumber]

theorem errWord_reset : errWord State.reset = 0 := by
  simp [errWord, State.reset, phaseNumber, errNumber]

/-! ### The buffers, right after reset (R43, R44, R55) -/

@[simp] theorem buffer_reset (b : BufSel) : buffer b State.reset = [] := by
  cases b <;> rfl

theorem readByte_reset (b : BufSel) (i : Nat) : readByte b i State.reset = none := by
  simp [readByte]

/-! ### The step of hardware reset -/

/-- While a command runs, hardware reset abandons it at once (R270). -/
theorem busyStep_hardwareReset {s : State} {rest : List HostEvent} (hh : s.host = .reset :: rest) :
    busyStep s = .next (resetRegisters { s with host := rest }) := by
  simp [busyStep, hh, hardwareReset]

/-- With no command running, hardware reset is the host's next action. -/
theorem idleStep_hardwareReset {s : State} {rest : List HostEvent} (hh : s.host = .reset :: rest) :
    idleStep s = .next (resetRegisters { s with host := rest }) := by
  simp [idleStep, hh, hostAction, hardwareReset]

/-- Running or not, the registers are reset and the event is used up. -/
theorem step_hardwareReset {s : State} {rest : List HostEvent} (hh : s.host = .reset :: rest) :
    step s = .next (resetRegisters { s with host := rest }) := by
  unfold step
  split
  · exact busyStep_hardwareReset hh
  · exact idleStep_hardwareReset hh

/-- Settles O12: the registers made of fields and the buffers by their lemmas, every other register as a field of the
reset state; hardware reset by `step_hardwareReset`. -/
theorem resetValues : Obligations.ResetValues := by
  refine ⟨⟨cfgWord_reset, statusWord_reset, errWord_reset, ?registers⟩, ?hardwareReset⟩
  case registers =>
    exact ⟨rfl, rfl, rfl, rfl, rfl, rfl, rfl, rfl, rfl, rfl, rfl, rfl, rfl, rfl, rfl, rfl, rfl, readByte_reset⟩
  case hardwareReset =>
    intro s rest hh
    exact step_hardwareReset hh

end Sys2Proof.Proofs.ResetState
end

section
/-! PROOF. Host accesses of another width or alignment while no command runs (20_memory.md R63). -/

namespace Sys2Proof.Proofs.UndefinedAccess

open Sys2Proof Sys2Proof.Machine

/-- R63: only accesses of width 4 at a multiple of 4 are defined. -/
theorem definedAccess_eq_false_iff {off size : Nat} :
    definedAccess off size = false ↔ size ≠ 4 ∨ off % 4 ≠ 0 := by
  simp [definedAccess, imp_iff_not_or]

/-- An undefined access inside the register space is refused, whatever it would have answered. -/
theorem checkAccess_undefined {off size : Nat} (ho : off < 256) (hd : definedAccess off size = false) (k : Result) :
    checkAccess off size k = .refused .undefinedAccess := by
  simp [checkAccess, Nat.not_le.mpr ho, hd]

/-- With no command running, the host's next action is the step. -/
theorem step_hostAction {s : State} {e : HostEvent} {rest : List HostEvent} (hb : s.busy = false)
    (hh : s.host = e :: rest) : step s = hostAction e { s with host := rest } := by
  simp [step, hb, idleStep, hh]

/-- Settles O10: a read and a write go through the same check of offset and width, which refuses them. -/
theorem undefinedAccessIsRefused : Obligations.UndefinedAccessIsRefused := by
  intro s off size v rest hb ho hbad hh
  have hd : definedAccess off size = false := definedAccess_eq_false_iff.mpr hbad
  rcases hh with hread | hwrite
  · calc
      step s = hostRead off size { s with host := rest } := step_hostAction hb hread
      _ = .refused .undefinedAccess := checkAccess_undefined ho hd _
  · calc
      step s = hostWrite off size v { s with host := rest } := step_hostAction hb hwrite
      _ = .refused .undefinedAccess := checkAccess_undefined ho hd _

end Sys2Proof.Proofs.UndefinedAccess
end

section
/-! PROOF. The four tests of decoding and the decoder built from the opcode table (30_encoding.md R90). -/

namespace Sys2Proof.Proofs.DecodeTests

open Sys2Proof Sys2Proof.Machine

/-! ### The first three tests (R90 (1) to (3)) -/

theorem decode_of_fieldZero_ne {w : Word} (h : fieldZero w ≠ 0) : decode w = .illegal .nonzeroReservedBits :=
  if_pos (bne_iff_ne.mpr h)

theorem decode_of_fieldZero_eq {w : Word} (h : fieldZero w = 0) :
    decode w = decodeOpcode (fieldOpc w).toNat (fieldBsel w) :=
  if_neg (by simp [h])

/-- Every arm of the opcode map but the last stands for an assigned opcode. -/
theorem decodeOpcode_unassigned {opc : BitVec 8} (h : opc ∉ assignedOpcodes) (b : Bool) :
    decodeOpcode opc.toNat b = .illegal .reservedOpcode := by
  have arm : ∀ o ∈ assignedOpcodes, opc.toNat ≠ o.toNat := fun o ho e => h (BitVec.eq_of_toNat_eq e ▸ ho)
  simp [assignedOpcodes] at arm
  simp [decodeOpcode, arm]

theorem decodeOpcode_bselNotAllowed :
    ∀ opc ∈ assignedOpcodes, opc ∉ bselOpcodes → decodeOpcode opc.toNat true = .illegal .bselNotAllowed := by
  decide

/-! ### The fields of a decoded command (R90 (4)) -/

/-- The opcode map keeps both of its operands: they are the fields of the command it answers. -/
theorem fields_of_decodeOpcode {n : Nat} {b : Bool} {i : Instr} (h : decodeOpcode n b = .instr i) :
    opcodeOf i = BitVec.ofNat 8 n ∧ bselOf i = BitVec.ofBool b := by
  unfold decodeOpcode at h
  cases b
  all_goals
    split at h
    all_goals cases h <;> exact ⟨rfl, rfl⟩

theorem fieldBsel_eq (w : Word) : BitVec.ofBool (fieldBsel w) = w.extractLsb' 8 1 := by
  ext i hi
  simp [fieldBsel, show i = 0 by omega]

theorem fields_of_decode {w : Word} {i : Instr} (h : decode w = .instr i) :
    fieldZero w = 0 ∧ opcodeOf i = fieldOpc w ∧ bselOf i = w.extractLsb' 8 1 := by
  by_cases hz : fieldZero w = 0
  · rw [decode_of_fieldZero_eq hz] at h
    obtain ⟨hopc, hbsel⟩ := fields_of_decodeOpcode h
    exact ⟨hz, by simpa using hopc, hbsel.trans (fieldBsel_eq w)⟩
  · rw [decode_of_fieldZero_ne hz] at h
    cases h

/-- No word but its encoding decodes to an instruction. -/
theorem eq_encode_of_decode {w : Word} {i : Instr} (h : decode w = .instr i) : w = encode i := by
  obtain ⟨hzero, hopc, hbsel⟩ := fields_of_decode h
  calc
    w = (0 : BitVec 23) ++ w.extractLsb' 0 9 := word_of_low_bits hzero
    _ = (0 : BitVec 23) ++ (w.extractLsb' 8 1 ++ w.extractLsb' 0 8) :=
      congrArg _ (BitVec.extractLsb'_append_extractLsb'_eq_extractLsb' (start₁ := 0) (len₁ := 8) rfl).symm
    _ = encode i := by rw [encode, hopc, hbsel, fieldOpc]

/-! ### The opcode table (R88, R90) -/

/-- The first row that matches an instruction's word is its own. -/
theorem tableMnemonic_encode (i : Instr) : tableMnemonic (encode i) = some i.mnemonic := by
  cases i with
  | chkCompute b | chkVerify b | bufLoad b | bufStore b => cases b <;> decide
  | _ => decide

theorem tableMnemonic_of_decode {w : Word} {i : Instr} (h : decode w = .instr i) :
    tableMnemonic w = some i.mnemonic :=
  eq_encode_of_decode h ▸ tableMnemonic_encode i

/-- A row's mask covers the whole word, or all of it but `BSEL`; every word it then lets through is a command. -/
theorem opcodeTable_masks : ∀ r ∈ opcodeTable, legalCommandWord r.matchWord = true ∧
    (r.mask = 0xFFFFFFFF ∨ r.mask = 0xFFFFFEFF ∧ legalCommandWord (r.matchWord ||| 0x100) = true) := by
  decide

/-- Masking `BSEL` out loses that bit alone. -/
theorem eq_masked_or_eq_masked_or_bsel (w : Word) :
    w = w &&& 0xFFFFFEFF ∨ w = (w &&& 0xFFFFFEFF) ||| 0x100 := by
  have hsplit : w = (w &&& 0xFFFFFEFF) ||| (w &&& BitVec.twoPow 32 8) := by
    rw [← BitVec.and_or_distrib_left]
    exact BitVec.and_allOnes.symm
  rw [BitVec.and_twoPow] at hsplit
  split at hsplit
  · exact .inr hsplit
  · exact .inl (by simpa using hsplit)

theorem legal_of_matches {r : OpcodeRow} {w : Word} (hr : r ∈ opcodeTable) (h : r.matches w = true) :
    legalCommandWord w = true := by
  have hw : w &&& r.mask = r.matchWord := eq_of_beq h
  obtain ⟨hbase, hmask | ⟨hmask, hbsel⟩⟩ := opcodeTable_masks r hr
  all_goals rw [hmask] at hw
  · rwa [← hw, show w &&& 0xFFFFFFFF = w from BitVec.and_allOnes] at hbase
  · rcases eq_masked_or_eq_masked_or_bsel w with e | e
    all_goals rwa [e, hw]

/-! ### The verdicts agree -/

theorem legalCommandWord_iff (w : Word) : legalCommandWord w = true ↔
    w.extractLsb' 9 23 = 0 ∧ w.extractLsb' 0 8 ∈ assignedOpcodes ∧
      (w.getLsbD 8 = true → w.extractLsb' 0 8 ∈ bselOpcodes) := by
  simp [legalCommandWord, and_assoc, imp_iff_not_or]

theorem exists_decode_of_legal {w : Word} (h : legalCommandWord w = true) : ∃ i, decode w = .instr i := by
  cases hd : decode w with
  | instr i => exact ⟨i, rfl⟩
  | illegal r =>
    have := (decode_illegal_iff w).mp ⟨r, hd⟩
    simp [h] at this

/-- The table and R90's tests refuse the same words. -/
theorem tableMnemonic_eq_none_iff (w : Word) : tableMnemonic w = none ↔ legalCommandWord w = false := by
  constructor
  · intro hnone
    by_contra hlegal
    obtain ⟨i, hi⟩ := exists_decode_of_legal (Bool.not_eq_false _ ▸ hlegal)
    simp [tableMnemonic_of_decode hi] at hnone
  · intro hillegal
    have hrow : ∀ r ∈ opcodeTable, ¬ r.matches w = true := fun r hr hm => by
      simp [legal_of_matches hr hm] at hillegal
    simpa [tableMnemonic] using hrow

/-- Settles O2: one lemma for each test, and both verdicts compared with `legalCommandWord`. -/
theorem decodingFollowsItsFourTests : Obligations.DecodingFollowsItsFourTests := by
  intro w
  refine ⟨decode_of_fieldZero_ne, ?reservedOpcode, ?bselNotAllowed, ?command, ?table⟩
  case reservedOpcode =>
    intro hzero hopc
    rw [decode_of_fieldZero_eq hzero]
    exact decodeOpcode_unassigned hopc _
  case bselNotAllowed =>
    intro hzero hopc hbit hbsel
    rw [decode_of_fieldZero_eq hzero, show fieldBsel w = true from hbit]
    exact decodeOpcode_bselNotAllowed _ hopc hbsel
  case command =>
    intro hzero hopc hbsel
    obtain ⟨i, hi⟩ := exists_decode_of_legal ((legalCommandWord_iff w).mpr ⟨hzero, hopc, hbsel⟩)
    obtain ⟨-, hiopc, hibsel⟩ := fields_of_decode hi
    exact ⟨i, hi, hiopc, hibsel, tableMnemonic_of_decode hi⟩
  case table => rw [decode_illegal_iff, tableMnemonic_eq_none_iff]

end Sys2Proof.Proofs.DecodeTests
end

section
/-! PROOF. The commands of the Checksum Engine, `CHK_COMPUTE` (40_checksum.md R121) and `CHK_VERIFY` (R122). -/

namespace Sys2Proof.Proofs.ChecksumCommands

open Sys2Proof Sys2Proof.Machine

/-! ### The checksum `CFG` selects, and its values at the empty sequence and at "abc" -/

theorem checksum_algOf (c : Cfg) (v : Bytes) :
    checksum (algOf c) v = if c.crc32 then crc32 v else adler32 v := by
  cases h : c.crc32 <;> simp [algOf, h, checksum]

theorem crc32_nil : crc32 [] = 0x00000000 := by decide

theorem adler32_nil : adler32 [] = 0x00000001 := by decide

theorem crc32_abc : crc32 [0x61, 0x62, 0x63] = 0x352441C2 := by decide +kernel

theorem adler32_abc : adler32 [0x61, 0x62, 0x63] = 0x024D0127 := by decide

/-! ### Each command on a ready unit -/

@[simp] theorem buffer_acceptCommand (b : BufSel) (s : State) : buffer b (acceptCommand s) = buffer b s := by
  cases b <;> rfl

/-- Acceptance (R223) and completion (R159) undo each other but for `STATE`. -/
theorem finishIdle_acceptCommand {s : State} (hb : s.busy = false) :
    finishIdle (acceptCommand s) = { s with phase := .idle } := by
  simp [finishIdle, acceptCommand, hb]

theorem exec_chkCompute_ready (b : BufSel) {s : State} (h : Ready s) :
    exec (.chkCompute b) s =
      .next { s with chkResult := checksum (algOf s.cfg) (buffer b s), phase := .idle } :=
  calc
    exec (.chkCompute b) s
      = .next (finishIdle (setChkResult (checksum (algOf s.cfg) (buffer b s)) (acceptCommand s))) := by
        rw [exec_chkCompute_eq, runCommand_ready _ h, buffer_acceptCommand, acceptCommand_cfg]
        rfl
    _ = .next (setChkResult (checksum (algOf s.cfg) (buffer b s)) (finishIdle (acceptCommand s))) := rfl
    _ = _ := by rw [finishIdle_acceptCommand h.1, setChkResult]

/-- The comparison is with `CHK_EXPECT`, which the command does not write. -/
theorem exec_chkVerify_ready (b : BufSel) {s : State} (h : Ready s) :
    exec (.chkVerify b) s = .next { s with
      chkResult := checksum (algOf s.cfg) (buffer b s),
      matched := decide (checksum (algOf s.cfg) (buffer b s) = s.chkExpect), phase := .idle } :=
  calc
    exec (.chkVerify b) s
      = .next (finishIdle (setMatch (checksum (algOf s.cfg) (buffer b s))
          (setChkResult (checksum (algOf s.cfg) (buffer b s)) (acceptCommand s)))) := by
        rw [exec_chkVerify_eq, runCommand_ready _ h, buffer_acceptCommand, acceptCommand_cfg]
        rfl
    _ = .next (setMatch (checksum (algOf s.cfg) (buffer b s))
          (setChkResult (checksum (algOf s.cfg) (buffer b s)) (finishIdle (acceptCommand s)))) := rfl
    _ = _ := by rw [finishIdle_acceptCommand h.1, setMatch, setChkResult]

/-- Settles O17: both buffers by `exec_chkCompute_ready`, with the selected checksum written as R121 has it. -/
theorem chkComputeResult : Obligations.ChkComputeResult := by
  refine ⟨by decide, by decide, fun s h => ?_, crc32_nil, adler32_nil, crc32_abc, adler32_abc⟩
  simp only [← checksum_algOf]
  exact ⟨exec_chkCompute_ready .u h, exec_chkCompute_ready .c h⟩

/-- Settles O18: both buffers by `exec_chkVerify_ready`; only CRC-32 gives 0 at the empty buffer. -/
theorem chkVerifyResult : Obligations.ChkVerifyResult := by
  have hadler : adler32 [] ≠ 0 := by
    rw [adler32_nil]
    decide
  exact ⟨by decide, by decide, fun s h => ⟨exec_chkVerify_ready .u h, exec_chkVerify_ready .c h⟩,
    crc32_nil, hadler, adler32_abc⟩

end Sys2Proof.Proofs.ChecksumCommands
end

section
/-! PROOF. The identity filter, `FILT_SEL = 0`: no effect in either direction (41_filter.md R131). -/

namespace Sys2Proof.Proofs.IdentityFilter

open Sys2Proof Sys2Proof.Machine
open Sys2Proof.Proofs.ChecksumCommands (finishIdle_acceptCommand)

/-! ### The two micro-operations (R137) -/

/-- With `FILT_SEL = 0` the branch that calls the filter port is not taken. -/
theorem applyFwd_identity {s : State} (h : s.cfg.filtSel = false) : applyFwd s = .ok () s :=
  if_neg (Bool.eq_false_iff.mp h)

theorem applyInv_identity {s : State} (h : s.cfg.filtSel = false) : applyInv s = .ok () s :=
  if_neg (Bool.eq_false_iff.mp h)

/-! ### The two commands on a ready unit (R138, R139) -/

/-- A command whose one operation has no effect on the accepted state ends as a bare completion (R159). -/
theorem runCommand_of_noOp {op : State → Micro Unit} {s : State} (hr : Ready s)
    (hop : op (acceptCommand s) = .ok () (acceptCommand s)) :
    runCommand (fun s => (op s).andThen fun _ s => .ok () (finishIdle s)) s =
      .next { s with phase := .idle } :=
  calc
    runCommand (fun s => (op s).andThen fun _ s => .ok () (finishIdle s)) s
      = .next (finishIdle (acceptCommand s)) := by rw [runCommand_ready _ hr, hop, andThen_ok, Micro.state]
    _ = .next { s with phase := .idle } := by rw [finishIdle_acceptCommand hr.1]

theorem exec_filtFwd_identity {s : State} (hr : Ready s) (h : s.cfg.filtSel = false) :
    exec .filtFwd s = .next { s with phase := .idle } := by
  rw [exec_filtFwd_eq]
  exact runCommand_of_noOp hr (applyFwd_identity h)

theorem exec_filtInv_identity {s : State} (hr : Ready s) (h : s.cfg.filtSel = false) :
    exec .filtInv s = .next { s with phase := .idle } := by
  rw [exec_filtInv_eq]
  exact runCommand_of_noOp hr (applyInv_identity h)

/-- Settles O23: the reset value of `CFG`, the micro-operations, and the commands by `runCommand_of_noOp`. -/
theorem identityFilterIsNoOp : Obligations.IdentityFilterIsNoOp :=
  ⟨rfl, fun _ h => ⟨applyFwd_identity h, applyInv_identity h,
    fun hr => ⟨exec_filtFwd_identity hr h, exec_filtInv_identity hr h⟩⟩⟩

end Sys2Proof.Proofs.IdentityFilter
end

section
/-! PROOF. `DECOMPRESS_BLOCK` under the policy `Throw` (43_block_codec.md R186): a mismatch of the compressed slot stops
the block before the primitive is called, one of the uncompressed slot before the filter is called. -/

namespace Sys2Proof.Proofs.ThrowPolicy

open Sys2Proof Sys2Proof.Machine

/-! ### One slot (R185, R186) -/

/-- The failure is raised after `CHK_RESULT` has been given the computed value. -/
theorem checkSlot_throw {which : Slot} {b : Bytes} {expected : Word} {pos : DWord} {s : State}
    (hpol : s.cfg.policy = .throw) (hne : checksum (algOf s.cfg) b ≠ expected) :
    checkSlot which b expected pos s =
      raise .checksumMismatch { s with chkResult := checksum (algOf s.cfg) b } := by
  rw [checkSlot, if_neg hne, applyPolicy, setChkResult_cfg, hpol]
  rfl

/-! ### The states in which the two slots are checked (R182, steps 3 and 5) -/

section Slots

variable {s : State} {us cs uc cc : Word} {p d : Bytes}

/-- A match of the compressed slot leaves the computed value, which is the record's, in `CHK_RESULT`. -/
def compressedMatched (s : State) (us cs uc cc : Word) (p : Bytes) : State :=
  { payloadLoaded s us cs uc cc p with chkResult := cc }

/-- Step 4 has put the decompressed block in `UBUF`. -/
def blockDecompressed (s : State) (us cs uc cc : Word) (p d : Bytes) : State :=
  { setPhase .chkCChecked (compressedMatched s us cs uc cc p) with ubuf := d }

/-- With checksums active, the header register of the compressed slot holds the record's value. -/
theorem payloadLoaded_hdrCchk (us cs uc cc : Word) (p : Bytes) (hen : s.cfg.chkEn = true) :
    (payloadLoaded s us cs uc cc p).hdrCchk = cc :=
  if_pos hen

theorem payloadLoaded_hdrUchk (us cs uc cc : Word) (p : Bytes) (hen : s.cfg.chkEn = true) :
    (payloadLoaded s us cs uc cc p).hdrUchk = uc :=
  if_pos hen

theorem checkCompressed_payloadLoaded_throw (pos : DWord) (hen : s.cfg.chkEn = true) (hpol : s.cfg.policy = .throw)
    (hne : checksum (algOf s.cfg) p ≠ cc) :
    checkCompressed pos (payloadLoaded s us cs uc cc p) = raise .checksumMismatch
      { payloadLoaded s us cs uc cc p with chkResult := checksum (algOf s.cfg) p } :=
  (if_pos hen).trans (checkSlot_throw hpol (hne.trans_eq (payloadLoaded_hdrCchk us cs uc cc p hen).symm))

theorem checkCompressed_payloadLoaded_match (pos : DWord) (hen : s.cfg.chkEn = true)
    (heq : checksum (algOf s.cfg) p = cc) :
    checkCompressed pos (payloadLoaded s us cs uc cc p) = .ok () (compressedMatched s us cs uc cc p) :=
  (if_pos hen).trans ((payloadLoaded_hdrCchk us cs uc cc p hen).symm ▸ checkSlot_match heq)

theorem doDecompress_compressedMatched (hlzo : lzoDecompress s.platform ⟨s.cfg.lzoAlg, p, us.toNat⟩ = .bytes d)
    (hd : d.length = us.toNat) :
    doDecompress (compressedMatched s us cs uc cc p).hdrUsize.toNat
      (setPhase .chkCChecked (compressedMatched s us cs uc cc p)) = .ok () (blockDecompressed s us cs uc cc p d) :=
  doDecompress_ok hlzo hd

theorem checkUncompressed_blockDecompressed_throw (pos : DWord) (hen : s.cfg.chkEn = true)
    (hpol : s.cfg.policy = .throw) (hne : checksum (algOf s.cfg) d ≠ uc) :
    checkUncompressed pos (setPhase .decompressed (blockDecompressed s us cs uc cc p d)) = raise .checksumMismatch
      { setPhase .decompressed (blockDecompressed s us cs uc cc p d) with
        chkResult := checksum (algOf s.cfg) d } :=
  (if_pos hen).trans (checkSlot_throw hpol (hne.trans_eq (payloadLoaded_hdrUchk us cs uc cc p hen).symm))

/-! ### The body of the command, up to the slot that stops it -/

/-- No premise is about the LZO port: `raise` comes before its request. -/
theorem decompressBody_compressedSlot_throw (ha : answersOk 2 s) (hr : RecordNext s us cs uc cc p)
    (hen : s.cfg.chkEn = true) (hpol : s.cfg.policy = .throw) (hne : checksum (algOf s.cfg) p ≠ cc) :
    decompressBody s = raise .checksumMismatch
      { payloadLoaded s us cs uc cc p with chkResult := checksum (algOf s.cfg) p } := by
  obtain ⟨hheader, hpayload, hlen, husize, hcsize⟩ := hr
  rw [decompressBody_loaded ha hheader hpayload hlen husize hcsize,
    checkCompressed_payloadLoaded_throw _ hen hpol hne, andThen_raise]

/-- No premise is about the filter port: `raise` comes before its request. -/
theorem decompressBody_uncompressedSlot_throw (ha : answersOk 2 s) (hr : RecordNext s us cs uc cc p)
    (hen : s.cfg.chkEn = true) (hpol : s.cfg.policy = .throw) (heq : checksum (algOf s.cfg) p = cc)
    (hlzo : lzoDecompress s.platform ⟨s.cfg.lzoAlg, p, us.toNat⟩ = .bytes d) (hd : d.length = us.toNat)
    (hne : checksum (algOf s.cfg) d ≠ uc) :
    decompressBody s = raise .checksumMismatch
      { setPhase .decompressed (blockDecompressed s us cs uc cc p d) with
        chkResult := checksum (algOf s.cfg) d } := by
  obtain ⟨hheader, hpayload, hlen, husize, hcsize⟩ := hr
  rw [decompressBody_loaded ha hheader hpayload hlen husize hcsize,
    checkCompressed_payloadLoaded_match _ hen heq, andThen_ok,
    doDecompress_compressedMatched hlzo hd, andThen_ok,
    checkUncompressed_blockDecompressed_throw _ hen hpol hne, andThen_raise]

/-! ### The command on a ready unit -/

/-- A body that raises an error on the accepted state leaves failure entry (R223, R250). -/
theorem exec_decompressBlock_raise {c : ErrCode} {u : State} (hr : Ready s)
    (hbody : decompressBody (acceptCommand s) = raise c u) :
    exec .decompressBlock s = .next (failureEntry c u) := by
  rw [exec_decompressBlock_eq, runCommand_ready _ hr, hbody]
  rfl

/-- What steps 1 and 2 leave of an accepted command, with a long header, on the state before the command. -/
theorem payloadLoaded_acceptCommand (hen : s.cfg.chkEn = true) :
    payloadLoaded (acceptCommand s) us cs uc cc p = { takeAnswers 2 s with
      ipos := s.ipos + 16 + p.length, hdrUsize := us, hdrCsize := cs, hdrUchk := uc, hdrCchk := cc, cbuf := p,
      phase := .payloadRead, busy := true } := by
  obtain ⟨script, ctr, htaken⟩ := takeAnswers_eq 2 s
  simp only [payloadLoaded, takeAnswers_acceptCommand, htaken, headerLen, acceptCommand_cfg, hen, if_true]
  rfl

/-- With checksums active the record's header is of 16 bytes, all four fields (30_encoding.md R96, R98). -/
theorem recordNext_of_longHeader (hen : s.cfg.chkEn = true)
    (hheader : nextInput 16 s = be32 us ++ be32 cs ++ be32 uc ++ be32 cc)
    (hpayload : nextInput cs.toNat { s with ipos := s.ipos + 16 } = p) (hlen : p.length = cs.toNat)
    (husize : us.toNat ≤ s.platform.maxBlockSize) (hcsize : cs.toNat ≤ s.platform.cbufCap) :
    RecordNext s us cs uc cc p := by
  have hh : headerLen s.cfg = 16 := if_pos hen
  exact ⟨by simp [hh, hheader, recordHeader, hen], by rw [hh, hpayload], hlen, husize, hcsize⟩

end Slots

/-- Settles O41: the body up to the slot that stops it, and failure entry from there. -/
theorem throwStopsTheBlock : Obligations.ThrowStopsTheBlock := by
  refine ⟨rfl, fun s us cs uc cc p hready ha hen hpol hheader hpayload hlen husize hcsize => ?_⟩
  have hrecord : RecordNext (acceptCommand s) us cs uc cc p :=
    recordNext_of_longHeader hen hheader hpayload hlen husize hcsize
  have ha' := answersOk_acceptCommand ha
  obtain ⟨script, ctr, htaken⟩ := takeAnswers_eq 2 s
  constructor
  case left =>
    intro hne
    rw [exec_decompressBlock_raise hready (decompressBody_compressedSlot_throw ha' hrecord hen hpol hne),
      payloadLoaded_acceptCommand hen, htaken, hlen]
    rfl
  case right =>
    intro d heq hlzo hd hne
    rw [exec_decompressBlock_raise hready
      (decompressBody_uncompressedSlot_throw ha' hrecord hen hpol heq hlzo hd hne),
      blockDecompressed, compressedMatched, payloadLoaded_acceptCommand hen, htaken, hlen]
    rfl

end Sys2Proof.Proofs.ThrowPolicy
end

section
/-! PROOF. The system commands that leave `FAILED`: `CLR_ERR` (45_system.md R226) and `SOFT_RESET` (R228). -/

namespace Sys2Proof.Proofs.LeavingFailed

open Sys2Proof Sys2Proof.Machine

/-- The acceptance rules leave such a command's effect alone in both resting conditions (R222, R223). -/
theorem runAlways_resting (effect : State → State) {s : State} (h : Ready s ∨ Failed s) :
    runAlways effect s = .next (effect s) :=
  h.elim (runAlways_ready effect) (runAlways_failed effect)

theorem runAlways_busy (effect : State → State) {s : State} (h : s.busy = true) :
    runAlways effect s = .refused .hostActsWhileBusy := by
  simp only [runAlways, condition_busy h]

/-- Settles O13: `resetRegisters` writes the registers out; while a command runs it is not reached (R221). -/
theorem softResetResetsRegisters : Obligations.SoftResetResetsRegisters := by
  refine ⟨by decide, fun s => ⟨fun hresting => ?resting, fun hbusy => ?busy⟩⟩
  case resting =>
    calc
      exec .softReset s = runAlways resetRegisters s := exec_softReset_eq s
      _ = .next (resetRegisters s) := runAlways_resting _ hresting
  case busy =>
    calc
      exec .softReset s = runAlways resetRegisters s := exec_softReset_eq s
      _ = .refused .hostActsWhileBusy := runAlways_busy _ hbusy

/-- Settles O15: `clearError` and the sticky flags it clears are the whole effect. -/
theorem clrErrLeavesFailed : Obligations.ClrErrLeavesFailed := by
  refine ⟨by decide, fun s hresting => ?_⟩
  calc
    exec .clrErr s = runAlways clearError s := exec_clrErr_eq s
    _ = .next (clearError s) := runAlways_resting _ hresting

end Sys2Proof.Proofs.LeavingFailed
end

section
/-! PROOF. A write of `CMD` in `FAILED`: three words execute, every other is dropped (45_system.md R222). -/

namespace Sys2Proof.Proofs.FailedUnit

open Sys2Proof Sys2Proof.Machine
open Sys2Proof.Proofs.DecodeTests (eq_encode_of_decode)

theorem writeCmd_of_decode {w : Word} {i : Instr} (h : decode w = .instr i) (s : State) :
    writeCmd w s = exec i s := by
  simp only [writeCmd, h]

/-- Every command but the three of R222 is a body under the acceptance rules of `runCommand`. -/
theorem exists_body {i : Instr} (hnop : i ≠ .nop) (hclrErr : i ≠ .clrErr) (hsoftReset : i ≠ .softReset) :
    ∃ body : State → Micro Unit, ∀ s, exec i s = runCommand body s := by
  cases i with
  | nop => exact absurd rfl hnop
  | clrErr => exact absurd rfl hclrErr
  | softReset => exact absurd rfl hsoftReset
  | chkCompute b => exact ⟨_, exec_chkCompute_eq b⟩
  | chkVerify b => exact ⟨_, exec_chkVerify_eq b⟩
  | filtFwd => exact ⟨_, exec_filtFwd_eq⟩
  | filtInv => exact ⟨_, exec_filtInv_eq⟩
  | bufLoad b => exact ⟨_, exec_bufLoad_eq b⟩
  | bufStore b => exact ⟨_, exec_bufStore_eq b⟩
  | lzoComp => exact ⟨_, exec_lzoComp_eq⟩
  | lzoDecomp => exact ⟨_, exec_lzoDecomp_eq⟩
  | recEmit => exact ⟨_, exec_recEmit_eq⟩
  | recParse => exact ⟨_, exec_recParse_eq⟩
  | compressBlock => exact ⟨_, exec_compressBlock_eq⟩
  | decompressBlock => exact ⟨_, exec_decompressBlock_eq⟩
  | compressStream => exact ⟨_, exec_compressStream_eq⟩
  | decompressStream => exact ⟨_, exec_decompressStream_eq⟩
  | clrTotals => exact ⟨_, exec_clrTotals_eq⟩

/-- The body of a dropped command is not entered: no stream or port is touched. -/
theorem exec_failed {i : Instr} (hnop : i ≠ .nop) (hclrErr : i ≠ .clrErr) (hsoftReset : i ≠ .softReset)
    {s : State} (h : Failed s) : exec i s = .next (dropCommand s) := by
  obtain ⟨body, hbody⟩ := exists_body hnop hclrErr hsoftReset
  rw [hbody, runCommand_failed body h]

/-- A word is judged by what it decodes to; the three words are the only ones that decode to the three commands. -/
theorem writeCmd_failed {w : Word} (hnop : w ≠ 0x00000000) (hclrErr : w ≠ 0x00000020)
    (hsoftReset : w ≠ 0x0000002F) {s : State} (h : Failed s) : writeCmd w s = .next (dropCommand s) := by
  cases hd : decode w with
  | illegal r =>
    simp only [writeCmd, hd]
    exact illegalCommand_failed h
  | instr i =>
    have hw : w = encode i := eq_encode_of_decode hd
    have of_word_ne : ∀ j, w ≠ encode j → i ≠ j := fun j hne hij => hne (hij ▸ hw)
    rw [writeCmd_of_decode hd]
    exact exec_failed (of_word_ne .nop hnop) (of_word_ne .clrErr hclrErr) (of_word_ne .softReset hsoftReset) h

/-- Settles O6: the step is the write of `CMD`, which taking the access off the host's list leaves in `FAILED`. -/
theorem failedUnitDropsCommands : Obligations.FailedUnitDropsCommands := by
  intro s w rest hfailed hhost
  have hstep : step s = writeCmd w { s with host := rest } := step_writeCmd hfailed.1 hhost
  have step_of_decode : ∀ i, decode w = .instr i → step s = exec i { s with host := rest } :=
    fun i hd => hstep.trans (writeCmd_of_decode hd _)
  refine ⟨?nop, ?clrErr, ?softReset, ?dropped⟩
  case nop => exact fun hw => step_of_decode .nop (hw ▸ by decide)
  case clrErr => exact fun hw => step_of_decode .clrErr (hw ▸ by decide)
  case softReset => exact fun hw => step_of_decode .softReset (hw ▸ by decide)
  case dropped => exact fun h0 h20 h2F => hstep.trans (writeCmd_failed h0 h20 h2F hfailed)

end Sys2Proof.Proofs.FailedUnit
end

section
/-! PROOF. The words a write of `CMD` and a write of `CFG` refuse while ready (60_exceptions.md R248, R249), and what a
legal write of `CFG` stores (10_state.md R27, R28). -/

namespace Sys2Proof.Proofs.IllegalWords

open Sys2Proof Sys2Proof.Machine

/-! ### `CMD` (R248) -/

theorem writeCmd_illegal_ready {s : State} {w : Word} (hw : legalCommandWord w = false) (h : Ready s) :
    writeCmd w s = .next (failureEntry .illegalCmd s) := by
  obtain ⟨r, hd⟩ := (decode_illegal_iff w).mpr hw
  simp only [writeCmd, hd, illegalCommand_ready h]

/-- Settles O5: the write of `CMD` is a failure entry; taking the access off the host's list leaves the unit ready. -/
theorem illegalWordFailsWhenReady : Obligations.IllegalWordFailsWhenReady := by
  intro s w rest hready hhost hillegal
  calc
    step s = writeCmd w { s with host := rest } := step_writeCmd hready.1 hhost
    _ = .next (failureEntry .illegalCmd { s with host := rest }) := writeCmd_illegal_ready hillegal hready

/-! ### The fields of a `CFG` word (R27, R28) -/

theorem legalCfgWord_iff (w : Word) : legalCfgWord w = true ↔
    w.extractLsb' 6 2 = 0 ∧ w.extractLsb' 16 16 = 0 ∧ w.extractLsb' 4 2 ≠ 3 := by
  simp [legalCfgWord, and_assoc]

theorem policyBits_inj {p q : Policy} : policyBits p = policyBits q ↔ p = q := by
  cases p <;> cases q <;> decide

/-- Only the bits 3 stand for no policy (R27). -/
theorem exists_policyOfBits : ∀ b : BitVec 2, b ≠ 3 → ∃ p, policyOfBits b = some p ∧ policyBits p = b := by
  intro b hb
  rcases (by decide +revert : b = 0 ∨ b = 1 ∨ b = 2 ∨ b = 3) with rfl | rfl | rfl | rfl
  · exact ⟨.throw, rfl, rfl⟩
  · exact ⟨.warn, rfl, rfl⟩
  · exact ⟨.ignore, rfl, rfl⟩
  · exact absurd rfl hb

/-- `CFG` with the fields of a word and a policy. -/
def cfgFields (w : Word) (p : Policy) : Cfg :=
  { crc32 := w.getLsbD 0, chkEn := w.getLsbD 1, filtSel := w.getLsbD 2, optimize := w.getLsbD 3,
    policy := p, lzoAlg := w.extractLsb' 8 8 }

theorem ofBool_getLsbD (w : Word) (k : Nat) : BitVec.ofBool (w.getLsbD k) = w.extractLsb' k 1 := by
  ext i hi
  simp [show i = 0 by omega]

/-- A word is its fields of R27, the reserved ones included, in a row. -/
theorem append_cfg_fields (w : Word) :
    w.extractLsb' 16 16 ++ w.extractLsb' 8 8 ++ w.extractLsb' 6 2 ++ w.extractLsb' 4 2 ++ w.extractLsb' 3 1 ++
      w.extractLsb' 2 1 ++ w.extractLsb' 1 1 ++ w.extractLsb' 0 1 = w := by
  have join (hi lo m n : Nat) (h : hi = lo + n) :
      w.extractLsb' hi m ++ w.extractLsb' lo n = w.extractLsb' lo (m + n) :=
    BitVec.extractLsb'_append_extractLsb'_eq_extractLsb' h
  rw [join 16 8 16 8 rfl, join 8 6 24 2 rfl, join 6 4 26 2 rfl, join 4 3 28 1 rfl, join 3 2 29 1 rfl,
    join 2 1 30 1 rfl, join 1 0 31 1 rfl]
  exact BitVec.extractLsb'_eq_self

/-- A word whose reserved bits are zero is the view of `CFG` with its fields. -/
theorem cfgWord_cfgFields {w : Word} {p : Policy} (h6 : w.extractLsb' 6 2 = 0) (h16 : w.extractLsb' 16 16 = 0)
    (hp : policyBits p = w.extractLsb' 4 2) : cfgWord (cfgFields w p) = w := by
  simp only [cfgWord, cfgFields, ofBool_getLsbD, hp]
  rw [← h6, ← h16]
  exact append_cfg_fields w

theorem cfgOfWord_legal {w : Word} (h : legalCfgWord w = true) :
    ∃ p, policyBits p = w.extractLsb' 4 2 ∧ cfgOfWord w = some (cfgFields w p) := by
  obtain ⟨-, -, h4⟩ := (legalCfgWord_iff w).mp h
  obtain ⟨p, hsome, hbits⟩ := exists_policyOfBits _ h4
  exact ⟨p, hbits, by simp only [cfgOfWord, h, hsome, if_true, Option.map_some, cfgFields]⟩

theorem cfgOfWord_illegal {w : Word} (h : legalCfgWord w = false) : cfgOfWord w = none :=
  if_neg (Bool.eq_false_iff.mp h)

/-! ### The write of `CFG` (R28, R249) -/

theorem writeCfg_of_cfgOfWord {w : Word} {c : Cfg} (h : cfgOfWord w = some c) (s : State) :
    writeCfg w s = { s with cfg := c } := by
  simp only [writeCfg, h]

theorem writeCfg_illegal_ready {w : Word} {s : State} (h : legalCfgWord w = false) (hr : Ready s) :
    writeCfg w s = failureEntry .illegalCfg s := by
  simp only [writeCfg, cfgOfWord_illegal h, condition_ready hr]

theorem writeCfg_illegal_failed {w : Word} {s : State} (h : legalCfgWord w = false) (hf : Failed s) :
    writeCfg w s = s := by
  simp only [writeCfg, cfgOfWord_illegal h, condition_failed hf]

theorem step_writeCfg {s : State} {w : Word} {rest : List HostEvent} (hb : s.busy = false)
    (hh : s.host = .write 8 4 w :: rest) : step s = .next (writeCfg w { s with host := rest }) :=
  step_write hb (by decide) (by decide) hh

/-- Settles O11: a legal word by its fields, an illegal one by the condition of the unit, which taking the access
off the host's list does not change. -/
theorem cfgWritesAreChecked : Obligations.CfgWritesAreChecked := by
  intro s w rest hresting hhost
  have hstep : step s = .next (writeCfg w { s with host := rest }) :=
    step_writeCfg (hresting.elim And.left And.left) hhost
  rw [hstep, ← legalCfgWord_iff, Bool.not_eq_true]
  refine ⟨fun hlegal => ?legal, fun hillegal => ⟨fun hr => ?ready, fun hf => ?failed⟩⟩
  case legal =>
    obtain ⟨p, hbits, hcfg⟩ := cfgOfWord_legal hlegal
    obtain ⟨h6, h16, -⟩ := (legalCfgWord_iff w).mp hlegal
    refine ⟨cfgFields w p, cfgWord_cfgFields h6 h16 hbits, congrArg _ (writeCfg_of_cfgOfWord hcfg _),
      rfl, rfl, rfl, rfl, ?_⟩
    rw [← hbits]
    exact ⟨policyBits_inj.symm, policyBits_inj.symm, policyBits_inj.symm, rfl⟩
  case ready => exact congrArg _ (writeCfg_illegal_ready hillegal hr)
  case failed => exact congrArg _ (writeCfg_illegal_failed hillegal hf)

end Sys2Proof.Proofs.IllegalWords
end

section
/-! PROOF. `ILLEGAL_OPERAND` (60_exceptions.md R251): its three causes, and that no block or stream command
raises it. -/

namespace Sys2Proof.Proofs.IllegalOperand

open Sys2Proof Sys2Proof.Machine

/-! ### The three causes -/

/-- A command whose body raises at once leaves the failure entry of the accepted state, in which `STATE` is `IDLE`. -/
theorem runCommand_raise {body : State → Micro Unit} {c : ErrCode} {s : State} (hr : Ready s)
    (h : body (acceptCommand s) = raise c (acceptCommand s)) :
    runCommand body s = .next (failureEntry c (acceptCommand s)) := by
  rw [runCommand_ready body hr, h, state_raise]

theorem exec_bufLoad_illegalOperand {b : BufSel} {s : State} (hr : Ready s)
    (h : s.xferLen.toNat > capacity b s.platform) :
    exec (.bufLoad b) s = .next (failureEntry .illegalOperand (acceptCommand s)) := by
  rw [exec_bufLoad_eq]
  exact runCommand_raise hr (if_pos h)

theorem exec_lzoDecomp_illegalOperand {s : State} (hr : Ready s) (h : s.hdrUsize.toNat > s.platform.maxBlockSize) :
    exec .lzoDecomp s = .next (failureEntry .illegalOperand (acceptCommand s)) := by
  rw [exec_lzoDecomp_eq]
  exact runCommand_raise hr (if_pos h)

theorem exec_recEmit_illegalOperand {s : State} (hr : Ready s) (h : s.hdrCsize ≠ clen s) :
    exec .recEmit s = .next (failureEntry .illegalOperand (acceptCommand s)) := by
  rw [exec_recEmit_eq]
  exact runCommand_raise hr (if_pos h)

/-! ### The block and stream commands -/

/-- A block that ends early keeps `ERR.CODE` or raises one of the causes of R242 to R247. -/
theorem ends_errCode_ne_illegalOperand {s t : State} (h : Ends s t) (hs : s.errCode ≠ .illegalOperand) :
    t.errCode ≠ .illegalOperand := by
  rcases h.cases with ⟨-, -, -, -, hne, -⟩ | ⟨-, -, -, heq, -⟩
  · exact hne
  · rwa [heq]

theorem turnBody_errCode_ne_illegalOperand (d : Direction) {s : State} (hs : s.errCode ≠ .illegalOperand) :
    (turnBody d s).state.errCode ≠ .illegalOperand := by
  have hturn := turnBody_holds d s
  cases hm : turnBody d s with
  | ended t =>
    rw [hm] at hturn
    exact ends_errCode_ne_illegalOperand hturn hs
  | ok a t =>
    rw [hm] at hturn
    rcases hturn with rfl | ⟨u, hu, -, -, -, -, rfl⟩
    · simpa using hs
    · simpa [hu.errCode] using hs

theorem streamLoop_errCode_ne_illegalOperand (d : Direction) (k : Nat) {s : State}
    (hs : s.errCode ≠ .illegalOperand) : (streamLoop d k s).errCode ≠ .illegalOperand := by
  induction k generalizing s with
  | zero => exact hs
  | succ k ih =>
    rcases streamLoop_succ d k s with ⟨hends, -⟩ | ⟨-, heos⟩ | ⟨u, hu, -, -, -, -, -, hnext⟩
    · exact ends_errCode_ne_illegalOperand hends hs
    · simpa [heos] using hs
    · rw [hnext]
      exact ih (by simpa [turnDone, hu.errCode] using hs)

/-- A command whose body keeps away from the code does so when it is dropped, too. -/
theorem runCommand_errCode_ne_illegalOperand {body : State → Micro Unit}
    (hbody : ∀ u : State, u.errCode ≠ .illegalOperand → (body u).state.errCode ≠ .illegalOperand)
    {s t : State} (hs : s.errCode ≠ .illegalOperand) (h : runCommand body s = .next t) :
    t.errCode ≠ .illegalOperand := by
  rcases runCommand_inv h with ⟨-, rfl⟩ | ⟨-, rfl⟩
  · exact hbody _ hs
  · exact hs

theorem exec_blockInstr_errCode_ne_illegalOperand (d : Direction) {s t : State} (hs : s.errCode ≠ .illegalOperand)
    (h : exec (blockInstr d) s = .next t) : t.errCode ≠ .illegalOperand := by
  have hrun : exec (blockInstr d) s = runCommand (turnBody d) s := by cases d <;> rfl
  rw [hrun] at h
  exact runCommand_errCode_ne_illegalOperand (fun _ hu => turnBody_errCode_ne_illegalOperand d hu) hs h

theorem exec_streamInstr_errCode_ne_illegalOperand (d : Direction) {s t : State} (hs : s.errCode ≠ .illegalOperand)
    (h : exec (streamInstr d) s = .next t) : t.errCode ≠ .illegalOperand := by
  have hrun : exec (streamInstr d) s = runCommand (fun s => .ok () (streamCommand d s)) s := by cases d <;> rfl
  rw [hrun] at h
  refine runCommand_errCode_ne_illegalOperand (fun u hu => ?_) hs h
  exact streamLoop_errCode_ne_illegalOperand d _ hu

/-! ### A step that goes on -/

/-- All that a step with `BUSY = 1` can do: reset, answer a read of `STATUS`, or go on with the command. -/
theorem busyStep_cases (s : State) :
    (∃ rest, busyStep s = .next (resetRegisters { s with host := rest })) ∨
      (∃ rest, busyStep s = .next (giveHost (statusWord s) { s with host := rest })) ∨
      ∃ rest, busyStep s = advance { s with host := rest } := by
  unfold busyStep
  split
  · exact .inl ⟨_, rfl⟩
  · exact .inr (.inr ⟨_, rfl⟩)
  · split
    · exact .inr (.inl ⟨_, rfl⟩)
    · exact .inr (.inr ⟨s.host, rfl⟩)
  · exact .inr (.inr ⟨s.host, rfl⟩)
  · exact .inr (.inr ⟨s.host, rfl⟩)

/-- A command goes on by the turns of its loop, or it hangs. -/
theorem advance_inv {s t : State} (h : advance s = .next t) :
    (∃ d, t = streamLoop d (streamFuel s) s) ∨ t = s := by
  unfold advance at h
  split at h
  · cases h
    exact .inl ⟨_, rfl⟩
  · cases h
    exact .inr rfl
  · cases h

theorem busyStep_errCode_ne_illegalOperand {s t : State} (hs : s.errCode ≠ .illegalOperand)
    (h : busyStep s = .next t) : t.errCode ≠ .illegalOperand := by
  rcases busyStep_cases s with ⟨rest, he⟩ | ⟨rest, he⟩ | ⟨rest, he⟩ <;> rw [he] at h
  · cases h
    simp
  · cases h
    exact hs
  · rcases advance_inv h with ⟨d, rfl⟩ | rfl
    · exact streamLoop_errCode_ne_illegalOperand d _ hs
    · exact hs

/-- Settles O32: the three causes are tested before anything else; the turns of the block and stream commands end by
other causes, in the first step and in those that go on. -/
theorem illegalOperandCauses : Obligations.IllegalOperandCauses := by
  refine ⟨fun s hr i hcause => ?causes, fun s t i hs hrun => ?never⟩
  case causes =>
    rcases hcause with ⟨b, rfl, h⟩ | ⟨rfl, h⟩ | ⟨rfl, h⟩
    · exact exec_bufLoad_illegalOperand hr h
    · exact exec_lzoDecomp_illegalOperand hr h
    · exact exec_recEmit_illegalOperand hr h
  case never =>
    rcases hrun with ⟨hexec, rfl | rfl | rfl | rfl⟩ | ⟨hbusy, hstep⟩
    · exact exec_blockInstr_errCode_ne_illegalOperand .compress hs hexec
    · exact exec_blockInstr_errCode_ne_illegalOperand .decompress hs hexec
    · exact exec_streamInstr_errCode_ne_illegalOperand .compress hs hexec
    · exact exec_streamInstr_errCode_ne_illegalOperand .decompress hs hexec
    · rw [step, if_pos hbusy] at hstep
      exact busyStep_errCode_ne_illegalOperand hs hstep

end Sys2Proof.Proofs.IllegalOperand
end

section
/-! PROOF. In `FAILED` the first failure is kept until it is cleared (60_exceptions.md R259). -/

namespace Sys2Proof.Proofs.FirstFailure

open Sys2Proof Sys2Proof.Machine
open Sys2Proof.Proofs.UndefinedAccess (step_hostAction)
open Sys2Proof.Proofs.FailedUnit (writeCmd_of_decode writeCmd_failed)
open Sys2Proof.Proofs.IllegalWords (writeCfg_of_cfgOfWord)

/-- `STATE`, `ERR` and `ERR_POS` are as they were. -/
structure SameFailure (s t : State) : Prop where
  phase : t.phase = s.phase
  errCode : t.errCode = s.errCode
  errState : t.errState = s.errState
  errPos : t.errPos = s.errPos

theorem SameFailure.refl (s : State) : SameFailure s s := ⟨rfl, rfl, rfl, rfl⟩

theorem sameFailure_dropCommand (s : State) : SameFailure s (dropCommand s) := ⟨rfl, rfl, rfl, rfl⟩

theorem sameFailure_giveHost (v : Word) (s : State) : SameFailure s (giveHost v s) := ⟨rfl, rfl, rfl, rfl⟩

/-! ### Writes of registers -/

/-- In `FAILED` a write of `CMD` is dropped or is `NOP`, but for the two words that leave `FAILED` (R222). -/
theorem writeCmd_sameFailure {s t : State} {w : Word} (hf : Failed s) (hclrErr : w ≠ 0x00000020)
    (hsoftReset : w ≠ 0x0000002F) (h : writeCmd w s = .next t) : SameFailure s t := by
  by_cases hnop : w = 0x00000000
  · rw [writeCmd_of_decode (i := .nop) (by rw [hnop]; decide), exec_nop_eq, runAlways_failed _ hf] at h
    cases h
    exact .refl s
  · rw [writeCmd_failed hnop hclrErr hsoftReset hf] at h
    cases h
    exact sameFailure_dropCommand s

/-- In `FAILED` an illegal word written to `CFG` has no effect (R28). -/
theorem writeCfg_sameFailure {s : State} (hf : Failed s) (w : Word) : SameFailure s (writeCfg w s) := by
  cases hc : cfgOfWord w with
  | some c =>
    rw [writeCfg_of_cfgOfWord hc]
    exact ⟨rfl, rfl, rfl, rfl⟩
  | none =>
    simp only [writeCfg, hc, condition_failed hf]
    exact .refl s

/-- The host's writes of the other registers touch neither `ERR` nor `STATE`. -/
theorem writeReg_sameFailure {s t : State} {r : Reg} {v : Word} (hf : Failed s) (hr : r ≠ .cmd)
    (h : writeReg r v s = .next t) : SameFailure s t := by
  cases r with
  | cmd => exact absurd rfl hr
  | cfg =>
    cases h
    exact writeCfg_sameFailure hf v
  | _ =>
    cases h
    exact ⟨rfl, rfl, rfl, rfl⟩

/-! ### Accesses -/

theorem checkAccess_inv {off size : Nat} {k : Result} {t : State} (h : checkAccess off size k = .next t) :
    size = 4 ∧ off % 4 = 0 ∧ k = .next t := by
  unfold checkAccess at h
  split at h
  · cases h
  · split at h
    · rename_i hdefined
      obtain ⟨hsize, hoff⟩ : size = 4 ∧ off % 4 = 0 := by simpa [definedAccess] using hdefined
      exact ⟨hsize, hoff, h⟩
    · cases h

/-- The register map holds `CMD` once, at its start (10_state.md R22). -/
theorem regAt_eq_cmd_iff {off : Nat} : regAt off = some .cmd ↔ off / 4 = 0 := by
  have hnodup : registerMap.Nodup := by decide
  have hinj : registerMap[0]? = registerMap[off / 4]? ↔ 0 = off / 4 := List.getElem?_inj (by decide) hnodup
  exact eq_comm.trans (hinj.trans eq_comm)

theorem hostRead_sameFailure {s t : State} {off size : Nat} (h : hostRead off size s = .next t) :
    SameFailure s t := by
  obtain ⟨-, -, h⟩ := checkAccess_inv h
  cases h
  exact sameFailure_giveHost _ s

theorem hostWrite_sameFailure {s t : State} {off size : Nat} {v : Word} (hf : Failed s)
    (hclrErr : ¬(off = 0 ∧ size = 4 ∧ v = 0x00000020)) (hsoftReset : ¬(off = 0 ∧ size = 4 ∧ v = 0x0000002F))
    (h : hostWrite off size v s = .next t) : SameFailure s t := by
  obtain ⟨hsize, halign, hwrite⟩ := checkAccess_inv h
  cases hreg : regAt off with
  | none =>
    rw [hreg] at hwrite
    cases hwrite
    exact .refl s
  | some r =>
    rw [hreg] at hwrite
    by_cases hcmd : r = .cmd
    · subst hcmd
      have hoff : off = 0 := by
        have := regAt_eq_cmd_iff.mp hreg
        omega
      exact writeCmd_sameFailure hf (fun hv => hclrErr ⟨hoff, hsize, hv⟩) (fun hv => hsoftReset ⟨hoff, hsize, hv⟩)
        hwrite
    · exact writeReg_sameFailure hf hcmd hwrite

/-! ### The step -/

/-- Settles O59: with no command running the step is the host's next action, if there is one. -/
theorem firstFailureIsKept : Obligations.FirstFailureIsKept := by
  intro s t hf hstep hexits
  have hsame : SameFailure s t := by
    cases hhost : s.host with
    | nil =>
      have hwaits : step s = .next s := by simp [step, hf.1, idleStep, hhost]
      rw [hwaits] at hstep
      cases hstep
      exact .refl s
    | cons e rest =>
      obtain ⟨hclrErr, hsoftReset, hreset⟩ := hexits rest
      rw [step_hostAction hf.1 hhost] at hstep
      rw [hhost] at hclrErr hsoftReset hreset
      suffices h : SameFailure { s with host := rest } t from ⟨h.phase, h.errCode, h.errState, h.errPos⟩
      cases e with
      | read off size => exact hostRead_sameFailure hstep
      | write off size v =>
        refine hostWrite_sameFailure hf ?_ ?_ hstep
        · rintro ⟨rfl, rfl, rfl⟩
          exact hclrErr rfl
        · rintro ⟨rfl, rfl, rfl⟩
          exact hsoftReset rfl
      | wait =>
        cases hstep
        exact .refl _
      | reset => exact absurd rfl hreset
  exact ⟨hsame.phase.trans hf.2, hsame.errCode, hsame.errState, hsame.errPos⟩

end Sys2Proof.Proofs.FirstFailure
end

section
/-! PROOF. Decoding and encoding agree (30_encoding.md R86, R88 to R90). -/

namespace Sys2Proof.Proofs.DecodeEncode

open Sys2Proof Sys2Proof.Machine
open Sys2Proof.Proofs.DecodeTests (eq_encode_of_decode)

/-- A command with a `BSEL` operand gets it back from bit 8; any other has 0 there, as R90 (3) asks. -/
theorem decode_encode (i : Instr) : decode (encode i) = .instr i := by
  cases i with
  | chkCompute b | chkVerify b | bufLoad b | bufStore b => cases b <;> decide
  | _ => decide

/-- Settles O1: `decode_encode` one way, and the fields of a decoded word the other. -/
theorem decodeAndEncodeAgree : Obligations.DecodeAndEncodeAgree :=
  ⟨fun i _ => decode_encode i, fun _ _ h => eq_encode_of_decode h⟩

/-- Settles O3: the words are the encodings of these commands. -/
theorem sampleWordsDecode : Obligations.SampleWordsDecode :=
  ⟨decode_encode .nop, decode_encode (.chkCompute .c), decode_encode .filtInv, decode_encode (.bufLoad .c),
    decode_encode .recParse, decode_encode .decompressBlock, decode_encode .compressStream,
    decode_encode .softReset⟩

end Sys2Proof.Proofs.DecodeEncode
end

section
/-! PROOF. The system commands without a failure: `NOP` (45_system.md R225) and `CLR_TOTALS` (R227). -/

namespace Sys2Proof.Proofs.SystemCommands

open Sys2Proof Sys2Proof.Machine
open Sys2Proof.Proofs.LeavingFailed (runAlways_resting)
open Sys2Proof.Proofs.FailedUnit (exec_failed)

/-- Settles O14: its effect is the identity. -/
theorem nopHasNoEffect : Obligations.NopHasNoEffect :=
  ⟨by decide, fun s hresting => (exec_nop_eq s).trans (runAlways_resting _ hresting)⟩

theorem exec_clrTotals_ready {s : State} (h : Ready s) :
    exec .clrTotals s = .next { s with totRead := 0, totWritten := 0, blkCount := 0, phase := .idle } := by
  rw [exec_clrTotals_eq, runCommand_ready _ h]
  simp [finishIdle, zeroTotals, acceptCommand, h.1]

/-- Settles O16: the body when ready; in `FAILED` it is not entered. -/
theorem clrTotalsZeroesTotals : Obligations.ClrTotalsZeroesTotals :=
  ⟨by decide, fun _ => ⟨exec_clrTotals_ready, exec_failed (by simp) (by simp) (by simp)⟩⟩

end Sys2Proof.Proofs.SystemCommands
end

section
/-! PROOF. The host's accesses: a write of `CMD` runs the decoded command (10_state.md R25), reads return the register
map (R22, R56), writes replace the read-write registers (45_system.md R224), and what has no effect (R56). -/

namespace Sys2Proof.Proofs.HostAccesses

open Sys2Proof Sys2Proof.Machine
open Sys2Proof.Proofs.FailedUnit (writeCmd_of_decode)
open Sys2Proof.Proofs.IllegalOperand (advance_inv)

/-! ### Writes of `CMD` -/

/-- With the host's write of `CMD` next, the step runs the command the word decodes to. -/
theorem step_of_decode {s : State} {w : Word} {i : Instr} {rest : List HostEvent} (hb : s.busy = false)
    (hh : s.host = .write 0 4 w :: rest) (hd : decode w = .instr i) : step s = exec i { s with host := rest } :=
  (step_writeCmd hb hh).trans (writeCmd_of_decode hd _)

theorem host_withFetchWord (s : State) (w : Word) : (s.withFetchWord 32 w.toNat).host = .write 0 4 w :: s.host := by
  simp [State.withFetchWord, Nat.mod_eq_of_lt w.isLt]

/-- Settles O4: fetch reads the access the step takes; `withFetchWord` puts one in front. -/
theorem stepRunsDecodedCommand : Obligations.StepRunsDecodedCommand := by
  intro s w i rest hb hh hd
  refine ⟨by simp [fetch, hb, hh], step_of_decode hb hh hd, ?_⟩
  exact step_of_decode (s := s.withFetchWord 32 w.toNat) hb (host_withFetchWord s w) hd

/-! ### Reads -/

/-- The value at an offset does not depend on what the host will ask next. -/
theorem readOffset_host (off : Nat) (s : State) (rest : List HostEvent) :
    readOffset off { s with host := rest } = readOffset off s := by
  unfold readOffset
  cases regAt off with
  | none => rfl
  | some r => cases r <;> rfl

/-- The map ends at 0x5F (R22). -/
theorem regAt_reserved {off : Nat} (h : 0x60 ≤ off) : regAt off = none := by
  have : registerMap.length ≤ off / 4 := by simp [registerMap]; omega
  exact List.getElem?_eq_none this

theorem readOffset_reserved {off : Nat} (h : 0x60 ≤ off) (s : State) : readOffset off s = 0 := by
  rw [readOffset, regAt_reserved h]

/-- A read with no command running hands over the value of its offset. -/
theorem step_read_value {s : State} {off : Nat} {rest : List HostEvent} (hb : s.busy = false) (ho : off < 256)
    (ha : off % 4 = 0) (hh : s.host = .read off 4 :: rest) :
    step s = .next { s with host := rest, hostReads := s.hostReads ++ [readOffset off s] } := by
  rw [step_read hb ho ha hh, readOffset_host]

/-- While a command runs, a read of `STATUS` is served beside it (70_reset_and_hazards.md R281). -/
theorem step_readStatus_busy {s : State} {rest : List HostEvent} (hb : s.busy = true)
    (hh : s.host = .read 4 4 :: rest) :
    step s = .next { s with host := rest, hostReads := s.hostReads ++ [statusWord s] } := by
  simp only [step, hb, if_true, busyStep, hh]
  rfl

/-! ### The fields of `STATUS` and `ERR` (R26, R30) -/

theorem statusWord_fields (s : State) :
    (statusWord s).getLsbD 0 = s.busy ∧ (statusWord s).extractLsb' 1 3 = 0 ∧
    (statusWord s).extractLsb' 4 4 = phaseNumber s.phase ∧ (statusWord s).getLsbD 8 = s.matched ∧
    (statusWord s).getLsbD 9 = s.warnC ∧ (statusWord s).getLsbD 10 = s.warnU ∧
    (statusWord s).getLsbD 11 = s.cmdRej ∧ (statusWord s).extractLsb' 12 20 = 0 := by
  have hall : ∀ (p : BitVec 4) (b m c u r : Bool),
      let w : Word := (0 : BitVec 20) ++ BitVec.ofBool r ++ BitVec.ofBool u ++ BitVec.ofBool c ++
        BitVec.ofBool m ++ p ++ (0 : BitVec 3) ++ BitVec.ofBool b
      w.getLsbD 0 = b ∧ w.extractLsb' 1 3 = 0 ∧ w.extractLsb' 4 4 = p ∧ w.getLsbD 8 = m ∧ w.getLsbD 9 = c ∧
        w.getLsbD 10 = u ∧ w.getLsbD 11 = r ∧ w.extractLsb' 12 20 = 0 := by decide
  exact hall (phaseNumber s.phase) s.busy s.matched s.warnC s.warnU s.cmdRej

theorem errWord_fields (s : State) :
    (errWord s).extractLsb' 0 4 = errNumber s.errCode ∧ (errWord s).extractLsb' 4 4 = phaseNumber s.errState ∧
    (errWord s).extractLsb' 8 24 = 0 := by
  have hall : ∀ p c : BitVec 4,
      let w : Word := (0 : BitVec 24) ++ p ++ c
      w.extractLsb' 0 4 = c ∧ w.extractLsb' 4 4 = p ∧ w.extractLsb' 8 24 = 0 := by decide
  exact hall (phaseNumber s.errState) (errNumber s.errCode)

/-- Settles O7: the value of an offset by the register map, the fields of the two packed registers, and the numbers
of R24 and R241. -/
theorem readsReturnTheRegisterMap : Obligations.ReadsReturnTheRegisterMap := by
  refine ⟨fun s off rest hb ho ha hh => ?map, fun s => ?fields, fun s rest => step_readStatus_busy, ?phases, ?errors⟩
  case map =>
    refine ⟨readOffset off s, step_read_value hb ho ha hh, ?_⟩
    refine ⟨?_, ?_, ?_, ?_, ?_, ?_, ?_, ?_, ?_, ?_, ?_, ?_, ?_, ?_, ?_, ?_, ?_, ?_, ?_, ?_, ?_, ?_, ?_, ?_,
      fun hres => readOffset_reserved hres s⟩
    all_goals
      rintro rfl
      rfl
  case fields =>
    obtain ⟨h0, h1, h4, h8, h9, h10, h11, h12⟩ := statusWord_fields s
    exact ⟨h0, h1, h4, h8, h9, h10, h11, h12, errWord_fields s⟩
  case phases => decide
  case errors => decide

/-! ### Writes -/

/-- Settles O8: the register at each of the seven offsets is written as it stands. -/
theorem writesReplaceRegisters : Obligations.WritesReplaceRegisters := by
  intro s off v rest hb hh
  refine ⟨?_, ?_, ?_, ?_, ?_, ?_, ?_⟩
  all_goals
    rintro rfl
    exact step_write hb (by decide) (by decide) hh

/-- The registers a write may change are at the nine offsets of R22 with access `RW` or `WO`. -/
theorem writeReg_readOnly : ∀ k < 24, 4 * k ∉ [0x00, 0x08, 0x0C, 0x38, 0x3C, 0x40, 0x44, 0x4C, 0x58] →
    ∀ r, registerMap[k]? = some r → r ∈ [Reg.status, .err, .errPosLo, .errPosHi, .blkCount, .blkRead, .blkWritten,
      .totReadLo, .totReadHi, .totWrittenLo, .totWrittenHi, .chkResult, .ulen, .clen, .diagCount] := by
  intro k hk
  interval_cases k <;> simp [registerMap]

theorem step_write_ignored {s : State} {off : Nat} {v : Word} {rest : List HostEvent} (hb : s.busy = false)
    (ho : off < 256) (ha : off % 4 = 0) (hh : s.host = .write off 4 v :: rest)
    (hro : off ∉ [0x00, 0x08, 0x0C, 0x38, 0x3C, 0x40, 0x44, 0x4C, 0x58]) :
    step s = .next { s with host := rest } := by
  rw [step_write hb ho ha hh]
  cases hreg : regAt off with
  | none => rfl
  | some r =>
    have hlt : off / 4 < 24 := (List.getElem?_eq_some_iff.mp hreg).1
    have hmem := writeReg_readOnly (off / 4) hlt (by rwa [Nat.mul_div_cancel' (Nat.dvd_of_mod_eq_zero ha)]) r hreg
    cases r with
    | cmd | cfg | blockSize | hdrUsize | hdrCsize | hdrUchk | hdrCchk | chkExpect | xferLen => simp at hmem
    | _ => rfl

/-- A command that goes on leaves the host's list and its reads as they are. -/
theorem advance_host {s t : State} (h : advance s = .next t) : t.host = s.host ∧ t.hostReads = s.hostReads := by
  rcases advance_inv h with ⟨d, rfl⟩ | rfl
  · exact ⟨(streamLoop_frame d _ s).host, (streamLoop_frame d _ s).hostReads⟩
  · exact ⟨rfl, rfl⟩

/-- Settles O9: with `BUSY = 0` by the register map; with `BUSY = 1` the access waits while the command goes on. -/
theorem accessRightsNeverTrap : Obligations.AccessRightsNeverTrap := by
  intro s off v rest ho ha
  refine ⟨fun hb hh hro => step_write_ignored hb ho ha hh hro, fun hb hh hoff => ?reads,
    fun hb hh hoff t hstep => ?readWaits, fun hb hh t hstep => ?writeWaits⟩
  case reads =>
    have hzero : readOffset off s = 0 := by
      rcases hoff with rfl | hres
      · rfl
      · exact readOffset_reserved hres s
    rw [step_read_value hb ho ha hh, hzero]
  case readWaits =>
    simp only [step, hb, if_true, busyStep, hh, hoff, false_and, if_false] at hstep
    exact advance_host hstep
  case writeWaits =>
    simp only [step, hb, if_true, busyStep, hh] at hstep
    exact advance_host hstep

end Sys2Proof.Proofs.HostAccesses
end

section
/-! PROOF. What a command leaves, said once for all 18: it completes, it ends in `FAILED` or it does not end
(45_system.md R220 to R223, 60_exceptions.md R250, 70_reset_and_hazards.md R288). -/

namespace Sys2Proof.Proofs.CommandEnds

open Sys2Proof Sys2Proof.Machine

/-! ### The three ways -/

/-- A command that began in `s` has completed (42_framing.md R159). -/
structure Completed (s t : State) : Prop where
  frame : Frame s t
  busy : t.busy = false
  phase : t.phase = .idle ∨ t.phase = .endOfStream
  activity : t.activity = s.activity ∨ t.activity = .none
  errCode : t.errCode = s.errCode
  errState : t.errState = s.errState
  errPos : t.errPos = s.errPos

/-- A command that began in `s` has ended in `FAILED` (60_exceptions.md R250). -/
structure EndedFailed (s t : State) : Prop where
  frame : Frame s t
  busy : t.busy = false
  phase : t.phase = .failed
  activity : t.activity = .none
  errCode : t.errCode ≠ .none
  errPos : t.errPos = t.totRead
  blkRead : t.blkRead = 0
  blkWritten : t.blkWritten = 0

/-- A command that began in `s` is still running: it hangs, or its loop goes on in the next step. -/
structure StillRunning (s t : State) : Prop where
  frame : Frame s t
  busy : t.busy = true
  phase : t.phase ≠ .failed ∧ t.phase ≠ .endOfStream
  activity : t.activity = .hung ∨ (∃ d, t.activity = .looping d) ∧ t.phase = .idle
  errCode : t.errCode = s.errCode
  errState : t.errState = s.errState
  errPos : t.errPos = s.errPos

/-- What a command that began in `s` leaves. -/
inductive CommandLeaves (s t : State) : Prop where
  | completed (h : Completed s t)
  | failed (h : EndedFailed s t)
  | running (h : StillRunning s t)

theorem CommandLeaves.frame {s t : State} : CommandLeaves s t → Frame s t
  | .completed h => h.frame
  | .failed h => h.frame
  | .running h => h.frame

theorem endedFailed_failureEntry {s u : State} {c : ErrCode} (h : Frame s u) (hc : c ≠ .none) :
    EndedFailed s (failureEntry c u) where
  frame := h.trans (frame_failureEntry c u)
  busy := rfl
  phase := rfl
  activity := rfl
  errCode := hc
  errPos := rfl
  blkRead := rfl
  blkWritten := rfl

theorem stillRunning_hang {s u : State} (h : Going s u) (hp : s.phase = .idle) :
    StillRunning s { u with busy := true, activity := .hung } where
  frame := h.frame.trans ((frame_busy true u).trans (frame_activity .hung _))
  busy := rfl
  phase := ⟨fun hf => by simp [h.phase hf] at hp, fun he => by simp [h.eos he] at hp⟩
  activity := .inl rfl
  errCode := h.errCode
  errState := h.errState
  errPos := h.errPos

/-- An early end of an accepted command is a failure or a hang. -/
theorem failed_or_running_of_ends {s t : State} (h : Ends s t) (hp : s.phase = .idle) :
    EndedFailed s t ∨ StillRunning s t := by
  obtain ⟨u, hu, ⟨c, hc, -, -, rfl⟩ | rfl⟩ := h
  · exact .inl (endedFailed_failureEntry hu.frame hc)
  · exact .inr (stillRunning_hang hu hp)

theorem completed_finishIdle {s u : State} (h : Going s u) : Completed s (finishIdle u) where
  frame := h.frame.trans (frame_finishIdle u)
  busy := rfl
  phase := .inl rfl
  activity := .inl h.activity
  errCode := h.errCode
  errState := h.errState
  errPos := h.errPos

theorem completed_complete {s u : State} (h : Going s u) (rd wr k : Nat) :
    Completed s (complete rd wr k (setPhase .idle u)) where
  frame := (h.frame.trans (frame_setPhase .idle u)).trans (frame_complete rd wr k _)
  busy := rfl
  phase := .inl rfl
  activity := .inl h.activity
  errCode := h.errCode
  errState := h.errState
  errPos := h.errPos

theorem completed_finishEos {s u : State} (h : Going s u) : Completed s (finishEos u) where
  frame := h.frame.trans (frame_finishEos u)
  busy := rfl
  phase := .inr rfl
  activity := .inl h.activity
  errCode := h.errCode
  errState := h.errState
  errPos := h.errPos

/-! ### The bodies of the commands other than the stream commands -/

/-- How a body ends early: as any step inside a command may, or at once by `ILLEGAL_OPERAND` (R251). -/
def BodyEnds (s t : State) : Prop := Ends s t ∨ t = failureEntry .illegalOperand s

theorem BodyEnds.failed_or_running {s t : State} (h : BodyEnds s t) (hp : s.phase = .idle) :
    EndedFailed s t ∨ StillRunning s t := by
  rcases h with h | rfl
  · exact failed_or_running_of_ends h hp
  · exact .inl (endedFailed_failureEntry (.refl s) (by simp))

/-- A command that ends early has not moved the totals. -/
theorem BodyEnds.totals {s t : State} (h : BodyEnds s t) :
    t.totRead = s.totRead ∧ t.totWritten = s.totWritten ∧ t.blkCount = s.blkCount := by
  rcases h with ⟨u, hu, ⟨c, -, -, -, rfl⟩ | rfl⟩ | rfl
  · exact ⟨hu.totRead, hu.totWritten, hu.blkCount⟩
  · exact ⟨hu.totRead, hu.totWritten, hu.blkCount⟩
  · exact ⟨rfl, rfl, rfl⟩

/-- What a body does: it completes the command or ends it early. -/
abbrev BodyHolds (body : State → Micro Unit) : Prop :=
  ∀ s, (body s).Holds (fun _ t => Completed s t) (BodyEnds s)

theorem going_setBuffer {b : BufSel} {v : Bytes} {s : State} (hv : v.length ≤ capacity b s.platform) :
    Going s (setBuffer b v s) := by
  cases b
  all_goals
    simp only [capacity] at hv
    constructor <;> simp [hv]

/-- A body that is one quiet step and then the bare completion. -/
theorem bodyHolds_finishIdle {op : State → Micro Unit} {P : State → Unit → State → Prop}
    (hop : ∀ s, (op s).Holds (fun a t => Quiet s t ∧ P s a t) (Ends s)) :
    BodyHolds fun s => (op s).andThen fun _ s => .ok () (finishIdle s) := fun s =>
  ((hop s).mono (fun _ _ h => h) fun _ h => .inl h).andThen fun _ _ h => completed_finishIdle h.1.1

theorem bodyHolds_bufLoad (b : BufSel) : BodyHolds fun s =>
    if s.xferLen.toNat > capacity b s.platform then raise .illegalOperand s
    else (inRead s.xferLen.toNat s).andThen fun v s =>
      .ok () (complete v.length 0 0 (setPhase .idle (setBuffer b v s))) := by
  intro s
  dsimp only
  split
  · exact .inr rfl
  · rename_i hcap
    refine ((inRead_holds s.xferLen.toNat s).mono (fun _ _ h => h) fun _ h => .inl h).andThen ?_
    rintro v t ⟨hq, rfl, -⟩
    have hle := nextInput_length_le s.xferLen.toNat s
    exact completed_complete (hq.1.trans (going_setBuffer (by rw [hq.1.platform]; omega))) _ _ _

theorem bodyHolds_bufStore (b : BufSel) : BodyHolds fun s =>
    (outWrite (buffer b s) s).andThen fun _ s =>
      .ok () (complete 0 (buffer b s).length 0 (setPhase .idle s)) := fun s =>
  ((outWrite_holds (buffer b s) s).mono (fun _ _ h => h) fun _ h => .inl h).andThen
    fun _ _ h => completed_complete h.1 0 _ 0

theorem bodyHolds_lzoDecomp : BodyHolds fun s =>
    if s.hdrUsize.toNat > s.platform.maxBlockSize then raise .illegalOperand s
    else (doDecompress s.hdrUsize.toNat s).andThen fun _ s => .ok () (finishIdle s) := by
  intro s
  dsimp only
  split
  · exact .inr rfl
  · rename_i hcap
    exact ((doDecompress_holds _ s (by omega)).mono (fun _ _ h => h) fun _ h => .inl h).andThen
      fun _ _ h => completed_finishIdle h.1.1

theorem bodyHolds_recEmit : BodyHolds fun s =>
    if s.hdrCsize ≠ clen s then raise .illegalOperand s
    else (emitRecord s).andThen fun _ s =>
      .ok () (complete 0 (headerLen s.cfg + s.cbuf.length) 0 (setPhase .idle s)) := by
  intro s
  dsimp only
  split
  · exact .inr rfl
  · exact ((outWrite_holds _ s).mono (fun _ _ h => h) fun _ h => .inl h).andThen
      fun _ _ h => completed_complete h.1 0 _ 0

theorem bodyHolds_recParse : BodyHolds recParseBody := by
  intro s
  refine Micro.Holds.mono ?_ (fun _ _ h => h) fun _ h => .inl h
  refine (parseHeader_holds s).andThen_quiet ?_
  rintro a t hq (⟨rfl, -, -⟩ | ⟨rfl, -, -, -, -, hc, -⟩)
  · exact completed_finishEos hq.1
  · refine (readPayload_holds t (by rwa [hq.1.platform])).andThen_quiet ?_
    rintro - u hr -
    exact completed_complete (hq.trans hr).1 _ 0 0

theorem bodyHolds_turn (d : Direction) : BodyHolds (turnBody d) := fun s => by
  refine (turnBody_holds d s).mono ?_ fun _ h => .inl h
  rintro - t (rfl | ⟨u, hu, -, -, -, -, rfl⟩)
  · exact completed_finishEos (going_ioTaken s)
  · exact completed_complete hu _ _ 1

theorem bodyHolds_chkCompute (b : BufSel) : BodyHolds fun s =>
    .ok () (finishIdle (setChkResult (checksum (algOf s.cfg) (buffer b s)) s)) :=
  fun s => completed_finishIdle (quiet_setChkResult _ s).1

theorem bodyHolds_chkVerify (b : BufSel) : BodyHolds fun s => .ok () (finishIdle (setMatch
    (checksum (algOf s.cfg) (buffer b s)) (setChkResult (checksum (algOf s.cfg) (buffer b s)) s))) := fun s => by
  show Completed s _
  exact
    { frame := ((frame_setChkResult _ s).trans (frame_setMatch _ _)).trans (frame_finishIdle _)
      busy := rfl, phase := .inl rfl, activity := .inl rfl, errCode := rfl, errState := rfl, errPos := rfl }

theorem bodyHolds_clrTotals : BodyHolds fun s => .ok () (finishIdle (zeroTotals s)) := fun s => by
  show Completed s _
  exact
    { frame := (frame_zeroTotals s).trans (frame_finishIdle _)
      busy := rfl, phase := .inl rfl, activity := .inl rfl, errCode := rfl, errState := rfl, errPos := rfl }

/-- The three commands that execute in `FAILED` too, with their effects (45_system.md R222). -/
inductive SystemEffect : Instr → (State → State) → Prop where
  | nop : SystemEffect .nop fun s => s
  | clrErr : SystemEffect .clrErr clearError
  | softReset : SystemEffect .softReset resetRegisters

/-- The three kinds of command. -/
theorem instr_kinds (i : Instr) :
    (∃ effect, SystemEffect i effect ∧ ∀ s, exec i s = runAlways effect s) ∨
      (∃ d, i = streamInstr d) ∨
      ((i ≠ .compressStream ∧ i ≠ .decompressStream) ∧
        ∃ body, BodyHolds body ∧ ∀ s, exec i s = runCommand body s) := by
  cases i with
  | nop => exact .inl ⟨_, .nop, exec_nop_eq⟩
  | clrErr => exact .inl ⟨_, .clrErr, exec_clrErr_eq⟩
  | softReset => exact .inl ⟨_, .softReset, exec_softReset_eq⟩
  | compressStream => exact .inr (.inl ⟨.compress, rfl⟩)
  | decompressStream => exact .inr (.inl ⟨.decompress, rfl⟩)
  | chkCompute b => exact .inr (.inr ⟨by simp, _, bodyHolds_chkCompute b, exec_chkCompute_eq b⟩)
  | chkVerify b => exact .inr (.inr ⟨by simp, _, bodyHolds_chkVerify b, exec_chkVerify_eq b⟩)
  | filtFwd => exact .inr (.inr ⟨by simp, _, bodyHolds_finishIdle applyFwd_holds, exec_filtFwd_eq⟩)
  | filtInv => exact .inr (.inr ⟨by simp, _, bodyHolds_finishIdle applyInv_holds, exec_filtInv_eq⟩)
  | bufLoad b => exact .inr (.inr ⟨by simp, _, bodyHolds_bufLoad b, exec_bufLoad_eq b⟩)
  | bufStore b => exact .inr (.inr ⟨by simp, _, bodyHolds_bufStore b, exec_bufStore_eq b⟩)
  | lzoComp => exact .inr (.inr ⟨by simp, _, bodyHolds_finishIdle doCompress_holds, exec_lzoComp_eq⟩)
  | lzoDecomp => exact .inr (.inr ⟨by simp, _, bodyHolds_lzoDecomp, exec_lzoDecomp_eq⟩)
  | recEmit => exact .inr (.inr ⟨by simp, _, bodyHolds_recEmit, exec_recEmit_eq⟩)
  | recParse => exact .inr (.inr ⟨by simp, _, bodyHolds_recParse, exec_recParse_eq⟩)
  | compressBlock => exact .inr (.inr ⟨by simp, _, bodyHolds_turn .compress, exec_compressBlock_eq⟩)
  | decompressBlock => exact .inr (.inr ⟨by simp, _, bodyHolds_turn .decompress, exec_decompressBlock_eq⟩)
  | clrTotals => exact .inr (.inr ⟨by simp, _, bodyHolds_clrTotals, exec_clrTotals_eq⟩)

/-! ### The stream loop -/

/-- What acceptance and the turns of a loop keep of the state `b` a command began in. -/
structure Started (b s : State) : Prop where
  frame : Frame b s
  errCode : s.errCode = b.errCode
  errState : s.errState = b.errState
  errPos : s.errPos = b.errPos

theorem started_acceptCommand (s : State) : Started s (acceptCommand s) := ⟨frame_acceptCommand s, rfl, rfl, rfl⟩

theorem Started.completed {b s t : State} (h : Started b s) (k : Completed s t)
    (ha : t.activity = b.activity ∨ t.activity = .none) : Completed b t :=
  { k with
    frame := h.frame.trans k.frame, activity := ha, errCode := k.errCode.trans h.errCode
    errState := k.errState.trans h.errState, errPos := k.errPos.trans h.errPos }

theorem Started.failed {b s t : State} (h : Started b s) (k : EndedFailed s t) : EndedFailed b t :=
  { k with frame := h.frame.trans k.frame }

theorem Started.running {b s t : State} (h : Started b s) (k : StillRunning s t) : StillRunning b t :=
  { k with
    frame := h.frame.trans k.frame, errCode := k.errCode.trans h.errCode
    errState := k.errState.trans h.errState, errPos := k.errPos.trans h.errPos }

theorem Started.turnDone {b s u : State} (h : Started b s) (d : Direction) (hu : Going s u) :
    Started b (turnDone d s u) :=
  ⟨h.frame.trans (frame_turnDone hu), hu.errCode.trans h.errCode, hu.errState.trans h.errState,
    hu.errPos.trans h.errPos⟩

/-- The loop of a stream command that began in `b` leaves what a command leaves. -/
theorem streamLoop_leaves (d : Direction) (k : Nat) {b s : State} (h : Started b s) (hb : s.busy = true)
    (hp : s.phase = .idle) (ha : s.activity = .looping d) : CommandLeaves b (streamLoop d k s) := by
  induction k generalizing s with
  | zero =>
    exact .running ⟨h.frame, hb, by simp [streamLoop, hp], .inr ⟨⟨d, ha⟩, hp⟩, h.errCode, h.errState, h.errPos⟩
  | succ k ih =>
    rcases streamLoop_succ d k s with ⟨hends, -⟩ | ⟨-, heos⟩ | ⟨u, hu, -, -, -, -, -, hnext⟩
    · exact (failed_or_running_of_ends hends hp).elim (fun k => .failed (h.failed k)) fun k => .running (h.running k)
    · rw [heos]
      have hc := completed_finishEos (going_ioTaken s)
      exact .completed (h.completed { hc with
        frame := hc.frame.trans (frame_activity .none _), activity := .inr rfl } (.inr rfl))
    · rw [hnext]
      exact ih (h.turnDone d hu) rfl rfl (hu.activity.trans ha)

/-! ### Commands -/

theorem exec_streamInstr_eq (d : Direction) (s : State) :
    exec (streamInstr d) s = runCommand (fun s => .ok () (streamCommand d s)) s := by
  cases d <;> rfl

/-- The totals are as they were. -/
abbrev SameTotals (s t : State) : Prop :=
  t.totRead = s.totRead ∧ t.totWritten = s.totWritten ∧ t.blkCount = s.blkCount

/-- All that a command can do: the three system commands have their effect, any other is dropped in `FAILED`, and an
accepted one leaves what `CommandLeaves` says. -/
theorem exec_inv {i : Instr} {s t : State} (h : exec i s = .next t) :
    (∃ effect, SystemEffect i effect ∧ (Ready s ∨ Failed s) ∧ t = effect s) ∨ (Failed s ∧ t = dropCommand s) ∨
      (Ready s ∧ CommandLeaves s t ∧
        (i ≠ .compressStream ∧ i ≠ .decompressStream → t.phase = .failed → SameTotals s t)) := by
  rcases instr_kinds i with ⟨effect, heffect, heq⟩ | ⟨d, rfl⟩ | ⟨-, body, hbody, heq⟩
  · rw [heq] at h
    exact .inl ⟨effect, heffect, runAlways_inv h⟩
  · rw [exec_streamInstr_eq] at h
    rcases runCommand_inv h with ⟨hr, rfl⟩ | hf
    · refine .inr (.inr ⟨hr, ?_, fun hne => by cases d <;> simp [streamInstr] at hne⟩)
      have hstart : Started s { zeroTotals (acceptCommand s) with activity := .looping d } :=
        ⟨((frame_acceptCommand s).trans (frame_zeroTotals _)).trans (frame_activity _ _), rfl, rfl, rfl⟩
      exact streamLoop_leaves d _ hstart rfl rfl rfl
    · exact .inr (.inl hf)
  · rw [heq] at h
    rcases runCommand_inv h with ⟨hr, ht⟩ | hf
    · refine .inr (.inr ⟨hr, ?_⟩)
      have hstart := started_acceptCommand s
      have hb := hbody (acceptCommand s)
      cases hm : body (acceptCommand s) with
      | ok _ u =>
        rw [hm] at hb ht
        have hc : Completed (acceptCommand s) t := ht ▸ hb
        refine ⟨.completed (hstart.completed hc hc.activity), fun _ hfailed => ?_⟩
        rcases hc.phase with hp | hp <;> simp [hp] at hfailed
      | ended u =>
        rw [hm] at hb ht
        have he : BodyEnds (acceptCommand s) t := ht ▸ hb
        refine ⟨?_, fun _ _ => he.totals⟩
        exact (he.failed_or_running rfl).elim (fun k => .failed (hstart.failed k))
          fun k => .running (hstart.running k)
    · exact .inr (.inl hf)

end Sys2Proof.Proofs.CommandEnds
end

section
/-! PROOF. What a step does, said once, and the rules of the whole machine: the invariant (42_framing.md R146,
45_system.md R220, 60_exceptions.md R250, R259), the direction of the streams (10_state.md R45 to R47) and the registers
that are the host's alone (30_encoding.md R95). -/

namespace Sys2Proof.Proofs.WholeMachine

open Sys2Proof Sys2Proof.Machine
open Sys2Proof.Proofs.UndefinedAccess (step_hostAction)
open Sys2Proof.Proofs.IllegalWords (writeCfg_of_cfgOfWord)
open Sys2Proof.Proofs.IllegalOperand (busyStep_cases)
open Sys2Proof.Proofs.FirstFailure (checkAccess_inv)
open Sys2Proof.Proofs.CommandEnds

/-! ### What a step does -/

/-- Only what the host may write or read has changed, and the flag `CMD_REJ`. -/
structure HostOnly (s t : State) : Prop where
  busy : t.busy = s.busy
  phase : t.phase = s.phase
  activity : t.activity = s.activity
  errCode : t.errCode = s.errCode
  errState : t.errState = s.errState
  errPos : t.errPos = s.errPos
  blkRead : t.blkRead = s.blkRead
  blkWritten : t.blkWritten = s.blkWritten
  ubuf : t.ubuf = s.ubuf
  cbuf : t.cbuf = s.cbuf
  platform : t.platform = s.platform
  input : t.input = s.input
  inputEndless : t.inputEndless = s.inputEndless
  ipos : t.ipos = s.ipos
  out : t.out = s.out
  diag : t.diag = s.diag

theorem HostOnly.refl (s : State) : HostOnly s s := by constructor <;> rfl

/-- All that a step does, from the state in which the host's action has been taken off its list. -/
inductive StepDoes (s t : State) : Prop where
  | command (i : Instr) (h : exec i s = .next t)
  | failure (c : ErrCode) (hc : c ≠ .none) (hr : Ready s) (h : t = failureEntry c s)
  | reset (h : t = resetRegisters s)
  | host (h : HostOnly s t)
  | turns (d : Direction) (hb : s.busy = true) (ha : s.activity = .looping d)
      (h : t = streamLoop d (streamFuel s) s)

theorem writeCmd_does {s t : State} {w : Word} (h : writeCmd w s = .next t) : StepDoes s t := by
  unfold writeCmd at h
  split at h
  · exact .command _ h
  · rcases condition_cases s with ⟨hc, hr⟩ | ⟨hc, -⟩ | ⟨hc, -, -⟩
    all_goals
      simp only [illegalCommand, hc] at h
      cases h
    · exact .failure .illegalCmd (by simp) hr rfl
    · exact .host (by constructor <;> rfl)

theorem writeCfg_does (w : Word) (s : State) : StepDoes s (writeCfg w s) := by
  cases hc : cfgOfWord w with
  | some c =>
    rw [writeCfg_of_cfgOfWord hc]
    exact .host (by constructor <;> rfl)
  | none =>
    rcases condition_cases s with ⟨hs, hr⟩ | ⟨hs, -⟩ | ⟨hs, -, -⟩
    all_goals simp only [writeCfg, hc, hs]
    · exact .failure .illegalCfg (by simp) hr rfl
    · exact .host (.refl s)
    · exact .host (.refl s)

theorem writeReg_does {r : Reg} {v : Word} {s t : State} (h : writeReg r v s = .next t) : StepDoes s t := by
  cases r with
  | cmd => exact writeCmd_does h
  | cfg =>
    cases h
    exact writeCfg_does v s
  | _ =>
    cases h
    exact .host (by constructor <;> rfl)

theorem hostAction_does {e : HostEvent} {s t : State} (h : hostAction e s = .next t) : StepDoes s t := by
  cases e with
  | read off size =>
    obtain ⟨-, -, h⟩ := checkAccess_inv h
    cases h
    exact .host (by constructor <;> rfl)
  | write off size v =>
    obtain ⟨-, -, h⟩ := checkAccess_inv h
    cases hreg : regAt off with
    | some r =>
      rw [hreg] at h
      exact writeReg_does h
    | none =>
      rw [hreg] at h
      cases h
      exact .host (.refl s)
  | wait =>
    cases h
    exact .host (.refl s)
  | reset =>
    cases h
    exact .reset rfl

theorem advance_does {s t : State} (hb : s.busy = true) (h : advance s = .next t) : StepDoes s t := by
  unfold advance at h
  split at h
  · rename_i d ha
    cases h
    exact .turns d hb ha rfl
  · cases h
    exact .host (.refl s)
  · cases h

/-- A step takes at most the host's next action off its list, and then does one thing. -/
theorem step_does {s t : State} (h : step s = .next t) : ∃ rest, StepDoes { s with host := rest } t := by
  by_cases hb : s.busy = true
  · rw [step, if_pos hb] at h
    rcases busyStep_cases s with ⟨rest, he⟩ | ⟨rest, he⟩ | ⟨rest, he⟩ <;> rw [he] at h
    · cases h
      exact ⟨rest, .reset rfl⟩
    · cases h
      exact ⟨rest, .host (by constructor <;> rfl)⟩
    · exact ⟨rest, advance_does hb h⟩
  · rw [Bool.not_eq_true] at hb
    cases hh : s.host with
    | nil =>
      have hwaits : step s = .next s := by simp [step, hb, idleStep, hh]
      rw [hwaits] at h
      cases h
      exact ⟨s.host, .host (.refl s)⟩
    | cons e rest =>
      rw [step_hostAction hb hh] at h
      exact ⟨rest, hostAction_does h⟩

/-! ### The invariant -/

/-- Settles O53: the buffers are empty, no command runs and there is no error. -/
theorem resetMeetsInvariant : Obligations.ResetMeetsInvariant :=
  ⟨reset_wf, by simp [BusyIsRunning, State.reset], by simp [ErrIsFailure, State.reset]⟩

theorem resetRegisters_invariant (s : State) : Invariant (resetRegisters s) :=
  ⟨resetRegisters_wf s, by simp [BusyIsRunning], by simp [ErrIsFailure]⟩

/-- A unit that has recorded no error. -/
structure NoError (s : State) : Prop where
  code : s.errCode = .none
  state : s.errState = .idle
  pos : s.errPos = 0

theorem noError_of_invariant {s : State} (h : Invariant s) (hp : s.phase ≠ .failed) : NoError s := by
  obtain ⟨-, -, hiff, hclear, -⟩ := h
  have hcode : s.errCode = .none := by
    by_contra hne
    exact hp (hiff.mpr hne)
  exact ⟨hcode, (hclear hcode).1, (hclear hcode).2⟩

theorem errIsFailure_of_noError {s : State} (h : NoError s) (hp : s.phase ≠ .failed) : ErrIsFailure s :=
  ⟨by simp [hp, h.code], fun _ => ⟨h.state, h.pos⟩, fun hf => absurd hf hp⟩

/-- A failure entry meets the invariant, whatever led to it. -/
theorem endedFailed_invariant {s t : State} (h : EndedFailed s t) (hw : Memory.wf s) : Invariant t :=
  ⟨h.frame.wf hw, by simp [BusyIsRunning, h.busy, h.phase, h.activity],
    ⟨by simp [h.phase, h.errCode], fun he => absurd he h.errCode, fun _ => ⟨h.blkRead, h.blkWritten⟩⟩⟩

/-- What a command leaves meets the invariant when it began within the capacities, without an error, and with no
command in progress before it. -/
theorem commandLeaves_invariant {s t : State} (h : CommandLeaves s t) (hw : Memory.wf s) (he : NoError s)
    (ha : s.activity = .none) : Invariant t := by
  rcases h with h | h | h
  · have hp : t.phase ≠ .failed := by rcases h.phase with hp | hp <;> simp [hp]
    have hact : t.activity = .none := h.activity.elim (fun k => k.trans ha) id
    refine ⟨h.frame.wf hw, ⟨fun _ => ⟨hact, ?_⟩, by simp [h.busy], by simp [hact]⟩, ?_⟩
    · exact h.phase.imp id .inl
    · exact errIsFailure_of_noError ⟨h.errCode.trans he.code, h.errState.trans he.state, h.errPos.trans he.pos⟩ hp
  · exact endedFailed_invariant h hw
  · refine ⟨h.frame.wf hw, ⟨by simp [h.busy], fun _ => ⟨?_, h.phase.1⟩, fun hl => ?_⟩, ?_⟩
    · rcases h.activity with hh | ⟨⟨d, hd⟩, -⟩ <;> simp [*]
    · rcases h.activity with hh | ⟨-, hp⟩
      · simp [hh] at hl
      · exact hp
    · exact errIsFailure_of_noError ⟨h.errCode.trans he.code, h.errState.trans he.state, h.errPos.trans he.pos⟩
        h.phase.1

theorem clearError_invariant {s : State} (h : Invariant s) (hb : s.busy = false) : Invariant (clearError s) := by
  obtain ⟨hw, ⟨hidle, -, -⟩, -⟩ := h
  exact ⟨hw, by simp [BusyIsRunning, (hidle hb).1], by simp [ErrIsFailure]⟩

theorem HostOnly.invariant {s t : State} (h : HostOnly s t) (hi : Invariant s) : Invariant t := by
  unfold Invariant Memory.wf BusyIsRunning ErrIsFailure
  rw [h.busy, h.phase, h.activity, h.errCode, h.errState, h.errPos, h.blkRead, h.blkWritten, h.ubuf, h.cbuf,
    h.platform]
  exact hi

/-- Every command keeps the invariant. -/
theorem exec_invariant {i : Instr} {s t : State} (hi : Invariant s) (h : exec i s = .next t) : Invariant t := by
  rcases exec_inv h with ⟨effect, heffect, hrest, rfl⟩ | ⟨-, rfl⟩ | ⟨hr, hleaves, -⟩
  · cases heffect with
    | nop => exact hi
    | clrErr => exact clearError_invariant hi (hrest.elim And.left And.left)
    | softReset => exact resetRegisters_invariant s
  · exact HostOnly.invariant (s := s) (by constructor <;> rfl) hi
  · have hp : s.phase ≠ .failed := by rcases hr.2 with hp | hp <;> simp [hp]
    exact commandLeaves_invariant hleaves hi.1 (noError_of_invariant hi hp) (hi.2.1.1 hr.1).1

/-- The next turns of a running stream command keep it. -/
theorem turns_invariant {s : State} {d : Direction} (hi : Invariant s) (hb : s.busy = true)
    (ha : s.activity = .looping d) : Invariant (streamLoop d (streamFuel s) s) := by
  obtain ⟨hw, ⟨-, hrun, hloop⟩, -⟩ := id hi
  have hp : s.phase = .idle := hloop (by cases d <;> simp [ha])
  have he := noError_of_invariant hi (by simp [hp])
  have hstart : Started { s with activity := .none } s :=
    ⟨frame_activity s.activity { s with activity := .none }, rfl, rfl, rfl⟩
  exact commandLeaves_invariant (streamLoop_leaves d _ hstart hb hp ha) hw ⟨he.code, he.state, he.pos⟩ rfl

/-- Settles O54: each thing a step does keeps the invariant. -/
theorem everyStepKeepsInvariant : Obligations.EveryStepKeepsInvariant := by
  intro s t hi hstep
  obtain ⟨rest, hdoes⟩ := step_does hstep
  have hi' : Invariant { s with host := rest } := hi
  cases hdoes with
  | command i h => exact exec_invariant hi' h
  | failure c hc hr h => exact h ▸ endedFailed_invariant (endedFailed_failureEntry (.refl _) hc) hi'.1
  | reset h => exact h ▸ resetRegisters_invariant _
  | host h => exact h.invariant hi'
  | turns d hb ha h => exact h ▸ turns_invariant hi' hb ha

theorem exec_answers {i : Instr} {s : State} (h : Ready s ∨ Failed s) : ∃ t, exec i s = .next t := by
  have run : ∀ body, ∃ t, runCommand body s = .next t := fun body =>
    h.elim (fun hr => ⟨_, runCommand_ready body hr⟩) fun hf => ⟨_, runCommand_failed body hf⟩
  rcases instr_kinds i with ⟨effect, -, heq⟩ | ⟨d, rfl⟩ | ⟨-, body, -, heq⟩
  · exact ⟨effect s, (heq s).trans (Proofs.LeavingFailed.runAlways_resting effect h)⟩
  · rw [exec_streamInstr_eq]
    exact run _
  · rw [heq]
    exact run body

/-- Settles O55: with `BUSY = 0` the invariant leaves only the two resting conditions (R220). -/
theorem everyCommandIsTaken : Obligations.EveryCommandIsTaken := by
  intro s i hi hb
  have hresting : Ready s ∨ Failed s := by
    rcases (hi.2.1.1 hb).2 with hp | hp | hp
    · exact .inl ⟨hb, .inl hp⟩
    · exact .inl ⟨hb, .inr hp⟩
    · exact .inr ⟨hb, hp⟩
  obtain ⟨t, ht⟩ := exec_answers (i := i) hresting
  exact ⟨t, ht, exec_invariant hi ht⟩

/-! ### The streams -/

theorem streamsGrow_of_frame {s t : State} (h : Frame s t) : StreamsGrow s t :=
  ⟨h.platform, h.input, h.inputEndless, h.ipos, h.out, h.diag⟩

theorem HostOnly.streamsGrow {s t : State} (h : HostOnly s t) : StreamsGrow s t :=
  ⟨h.platform, h.input, h.inputEndless, h.ipos.ge, by rw [h.out], by rw [h.diag]⟩

theorem resetRegisters_streamsGrow (s : State) : StreamsGrow s (resetRegisters s) := by
  simp [StreamsGrow]

/-- Every command but `SOFT_RESET` keeps the frame of commands. -/
theorem exec_frame {i : Instr} {s t : State} (hi : i ≠ .softReset) (h : exec i s = .next t) : Frame s t := by
  rcases exec_inv h with ⟨effect, heffect, -, rfl⟩ | ⟨-, rfl⟩ | ⟨-, hleaves, -⟩
  · cases heffect with
    | nop => exact .refl s
    | clrErr => exact frame_clearError s
    | softReset => exact absurd rfl hi
  · exact frame_dropCommand s
  · exact hleaves.frame

theorem exec_streamsGrow {i : Instr} {s t : State} (h : exec i s = .next t) : StreamsGrow s t := by
  by_cases hi : i = .softReset
  · subst hi
    obtain ⟨-, ht⟩ := runAlways_inv ((exec_softReset_eq s).symm.trans h)
    exact ht ▸ resetRegisters_streamsGrow s
  · exact streamsGrow_of_frame (exec_frame hi h)

/-- Settles O56: each thing a step does moves the streams forward only. -/
theorem streamsOnlyGrow : Obligations.StreamsOnlyGrow := by
  intro s t hstep
  obtain ⟨rest, hdoes⟩ := step_does hstep
  suffices h : StreamsGrow { s with host := rest } t from h
  cases hdoes with
  | command i h => exact exec_streamsGrow h
  | failure c hc hr h => exact h ▸ streamsGrow_of_frame (frame_failureEntry c _)
  | reset h => exact h ▸ resetRegisters_streamsGrow _
  | host h => exact h.streamsGrow
  | turns d hb ha h => exact h ▸ streamsGrow_of_frame (streamLoop_frame d _ _)

/-! ### The registers that only the host writes -/

theorem advance_frame {s t : State} (h : advance s = .next t) : Frame s t := by
  rcases Proofs.IllegalOperand.advance_inv h with ⟨d, rfl⟩ | rfl
  · exact streamLoop_frame d _ s
  · exact .refl _

/-- The registers of R95, and the checksum registers of the header with `CHK_EN = 0`. -/
abbrev SameHostRegisters (s t : State) : Prop :=
  t.cfg = s.cfg ∧ t.blockSize = s.blockSize ∧ t.chkExpect = s.chkExpect ∧ t.xferLen = s.xferLen ∧
    (s.cfg.chkEn = false → t.hdrUchk = s.hdrUchk ∧ t.hdrCchk = s.hdrCchk)

theorem sameHostRegisters_of_frame {s t : State} (h : Frame s t) : SameHostRegisters s t :=
  ⟨h.cfg, h.blockSize, h.chkExpect, h.xferLen, fun hen => ⟨h.hdrUchk hen, h.hdrCchk hen⟩⟩

theorem busyStep_sameHostRegisters {s t : State} (hreset : ∀ rest, s.host ≠ .reset :: rest)
    (h : busyStep s = .next t) : SameHostRegisters s t := by
  unfold busyStep at h
  split at h
  · rename_i rest hh
    exact absurd hh (hreset rest)
  · rename_i rest _
    exact sameHostRegisters_of_frame (s := { s with host := rest }) (advance_frame h)
  · split at h
    · cases h
      exact ⟨rfl, rfl, rfl, rfl, fun _ => ⟨rfl, rfl⟩⟩
    · exact sameHostRegisters_of_frame (advance_frame h)
  · exact sameHostRegisters_of_frame (advance_frame h)
  · exact sameHostRegisters_of_frame (advance_frame h)

/-- Settles O60: the frame of commands, and of the steps that go on with one. -/
theorem commandsLeaveHostRegisters : Obligations.CommandsLeaveHostRegisters := by
  rintro s t i (⟨hi, hexec⟩ | ⟨hb, hreset, hstep⟩)
  · exact sameHostRegisters_of_frame (exec_frame hi hexec)
  · rw [step, if_pos hb] at hstep
    exact busyStep_sameHostRegisters hreset hstep

end Sys2Proof.Proofs.WholeMachine
end

section
/-! PROOF. The laws of the two checksums: the table form of CRC-32 (40_checksum.md R114), the closed forms of Adler-32
(R118), and that each sees the change of one byte (R115, R119). -/

namespace Sys2Proof.Proofs.ChecksumLaws

open Sys2Proof Sys2Proof.Machine
open Sys2Proof.Proofs.ChecksumCommands (crc32_nil adler32_nil)

/-! ### CRC-32 -/

theorem crcShift_of_even {r : Word} (h : r.getLsbD 0 = false) : crcShift r = r >>> 1 :=
  if_neg (Bool.eq_false_iff.mp h)

theorem xor_xor_cancel (a b p : Word) : (a ^^^ p) ^^^ (b ^^^ p) = a ^^^ b := by
  rw [BitVec.xor_assoc, BitVec.xor_comm b p, ← BitVec.xor_assoc p p b, BitVec.xor_self, BitVec.zero_xor]

/-- One inner iteration is linear over exclusive or. -/
theorem crcShift_xor (a b : Word) : crcShift (a ^^^ b) = crcShift a ^^^ crcShift b := by
  unfold crcShift
  rw [BitVec.getLsbD_xor, BitVec.ushiftRight_xor_distrib]
  cases a.getLsbD 0 <;> cases b.getLsbD 0 <;> simp
  · ac_rfl
  · ac_rfl
  · exact (xor_xor_cancel _ _ _).symm

theorem crcShift8_xor (a b : Word) : crcShift8 (a ^^^ b) = crcShift8 a ^^^ crcShift8 b := by
  simp only [crcShift8, crcShift_xor]

/-- With its low byte 0, a word is only shifted: no iteration meets a bit 1. -/
theorem crcShift8_of_lowByte_zero {r : Word} (h : ∀ i < 8, r.getLsbD i = false) : crcShift8 r = r >>> 8 := by
  have shift (k : Nat) (hk : k < 8) : crcShift (r >>> k) = r >>> (k + 1) := by
    rw [crcShift_of_even (by simpa using h k hk), BitVec.shiftRight_add]
  have h0 : crcShift r = r >>> 1 := crcShift_of_even (h 0 (by omega))
  simp only [crcShift8, h0, shift 1 (by omega), shift 2 (by omega), shift 3 (by omega), shift 4 (by omega),
    shift 5 (by omega), shift 6 (by omega), shift 7 (by omega)]

theorem split_lowByte (y : Word) : y = (y >>> 8) <<< 8 ^^^ (y.extractLsb' 0 8).zeroExtend 32 := by
  ext i hi
  by_cases h8 : i < 8
  · simp [h8, hi]
  · simp [h8, hi, show 8 + (i - 8) = i by omega]

/-- The 8 iterations on a word: its upper bytes shifted, and the table entry of its low byte. -/
theorem crcShift8_eq (y : Word) : crcShift8 y = (y >>> 8) ^^^ crcTable (y.extractLsb' 0 8) := by
  have hhigh : crcShift8 ((y >>> 8) <<< 8) = y >>> 8 := by
    rw [crcShift8_of_lowByte_zero (fun i hi => by simp [hi])]
    ext i hi
    simp
    grind
  calc
    crcShift8 y = crcShift8 ((y >>> 8) <<< 8) ^^^ crcShift8 ((y.extractLsb' 0 8).zeroExtend 32) := by
      rw [← crcShift8_xor, ← split_lowByte]
    _ = (y >>> 8) ^^^ crcTable (y.extractLsb' 0 8) := by rw [hhigh, crcTable]

/-- The byte has no bits above the low byte. -/
theorem ushiftRight_xor_byte (r : Word) (x : Byte) : (r ^^^ x.zeroExtend 32) >>> 8 = r >>> 8 := by
  ext i hi
  simp

/-- Settles O19: the byte is taken into the remainder's low byte, whose 8 iterations the table holds. -/
theorem crcTableFormAgrees : Obligations.CrcTableFormAgrees := by
  refine ⟨fun r x => ?_, fun _ => rfl, fun _ => rfl, crc32_nil, ?values⟩
  case values => decide +kernel
  rw [crcByte, crcShift8_eq, ushiftRight_xor_byte]

/-- One inner iteration loses nothing: the bit shifted out comes back as the top bit of the polynomial. -/
theorem crcShift_injective : Function.Injective crcShift := by
  have htop (r : Word) : (crcShift r).getLsbD 31 = r.getLsbD 0 := by
    unfold crcShift
    split <;> rename_i h
    · simp [h]
    · rw [Bool.not_eq_true] at h
      rw [h, BitVec.getLsbD_ushiftRight]
      simp
  intro a b hab
  have hlow : a.getLsbD 0 = b.getLsbD 0 := by rw [← htop a, ← htop b, hab]
  have hshift : a >>> 1 = b >>> 1 := by
    unfold crcShift at hab
    rw [hlow] at hab
    split at hab
    · exact BitVec.xor_left_inj 0xEDB88320#32 |>.mp hab
    · exact hab
  apply BitVec.eq_of_getLsbD_eq
  intro i hi
  cases i with
  | zero => exact hlow
  | succ i => simpa [Nat.add_comm] using congrArg (fun w => w.getLsbD i) hshift

theorem crcShift8_injective : Function.Injective crcShift8 :=
  crcShift_injective.iterate 8

theorem crcByte_injective_remainder (x : Byte) : Function.Injective fun r => crcByte r x := by
  intro a b hab
  exact (BitVec.xor_left_inj (x.zeroExtend 32)).mp (crcShift8_injective hab)

theorem crcByte_injective_byte (r : Word) : Function.Injective (crcByte r) := by
  intro x y hxy
  have hext : x.zeroExtend 32 = y.zeroExtend 32 := (BitVec.xor_right_inj r).mp (crcShift8_injective hxy)
  have hnat := congrArg BitVec.toNat hext
  have hx := x.isLt
  have hy := y.isLt
  rw [BitVec.toNat_setWidth, BitVec.toNat_setWidth] at hnat
  exact BitVec.eq_of_toNat_eq (by omega)

theorem foldl_crcByte_injective (c : Bytes) : Function.Injective fun r => c.foldl crcByte r := by
  induction c with
  | nil => exact Function.injective_id
  | cons x c ih => exact ih.comp (crcByte_injective_remainder x)

/-- CRC-32 sees the change of one byte. -/
theorem crc32_ne_of_byte_ne (a c : Bytes) {x y : Byte} (h : y ≠ x) : crc32 (a ++ y :: c) ≠ crc32 (a ++ x :: c) := by
  intro heq
  have hfold := (BitVec.xor_left_inj 0xFFFFFFFF#32).mp heq
  simp only [List.foldl_append, List.foldl_cons] at hfold
  exact h (crcByte_injective_byte _ (foldl_crcByte_injective c hfold))

theorem flipBit_ne (x : Byte) {k : Nat} (hk : k < 8) : x ^^^ (1#8 <<< k) ≠ x := by
  intro h
  have := congrArg (fun b => b.getLsbD k) h
  simp [hk] at this

/-- Settles O21: a flipped bit is a changed byte. -/
theorem crcDetectsSingleBitChange : Obligations.CrcDetectsSingleBitChange :=
  fun a c x _ hk => crc32_ne_of_byte_ne a c (flipBit_ne x hk)

/-! ### Adler-32 -/

/-- The sum in which a byte counts once for each byte from it to the end (R118). -/
def weightedSum (v : Bytes) : Nat := ∑ i : Fin v.length, (v.length - i.val) * (v[i.val]).toNat

theorem weightedSum_cons (x : Byte) (v : Bytes) :
    weightedSum (x :: v) = (v.length + 1) * x.toNat + weightedSum v := by
  simp [weightedSum, Fin.sum_univ_succ]

/-- The two sums from any start, up to the modulus. -/
theorem foldl_adlerByte_modEq (v : Bytes) (t : AdlerSums) :
    (v.foldl adlerByte t).a ≡ t.a + (v.map BitVec.toNat).sum [MOD 65521] ∧
      (v.foldl adlerByte t).b ≡ t.b + v.length * t.a + weightedSum v [MOD 65521] := by
  induction v generalizing t with
  | nil => exact ⟨by simp; rfl, by simp [weightedSum]; rfl⟩
  | cons x v ih =>
    obtain ⟨ha, hb⟩ := ih (adlerByte t x)
    have ha' : (adlerByte t x).a ≡ t.a + x.toNat [MOD 65521] := Nat.mod_modEq _ _
    have hb' : (adlerByte t x).b ≡ t.b + (t.a + x.toNat) [MOD 65521] :=
      (Nat.mod_modEq _ _).trans ((Nat.mod_modEq _ _).add_left _)
    constructor
    · refine ha.trans ((ha'.add_right _).trans ?_)
      rw [List.map_cons, List.sum_cons, Nat.add_assoc]
    · refine hb.trans (((hb'.add (ha'.mul_left v.length)).add_right _).trans ?_)
      rw [weightedSum_cons, List.length_cons]
      exact congrArg (· % 65521) (by ring)

/-- The sums are remainders. -/
theorem foldl_adlerByte_lt (v : Bytes) {t : AdlerSums} (ha : t.a < 65521) (hb : t.b < 65521) :
    (v.foldl adlerByte t).a < 65521 ∧ (v.foldl adlerByte t).b < 65521 := by
  induction v generalizing t with
  | nil => exact ⟨ha, hb⟩
  | cons x v ih => exact ih (Nat.mod_lt _ (by omega)) (Nat.mod_lt _ (by omega))

theorem adlerSums_lt (v : Bytes) : (adlerSums v).a < 65521 ∧ (adlerSums v).b < 65521 :=
  foldl_adlerByte_lt v (by decide) (by decide)

theorem adlerSums_a (v : Bytes) : (adlerSums v).a = (1 + (v.map BitVec.toNat).sum) % 65521 := by
  rw [← Nat.mod_eq_of_lt (adlerSums_lt v).1]
  exact (foldl_adlerByte_modEq v _).1

theorem adlerSums_b (v : Bytes) : (adlerSums v).b = (v.length + weightedSum v) % 65521 := by
  rw [← Nat.mod_eq_of_lt (adlerSums_lt v).2]
  simpa [Nat.ModEq, adlerSums] using (foldl_adlerByte_modEq v { a := 1, b := 0 }).2

/-- The two sums stand side by side in the value. -/
theorem adler32_toNat (v : Bytes) : (adler32 v).toNat = (adlerSums v).b * 65536 + (adlerSums v).a := by
  obtain ⟨ha, hb⟩ := adlerSums_lt v
  simp only [adler32, BitVec.toNat_add, BitVec.toNat_shiftLeft, BitVec.toNat_ofNat, Nat.shiftLeft_eq]
  omega

theorem adler32_low (v : Bytes) : ((adler32 v).extractLsb' 0 16).toNat = (adlerSums v).a := by
  obtain ⟨ha, -⟩ := adlerSums_lt v
  rw [BitVec.extractLsb'_toNat, adler32_toNat, Nat.shiftRight_zero]
  omega

theorem adler32_high (v : Bytes) : ((adler32 v).extractLsb' 16 16).toNat = (adlerSums v).b := by
  obtain ⟨ha, hb⟩ := adlerSums_lt v
  rw [BitVec.extractLsb'_toNat, adler32_toNat, Nat.shiftRight_eq_div_pow]
  omega

/-- Settles O20: the halves are the two sums, which the closed forms give up to the modulus. -/
theorem adlerClosedForms : Obligations.AdlerClosedForms := by
  refine ⟨adler32_nil, by decide +kernel, by decide +kernel, fun v => ?_⟩
  obtain ⟨ha, hb⟩ := adlerSums_lt v
  rw [adler32_low, adler32_high]
  exact ⟨adlerSums_a v, adlerSums_b v, by omega, by omega⟩

/-- The low half of Adler-32 sees the change of one byte: two bytes differ by less than the modulus. -/
theorem adler32_low_ne_of_byte_ne (a c : Bytes) {x y : Byte} (h : y ≠ x) :
    (adler32 (a ++ y :: c)).extractLsb' 0 16 ≠ (adler32 (a ++ x :: c)).extractLsb' 0 16 := by
  intro heq
  have hsum := congrArg BitVec.toNat heq
  rw [adler32_low, adler32_low, adlerSums_a, adlerSums_a] at hsum
  simp only [List.map_append, List.map_cons, List.sum_append, List.sum_cons] at hsum
  have hx := x.isLt
  have hy := y.isLt
  exact h (BitVec.eq_of_toNat_eq (by omega))

/-- Settles O22: a flipped bit is a changed byte. -/
theorem adlerDetectsSingleBitChange : Obligations.AdlerDetectsSingleBitChange :=
  fun a c x _ hk => adler32_low_ne_of_byte_ne a c (flipBit_ne x hk)

/-- Either algorithm sees the change of one byte. -/
theorem checksum_ne_of_byte_ne (alg : ChecksumAlg) (a c : Bytes) {x y : Byte} (h : y ≠ x) :
    checksum alg (a ++ y :: c) ≠ checksum alg (a ++ x :: c) := by
  cases alg with
  | crc32 => exact crc32_ne_of_byte_ne a c h
  | adler32 => exact fun heq => adler32_low_ne_of_byte_ne a c h (congrArg (fun w => w.extractLsb' 0 16) heq)

end Sys2Proof.Proofs.ChecksumLaws
end

section
/-! PROOF. How an accepted command ends, from what its body answers: the rules that the proofs about single commands
share (45_system.md R223, 60_exceptions.md R250, 70_reset_and_hazards.md R288). -/

namespace Sys2Proof.Proofs.Accepted

open Sys2Proof Sys2Proof.Machine
open Sys2Proof.Proofs.ChecksumCommands (buffer_acceptCommand)

/-! ### Each command past acceptance and its operand check -/

theorem exec_filtFwd_ready {s : State} (hr : Ready s) : exec .filtFwd s =
    .next ((applyFwd (acceptCommand s)).andThen fun _ t => .ok () (finishIdle t)).state := by
  rw [exec_filtFwd_eq, runCommand_ready _ hr]

theorem exec_filtInv_ready {s : State} (hr : Ready s) : exec .filtInv s =
    .next ((applyInv (acceptCommand s)).andThen fun _ t => .ok () (finishIdle t)).state := by
  rw [exec_filtInv_eq, runCommand_ready _ hr]

theorem exec_bufLoad_ready {b : BufSel} {s : State} (hr : Ready s) (hcap : s.xferLen.toNat ≤ capacity b s.platform) :
    exec (.bufLoad b) s = .next ((inRead s.xferLen.toNat (acceptCommand s)).andThen fun v t =>
      .ok () (complete v.length 0 0 (setPhase .idle (setBuffer b v t)))).state := by
  have hguard : ¬(acceptCommand s).xferLen.toNat > capacity b (acceptCommand s).platform := Nat.not_lt.mpr hcap
  rw [exec_bufLoad_eq, runCommand_ready _ hr, if_neg hguard]
  rfl

theorem exec_bufStore_ready {b : BufSel} {s : State} (hr : Ready s) : exec (.bufStore b) s =
    .next ((outWrite (buffer b s) (acceptCommand s)).andThen fun _ t =>
      .ok () (complete 0 (buffer b t).length 0 (setPhase .idle t))).state := by
  rw [exec_bufStore_eq, runCommand_ready _ hr, buffer_acceptCommand]

theorem exec_lzoComp_ready {s : State} (hr : Ready s) : exec .lzoComp s =
    .next ((doCompress (acceptCommand s)).andThen fun _ t => .ok () (finishIdle t)).state := by
  rw [exec_lzoComp_eq, runCommand_ready _ hr]

theorem exec_lzoDecomp_ready {s : State} (hr : Ready s) (hu : s.hdrUsize.toNat ≤ s.platform.maxBlockSize) :
    exec .lzoDecomp s =
      .next ((doDecompress s.hdrUsize.toNat (acceptCommand s)).andThen fun _ t => .ok () (finishIdle t)).state := by
  have hguard : ¬(acceptCommand s).hdrUsize.toNat > (acceptCommand s).platform.maxBlockSize := Nat.not_lt.mpr hu
  rw [exec_lzoDecomp_eq, runCommand_ready _ hr, if_neg hguard]
  rfl

theorem exec_recEmit_ready {s : State} (hr : Ready s) (hc : s.hdrCsize = clen s) : exec .recEmit s =
    .next ((outWrite (currentRecord s) (acceptCommand s)).andThen fun _ t =>
      .ok () (complete 0 (headerLen t.cfg + t.cbuf.length) 0 (setPhase .idle t))).state := by
  have hguard : ¬(acceptCommand s).hdrCsize ≠ clen (acceptCommand s) := not_not.mpr hc
  rw [exec_recEmit_eq, runCommand_ready _ hr, if_neg hguard]
  rfl

theorem exec_compressBlock_ready {s : State} (hr : Ready s) :
    exec .compressBlock s = .next (compressBody (acceptCommand s)).state := runCommand_ready _ hr

theorem exec_decompressBlock_ready {s : State} (hr : Ready s) :
    exec .decompressBlock s = .next (decompressBody (acceptCommand s)).state := runCommand_ready _ hr

/-- A command whose request is never answered leaves the command running. -/
theorem hangs_of_state {i : Instr} {s u : State} (h : exec i s = .next (hang u : Micro Unit).state) : Hangs i s :=
  ⟨_, h, rfl, rfl⟩

theorem andThen_assoc {α β γ : Type} (m : Micro α) (k : α → State → Micro β) (l : β → State → Micro γ) :
    (m.andThen k).andThen l = m.andThen fun a s => (k a s).andThen l := by
  cases m <;> rfl

end Sys2Proof.Proofs.Accepted
end

section
/-! PROOF. What a stream delivers (20_memory.md R66, 10_state.md R45), and the two buffer transfers (42_framing.md R147,
R148). -/

namespace Sys2Proof.Proofs.BufferTransfer

open Sys2Proof Sys2Proof.Machine
open Sys2Proof.Proofs.Accepted

/-! ### `InRead(n)` -/

theorem nextInput_finite_getElem {s : State} {n i : Nat} (hf : s.inputEndless = false)
    (hi : i < (nextInput n s).length) : (nextInput n s)[i]? = s.input[s.ipos + i]? := by
  rw [nextInput_finite hf] at hi ⊢
  rw [List.getElem?_take_of_lt (by simp at hi; omega), remaining, List.getElem?_drop]

theorem nextInput_endless_getElem {s : State} {n i : Nat} (he : s.inputEndless = true) (hi : i < n) :
    (nextInput n s)[i]? = some (endlessByte s (s.ipos + i)) := by
  simp [nextInput, he, hi]

/-- The listed bytes of an endless input come first. -/
theorem endlessByte_listed {s : State} {i : Nat} (hi : i < s.input.length) : some (endlessByte s i) = s.input[i]? := by
  simp [endlessByte, hi]

/-- Settles O26: the answer is `nextInput`, whose bytes the three cases of `IN` give. -/
theorem inReadDelivers : Obligations.InReadDelivers := by
  intro s n ha
  refine ⟨nextInput n s, inRead_ok ha, fun hf hpos => ⟨?length, fun i hi => nextInput_finite_getElem hf hi⟩,
    fun hf hpast => ?past, fun he => ⟨nextInput_endless_length he,
      fun i hi => nextInput_endless_getElem he hi, ?listed⟩⟩
  case length => simp [nextInput_finite hf, remaining]
  case past =>
    rw [nextInput_finite hf, remaining, List.drop_eq_nil_of_le (by omega), List.take_nil]
  case listed =>
    intro i hi hlist
    rw [nextInput_endless_getElem he hi, endlessByte_listed hlist]

/-! ### `BUF_LOAD` and `BUF_STORE` -/

theorem exec_bufLoad_ok (b : BufSel) {s : State} (hr : Ready s) (ha : ioAnswer s = .ok)
    (hcap : s.xferLen.toNat ≤ capacity b s.platform) :
    exec (.bufLoad b) s = .next (complete (nextInput s.xferLen.toNat s).length 0 0 (setPhase .idle
      (setBuffer b (nextInput s.xferLen.toNat s)
        { ioTaken (acceptCommand s) with ipos := s.ipos + (nextInput s.xferLen.toNat s).length }))) := by
  rw [exec_bufLoad_ready hr hcap, inRead_ok (s := acceptCommand s) ha, nextInput_acceptCommand]
  rfl

theorem exec_bufStore_ok (b : BufSel) {s : State} (hr : Ready s) (ha : ioAnswer s = .ok) :
    exec (.bufStore b) s = .next { ioTaken s with
      out := s.out ++ buffer b s, blkRead := 0, blkWritten := BitVec.ofNat 32 (buffer b s).length,
      totWritten := s.totWritten + BitVec.ofNat 64 (buffer b s).length, phase := .idle } := by
  rw [exec_bufStore_ready hr, outWrite_ok (s := acceptCommand s) ha, ioTaken_acceptCommand]
  obtain ⟨script, ctr, htaken⟩ := ioTaken_eq s
  cases b <;> simp [htaken, complete, setPhase, acceptCommand, buffer, hr.1]

/-- Settles O29: the two equations, with the buffer that is loaded written out. -/
theorem bufferTransfersComplete : Obligations.BufferTransfersComplete := by
  intro s v hr ha
  obtain ⟨script, ctr, htaken⟩ := ioTaken_eq s
  refine ⟨?loadU, ?loadC, ?store⟩
  case loadU =>
    rintro rfl hcap
    rw [exec_bufLoad_ok .u hr ha hcap, ioTaken_acceptCommand]
    simp [htaken, complete, setPhase, acceptCommand, setBuffer, hr.1]
  case loadC =>
    rintro rfl hcap
    rw [exec_bufLoad_ok .c hr ha hcap, ioTaken_acceptCommand]
    simp [htaken, complete, setPhase, acceptCommand, setBuffer, hr.1]
  case store =>
    rintro b rfl
    exact exec_bufStore_ok b hr ha

end Sys2Proof.Proofs.BufferTransfer
end

section
/-! PROOF. The commands of the two ports: `FILT_FWD`, `FILT_INV` (41_filter.md R134 to R139), `LZO_COMP`, `LZO_DECOMP`
(42_framing.md R149 to R152). -/

namespace Sys2Proof.Proofs.PortCommands

open Sys2Proof Sys2Proof.Machine
open Sys2Proof.Proofs.Accepted

/-! ### The filter -/

theorem encodeFilter_port {c : Cfg} (h : c.filtSel = true) (p : Platform) (b : Bytes) :
    encodeFilter c p b = filterFwd p b := if_pos h

theorem decodeFilter_port {c : Cfg} (h : c.filtSel = true) (p : Platform) (b : Bytes) :
    decodeFilter c p b = filterInv p b := if_pos h

/-- Settles O24: the answer is taken, and completion undoes acceptance but for `STATE`. -/
theorem filterCommandsRewriteUbuf : Obligations.FilterCommandsRewriteUbuf := by
  intro s b hr hsel hlen
  constructor
  · intro hport
    have happly : applyFwd (acceptCommand s) = .ok () { acceptCommand s with ubuf := b } :=
      applyFwd_ok ((encodeFilter_port hsel _ _).trans hport) hlen
    rw [exec_filtFwd_ready hr, happly]
    simp [finishIdle, acceptCommand, hr.1]
  · intro hport
    have happly : applyInv (acceptCommand s) = .ok () { acceptCommand s with ubuf := b } :=
      applyInv_ok ((decodeFilter_port hsel _ _).trans hport) hlen
    rw [exec_filtInv_ready hr, happly]
    simp [finishIdle, acceptCommand, hr.1]

theorem scrambleUbuf_length (s : State) : (scrambleUbuf s).ubuf.length = s.ubuf.length := by
  simp [scrambleUbuf]

/-- What a failed `FILT_FWD` or `FILT_INV` leaves (R135): `UBUF` holds some bytes of the same number. -/
theorem exec_filt_error {i : Instr} {op : State → Micro Unit} {s : State}
    (hexec : exec i s = .next ((op (acceptCommand s)).andThen fun _ t => .ok () (finishIdle t)).state)
    (hop : op (acceptCommand s) = raise .filterError (scrambleUbuf (acceptCommand s))) :
    ∃ v : Bytes, v.length = s.ubuf.length ∧ exec i s = .next { s with
      ubuf := v, freeCtr := s.freeCtr + 1, errState := .idle, errCode := .filterError, errPos := s.totRead,
      blkRead := 0, blkWritten := 0, phase := .failed, busy := false, activity := .none } := by
  refine ⟨(scrambleUbuf s).ubuf, scrambleUbuf_length s, ?_⟩
  rw [hexec, hop]
  rfl

theorem exec_filtFwd_error {s : State} {r : PortAnswer} (hr : Ready s) (hsel : s.cfg.filtSel = true)
    (hbad : r = .fail ∨ ∃ b, r = .bytes b ∧ b.length ≠ s.ubuf.length) (hport : filterFwd s.platform s.ubuf = r) :
    ∃ v : Bytes, v.length = s.ubuf.length ∧ exec .filtFwd s = .next { s with
      ubuf := v, freeCtr := s.freeCtr + 1, errState := .idle, errCode := .filterError, errPos := s.totRead,
      blkRead := 0, blkWritten := 0, phase := .failed, busy := false, activity := .none } := by
  refine exec_filt_error (exec_filtFwd_ready hr) (applyFwd_error ?_)
  show encodeFilter s.cfg s.platform s.ubuf = .fail ∨ ∃ f, encodeFilter s.cfg s.platform s.ubuf = .bytes f ∧ _
  rw [encodeFilter_port hsel, hport]
  exact hbad

theorem exec_filtInv_error {s : State} {r : PortAnswer} (hr : Ready s) (hsel : s.cfg.filtSel = true)
    (hbad : r = .fail ∨ ∃ b, r = .bytes b ∧ b.length ≠ s.ubuf.length) (hport : filterInv s.platform s.ubuf = r) :
    ∃ v : Bytes, v.length = s.ubuf.length ∧ exec .filtInv s = .next { s with
      ubuf := v, freeCtr := s.freeCtr + 1, errState := .idle, errCode := .filterError, errPos := s.totRead,
      blkRead := 0, blkWritten := 0, phase := .failed, busy := false, activity := .none } := by
  refine exec_filt_error (exec_filtInv_ready hr) (applyInv_error ?_)
  show decodeFilter s.cfg s.platform s.ubuf = .fail ∨ ∃ f, decodeFilter s.cfg s.platform s.ubuf = .bytes f ∧ _
  rw [decodeFilter_port hsel, hport]
  exact hbad

/-- A filter port that never answers. -/
theorem applyFwd_never {s : State} (h : encodeFilter s.cfg s.platform s.ubuf = .never) :
    applyFwd s = hang (scrambleUbuf s) := by
  unfold encodeFilter at h
  split at h
  · rename_i hsel
    rw [applyFwd, if_pos hsel, h, takeFilterAnswer]
  · cases h

theorem applyInv_never {s : State} (h : decodeFilter s.cfg s.platform s.ubuf = .never) :
    applyInv s = hang (scrambleUbuf s) := by
  unfold decodeFilter at h
  split at h
  · rename_i hsel
    rw [applyInv, if_pos hsel, h, takeFilterAnswer]
  · cases h

/-! ### The LZO port -/

/-- Settles O30: the answer is taken, and completion undoes acceptance but for `STATE`. -/
theorem lzoCommandsComplete : Obligations.LzoCommandsComplete := by
  intro s r hr
  constructor
  · intro hport hcap
    rw [exec_lzoComp_ready hr, doCompress_ok (s := acceptCommand s) hport hcap]
    simp [finishIdle, acceptCommand, hr.1]
  · intro hu hport hlen
    rw [exec_lzoDecomp_ready hr hu, doDecompress_ok (s := acceptCommand s) hport hlen]
    simp [finishIdle, acceptCommand, hr.1]

/-- Settles O31: the port's answer is refused before it reaches a buffer. -/
theorem lzoFailuresEnterFailed : Obligations.LzoFailuresEnterFailed := by
  intro s r hr
  constructor
  · rintro rfl hbad
    rw [exec_lzoComp_ready hr, doCompress_error (s := acceptCommand s) hbad]
    rfl
  · rintro hu rfl hbad
    rw [exec_lzoDecomp_ready hr hu, doDecompress_error (s := acceptCommand s) hbad]
    rfl

theorem doCompress_never {s : State} (h : lzoCompress s.platform (compressRequest s) = .never) :
    doCompress s = hang s := by
  simp only [doCompress, h]

theorem doDecompress_never {n : Nat} {s : State} (h : lzoDecompress s.platform (decompressRequest n s) = .never) :
    doDecompress n s = hang s := by
  simp only [doDecompress, h]

/-- The four sub-step commands of the ports, when the port never answers. -/
theorem port_commands_hang {s : State} (hr : Ready s) :
    (s.cfg.filtSel = true → filterFwd s.platform s.ubuf = .never → Hangs .filtFwd s) ∧
    (s.cfg.filtSel = true → filterInv s.platform s.ubuf = .never → Hangs .filtInv s) ∧
    (lzoCompress s.platform ⟨s.cfg.lzoAlg, s.ubuf, s.cfg.optimize⟩ = .never → Hangs .lzoComp s) ∧
    (s.hdrUsize.toNat ≤ s.platform.maxBlockSize →
      lzoDecompress s.platform ⟨s.cfg.lzoAlg, s.cbuf, s.hdrUsize.toNat⟩ = .never → Hangs .lzoDecomp s) := by
  refine ⟨fun hsel hport => ?_, fun hsel hport => ?_, fun hport => ?_, fun hu hport => ?_⟩
  · refine hangs_of_state (u := scrambleUbuf (acceptCommand s)) ?_
    rw [exec_filtFwd_ready hr, applyFwd_never (s := acceptCommand s) ((encodeFilter_port hsel _ _).trans hport),
      andThen_hang]
  · refine hangs_of_state (u := scrambleUbuf (acceptCommand s)) ?_
    rw [exec_filtInv_ready hr, applyInv_never (s := acceptCommand s) ((decodeFilter_port hsel _ _).trans hport),
      andThen_hang]
  · refine hangs_of_state (u := acceptCommand s) ?_
    rw [exec_lzoComp_ready hr, doCompress_never (s := acceptCommand s) hport, andThen_hang]
  · refine hangs_of_state (u := acceptCommand s) ?_
    rw [exec_lzoDecomp_ready hr hu, doDecompress_never (s := acceptCommand s) hport, andThen_hang]

end Sys2Proof.Proofs.PortCommands
end

section
/-! PROOF. The first request of a command to a stream, when it fails or is never answered (20_memory.md R66, R67,
60_exceptions.md R242, 70_reset_and_hazards.md R288). -/

namespace Sys2Proof.Proofs.FirstRequest

open Sys2Proof Sys2Proof.Machine
open Sys2Proof.Proofs.Accepted

/-- The first request of the command is a read. -/
def BeginsWithRead (i : Instr) (s : State) : Prop :=
  ∃ (n : Nat) (k : Bytes → State → Micro Unit), exec i s = .next ((inRead n (acceptCommand s)).andThen k).state

/-- The first request of the command is a write of `v`. -/
def BeginsWithWrite (i : Instr) (v : Bytes) (s : State) : Prop :=
  ∃ k : Unit → State → Micro Unit, exec i s = .next ((outWrite v (acceptCommand s)).andThen k).state

/-! ### The commands -/

theorem beginsWithRead_bufLoad {b : BufSel} {s : State} (hr : Ready s)
    (hcap : s.xferLen.toNat ≤ capacity b s.platform) : BeginsWithRead (.bufLoad b) s :=
  ⟨_, _, exec_bufLoad_ready hr hcap⟩

theorem beginsWithRead_compressBlock {s : State} (hr : Ready s) : BeginsWithRead .compressBlock s :=
  ⟨_, _, exec_compressBlock_ready hr⟩

/-- What follows the header in a command that parses a record: nothing at the end of the input, else the payload. -/
def afterHeader (k : State → Micro Unit) : HeaderAnswer → State → Micro Unit
  | .eos, t => .ok () (finishEos t)
  | .header, t => (readPayload t).andThen fun _ u => k u

/-- `REC_PARSE` and `DECOMPRESS_BLOCK` begin alike. -/
theorem exec_parsing_ready {i : Instr} {s : State} (hi : i = .recParse ∨ i = .decompressBlock) (hr : Ready s) :
    ∃ k, exec i s = .next ((parseHeader (acceptCommand s)).andThen (afterHeader k)).state := by
  rcases hi with rfl | rfl
  · refine ⟨fun t => .ok () (complete (headerLen t.cfg + t.hdrCsize.toNat) 0 0 (setPhase .idle t)), ?_⟩
    rw [exec_recParse_eq, runCommand_ready _ hr, recParseBody]
    cases parseHeader (acceptCommand s) with
    | ok a t => cases a <;> rfl
    | ended t => rfl
  · refine ⟨fun t =>
      (checkCompressed s.totRead t).andThen fun _ t =>
      (doDecompress t.hdrUsize.toNat (setPhase .chkCChecked t)).andThen fun _ t =>
      (checkUncompressed s.totRead (setPhase .decompressed t)).andThen fun _ t =>
      (applyInv (setPhase .chkUChecked t)).andThen fun _ t =>
      (outWrite t.ubuf (setPhase .filtered t)).andThen fun _ t =>
      .ok () (complete (headerLen t.cfg + t.hdrCsize.toNat) t.hdrUsize.toNat 1
        (setPhase .idle (setPhase .emitted t))), ?_⟩
    rw [exec_decompressBlock_ready hr, decompressBody]
    cases parseHeader (acceptCommand s) with
    | ok a t => cases a <;> rfl
    | ended t => rfl

theorem beginsWithRead_parsing {i : Instr} {s : State} (hi : i = .recParse ∨ i = .decompressBlock) (hr : Ready s) :
    BeginsWithRead i s := by
  obtain ⟨k, hexec⟩ := exec_parsing_ready hi hr
  exact ⟨_, _, by rw [hexec, parseHeader, andThen_assoc]⟩

theorem beginsWithWrite_bufStore {b : BufSel} {s : State} (hr : Ready s) :
    BeginsWithWrite (.bufStore b) (buffer b s) s :=
  ⟨_, exec_bufStore_ready hr⟩

theorem beginsWithWrite_recEmit {s : State} (hr : Ready s) (hc : s.hdrCsize = clen s) :
    BeginsWithWrite .recEmit (currentRecord s) s :=
  ⟨_, exec_recEmit_ready hr hc⟩

/-! ### The answers -/

section Answers

variable {i : Instr} {s : State} {v : Bytes} {m : Nat}

theorem BeginsWithRead.ioError (h : BeginsWithRead i s) (ha : ioAnswer s = .ioError m) :
    exec i s = .next { ioTaken s with
      ipos := s.ipos + m, errState := .idle, errCode := .ioError, errPos := s.totRead, blkRead := 0,
      blkWritten := 0, phase := .failed, busy := false, activity := .none } := by
  obtain ⟨n, k, hexec⟩ := h
  obtain ⟨script, ctr, htaken⟩ := ioTaken_eq s
  rw [hexec, inRead_ioError (s := acceptCommand s) ha, andThen_raise, state_raise, ioTaken_acceptCommand, htaken]
  rfl

theorem BeginsWithWrite.ioError (h : BeginsWithWrite i v s) (ha : ioAnswer s = .ioError m) :
    exec i s = .next { ioTaken s with
      out := s.out ++ v.take m, errState := .idle, errCode := .ioError, errPos := s.totRead, blkRead := 0,
      blkWritten := 0, phase := .failed, busy := false, activity := .none } := by
  obtain ⟨k, hexec⟩ := h
  obtain ⟨script, ctr, htaken⟩ := ioTaken_eq s
  rw [hexec, outWrite_ioError (s := acceptCommand s) ha, andThen_raise, state_raise, ioTaken_acceptCommand, htaken]
  rfl

theorem BeginsWithRead.never (h : BeginsWithRead i s) (ha : ioAnswer s = .never m) : Hangs i s := by
  obtain ⟨n, k, hexec⟩ := h
  rw [inRead_never (s := acceptCommand s) ha] at hexec
  exact hangs_of_state hexec

theorem BeginsWithWrite.never (h : BeginsWithWrite i v s) (ha : ioAnswer s = .never m) : Hangs i s := by
  obtain ⟨k, hexec⟩ := h
  rw [outWrite_never (s := acceptCommand s) ha] at hexec
  exact hangs_of_state hexec

end Answers

end Sys2Proof.Proofs.FirstRequest
end

section
/-! PROOF. Block Records: `REC_EMIT` (42_framing.md R154), `REC_PARSE` (R155 to R158) on whole, short and malformed
input, and that they are inverse (R162). -/

namespace Sys2Proof.Proofs.BlockRecords

open Sys2Proof Sys2Proof.Machine
open Sys2Proof.Proofs.Accepted
open Sys2Proof.Proofs.FirstRequest

/-! ### `REC_EMIT` -/

theorem exec_recEmit_ok {s : State} (hr : Ready s) (ha : ioAnswer s = .ok) (hc : s.hdrCsize = clen s) :
    exec .recEmit s = .next { ioTaken s with
      out := s.out ++ currentRecord s, blkRead := 0,
      blkWritten := BitVec.ofNat 32 (headerLen s.cfg + s.cbuf.length),
      totWritten := s.totWritten + BitVec.ofNat 64 (headerLen s.cfg + s.cbuf.length), phase := .idle } := by
  rw [exec_recEmit_ready hr hc, outWrite_ok (s := acceptCommand s) ha, ioTaken_acceptCommand]
  obtain ⟨script, ctr, htaken⟩ := ioTaken_eq s
  simp [htaken, complete, setPhase, acceptCommand, hr.1]

/-- Settles O33: the record of R153 with its header part written out. -/
theorem recEmitCompletes : Obligations.RecEmitCompletes :=
  fun _ hr ha hc => exec_recEmit_ok hr ha hc

/-- A `REC_EMIT` that completed met its operand check and had its request answered. -/
theorem recEmit_completed_inv {s t : State} (hr : Ready s) (h : exec .recEmit s = .next t) (hp : t.phase = .idle)
    (hb : t.busy = false) : ioAnswer s = .ok ∧ s.hdrCsize = clen s := by
  have hc : s.hdrCsize = clen s := by
    by_contra hne
    rw [Proofs.IllegalOperand.exec_recEmit_illegalOperand hr hne] at h
    cases h
    simp at hp
  cases ha : ioAnswer s with
  | ok => exact ⟨rfl, hc⟩
  | ioError m =>
    rw [(beginsWithWrite_recEmit hr hc).ioError ha] at h
    cases h
    simp at hp
  | never m =>
    obtain ⟨u, hu, hbusy, -⟩ := (beginsWithWrite_recEmit hr hc).never ha
    rw [h] at hu
    cases hu
    simp [hb] at hbusy

/-! ### What parsing answers on short and malformed input (R155 to R157) -/

section Parsing

variable {s : State} {us cs uc cc : Word} {p : Bytes}

theorem parseHeader_short {h : Bytes} (ha : ioAnswer s = .ok) (hn : nextInput (headerLen s.cfg) s = h)
    (hpos : 0 < h.length) (hlen : h.length < headerLen s.cfg) :
    parseHeader s = raise .framingError { ioTaken s with ipos := s.ipos + h.length } := by
  rw [parseHeader, inRead_ok ha, hn, andThen_ok, if_neg (by omega), if_pos (by simpa using hlen)]

/-- The state when a header with these fields has been read and stored. -/
def headerRead (s : State) (us cs uc cc : Word) : State :=
  { headerStored us cs uc cc (ioTaken s) with ipos := s.ipos + headerLen s.cfg }

theorem parseHeader_malformed (ha : ioAnswer s = .ok)
    (hn : nextInput (headerLen s.cfg) s = recordHeader s.cfg.chkEn us cs uc cc)
    (hbad : us.toNat > s.platform.maxBlockSize ∨ cs.toNat > s.platform.cbufCap) :
    parseHeader s = raise .framingError (headerRead s us cs uc cc) := by
  have hpos := headerLen_pos s.cfg
  obtain ⟨script, ctr, htaken⟩ := ioTaken_eq s
  have hstore := storeHeader_recordHeader
    { s with ioScript := script, freeCtr := ctr, ipos := s.ipos + headerLen s.cfg } us cs uc cc
  simp only [parseHeader, inRead_ok ha, andThen_ok, hn, headerLen_eq, htaken, hstore]
  rw [if_neg (by omega), if_neg (by simp), if_pos (by simpa [malformedHeader] using hbad)]
  simp only [headerRead, headerStored, htaken]

/-- The state when the payload read behind a parsed header has moved the cursor by `m`. -/
def payloadRead (s : State) (us cs uc cc : Word) (m : Nat) : State :=
  { headerStored us cs uc cc (takeAnswers 2 s) with ipos := s.ipos + headerLen s.cfg + m, phase := .haveHeader }

/-- The payload read, as a request of the state it leaves. -/
theorem ioTaken_headerParsed (m : Nat) :
    { ioTaken (headerParsed s us cs uc cc) with ipos := (headerParsed s us cs uc cc).ipos + m } =
      payloadRead s us cs uc cc m := by
  rw [ioTaken_congr (s := ioTaken s) (t := headerParsed s us cs uc cc) rfl rfl]
  obtain ⟨script, ctr, htaken⟩ := ioTaken_eq s
  obtain ⟨script', ctr', htwo⟩ := takeAnswers_eq 2 s
  simp only [payloadRead, headerStored, headerParsed]
  apply state_eq_of_fields <;> simp [htwo, htaken]
  all_goals
    have htwo' : ioTaken (ioTaken s) = _ := htwo
    rw [htaken] at htwo'
    simp [htwo']

theorem readPayload_short (ha : ioAnswer (ioTaken s) = .ok)
    (hp : nextInput cs.toNat { s with ipos := s.ipos + headerLen s.cfg } = p) (hlen : p.length < cs.toNat) :
    readPayload (headerParsed s us cs uc cc) = raise .framingError (payloadRead s us cs uc cc p.length) := by
  have hn : nextInput (headerParsed s us cs uc cc).hdrCsize.toNat (headerParsed s us cs uc cc) = p := by
    rw [← hp]
    exact nextInput_congr _ (by simp [headerParsed]) (by simp [headerParsed]) (by simp [headerParsed])
  rw [readPayload, inRead_ok (s := headerParsed s us cs uc cc) ha, hn, andThen_ok, ioTaken_headerParsed]
  exact if_pos hlen

theorem readPayload_ioError {m : Nat} (ha : ioAnswer (ioTaken s) = .ioError m) :
    readPayload (headerParsed s us cs uc cc) = raise .ioError (payloadRead s us cs uc cc m) := by
  rw [readPayload, inRead_ioError (s := headerParsed s us cs uc cc) ha, ioTaken_headerParsed, andThen_raise]

theorem readPayload_never {m : Nat} (ha : ioAnswer (ioTaken s) = .never m) :
    readPayload (headerParsed s us cs uc cc) = hang (payloadRead s us cs uc cc m) := by
  rw [readPayload, inRead_never (s := headerParsed s us cs uc cc) ha, ioTaken_headerParsed, andThen_hang]

/-! ### The two commands that parse a record, on such input -/

variable {i : Instr}

theorem exec_parsing_eos (hi : i = .recParse ∨ i = .decompressBlock) (hr : Ready s) (ha : ioAnswer s = .ok)
    (hn : nextInput (headerLen s.cfg) s = []) :
    exec i s = .next { ioTaken s with blkRead := 0, blkWritten := 0, phase := .endOfStream } := by
  obtain ⟨k, hexec⟩ := exec_parsing_ready hi hr
  rw [hexec, parseHeader_eos (s := acceptCommand s) ha hn, ioTaken_acceptCommand]
  obtain ⟨script, ctr, htaken⟩ := ioTaken_eq s
  simp [afterHeader, finishEos, htaken, complete, setPhase, acceptCommand, hr.1]

/-- A parsing error in the header leaves failure entry of the state that the parsing left. -/
theorem exec_parsing_badHeader {c : ErrCode} {u : State} (hi : i = .recParse ∨ i = .decompressBlock) (hr : Ready s)
    (h : parseHeader (acceptCommand s) = raise c u) : exec i s = .next (failureEntry c u) := by
  obtain ⟨k, hexec⟩ := exec_parsing_ready hi hr
  rw [hexec, h, andThen_raise, state_raise]

/-- The same of an error in the payload read. -/
theorem exec_parsing_badPayload {c : ErrCode} {u : State} (hi : i = .recParse ∨ i = .decompressBlock) (hr : Ready s)
    (ha : ioAnswer s = .ok) (hn : nextInput (headerLen s.cfg) s = recordHeader s.cfg.chkEn us cs uc cc)
    (hu : us.toNat ≤ s.platform.maxBlockSize) (hc : cs.toNat ≤ s.platform.cbufCap)
    (h : readPayload (headerParsed (acceptCommand s) us cs uc cc) = raise c u) :
    exec i s = .next (failureEntry c u) := by
  obtain ⟨k, hexec⟩ := exec_parsing_ready hi hr
  rw [hexec, parseHeader_parsed (s := acceptCommand s) ha hn hu hc, andThen_ok, afterHeader, h, andThen_raise,
    state_raise]

/-- What such an error leaves, on the state before the command. -/
theorem failureEntry_payloadRead (c : ErrCode) (m : Nat) :
    failureEntry c (payloadRead (acceptCommand s) us cs uc cc m) = { headerStored us cs uc cc (takeAnswers 2 s) with
      ipos := s.ipos + headerLen s.cfg + m, errState := .haveHeader, errCode := c, errPos := s.totRead,
      blkRead := 0, blkWritten := 0, phase := .failed, busy := false, activity := .none } := by
  obtain ⟨script, ctr, htwo⟩ := takeAnswers_eq 2 s
  simp only [payloadRead, takeAnswers_acceptCommand, htwo]
  rfl

/-- Taking answers of the streams changes no header register and not `CFG`. -/
theorem headerStored_takeAnswers (k : Nat) : headerStored us cs uc cc (takeAnswers k s) = { takeAnswers k s with
    hdrUsize := us, hdrCsize := cs, hdrUchk := if s.cfg.chkEn then uc else s.hdrUchk,
    hdrCchk := if s.cfg.chkEn then cc else s.hdrCchk } := by
  obtain ⟨script, ctr, htaken⟩ := takeAnswers_eq k s
  rw [htaken]
  rfl

/-- A payload read that is never answered. -/
theorem hangs_parsing_payload {m : Nat} (hi : i = .recParse ∨ i = .decompressBlock) (hr : Ready s)
    (ha : ioAnswer s = .ok) (hn : nextInput (headerLen s.cfg) s = recordHeader s.cfg.chkEn us cs uc cc)
    (hu : us.toNat ≤ s.platform.maxBlockSize) (hc : cs.toNat ≤ s.platform.cbufCap)
    (ha2 : ioAnswer (ioTaken s) = .never m) : Hangs i s := by
  obtain ⟨k, hexec⟩ := exec_parsing_ready hi hr
  have ha2' : ioAnswer (ioTaken (acceptCommand s)) = .never m := by rwa [ioTaken_acceptCommand, ioAnswer_acceptCommand]
  rw [parseHeader_parsed (s := acceptCommand s) ha hn hu hc, andThen_ok, afterHeader, readPayload_never ha2',
    andThen_hang] at hexec
  exact hangs_of_state hexec

end Parsing

/-- Settles O35: the four answers of parsing, each with what it leaves. -/
theorem parsingShortOrMalformedInput : Obligations.ParsingShortOrMalformedInput := by
  intro s i hi hr ha
  obtain ⟨script, ctr, htaken⟩ := ioTaken_eq s
  refine ⟨exec_parsing_eos hi hr ha, ?short, ?malformed, ?truncated⟩
  case short =>
    intro h hn hpos hlen
    rw [exec_parsing_badHeader hi hr (parseHeader_short (s := acceptCommand s) ha hn hpos hlen),
      ioTaken_acceptCommand, htaken]
    rfl
  case malformed =>
    intro us cs uc cc hn hbad
    rw [exec_parsing_badHeader hi hr (parseHeader_malformed (s := acceptCommand s) ha hn hbad), headerRead,
      ioTaken_acceptCommand, htaken]
    rfl
  case truncated =>
    intro us cs uc cc p hn hu hc ha2 hp hlen
    have ha2' : ioAnswer (ioTaken (acceptCommand s)) = .ok := (answersOk_acceptCommand ha2).2.1
    rw [exec_parsing_badPayload hi hr ha hn hu hc (readPayload_short ha2' hp hlen), failureEntry_payloadRead,
      headerStored_takeAnswers]

/-! ### `REC_PARSE` on a whole record (R158) -/

/-- The payload of an accepted command has been read, said on the state before the command. -/
theorem payloadLoaded_accepted (s : State) (us cs uc cc : Word) (p : Bytes) :
    payloadLoaded (acceptCommand s) us cs uc cc p = { headerStored us cs uc cc (takeAnswers 2 s) with
      ipos := s.ipos + headerLen s.cfg + p.length, cbuf := p, phase := .payloadRead, busy := true } := by
  obtain ⟨script, ctr, htwo⟩ := takeAnswers_eq 2 s
  simp only [payloadLoaded, takeAnswers_acceptCommand, htwo]
  rfl

theorem exec_recParse_ok {s : State} {us cs uc cc : Word} {p : Bytes} (hr : Ready s) (ha : answersOk 2 s)
    (hrec : RecordNext s us cs uc cc p) :
    exec .recParse s = .next { headerStored us cs uc cc (takeAnswers 2 s) with
      cbuf := p, ipos := s.ipos + headerLen s.cfg + cs.toNat,
      blkRead := BitVec.ofNat 32 (headerLen s.cfg + cs.toNat), blkWritten := 0,
      totRead := s.totRead + BitVec.ofNat 64 (headerLen s.cfg + cs.toNat), phase := .idle } := by
  obtain ⟨hn, hp, hlen, hu, hc⟩ := hrec
  have hload : readPayload (headerParsed (acceptCommand s) us cs uc cc) =
      .ok () (payloadLoaded (acceptCommand s) us cs uc cc p) :=
    readPayload_loaded (answersOk_acceptCommand ha) hp hlen
  rw [exec_recParse_eq, runCommand_ready _ hr, recParseBody,
    parseHeader_parsed (s := acceptCommand s) ha.1 hn hu hc, andThen_ok]
  dsimp only
  rw [hload, andThen_ok, state_ok, payloadLoaded_accepted]
  obtain ⟨script, ctr, htwo⟩ := takeAnswers_eq 2 s
  simp [headerStored, htwo, complete, setPhase, hr.1, hlen]

/-- Settles O34: the premises are `RecordNext`. -/
theorem recParseCompletes : Obligations.RecParseCompletes := by
  intro s us cs uc cc p hr ha hn hp hlen hu hc
  rw [exec_recParse_ok hr ha ⟨hn, hp, hlen, hu, hc⟩, headerStored_takeAnswers]

/-! ### Emission and parsing are inverse (R162) -/

/-- An input that begins with a record whose sizes fit. -/
theorem recordNext_of_remaining {s : State} {us cs uc cc : Word} {p rest : Bytes} (hf : s.inputEndless = false)
    (hrem : remaining s = record s.cfg.chkEn us cs uc cc p ++ rest) (hlen : p.length = cs.toNat)
    (hu : us.toNat ≤ s.platform.maxBlockSize) (hc : cs.toNat ≤ s.platform.cbufCap) :
    RecordNext s us cs uc cc p := by
  have hh : (recordHeader s.cfg.chkEn us cs uc cc).length = headerLen s.cfg := headerLen_eq s.cfg us cs uc cc
  rw [record, List.append_assoc] at hrem
  refine ⟨by rw [← hh]; exact nextInput_of_remaining hf hrem, ?_, hlen, hu, hc⟩
  rw [← hlen]
  refine nextInput_of_remaining (rest := rest) hf ?_
  rw [remaining_ipos, hrem, ← hh, List.drop_left]

/-- What is left of the input behind the record. -/
theorem remaining_after_record {s : State} {us cs uc cc : Word} {p rest : Bytes}
    (hrem : remaining s = record s.cfg.chkEn us cs uc cc p ++ rest) (hlen : p.length = cs.toNat) :
    s.input.drop (s.ipos + headerLen s.cfg + cs.toNat) = rest := by
  have hh : (record s.cfg.chkEn us cs uc cc p).length = headerLen s.cfg + cs.toNat := by
    rw [record, List.length_append, headerLen_eq, hlen]
  rw [Nat.add_assoc, ← List.drop_drop, ← hh]
  show (remaining s).drop _ = rest
  rw [hrem, List.drop_left]

/-- A buffer within the capacity has the length its register holds. -/
theorem clen_toNat {s : State} (h : s.cbuf.length ≤ s.platform.cbufCap) : (clen s).toNat = s.cbuf.length := by
  have := (platform_bounds s.platform).2
  rw [clen, BitVec.toNat_ofNat, Nat.mod_eq_of_lt (by omega)]

/-- Settles O36: what was emitted is the record of R153, which parses back. -/
theorem emitThenParseIsInverse : Obligations.EmitThenParseIsInverse := by
  intro s t u w rest hr hcap husize hemit hidle hbusy hout hru hplat hen hfin hrem hau
  obtain ⟨ha, hc⟩ := recEmit_completed_inv hr hemit hidle hbusy
  have hw : w = record u.cfg.chkEn s.hdrUsize s.hdrCsize s.hdrUchk s.hdrCchk s.cbuf := by
    rw [exec_recEmit_ok hr ha hc] at hemit
    cases hemit
    rw [hen]
    exact (List.append_cancel_left hout).symm
  have hlen : s.cbuf.length = s.hdrCsize.toNat := by rw [hc, clen_toNat hcap]
  rw [hw] at hrem
  have hwlen : w.length = headerLen u.cfg + s.hdrCsize.toNat := by
    rw [hw, record, List.length_append, headerLen_eq, hlen]
  have hrec : RecordNext u s.hdrUsize s.hdrCsize s.hdrUchk s.hdrCchk s.cbuf :=
    recordNext_of_remaining hfin hrem hlen (by rwa [hplat]) (by rw [hplat]; omega)
  refine ⟨_, exec_recParse_ok hru hau hrec, rfl, ?_⟩
  have hafter := remaining_after_record hrem hlen
  obtain ⟨script, ctr, htwo⟩ := takeAnswers_eq 2 u
  rw [htwo]
  exact ⟨hru.1, rfl, rfl, rfl, rfl, fun hs => ⟨if_pos (hen.trans hs), if_pos (hen.trans hs)⟩,
    by rw [hwlen]; exact Nat.add_assoc _ _ _, by rw [hwlen], hafter⟩

end Sys2Proof.Proofs.BlockRecords
end

section
/-! PROOF. `COMPRESS_BLOCK` (43_block_codec.md R176 to R180): a whole block, the end of the input, and what each failure
leaves. -/

namespace Sys2Proof.Proofs.CompressBlock

open Sys2Proof Sys2Proof.Machine
open Sys2Proof.Proofs.Accepted
open Sys2Proof.Proofs.PortCommands

/-! ### A whole block (R177) -/

/-- What `COMPRESS_BLOCK` leaves of a ready state, when it has written the record of `b`. -/
def blockCompressed (s : State) (b : CodedBlock) : State :=
  { takeAnswers 2 s with
    ubuf := b.filtered
    cbuf := b.payload
    hdrUsize := BitVec.ofNat 32 b.plain.length
    hdrCsize := BitVec.ofNat 32 b.payload.length
    hdrUchk := if s.cfg.chkEn then checksum (algOf s.cfg) b.filtered else s.hdrUchk
    hdrCchk := if s.cfg.chkEn then checksum (algOf s.cfg) b.payload else s.hdrCchk
    chkResult := if s.cfg.chkEn then checksum (algOf s.cfg) b.payload else s.chkResult
    out := s.out ++ blockRecord s.cfg b
    ipos := s.ipos + b.plain.length
    blkRead := BitVec.ofNat 32 b.plain.length
    blkWritten := BitVec.ofNat 32 (headerLen s.cfg + b.payload.length)
    totRead := s.totRead + BitVec.ofNat 64 b.plain.length
    totWritten := s.totWritten + BitVec.ofNat 64 (headerLen s.cfg + b.payload.length)
    blkCount := s.blkCount + 1
    phase := .idle }

theorem complete_recordWritten {s : State} (hb : s.busy = false) (b : CodedBlock) :
    complete b.plain.length (headerLen s.cfg + b.payload.length) 1
      (setPhase .idle (recordWritten (acceptCommand s) b)) = blockCompressed s b := by
  obtain ⟨script, ctr, htwo⟩ := takeAnswers_eq 2 s
  obtain ⟨script', ctr', htaken⟩ := ioTaken_eq s
  simp only [recordWritten, recordReady, blockCompressed, takeAnswers_acceptCommand, ioTaken_acceptCommand, htwo,
    htaken, hb]
  rfl

theorem exec_compressBlock_ok {s : State} {b : CodedBlock} (hr : Ready s) (ha : answersOk 2 s)
    (hn : nextInput (blockRequest s) s = b.plain) (hne : b.plain ≠ []) (hc : CompressesTo s.cfg s.platform b) :
    exec .compressBlock s = .next (blockCompressed s b) := by
  rw [exec_compressBlock_ready hr, compressBody_ok (answersOk_acceptCommand ha) hn hne hc, state_ok,
    ← complete_recordWritten hr.1]
  rfl

/-- Settles O37: `blockCompressed` with the record written out. -/
theorem compressBlockCompletes : Obligations.CompressBlockCompletes :=
  fun _ _ hr ha hn hne hc => exec_compressBlock_ok hr ha hn hne hc

/-- Only a whole block or the end of the input ends a `COMPRESS_BLOCK` without a failure. -/
theorem exec_compressBlock_inv {s t : State} (hr : Ready s) (h : exec .compressBlock s = .next t)
    (hb : t.busy = false) (hp : t.phase = .idle) :
    ∃ b : CodedBlock, nextInput (blockRequest s) s = b.plain ∧ b.plain ≠ [] ∧ CompressesTo s.cfg s.platform b ∧
      answersOk 2 s ∧ t = blockCompressed s b := by
  rw [exec_compressBlock_eq] at h
  have hends : ∀ u, compressBody (acceptCommand s) = .ended u → Ends (acceptCommand s) u := fun u hu => by
    simpa [hu, Micro.Holds] using compressBody_holds (acceptCommand s)
  have hok := runCommand_succeeded hr h hb (by simp [hp]) hends
  obtain ⟨ha, ⟨-, rfl⟩ | ⟨b, hn, hne, hc, ha2, rfl⟩⟩ := compressBody_inv hok
  · simp at hp
  · rw [ioTaken_acceptCommand] at ha2
    exact ⟨b, hn, hne, hc, ⟨ha, ha2, trivial⟩, complete_recordWritten hr.1 b⟩

/-! ### The end of the input (R178) -/

theorem exec_compressBlock_eos {s : State} (hr : Ready s) (ha : ioAnswer s = .ok)
    (hn : nextInput (blockRequest s) s = []) :
    exec .compressBlock s = .next { ioTaken s with blkRead := 0, blkWritten := 0, phase := .endOfStream } := by
  have hn' : nextInput (blockRequest (acceptCommand s)) (acceptCommand s) = [] := hn
  rw [exec_compressBlock_ready hr, compressBody, inRead_ok (s := acceptCommand s) ha, hn', andThen_ok,
    ioTaken_acceptCommand]
  obtain ⟨script, ctr, htaken⟩ := ioTaken_eq s
  simp [finishEos, htaken, complete, setPhase, acceptCommand, hr.1]

theorem nextInput_zero (s : State) : nextInput 0 s = [] := List.length_eq_zero_iff.mp (by
  have := nextInput_length_le 0 s
  omega)

/-- Settles O38: an empty answer is the end of the input, whether the input is exhausted or nothing was asked. -/
theorem compressBlockOnEmptyInput : Obligations.CompressBlockOnEmptyInput := by
  refine ⟨fun s => exec_compressBlock_eos, fun s hf hrem => ?_, fun s hz => ?_⟩
  · rw [nextInput_finite hf, hrem, List.take_nil]
  · rw [hz]
    exact (congrArg (nextInput · s) (Nat.zero_min _)).trans (nextInput_zero s)

/-! ### Failures (R180) -/

section Failures

variable {s : State} {v f : Bytes}

/-- A ready unit whose next block `v` has been read: steps 2 to 7 are left. -/
theorem exec_compressBlock_loaded (hr : Ready s) (ha : ioAnswer s = .ok) (hn : nextInput (blockRequest s) s = v)
    (hv : v ≠ []) :
    exec .compressBlock s = .next (compressLoaded v.length (blockRead (acceptCommand s) v)).state := by
  rw [exec_compressBlock_ready hr, compressBody_loaded (s := acceptCommand s) ha hn hv]

/-- A filter that fails ends the block in step 2. -/
theorem compressLoaded_filterError {n : Nat} (hbad : encodeFilter s.cfg s.platform s.ubuf = .fail ∨
    ∃ f, encodeFilter s.cfg s.platform s.ubuf = .bytes f ∧ f.length ≠ s.ubuf.length) :
    compressLoaded n s = raise .filterError (scrambleUbuf s) := by
  rw [compressLoaded, applyFwd_error hbad, andThen_raise]

/-- Steps 2 and 3 with a filter that answers `f`. -/
def filteredChecked (s : State) (f : Bytes) : State :=
  setPhase .cUchk (computeUchk (setPhase .cFiltered { s with ubuf := f }))

theorem compressLoaded_filtered {n : Nat} (hf : encodeFilter s.cfg s.platform s.ubuf = .bytes f)
    (hlen : f.length = s.ubuf.length) :
    ∃ k, compressLoaded n s = (doCompress (filteredChecked s f)).andThen k :=
  ⟨_, by rw [compressLoaded, applyFwd_ok hf hlen, andThen_ok]; rfl⟩

theorem compressRequest_filteredChecked (s : State) (f : Bytes) :
    compressRequest (filteredChecked s f) = ⟨s.cfg.lzoAlg, f, s.cfg.optimize⟩ := by
  simp [compressRequest, filteredChecked]

theorem filteredChecked_blockRead (s : State) (v f : Bytes) :
    filteredChecked (blockRead (acceptCommand s) v) f = { ioTaken s with
      ipos := s.ipos + v.length, ubuf := f,
      hdrUchk := if s.cfg.chkEn then checksum (algOf s.cfg) f else s.hdrUchk,
      chkResult := if s.cfg.chkEn then checksum (algOf s.cfg) f else s.chkResult, phase := .cUchk, busy := true } := by
  obtain ⟨script, ctr, htaken⟩ := ioTaken_eq s
  simp only [filteredChecked, computeUchk_eq, blockRead, ioTaken_acceptCommand, htaken]
  rfl

/-- The whole of steps 1 to 5, on the state before the command. -/
theorem recordReady_acceptCommand (s : State) (b : CodedBlock) :
    recordReady (acceptCommand s) b = { recordReady s b with busy := true } := by
  obtain ⟨script, ctr, htaken⟩ := ioTaken_eq s
  simp only [recordReady, ioTaken_acceptCommand, htaken]
  rfl

/-- Settles O39: the filter stops step 2, the primitive step 4, the write step 6. -/
theorem compressBlockFailures : Obligations.CompressBlockFailures := by
  intro s v hr ha hn hv
  have hload := exec_compressBlock_loaded hr ha hn hv
  obtain ⟨script, ctr, htaken⟩ := ioTaken_eq s
  refine ⟨fun hbad => ?filter, fun f r hf hlen hport hbad => ?primitive, fun b m hb hc hio => ?write⟩
  case filter =>
    refine ⟨(scrambleUbuf (blockRead (acceptCommand s) v)).ubuf, scrambleUbuf_length _, ?_⟩
    rw [hload, compressLoaded_filterError (by simpa [blockRead, setPhase] using hbad), state_raise]
    simp only [scrambleUbuf, blockRead, ioTaken_acceptCommand, htaken]
    rfl
  case primitive =>
    obtain ⟨k, hk⟩ := compressLoaded_filtered (n := v.length) (s := blockRead (acceptCommand s) v) (f := f)
      (by simpa [blockRead, setPhase] using hf) (by simpa [blockRead, setPhase] using hlen)
    have hplat : (filteredChecked (blockRead (acceptCommand s) v) f).platform = s.platform := by
      simp [filteredChecked, blockRead]
    have hport' : lzoCompress s.platform (compressRequest (filteredChecked (blockRead (acceptCommand s) v) f)) = r := by
      rw [compressRequest_filteredChecked]
      simpa [blockRead] using hport
    rw [hload, hk, doCompress_error (by rw [hplat, hport']; exact hbad), andThen_raise, state_raise,
      filteredChecked_blockRead, htaken]
    rfl
  case write =>
    subst hb
    have hio' : ioAnswer (recordReady (acceptCommand s) b) = .ioError m := by
      rw [recordReady_acceptCommand]
      exact hio
    have hbody : compressBody (acceptCommand s) = _ := compressBody_emit (s := acceptCommand s) ha hn hv hc
    rw [exec_compressBlock_ready hr, hbody, outWrite_ioError hio', andThen_raise, state_raise,
      recordReady_acceptCommand]
    have htwo : ioTaken { recordReady s b with busy := true } = { recordReady s b with
        busy := true, ioScript := (takeAnswers 2 s).ioScript, freeCtr := (takeAnswers 2 s).freeCtr } :=
      ioTaken_congr (s := ioTaken s) rfl rfl
    obtain ⟨script', ctr', htwo'⟩ := takeAnswers_eq 2 s
    rw [htwo, htwo']
    simp only [recordReady, htaken]
    rfl

end Failures

end Sys2Proof.Proofs.CompressBlock
end

section
/-! PROOF. `DECOMPRESS_BLOCK` (43_block_codec.md R182 to R190): a whole record under each policy, a primitive, a filter
and a write that fail; and a block's round trip (R193, R194). -/

namespace Sys2Proof.Proofs.DecompressBlock

open Sys2Proof Sys2Proof.Machine
open Sys2Proof.Proofs.Accepted
open Sys2Proof.Proofs.PortCommands
open Sys2Proof.Proofs.FirstRequest
open Sys2Proof.Proofs.BlockRecords
open Sys2Proof.Proofs.CompressBlock
open Sys2Proof.Proofs.ThrowPolicy (decompressBody_compressedSlot_throw exec_decompressBlock_raise payloadLoaded_hdrCchk)
open Sys2Proof.Proofs.ChecksumLaws (checksum_ne_of_byte_ne flipBit_ne)

/-! ### One checksum slot (R187, R188) -/

/-- Settles O42: the policy is asked only on a mismatch. -/
theorem warnAndIgnoreGoOn : Obligations.WarnAndIgnoreGoOn := by
  rintro s b expected c pos rfl hne
  refine ⟨fun hwarn => ?warn, fun hignore which => ?ignore, fun which => checkSlot_match rfl⟩
  case warn =>
    constructor
    all_goals
      rw [checkSlot, if_neg hne, applyPolicy, setChkResult_cfg, hwarn]
      rfl
  case ignore =>
    rw [checkSlot, if_neg hne, applyPolicy, setChkResult_cfg, hignore]
    rfl

/-! ### The steps up to the filter (R182, steps 1 to 5) -/

section Record

variable {s : State} {us cs uc cc : Word} {p d f : Bytes}

/-- Acceptance and steps 1 to 5 do not touch the same fields but `STATE`. -/
theorem slotsPassed_acceptCommand (s : State) (us cs uc cc : Word) (p d : Bytes) :
    slotsPassed us cs uc cc p d (acceptCommand s) = acceptCommand (slotsPassed us cs uc cc p d s) := by
  obtain ⟨script, ctr, htwo⟩ := takeAnswers_eq 2 s
  simp only [slotsPassed, takeAnswers_acceptCommand, htwo]
  rfl

/-- The state in which step 6 of an accepted command filters the block. -/
def readyToFilter (s : State) (us cs uc cc : Word) (p d : Bytes) : State :=
  { slotsPassed us cs uc cc p d s with phase := .chkUChecked, busy := true }

/-- `DECOMPRESS_BLOCK` on a whole record that no slot stops: steps 6 to 8 are left. -/
theorem exec_decompressBlock_slots (hr : Ready s) (ha : answersOk 2 s) (hrec : RecordNext s us cs uc cc p)
    (hz : lzoDecompress s.platform ⟨s.cfg.lzoAlg, p, us.toNat⟩ = .bytes d) (hd : d.length = us.toNat)
    (hs : SlotsPass s.cfg uc cc p d) :
    exec .decompressBlock s = .next ((applyInv (readyToFilter s us cs uc cc p d)).andThen fun _ t =>
      (outWrite t.ubuf (setPhase .filtered t)).andThen fun _ t =>
      .ok () (complete (headerLen t.cfg + t.hdrCsize.toNat) t.hdrUsize.toNat 1
        (setPhase .idle (setPhase .emitted t)))).state := by
  rw [exec_decompressBlock_ready hr,
    decompressBody_slots (s := acceptCommand s) (answersOk_acceptCommand ha) hrec hz hd hs,
    slotsPassed_acceptCommand]
  rfl

theorem slotsPassed_cfg (s : State) (us cs uc cc : Word) (p d : Bytes) :
    (slotsPassed us cs uc cc p d s).cfg = s.cfg ∧ (slotsPassed us cs uc cc p d s).platform = s.platform := by
  obtain ⟨script, ctr, htwo⟩ := takeAnswers_eq 2 s
  simp [slotsPassed, headerStored, htwo]

theorem readyToFilter_decodeFilter (s : State) (us cs uc cc : Word) (p d : Bytes) :
    decodeFilter (readyToFilter s us cs uc cc p d).cfg (readyToFilter s us cs uc cc p d).platform
      (readyToFilter s us cs uc cc p d).ubuf = decodeFilter s.cfg s.platform d := by
  obtain ⟨hcfg, hplat⟩ := slotsPassed_cfg s us cs uc cc p d
  simp only [readyToFilter, hcfg, hplat]
  rfl

/-- The state in which step 7 writes the filtered block `f`. -/
def readyToWrite (s : State) (us cs uc cc : Word) (p d f : Bytes) : State :=
  { slotsPassed us cs uc cc p d s with ubuf := f, phase := .filtered, busy := true }

/-- The same with a filter that answers: steps 7 and 8 are left. -/
theorem exec_decompressBlock_filtered (hr : Ready s) (ha : answersOk 2 s) (hrec : RecordNext s us cs uc cc p)
    (hz : lzoDecompress s.platform ⟨s.cfg.lzoAlg, p, us.toNat⟩ = .bytes d) (hd : d.length = us.toNat)
    (hs : SlotsPass s.cfg uc cc p d) (hf : decodeFilter s.cfg s.platform d = .bytes f) (hl : f.length = d.length) :
    exec .decompressBlock s = .next ((outWrite f (readyToWrite s us cs uc cc p d f)).andThen fun _ t =>
      .ok () (complete (headerLen t.cfg + t.hdrCsize.toNat) t.hdrUsize.toNat 1
        (setPhase .idle (setPhase .emitted t)))).state := by
  rw [exec_decompressBlock_slots hr ha hrec hz hd hs,
    applyInv_ok (f := f) (by rw [readyToFilter_decodeFilter, hf]) hl, andThen_ok]
  rfl

/-- The answer to the write of step 7 is the third. -/
theorem ioTaken_readyToWrite (s : State) (us cs uc cc : Word) (p d f : Bytes) :
    ioTaken (readyToWrite s us cs uc cc p d f) = { readyToWrite s us cs uc cc p d f with
      ioScript := (takeAnswers 3 s).ioScript, freeCtr := (takeAnswers 3 s).freeCtr } :=
  ioTaken_congr (s := takeAnswers 2 s) rfl rfl

/-! ### A whole record (R182) -/

/-- What `DECOMPRESS_BLOCK` leaves of a ready state, when it has written the block `f` of a record. -/
def recordDecompressed (s : State) (us cs uc cc : Word) (p d f : Bytes) : State :=
  { slotsPassed us cs uc cc p d s with
    ubuf := f
    out := s.out ++ f
    blkRead := BitVec.ofNat 32 (headerLen s.cfg + cs.toNat)
    blkWritten := us
    totRead := s.totRead + BitVec.ofNat 64 (headerLen s.cfg + cs.toNat)
    totWritten := s.totWritten + BitVec.ofNat 64 us.toNat
    blkCount := s.blkCount + 1
    phase := .idle
    ioScript := (takeAnswers 3 s).ioScript
    freeCtr := (takeAnswers 3 s).freeCtr }

theorem exec_decompressBlock_ok (hr : Ready s) (ha : answersOk 3 s) (hrec : RecordNext s us cs uc cc p)
    (hz : lzoDecompress s.platform ⟨s.cfg.lzoAlg, p, us.toNat⟩ = .bytes d) (hd : d.length = us.toNat)
    (hs : SlotsPass s.cfg uc cc p d) (hf : decodeFilter s.cfg s.platform d = .bytes f) (hl : f.length = d.length) :
    exec .decompressBlock s = .next (recordDecompressed s us cs uc cc p d f) := by
  have hio : ioAnswer (readyToWrite s us cs uc cc p d f) = .ok := ha.2.2.1
  rw [exec_decompressBlock_filtered hr (answersOk_mono (by omega) ha) hrec hz hd hs hf hl, outWrite_ok hio,
    andThen_ok, state_ok, ioTaken_readyToWrite]
  obtain ⟨script, ctr, htwo⟩ := takeAnswers_eq 2 s
  simp [readyToWrite, recordDecompressed, slotsPassed, headerStored, htwo, complete, setPhase, hr.1]

/-- Settles O40: `recordDecompressed` written out. -/
theorem decompressBlockCompletes : Obligations.DecompressBlockCompletes := by
  rintro s us cs uc cc p d f warnings hr ha hn hp hlen hu hc hz hd hf hl hs rfl
  rw [exec_decompressBlock_ok hr ha ⟨hn, hp, hlen, hu, hc⟩ hz hd hs hf hl]
  obtain ⟨script, ctr, htwo⟩ := takeAnswers_eq 2 s
  obtain ⟨script', ctr', hthree⟩ := takeAnswers_eq 3 s
  simp [recordDecompressed, slotsPassed, headerStored, htwo, hthree]

/-! ### Failures of the primitive, the filter and the streams -/

/-- The state in which step 4 of an accepted command makes its request, when the compressed slot lets it go on. -/
def readyToDecompress (s : State) (us cs uc cc : Word) (p : Bytes) : State :=
  setPhase .chkCChecked (compressedChecked s.totRead (payloadLoaded (acceptCommand s) us cs uc cc p))

theorem readyToDecompress_request (s : State) (us cs uc cc : Word) (p : Bytes) :
    lzoDecompress (readyToDecompress s us cs uc cc p).platform
      (decompressRequest us.toNat (readyToDecompress s us cs uc cc p)) =
      lzoDecompress s.platform ⟨s.cfg.lzoAlg, p, us.toNat⟩ := rfl

/-- Steps 1 to 3 under any policy: the request of step 4 is left. -/
theorem exec_decompressBlock_primitive (hr : Ready s) (ha : answersOk 2 s) (hrec : RecordNext s us cs uc cc p)
    (hs : s.cfg.chkEn = true → s.cfg.policy = .throw → checksum (algOf s.cfg) p = cc) :
    ∃ k : Unit → State → Micro Unit, exec .decompressBlock s =
      .next ((doDecompress us.toNat (readyToDecompress s us cs uc cc p)).andThen k).state := by
  obtain ⟨hn, hp, hlen, hu, hc⟩ := hrec
  have hpass := checkCompressed_ok s.totRead (s := payloadLoaded (acceptCommand s) us cs uc cc p) fun hen hpol =>
    (hs hen hpol).trans (payloadLoaded_hdrCchk (s := acceptCommand s) us cs uc cc p hen).symm
  have hbody := decompressBody_loaded (s := acceptCommand s) (answersOk_acceptCommand ha) hn hp hlen hu hc
  rw [show (acceptCommand s).totRead = s.totRead from rfl, hpass, andThen_ok] at hbody
  exact ⟨_, by rw [exec_decompressBlock_ready hr, hbody]; rfl⟩

/-- Settles O43: nothing between the compressed slot and the primitive looks at the policy. -/
theorem policyDoesNotCoverDecompression : Obligations.PolicyDoesNotCoverDecompression := by
  rintro s us cs uc cc p r hr ha hn hp hlen hu hc hs rfl hbad
  obtain ⟨k, hexec⟩ := exec_decompressBlock_primitive hr ha ⟨hn, hp, hlen, hu, hc⟩ hs
  rw [← readyToDecompress_request s us cs uc cc p] at hbad
  refine ⟨failureEntry .decompressionError (readyToDecompress s us cs uc cc p), ?_, rfl, rfl, rfl, rfl, rfl, rfl, rfl,
    rfl⟩
  rw [hexec, doDecompress_error hbad, andThen_raise, state_raise]

theorem exec_decompressBlock_filterError (hr : Ready s) (ha : answersOk 2 s) (hrec : RecordNext s us cs uc cc p)
    (hz : lzoDecompress s.platform ⟨s.cfg.lzoAlg, p, us.toNat⟩ = .bytes d) (hd : d.length = us.toNat)
    (hs : SlotsPass s.cfg uc cc p d)
    (hbad : decodeFilter s.cfg s.platform d = .fail ∨
      ∃ f, decodeFilter s.cfg s.platform d = .bytes f ∧ f.length ≠ d.length) :
    exec .decompressBlock s =
      .next (failureEntry .filterError (scrambleUbuf (readyToFilter s us cs uc cc p d))) := by
  rw [← readyToFilter_decodeFilter s us cs uc cc p d] at hbad
  rw [exec_decompressBlock_slots hr ha hrec hz hd hs, applyInv_error hbad, andThen_raise, state_raise]

/-- Settles O25: the two commands, and step 6 of the block. -/
theorem filterFailureEntersFailed : Obligations.FilterFailureEntersFailed := by
  refine ⟨fun s r hr hsel hbad => ⟨exec_filtFwd_error hr hsel hbad, exec_filtInv_error hr hsel hbad⟩,
    fun s us cs uc cc p d hr ha hrec hz hd hs hbad => ?_⟩
  refine ⟨(scrambleUbuf (readyToFilter s us cs uc cc p d)).ubuf, scrambleUbuf_length _, ?_⟩
  rw [exec_decompressBlock_filterError hr ha hrec hz hd hs hbad]
  obtain ⟨script, ctr, htwo⟩ := takeAnswers_eq 2 s
  simp only [readyToFilter, scrambleUbuf, slotsPassed, headerStored, htwo]
  rfl

theorem exec_decompressBlock_writeError {m : Nat} (hr : Ready s) (ha : answersOk 2 s)
    (hrec : RecordNext s us cs uc cc p)
    (hz : lzoDecompress s.platform ⟨s.cfg.lzoAlg, p, us.toNat⟩ = .bytes d) (hd : d.length = us.toNat)
    (hs : SlotsPass s.cfg uc cc p d) (hf : decodeFilter s.cfg s.platform d = .bytes f) (hl : f.length = d.length)
    (hio : ioAnswer (takeAnswers 2 s) = .ioError m) :
    exec .decompressBlock s = .next { slotsPassed us cs uc cc p d s with
      ubuf := f, out := s.out ++ f.take m, ioScript := (takeAnswers 3 s).ioScript,
      freeCtr := (takeAnswers 3 s).freeCtr, errState := .filtered, errCode := .ioError, errPos := s.totRead,
      blkRead := 0, blkWritten := 0, phase := .failed, busy := false, activity := .none } := by
  rw [exec_decompressBlock_filtered hr ha hrec hz hd hs hf hl,
    outWrite_ioError (s := readyToWrite s us cs uc cc p d f) hio, andThen_raise, state_raise, ioTaken_readyToWrite]
  obtain ⟨script, ctr, htwo⟩ := takeAnswers_eq 2 s
  simp only [readyToWrite, slotsPassed, headerStored, htwo]
  rfl

/-- Settles O27: the first request of each command, the payload read, and the write of step 7. -/
theorem ioErrorEntersFailed : Obligations.IoErrorEntersFailed := by
  refine ⟨fun s m hr ha => ⟨fun b hcap => (beginsWithRead_bufLoad hr hcap).ioError ha,
      fun b => (beginsWithWrite_bufStore hr).ioError ha, fun hc => (beginsWithWrite_recEmit hr hc).ioError ha,
      fun i hi => ?first⟩,
    fun s us cs uc cc i m hi hr ha hn hu hc hio => ?payload,
    fun s us cs uc cc p d f m hr ha hrec hz hd hs hf hl hio =>
      exec_decompressBlock_writeError hr ha hrec hz hd hs hf hl hio⟩
  case first =>
    rcases hi with rfl | rfl | rfl
    · exact (beginsWithRead_parsing (.inl rfl) hr).ioError ha
    · exact (beginsWithRead_compressBlock hr).ioError ha
    · exact (beginsWithRead_parsing (.inr rfl) hr).ioError ha
  case payload =>
    have hio' : ioAnswer (ioTaken (acceptCommand s)) = .ioError m := by
      rwa [ioTaken_acceptCommand, ioAnswer_acceptCommand]
    rw [exec_parsing_badPayload hi hr ha hn hu hc (readPayload_ioError hio'), failureEntry_payloadRead]

end Record

/-! ### The round trip of one block (R193) -/

/-- The ports take back a block they took from plain to payload, under the two laws at this block. -/
theorem decompressesFrom_of_compressesTo {c c' : Cfg} {p : Platform} {b : CodedBlock} (hc : CompressesTo c p b)
    (hsel : c'.filtSel = c.filtSel) (halg : c'.lzoAlg = c.lzoAlg) (hmax : b.plain.length ≤ p.maxBlockSize)
    (hlzo : LzoRoundTripAt p c.lzoAlg c.optimize b.filtered)
    (hinv : c.filtSel = true → FilterInverseAt p b.plain) : DecompressesFrom c' p b := by
  obtain ⟨hfilter, hlen, hport, hcap⟩ := hc
  have hback := hlzo _ hport
  rw [hlen] at hback
  refine ⟨by rwa [halg], hlen, ?_, hmax, hcap⟩
  unfold decodeFilter
  unfold encodeFilter at hfilter
  rw [hsel]
  split at hfilter
  · rename_i h
    rw [if_pos h]
    exact hinv h _ hfilter
  · rename_i h
    rw [if_neg h]
    injection hfilter with hfilter
    rw [hfilter]

/-- The lengths of a block that fits the buffers, as its header holds them. -/
theorem block_lengths_toNat {p : Platform} {b : CodedBlock} (hu : b.plain.length ≤ p.maxBlockSize)
    (hc : b.payload.length ≤ p.cbufCap) :
    (BitVec.ofNat 32 b.plain.length).toNat = b.plain.length ∧
      (BitVec.ofNat 32 b.payload.length).toNat = b.payload.length := by
  obtain ⟨hmax, hcap⟩ := platform_bounds p
  rw [BitVec.toNat_ofNat, BitVec.toNat_ofNat]
  exact ⟨Nat.mod_eq_of_lt (by omega), Nat.mod_eq_of_lt (by omega)⟩

/-- What `DECOMPRESS_BLOCK` leaves when it has taken a stored record. -/
def storedDecompressed (s : State) (r : StoredBlock) : State :=
  recordDecompressed s (BitVec.ofNat 32 r.block.plain.length) (BitVec.ofNat 32 r.block.payload.length) r.uchk r.cchk
    r.block.payload r.block.filtered r.block.plain

/-- An input that begins with a record that the ports take back. -/
theorem exec_decompressBlock_stored {s : State} {r : StoredBlock} {rest : Bytes} (hr : Ready s) (ha : answersOk 3 s)
    (hfin : s.inputEndless = false) (hrem : remaining s = storedRecord s.cfg r ++ rest)
    (hd : DecompressesFrom s.cfg s.platform r.block)
    (hs : SlotsPass s.cfg r.uchk r.cchk r.block.payload r.block.filtered) :
    exec .decompressBlock s = .next (storedDecompressed s r) ∧
      (storedDecompressed s r).ipos = s.ipos + (headerLen s.cfg + r.block.payload.length) ∧
      remaining (storedDecompressed s r) = rest := by
  obtain ⟨hz, hlen, hfilter, hmax, hcap⟩ := hd
  obtain ⟨hus, hcs⟩ := block_lengths_toNat hmax hcap
  have hrec : RecordNext s _ _ r.uchk r.cchk r.block.payload :=
    recordNext_of_remaining hfin hrem hcs.symm (by rwa [hus]) (by rwa [hcs])
  have hafter := remaining_after_record hrem hcs.symm
  obtain ⟨script, ctr, htwo⟩ := takeAnswers_eq 2 s
  refine ⟨exec_decompressBlock_ok hr ha hrec (by rwa [hus]) (by rw [hlen, hus]) hs hfilter hlen.symm, ?_, ?_⟩
  · simp only [storedDecompressed, recordDecompressed, slotsPassed, hcs, Nat.add_assoc]
  · rw [← hafter]
    simp only [remaining, storedDecompressed, recordDecompressed, slotsPassed, headerStored, htwo]

/-- The record `COMPRESS_BLOCK` writes, as a record on the input: its checksums are right. -/
def storedOf (c : Cfg) (b : CodedBlock) : StoredBlock :=
  ⟨b, checksum (algOf c) b.filtered, checksum (algOf c) b.payload⟩

/-- The same bytes under a configuration with the same checksums. -/
theorem storedRecord_storedOf {c c' : Cfg} (hen : c'.chkEn = c.chkEn) (b : CodedBlock) :
    storedRecord c' (storedOf c b) = blockRecord c b := by
  rw [storedRecord, blockRecord, hen]
  rfl

theorem algOf_congr {c c' : Cfg} (hcrc : c'.crc32 = c.crc32) : algOf c' = algOf c := by
  rw [algOf, algOf, hcrc]

theorem slotsPass_storedOf {c c' : Cfg} (hcrc : c'.crc32 = c.crc32) (b : CodedBlock) :
    SlotsPass c' (storedOf c b).uchk (storedOf c b).cchk b.payload b.filtered :=
  fun _ _ => by rw [algOf_congr hcrc]; exact ⟨rfl, rfl⟩

/-- Right checksums give no diagnostic, whatever the policy. -/
theorem slotWarnings_match (c : Cfg) (pos : DWord) (w : Slot) (e : Word) : slotWarnings c pos w e e = [] := by
  simp [slotWarnings]

/-- Settles O44: the block that was compressed is one the ports take back, and its record is the next input. -/
theorem blockRoundTrip : Obligations.BlockRoundTrip := by
  intro s t u b w rest hr hexec hb hp hblock hout hru hplat hcrc hen hsel halg hfin hrem ha hlzo hinv
  obtain ⟨cb, hn, -, hc, -, rfl⟩ := exec_compressBlock_inv hr hexec hb hp
  have hplain : cb.plain = b := hn.symm.trans hblock
  have hmax : cb.plain.length ≤ s.platform.maxBlockSize := by
    rw [← hn]
    exact (nextInput_length_le _ s).trans (blockRequest_le s)
  have hw : w = blockRecord s.cfg cb := (List.append_cancel_left hout).symm
  rw [hw, ← storedRecord_storedOf hen] at hrem
  have hd : DecompressesFrom u.cfg u.platform cb := by
    rw [hplat]
    exact decompressesFrom_of_compressesTo hc hsel halg hmax hlzo (hplain ▸ hinv)
  obtain ⟨hdec, -, hrest⟩ := exec_decompressBlock_stored hru ha hfin hrem hd (slotsPass_storedOf hcrc cb)
  obtain ⟨script, ctr, htwo⟩ := takeAnswers_eq 2 u
  have hu1 : u.busy = false := hru.1
  have halg' : algOf u.cfg = algOf s.cfg := algOf_congr hcrc
  refine ⟨_, hdec, ?_, rfl, ?_, ?_, ?_, ?_, ?_, ?_, hrest⟩
  all_goals simp [storedDecompressed, recordDecompressed, slotsPassed, headerStored, htwo, storedOf, halg',
    slotWarnings_match, hu1, hplain]

/-- Settles O45: the changed payload has another checksum than the one in the header. -/
theorem payloadCorruptionIsCaught : Obligations.PayloadCorruptionIsCaught := by
  intro s t u header a c rest x k hr hexec hb hp hout hcbuf hk hru hplat hcrc hens henu hpol hfin hrem ha
  obtain ⟨cb, hn, -, ⟨-, -, -, hcap⟩, -, rfl⟩ := exec_compressBlock_inv hr hexec hb hp
  have hpayload : cb.payload = a ++ x :: c := hcbuf
  have hmax : cb.plain.length ≤ s.platform.maxBlockSize := by
    rw [← hn]
    exact (nextInput_length_le _ s).trans (blockRequest_le s)
  obtain ⟨hus, hcs⟩ := block_lengths_toNat hmax hcap
  have hheader : header ++ (a ++ x :: c) = blockRecord s.cfg cb := (List.append_cancel_left hout).symm
  rw [blockRecord, record, hpayload] at hheader
  have hheader := List.append_cancel_right hheader
  have hrec : RecordNext u (BitVec.ofNat 32 cb.plain.length) (BitVec.ofNat 32 cb.payload.length)
      (checksum (algOf s.cfg) cb.filtered) (checksum (algOf s.cfg) cb.payload) (a ++ (x ^^^ (1#8 <<< k)) :: c) := by
    refine recordNext_of_remaining (rest := rest) hfin ?_ ?_ (by rwa [hus, hplat]) (by rwa [hcs, hplat])
    · rw [hrem, hheader, record, henu, ← hens, hpayload]
    · rw [hcs, hpayload]
      simp
  have hne : checksum (algOf u.cfg) (a ++ (x ^^^ (1#8 <<< k)) :: c) ≠ checksum (algOf s.cfg) cb.payload := by
    rw [algOf_congr hcrc, hpayload]
    exact checksum_ne_of_byte_ne _ a c (flipBit_ne x hk)
  exact ⟨_, exec_decompressBlock_raise hru (decompressBody_compressedSlot_throw (s := acceptCommand u)
    (answersOk_acceptCommand ha) hrec henu hpol hne), rfl, rfl, rfl, rfl, rfl, rfl⟩

end Sys2Proof.Proofs.DecompressBlock
end

section
/-! PROOF. A block that fails has written nothing, unless it is the write that failed (60_exceptions.md R242, R253). -/

namespace Sys2Proof.Proofs.FailedBlock

open Sys2Proof Sys2Proof.Machine
open Sys2Proof.Proofs.CommandEnds

/-! ### Steps that do not write -/

theorem inRead_out (n : Nat) (s : State) : (inRead n s).state.out = s.out := by
  rcases inRead_cases n s with h | ⟨m, h⟩ | ⟨m, h⟩ <;> rw [h] <;> simp

theorem takeFilterAnswer_out (r : PortAnswer) (s : State) : (takeFilterAnswer r s).state.out = s.out := by
  unfold takeFilterAnswer
  split
  · split <;> rfl
  · rfl
  · rfl

theorem applyFwd_out (s : State) : (applyFwd s).state.out = s.out := by
  unfold applyFwd
  split
  · exact takeFilterAnswer_out _ s
  · rfl

theorem applyInv_out (s : State) : (applyInv s).state.out = s.out := by
  unfold applyInv
  split
  · exact takeFilterAnswer_out _ s
  · rfl

theorem doCompress_out (s : State) : (doCompress s).state.out = s.out := by
  unfold doCompress
  split
  · split <;> rfl
  · rfl
  · rfl

theorem doDecompress_out (n : Nat) (s : State) : (doDecompress n s).state.out = s.out := by
  unfold doDecompress
  split
  · split <;> rfl
  · rfl
  · rfl

theorem checkSlot_out (w : Slot) (b : Bytes) (e : Word) (pos : DWord) (s : State) :
    (checkSlot w b e pos s).state.out = s.out := by
  unfold checkSlot applyPolicy
  split
  · rfl
  · split <;> simp

theorem checkCompressed_out (pos : DWord) (s : State) : (checkCompressed pos s).state.out = s.out := by
  unfold checkCompressed
  split
  · exact checkSlot_out ..
  · rfl

theorem checkUncompressed_out (pos : DWord) (s : State) : (checkUncompressed pos s).state.out = s.out := by
  unfold checkUncompressed
  split
  · exact checkSlot_out ..
  · rfl

/-- A step that does not write, and then others that do not, leave the output. -/
theorem andThen_out {α β : Type} {m : Micro α} {k : α → State → Micro β} {o : Bytes} (hm : m.state.out = o)
    (hk : ∀ a t, t.out = o → (k a t).state.out = o) : (m.andThen k).state.out = o := by
  cases m with
  | ok a t => exact hk a t hm
  | ended t => exact hm

theorem parseHeader_out (s : State) : (parseHeader s).state.out = s.out := by
  refine andThen_out (inRead_out _ s) fun v t ht => ?_
  split
  · exact ht
  · split
    · exact ht
    · split <;> simp [ht]

theorem readPayload_out (s : State) : (readPayload s).state.out = s.out := by
  refine andThen_out (inRead_out _ s) fun v t ht => ?_
  split <;> exact ht

/-! ### The write is the last step that can fail -/

/-- A failed command has written nothing beyond `o`, or its write failed. -/
def NothingWritten (o : Bytes) (t : State) : Prop := t.phase = .failed → WriteIoError t ∨ t.out = o

/-- A body whose early ends have written nothing beyond `o`, but for a write that failed. -/
def WritesLast (o : Bytes) (m : Micro Unit) : Prop := m.Holds (fun _ _ => True) (NothingWritten o)

theorem writesLast_andThen {α : Type} {m : Micro α} {k : α → State → Micro Unit} {o : Bytes} (hm : m.state.out = o)
    (hk : ∀ a t, t.out = o → WritesLast o (k a t)) : WritesLast o (m.andThen k) := by
  cases m with
  | ok a t => exact hk a t hm
  | ended t => exact fun _ => .inr hm

/-- The write itself, in the state that R242 names, when nothing after it fails. -/
theorem writesLast_outWrite {v o : Bytes} {s : State} {f : State → State}
    (hp : s.phase = .cCchk ∨ s.phase = .filtered) :
    WritesLast o ((outWrite v s).andThen fun _ t => .ok () (f t)) := by
  rcases outWrite_cases v s with h | ⟨m, h⟩ | ⟨m, h⟩ <;> rw [h]
  · trivial
  · exact fun _ => .inl ⟨rfl, by simpa using hp⟩
  · intro hfailed
    rcases hp with hp | hp <;> simp [hp] at hfailed

theorem writesLast_compressBody (s : State) : WritesLast s.out (compressBody s) := by
  refine writesLast_andThen (inRead_out _ s) fun v t ht => ?_
  split
  · trivial
  · refine writesLast_andThen ((applyFwd_out _).trans ht) fun _ t ht => ?_
    refine writesLast_andThen ((doCompress_out _).trans (by simpa using ht)) fun _ t ht => ?_
    exact writesLast_outWrite (.inl (by simp))

theorem writesLast_decompressBody (s : State) : WritesLast s.out (decompressBody s) := by
  refine writesLast_andThen (parseHeader_out s) fun a t ht => ?_
  cases a with
  | eos => trivial
  | header =>
    refine writesLast_andThen ((readPayload_out t).trans ht) fun _ t ht => ?_
    refine writesLast_andThen ((checkCompressed_out _ t).trans ht) fun _ t ht => ?_
    refine writesLast_andThen ((doDecompress_out _ _).trans ht) fun _ t ht => ?_
    refine writesLast_andThen ((checkUncompressed_out _ _).trans ht) fun _ t ht => ?_
    refine writesLast_andThen ((applyInv_out _).trans ht) fun _ t ht => ?_
    exact writesLast_outWrite (.inr rfl)

theorem writesLast_turnBody (d : Direction) (s : State) : WritesLast s.out (turnBody d s) := by
  cases d with
  | compress => exact writesLast_compressBody s
  | decompress => exact writesLast_decompressBody s

theorem exec_blockInstr_out {d : Direction} {s t : State} (hr : Ready s) (h : exec (blockInstr d) s = .next t)
    (hp : t.phase = .failed) (hw : ¬WriteIoError t) : t.out = s.out := by
  rw [ready_blockInstr d hr] at h
  injection h with h
  have hturn := bodyHolds_turn d (acceptCommand s)
  have hlast := writesLast_turnBody d (acceptCommand s)
  cases hm : turnBody d (acceptCommand s) with
  | ok a u =>
    rw [hm] at h hturn
    subst h
    have hc : Completed (acceptCommand s) u := hturn
    rcases hc.phase with hidle | heos <;> simp_all
  | ended u =>
    rw [hm] at h hlast
    subst h
    exact (hlast hp).resolve_left hw

/-- Settles O58: the one write of a block is the last step that can fail. -/
theorem failedBlockWritesNothing : Obligations.FailedBlockWritesNothing := by
  rintro s t i hr (rfl | rfl) hexec hp hw
  · exact exec_blockInstr_out (d := .compress) hr hexec hp hw
  · exact exec_blockInstr_out (d := .decompress) hr hexec hp hw

end Sys2Proof.Proofs.FailedBlock
end

section
/-! PROOF. The loop of a stream command as block commands in a row (44_stream_driver.md R205 to R211): how it can end,
and that on a finite input the turns of one step are enough. -/

namespace Sys2Proof.Proofs.StreamLoop

open Sys2Proof Sys2Proof.Machine
open Sys2Proof.Proofs.CommandEnds
open Sys2Proof.Proofs.WholeMachine (exec_frame)
open Sys2Proof.Proofs.CompressBlock (exec_compressBlock_inv nextInput_zero)

/-! ### One block command -/

/-- What a block command asks of the input first (43_block_codec.md R176, 30_encoding.md R97). -/
def turnRequest (d : Direction) (s : State) : Nat :=
  match d with
  | .compress => blockRequest s
  | .decompress => headerLen s.cfg

theorem exec_blockInstr_eq (d : Direction) (s : State) : exec (blockInstr d) s = runCommand (turnBody d) s := by
  cases d <;> rfl

/-- A block command that did not fail or hang did all its steps. -/
theorem turnBody_of_ended {d : Direction} {s v : State} (hr : Ready s) (h : exec (blockInstr d) s = .next v)
    (hb : v.busy = false) (hp : v.phase ≠ .failed) : turnBody d (acceptCommand s) = .ok () v := by
  rw [exec_blockInstr_eq] at h
  refine runCommand_succeeded hr h hb hp fun u hu => ?_
  simpa [hu, Micro.Holds] using turnBody_holds d (acceptCommand s)

/-- The end of the input is reported only when it delivers nothing. -/
theorem nextInput_of_eos {d : Direction} {s v : State} (hr : Ready s) (h : exec (blockInstr d) s = .next v)
    (hb : v.busy = false) (hp : v.phase = .endOfStream) : nextInput (turnRequest d s) s = [] := by
  have hok := turnBody_of_ended hr h hb (by simp [hp])
  cases d with
  | compress =>
    have hbody := compressBody_holds (acceptCommand s)
    rw [show compressBody (acceptCommand s) = .ok () v from hok] at hbody
    rcases hbody with ⟨hn, -⟩ | ⟨-, u, -, -, -, -, -, -, -, -, rfl⟩
    · exact hn
    · simp at hp
  | decompress =>
    have hbody := decompressBody_holds (acceptCommand s)
    rw [show decompressBody (acceptCommand s) = .ok () v from hok] at hbody
    rcases hbody with ⟨hn, -⟩ | ⟨u, -, -, -, -, -, -, -, -, rfl⟩
    · exact hn
    · simp at hp

/-- Bytes that a finite input delivered stand in it. -/
theorem ipos_add_le_of_delivered {s : State} {n : Nat} (hf : s.inputEndless = false)
    (hn : (nextInput n s).length = n) (hpos : 0 < n ∨ s.ipos ≤ s.input.length) : s.ipos + n ≤ s.input.length := by
  rw [nextInput_finite hf, List.length_take, remaining, List.length_drop] at hn
  omega

/-- A block of the decompress path stands in the finite input that it was read from. -/
theorem decompressBody_ipos_le {s v : State} (hf : s.inputEndless = false) (h : decompressBody s = .ok () v)
    (hp : v.phase = .idle) : v.ipos ≤ s.input.length := by
  obtain ⟨a, t, hparse, hrest⟩ := andThen_eq_ok.mp h
  have hheader := parseHeader_holds s
  rw [hparse] at hheader
  obtain ⟨hq, ⟨rfl, -, -⟩ | ⟨rfl, hlen, -, hipos, hu, hc, -⟩⟩ := hheader
  · cases hrest
    simp at hp
  · have hle := ipos_add_le_of_delivered hf hlen (.inl (headerLen_pos s.cfg))
    obtain ⟨_, w, hpay, -⟩ := andThen_eq_ok.mp hrest
    have hread := readPayload_holds t (by rwa [hq.1.platform])
    rw [hpay] at hread
    obtain ⟨-, -, hcbuf, hclen, -⟩ := hread
    have hle' := ipos_add_le_of_delivered (hq.1.inputEndless.trans hf) (hcbuf ▸ hclen)
      (.inr (by rw [hipos, hq.1.input]; exact hle))
    have hparsed := decompressParsed_holds s.totRead t (by rwa [hq.1.platform]) (by rwa [hq.1.platform])
    rw [show decompressParsed s.totRead t = .ok () v from hrest] at hparsed
    obtain ⟨u, -, -, huipos, -, -, -, -, -, rfl⟩ := hparsed
    simpa [huipos, hq.1.input] using hle'

/-- What a block command leaves that completed a block. -/
structure BlockDone (s v : State) : Prop where
  ready : Ready v
  idle : v.phase = .idle
  frame : Frame s v
  blkCount : v.blkCount = s.blkCount + 1
  ipos : s.ipos < v.ipos
  within : s.inputEndless = false → v.ipos ≤ s.input.length

theorem blockDone_of_exec {d : Direction} {s v : State} (hr : Ready s) (h : exec (blockInstr d) s = .next v)
    (hb : v.busy = false) (hp : v.phase = .idle) : BlockDone s v := by
  have hframe : Frame s v := exec_frame (by cases d <;> simp [blockInstr]) h
  have hok := turnBody_of_ended hr h hb (by simp [hp])
  have hturn := turnBody_holds d (acceptCommand s)
  rw [hok] at hturn
  rcases hturn with rfl | ⟨u, hu, -, hpos, -, hipos, rfl⟩
  · simp at hp
  refine ⟨⟨rfl, .inl rfl⟩, rfl, hframe, by simpa using hu.blkCount, ?_, fun hf => ?_⟩
  · show s.ipos < u.ipos
    rw [hipos]
    exact Nat.lt_add_of_pos_right hpos
  · cases d with
    | compress =>
      obtain ⟨b, hn, hne, -, -, hv⟩ := exec_compressBlock_inv hr h hb hp
      have hle : b.plain.length ≤ s.input.length - s.ipos := by
        rw [← hn, nextInput_finite hf, List.length_take, remaining, List.length_drop]
        exact Nat.min_le_right _ _
      have hlen := List.length_pos_of_ne_nil hne
      rw [hv]
      show s.ipos + b.plain.length ≤ _
      omega
    | decompress => exact decompressBody_ipos_le (s := acceptCommand s) hf hok hp

/-! ### Block commands in a row -/

/-- What `n` block commands in a row leave. -/
structure BlocksDone (n : Nat) (s w : State) : Prop where
  ready : Ready w
  idle : 1 ≤ n → w.phase = .idle
  frame : Frame s w
  blkCount : w.blkCount = s.blkCount + BitVec.ofNat 32 n
  ipos : s.ipos + n ≤ w.ipos
  within : s.inputEndless = false → 1 ≤ n → w.ipos ≤ s.input.length

theorem blocksDone {d : Direction} {n : Nat} {s w : State} (hr : Ready s) (h : blocksRun (blockInstr d) n s w) :
    BlocksDone n s w := by
  induction n generalizing s with
  | zero =>
    cases h
    exact ⟨hr, by simp, .refl _, by simp, by simp, by simp⟩
  | succ n ih =>
    obtain ⟨v, hexec, hb, hp, hrun⟩ := h
    have hfirst := blockDone_of_exec hr hexec hb hp
    have hrest := ih hfirst.ready hrun
    refine ⟨hrest.ready, fun _ => ?_, hfirst.frame.trans hrest.frame, ?_, ?_, fun hf _ => ?_⟩
    · cases n with
      | zero =>
        cases hrun
        exact hp
      | succ n => exact hrest.idle (by omega)
    · rw [hrest.blkCount, hfirst.blkCount, BitVec.ofNat_add, BitVec.add_assoc, BitVec.add_comm (BitVec.ofNat 32 n)]
      rfl
    · have := hrest.ipos
      have := hfirst.ipos
      omega
    · cases n with
      | zero =>
        cases hrun
        exact hfirst.within hf
      | succ n =>
        rw [← hfirst.frame.input]
        exact hrest.within (hfirst.frame.inputEndless.trans hf) (by omega)

/-- On a finite input the blocks in a row are fewer than the turns of one step. -/
theorem blocks_lt_fuel {d : Direction} {n : Nat} {s w : State} (hr : Ready s)
    (h : blocksRun (blockInstr d) n s w) (hf : s.inputEndless = false) : n < streamFuel s := by
  cases n with
  | zero => simp [streamFuel]
  | succ n =>
    have hdone := blocksDone hr h
    have := hdone.ipos
    have := hdone.within hf (by omega)
    simp only [streamFuel]
    omega

/-! ### The loop -/

/-- What a stream command leaves whose first turn is the block command at `s`. -/
def loopResult (d : Direction) (s : State) : State := streamLoop d (streamFuel s) (turnStart d s)

/-- The totals zeroed, as R206 and R207 begin. -/
abbrev totalsZeroed (s : State) : State := { s with totRead := 0, totWritten := 0, blkCount := 0 }

theorem exec_streamInstr_ready (d : Direction) {s : State} (hr : Ready s) :
    exec (streamInstr d) s = .next (loopResult d (totalsZeroed s)) := ready_streamInstr d hr

theorem step_goesOn_loopResult {d : Direction} {s : State} (h : GoesOn d s) :
    step s = .next (loopResult d (resumed s)) := step_goesOn h

/-- How `k` turns of the loop end, when the first `n` of them complete blocks up to the state `w`. -/
inductive LoopEnds (d : Direction) (k n : Nat) (w t : State) : Prop where
  | goesOn (hn : n = k) (h : t = turnStart d w)
  | early (hn : n < k) (hexec : exec (blockInstr d) w = .next t) (h : Ends (acceptCommand w) t)
  | eos (hn : n < k) (v : State) (hexec : exec (blockInstr d) w = .next v) (hb : v.busy = false)
      (hp : v.phase = .endOfStream) (hread : v.totRead = w.totRead) (hwritten : v.totWritten = w.totWritten)
      (hcount : v.blkCount = w.blkCount) (h : t = { v with activity := .none })

theorem LoopEnds.succ {d : Direction} {k n : Nat} {w t : State} : LoopEnds d k n w t → LoopEnds d (k + 1) (n + 1) w t
  | .goesOn hn h => .goesOn (by omega) h
  | .early hn hexec h => .early (by omega) hexec h
  | .eos hn v hexec hb hp hread hwritten hcount h => .eos (by omega) v hexec hb hp hread hwritten hcount h

/-- The turns of the loop are block commands in a row; the last of them may end the command. -/
theorem streamLoop_blocks (d : Direction) (k : Nat) {s : State} (hr : Ready s) :
    ∃ n w, blocksRun (blockInstr d) n s w ∧ LoopEnds d k n w (streamLoop d k (turnStart d s)) := by
  induction k generalizing s with
  | zero => exact ⟨0, s, rfl, .goesOn rfl rfl⟩
  | succ k ih =>
    rcases streamLoop_turn d k hr with ⟨hexec, hends⟩ | ⟨v, hexec, hb, hp, hread, hwritten, hcount, hloop⟩ |
      ⟨v, hexec, hv, hp, -, -, hloop⟩
    · exact ⟨0, s, rfl, .early (by omega) hexec hends⟩
    · exact ⟨0, s, rfl, .eos (by omega) v hexec hb hp hread hwritten hcount hloop⟩
    · obtain ⟨n, w, hrun, hends⟩ := ih hv
      rw [hloop]
      exact ⟨n + 1, w, ⟨v, hexec, hv.1, hp, hrun⟩, hends.succ⟩

/-- Block commands in a row are turns of the loop. -/
theorem streamLoop_of_blocks {d : Direction} {n : Nat} {s w : State} (k : Nat) (hr : Ready s)
    (h : blocksRun (blockInstr d) n s w) :
    streamLoop d (n + k) (turnStart d s) = streamLoop d k (turnStart d w) := by
  induction n generalizing s with
  | zero =>
    cases h
    rw [Nat.zero_add]
  | succ n ih =>
    obtain ⟨v, hexec, hb, hp, hrun⟩ := h
    rw [Nat.add_right_comm]
    rcases streamLoop_turn d (n + k) hr with ⟨hexec', hends⟩ | ⟨v', hexec', -, hp', -⟩ |
      ⟨v', hexec', hv, -, -, -, hloop⟩
    all_goals
      rw [hexec] at hexec'
      cases hexec'
    · rcases failed_or_running_of_ends hends rfl with hfail | hrunning
      · simpa [hp] using hfail.phase
      · simpa [hb] using hrunning.busy
    · simp [hp] at hp'
    · rw [hloop, ih hv hrun]

/-- The turn after `n` blocks is the block command at the state they leave. -/
theorem loopResult_turn {d : Direction} {n : Nat} {s w : State} (hr : Ready s)
    (h : blocksRun (blockInstr d) n s w) (hn : n < streamFuel s) :
    ∃ k, loopResult d s = streamLoop d (k + 1) (turnStart d w) := by
  obtain ⟨k, hk⟩ := Nat.exists_eq_add_of_lt hn
  exact ⟨k, by rw [loopResult, hk, Nat.add_assoc, streamLoop_of_blocks (k + 1) hr h]⟩

/-- A loop ends when a block command finds the end of the input. -/
theorem loopResult_of_eos {d : Direction} {n : Nat} {s w v : State} (hr : Ready s)
    (h : blocksRun (blockInstr d) n s w) (hn : n < streamFuel s) (hexec : exec (blockInstr d) w = .next v)
    (hb : v.busy = false) (hp : v.phase = .endOfStream) : loopResult d s = { v with activity := .none } := by
  obtain ⟨k, hk⟩ := loopResult_turn hr h hn
  rw [hk]
  rcases streamLoop_turn d k (blocksDone hr h).ready with ⟨hexec', hends⟩ | ⟨v', hexec', -, -, -, -, -, hloop⟩ |
    ⟨v', hexec', -, hp', -⟩
  all_goals
    rw [hexec] at hexec'
    cases hexec'
  · rcases failed_or_running_of_ends hends rfl with hfail | hrunning
    · simpa [hp] using hfail.phase
    · simpa [hb] using hrunning.busy
  · exact hloop
  · simp [hp] at hp'

/-- A loop hangs when a block command hangs. -/
theorem loopResult_of_hangs {d : Direction} {n : Nat} {s w : State} (hr : Ready s)
    (h : blocksRun (blockInstr d) n s w) (hn : n < streamFuel s) (hhang : Hangs (blockInstr d) w) :
    (loopResult d s).busy = true ∧ (loopResult d s).activity = .hung := by
  obtain ⟨v, hexec, hb, ha⟩ := hhang
  obtain ⟨k, hk⟩ := loopResult_turn hr h hn
  rw [hk]
  rcases streamLoop_turn d k (blocksDone hr h).ready with ⟨hexec', -⟩ | ⟨v', hexec', hb', -⟩ | ⟨v', hexec', hv, -⟩
  all_goals
    rw [hexec] at hexec'
    cases hexec'
  · exact ⟨hb, ha⟩
  · simp [hb] at hb'
  · simpa [hb] using hv.1

end Sys2Proof.Proofs.StreamLoop
end

section
/-! PROOF. How a stream command ends: with the end of the input, in `FAILED`, running on or hung, each as its block
commands in a row have it (44_stream_driver.md R205 to R211, 60_exceptions.md R250, 70_reset_and_hazards.md R288). -/

namespace Sys2Proof.Proofs.StreamEnds

open Sys2Proof Sys2Proof.Machine
open Sys2Proof.Proofs.CommandEnds
open Sys2Proof.Proofs.StreamLoop
open Sys2Proof.Proofs.IllegalOperand (busyStep_cases)
open Sys2Proof.Proofs.FailedBlock (exec_blockInstr_out)
open Sys2Proof.Proofs.CompressBlock (exec_compressBlock_inv exec_compressBlock_eos nextInput_zero)
open Sys2Proof.Proofs.FirstRequest
open Sys2Proof.Proofs.BlockRecords (exec_parsing_eos hangs_parsing_payload)
open Sys2Proof.Proofs.Accepted

variable {d : Direction} {s t : State}

theorem loopResult_cases (d : Direction) (hr : Ready s) :
    ∃ n w, blocksRun (blockInstr d) n s w ∧ BlocksDone n s w ∧ LoopEnds d (streamFuel s) n w (loopResult d s) := by
  obtain ⟨n, w, hrun, hends⟩ := streamLoop_blocks d (streamFuel s) hr
  exact ⟨n, w, hrun, blocksDone hr hrun, hends⟩

/-! ### The end of the input -/

/-- A request for at least one byte of an endless input is answered with bytes. -/
theorem no_eos_of_endless {w v : State} (hr : Ready w) (he : w.inputEndless = true) (hpos : 0 < turnRequest d w)
    (hexec : exec (blockInstr d) w = .next v) (hb : v.busy = false) : v.phase ≠ .endOfStream := by
  intro hp
  have hlen := nextInput_endless_length (n := turnRequest d w) he
  rw [nextInput_of_eos hr hexec hb hp] at hlen
  simp at hlen
  omega

/-- The request of a turn is the same in every turn. -/
theorem turnRequest_frame {w : State} (h : Frame s w) (d : Direction) : turnRequest d w = turnRequest d s := by
  cases d with
  | compress => simp only [turnRequest, blockRequest, h.blockSize, h.platform]
  | decompress => simp only [turnRequest, h.cfg]

/-- A block command that completes a block has asked for at least one byte. -/
theorem turnRequest_pos {v : State} (hr : Ready s) (hexec : exec (blockInstr d) s = .next v) (hb : v.busy = false)
    (hp : v.phase = .idle) : 0 < turnRequest d s := by
  cases d with
  | decompress => exact headerLen_pos s.cfg
  | compress =>
    obtain ⟨b, hn, hne, -⟩ := exec_compressBlock_inv hr hexec hb hp
    refine Nat.pos_of_ne_zero fun hz => hne ?_
    rw [← hn, show blockRequest s = 0 from hz]
    exact nextInput_zero s

/-- Block commands that reach the end of the input do so within the turns of one step. -/
theorem eos_lt_fuel {n : Nat} {w v : State} (hr : Ready s) (h : blocksRun (blockInstr d) n s w)
    (hexec : exec (blockInstr d) w = .next v) (hb : v.busy = false) (hp : v.phase = .endOfStream) :
    n < streamFuel s := by
  by_cases hf : s.inputEndless = false
  · exact blocks_lt_fuel hr h hf
  · have hdone := blocksDone hr h
    cases n with
    | zero => simp [streamFuel]
    | succ n =>
      obtain ⟨u, hexecu, hbu, hpu, -⟩ := h
      have hpos : 0 < turnRequest d w := by
        rw [turnRequest_frame hdone.frame]
        exact turnRequest_pos hr hexecu hbu hpu
      have he : w.inputEndless = true := hdone.frame.inputEndless.trans (by simpa using hf)
      exact absurd hp (no_eos_of_endless hdone.ready he hpos hexec hb)

/-- The loop reports the end of the input exactly when its block commands in a row do. -/
theorem loopResult_eos_iff (d : Direction) (hr : Ready s) :
    loopResult d s = t ∧ t.phase = .endOfStream ↔ EndsAsBlocks d s t := by
  constructor
  · rintro ⟨rfl, hp⟩
    obtain ⟨n, w, hrun, hdone, hends⟩ := loopResult_cases d hr
    cases hends with
    | goesOn hn h =>
      rw [h] at hp
      cases hp
    | early hn hexec h =>
      rcases failed_or_running_of_ends h rfl with hfail | hrunning
      · simp [hfail.phase] at hp
      · exact absurd hp hrunning.phase.2
    | eos hn v hexec hb hpv hread hwritten hcount h =>
      rw [h]
      exact ⟨n, w, v, hrun, hexec, hb, hpv, rfl, hread, hwritten, hcount.trans hdone.blkCount⟩
  · rintro ⟨n, w, v, hrun, hexec, hb, hp, rfl, -⟩
    exact ⟨loopResult_of_eos hr hrun (eos_lt_fuel hr hrun hexec hb hp) hexec hb hp, hp⟩

theorem exec_streamInstr_eos_iff (d : Direction) (hr : Ready s) :
    exec (streamInstr d) s = .next t ∧ t.phase = .endOfStream ↔ EndsAsBlocks d (totalsZeroed s) t := by
  rw [← loopResult_eos_iff d (s := totalsZeroed s) hr, exec_streamInstr_ready d hr, Host.Outcome.next.injEq]

theorem step_goesOn_eos_iff (h : GoesOn d s) :
    step s = .next t ∧ t.phase = .endOfStream ↔ EndsAsBlocks d (resumed s) t := by
  rw [← loopResult_eos_iff d (ready_resumed h), step_goesOn_loopResult h, Host.Outcome.next.injEq]

/-- The end of the input at the first turn (R210). -/
theorem exec_streamInstr_exhausted (hr : Ready s) (ha : ioAnswer s = .ok) (hn : nextInput (turnRequest d s) s = []) :
    exec (streamInstr d) s = .next { ioTaken s with
      totRead := 0, totWritten := 0, blkCount := 0, blkRead := 0, blkWritten := 0, phase := .endOfStream,
      activity := .none } := by
  have hz : Ready (totalsZeroed s) := hr
  have hexec : exec (blockInstr d) (totalsZeroed s) =
      .next { ioTaken (totalsZeroed s) with blkRead := 0, blkWritten := 0, phase := .endOfStream } := by
    cases d with
    | compress => exact exec_compressBlock_eos hz ha hn
    | decompress => exact exec_parsing_eos (.inr rfl) hz ha hn
  have hfuel : 0 < streamFuel (totalsZeroed s) := by simp [streamFuel]
  rw [exec_streamInstr_ready d hr, loopResult_of_eos (n := 0) hz rfl hfuel hexec (by simpa using hr.1) rfl,
    ioTaken_congr (s := s) (t := totalsZeroed s) rfl rfl]
  obtain ⟨script, ctr, htaken⟩ := ioTaken_eq s
  rw [htaken]

/-- Settles O47: the first turn finds the end of the input. -/
theorem streamCommandsOnEmptyInput : Obligations.StreamCommandsOnEmptyInput := by
  rintro s i hi hr ha hf hrem
  have hn : ∀ n, nextInput n s = [] := fun n => by rw [nextInput_finite hf, hrem, List.take_nil]
  rcases hi with rfl | rfl
  · exact exec_streamInstr_exhausted (d := .compress) hr ha (hn _)
  · exact exec_streamInstr_exhausted (d := .decompress) hr ha (hn _)

/-! ### Failures (R209) -/

theorem loopResult_failed (d : Direction) (hr : Ready s) (hp : (loopResult d s).phase = .failed) :
    FailsAsBlocks d s (loopResult d s) ∧ EndedFailed s (loopResult d s) := by
  obtain ⟨n, w, hrun, hdone, hends⟩ := loopResult_cases d hr
  cases hends with
  | goesOn hn h =>
    rw [h] at hp
    cases hp
  | eos hn v hexec hb hpv hread hwritten hcount h =>
    rw [h] at hp
    simp [hpv] at hp
  | early hn hexec h =>
    rcases failed_or_running_of_ends h rfl with hfail | hrunning
    · rcases h.cases with ⟨-, -, -, -, -, hpos, -, -, hread, hwritten, hcount, -⟩ | ⟨hbusy, -⟩
      · refine ⟨⟨n, w, hrun, hdone.ready, hexec, hread, hwritten, hcount.trans hdone.blkCount, hpos.trans hread,
          h.frame.out, exec_blockInstr_out hdone.ready hexec hp⟩, ?_⟩
        exact { hfail with frame := (hdone.frame.trans (frame_acceptCommand w)).trans hfail.frame }
      · simp [hfail.busy] at hbusy
    · exact absurd hp hrunning.phase.1

/-- Settles O57: every command by what it leaves, the stream commands by their block commands in a row. -/
theorem failuresAreRecorded : Obligations.FailuresAreRecorded := by
  refine ⟨fun s t i hr hexec hp => ?command, fun s t d hr hexec hp => ?stream, fun s t d hgo hstep hp => ?later⟩
  case command =>
    rcases exec_inv hexec with ⟨effect, heffect, -, rfl⟩ | ⟨hf, -⟩ | ⟨-, hleaves, htotals⟩
    · cases heffect with
      | nop => rcases hr.2 with h | h <;> simp [h] at hp
      | clrErr => simp at hp
      | softReset => simp at hp
    · rcases hr.2 with h | h <;> simp [hf.2] at h
    · rcases hleaves with h | h | h
      · rcases h.phase with hq | hq <;> simp [hq] at hp
      · exact ⟨h.errCode, h.errPos, h.blkRead, h.blkWritten, h.busy, fun hi => htotals hi hp⟩
      · exact absurd hp h.phase.1
  case stream =>
    rw [exec_streamInstr_ready d hr] at hexec
    cases hexec
    exact (loopResult_failed d (s := totalsZeroed s) hr hp).1
  case later =>
    rw [step_goesOn_loopResult hgo] at hstep
    cases hstep
    obtain ⟨hblocks, h⟩ := loopResult_failed d (ready_resumed hgo) hp
    exact ⟨hblocks, h.errCode, h.errPos, h.blkRead, h.blkWritten, h.busy⟩

/-! ### Finite and endless inputs (R211) -/

theorem loopResult_finite (d : Direction) (hr : Ready s) (hf : s.inputEndless = false) :
    ((loopResult d s).busy = false ∧ ((loopResult d s).phase = .endOfStream ∨ (loopResult d s).phase = .failed)) ∨
      (loopResult d s).activity = .hung := by
  obtain ⟨n, w, hrun, -, hends⟩ := loopResult_cases d hr
  cases hends with
  | goesOn hn h =>
    have := blocks_lt_fuel hr hrun hf
    omega
  | early hn hexec h =>
    rcases h.cases with ⟨hb, hp, -⟩ | ⟨-, ha, -⟩
    · exact .inl ⟨hb, .inr hp⟩
    · exact .inr ha
  | eos hn v hexec hb hp hread hwritten hcount h =>
    rw [h]
    exact .inl ⟨hb, .inl hp⟩

theorem loopResult_endless (d : Direction) (hr : Ready s) (he : s.inputEndless = true) (hpos : 0 < turnRequest d s) :
    (loopResult d s).phase = .failed ∨ ((loopResult d s).busy = true ∧ (loopResult d s).phase ≠ .endOfStream) := by
  obtain ⟨n, w, -, hdone, hends⟩ := loopResult_cases d hr
  cases hends with
  | goesOn hn h =>
    rw [h]
    exact .inr ⟨rfl, by simp [turnStart]⟩
  | early hn hexec h =>
    rcases failed_or_running_of_ends h rfl with hfail | hrunning
    · exact .inl hfail.phase
    · exact .inr ⟨hrunning.busy, hrunning.phase.2⟩
  | eos hn v hexec hb hp hread hwritten hcount h =>
    rw [← turnRequest_frame hdone.frame] at hpos
    exact absurd hp (no_eos_of_endless hdone.ready (hdone.frame.inputEndless.trans he) hpos hexec hb)

theorem loopResult_looping (d : Direction) (hr : Ready s) {d' : Direction}
    (ha : (loopResult d s).activity = .looping d') : LoopsAsBlocks d s (loopResult d s) := by
  obtain ⟨n, w, hrun, hdone, hends⟩ := loopResult_cases d hr
  cases hends with
  | goesOn hn h =>
    have hpos : 1 ≤ n := by simp [hn, streamFuel]
    refine ⟨n, w, hpos, hrun, h.trans ?_⟩
    rw [turnStart, acceptCommand, ← hdone.idle hpos]
  | early hn hexec h =>
    rcases h.cases with ⟨-, -, hnone, -⟩ | ⟨-, hhung, -⟩
    · simp [hnone] at ha
    · simp [hhung] at ha
  | eos hn v hexec hb hp hread hwritten hcount h =>
    rw [h] at ha
    cases ha

/-- Settles O51: a finite input has fewer blocks than a step has turns; an endless one never ends. -/
theorem streamCommandsEndOnFiniteInput : Obligations.StreamCommandsEndOnFiniteInput := by
  refine ⟨fun s t i hi hr hf hexec => ?finite, fun s t hr he hpos hexec => ?compress,
    fun s t hr he hexec => ?decompress,
    fun s t d hgo he hpos hstep => ?later, fun s t d ha => ⟨fun hr hexec => ?looping, fun hgo hstep => ?loopingLater⟩,
    fun s hr ha hz => ?blockSizeZero⟩
  case finite =>
    obtain ⟨d, rfl⟩ : ∃ d, i = streamInstr d := hi.elim (fun h => ⟨.compress, h⟩) fun h => ⟨.decompress, h⟩
    rw [exec_streamInstr_ready d hr] at hexec
    cases hexec
    exact loopResult_finite d (s := totalsZeroed s) hr hf
  case compress =>
    rw [show Instr.compressStream = streamInstr .compress from rfl, exec_streamInstr_ready _ hr] at hexec
    cases hexec
    exact loopResult_endless .compress (s := totalsZeroed s) hr he hpos
  case decompress =>
    rw [show Instr.decompressStream = streamInstr .decompress from rfl, exec_streamInstr_ready _ hr] at hexec
    cases hexec
    exact loopResult_endless .decompress (s := totalsZeroed s) hr he (headerLen_pos s.cfg)
  case later =>
    rw [step_goesOn_loopResult hgo] at hstep
    cases hstep
    refine loopResult_endless d (ready_resumed hgo) he ?_
    cases d with
    | compress => exact hpos rfl
    | decompress => exact headerLen_pos _
  case looping =>
    rw [exec_streamInstr_ready d hr] at hexec
    cases hexec
    exact loopResult_looping d (s := totalsZeroed s) hr ha
  case loopingLater =>
    rw [step_goesOn_loopResult hgo] at hstep
    cases hstep
    exact loopResult_looping d (ready_resumed hgo) ha
  case blockSizeZero =>
    refine exec_streamInstr_exhausted (d := .compress) hr ha ?_
    rw [turnRequest, blockRequest, hz]
    exact (congrArg (nextInput · s) (Nat.zero_min _)).trans (nextInput_zero s)

end Sys2Proof.Proofs.StreamEnds
end

section
/-! PROOF. Requests that are never answered (70_reset_and_hazards.md R271, R288). -/

namespace Sys2Proof.Proofs.Unanswered

open Sys2Proof Sys2Proof.Machine
open Sys2Proof.Proofs.Accepted
open Sys2Proof.Proofs.PortCommands
open Sys2Proof.Proofs.FirstRequest
open Sys2Proof.Proofs.BlockRecords (hangs_parsing_payload)
open Sys2Proof.Proofs.CompressBlock
open Sys2Proof.Proofs.DecompressBlock
open Sys2Proof.Proofs.StreamLoop

variable {s : State}

/-! ### The block commands -/

section CompressBlock

variable {v f : Bytes}

theorem hangs_compressBlock_filter (hr : Ready s) (ha : ioAnswer s = .ok) (hn : nextInput (blockRequest s) s = v)
    (hv : v ≠ []) (h : encodeFilter s.cfg s.platform v = .never) : Hangs .compressBlock s := by
  have hfilter : applyFwd (blockRead (acceptCommand s) v) = hang (scrambleUbuf (blockRead (acceptCommand s) v)) :=
    applyFwd_never (by simpa [blockRead, setPhase] using h)
  refine hangs_of_state (u := scrambleUbuf (blockRead (acceptCommand s) v)) ?_
  rw [exec_compressBlock_loaded hr ha hn hv, compressLoaded, hfilter, andThen_hang]

theorem hangs_compressBlock_primitive (hr : Ready s) (ha : ioAnswer s = .ok)
    (hn : nextInput (blockRequest s) s = v) (hv : v ≠ []) (hf : encodeFilter s.cfg s.platform v = .bytes f)
    (hlen : f.length = v.length) (h : lzoCompress s.platform ⟨s.cfg.lzoAlg, f, s.cfg.optimize⟩ = .never) :
    Hangs .compressBlock s := by
  obtain ⟨k, hk⟩ := compressLoaded_filtered (n := v.length) (s := blockRead (acceptCommand s) v) (f := f)
    (by simpa [blockRead, setPhase] using hf) (by simpa [blockRead, setPhase] using hlen)
  have hport : doCompress (filteredChecked (blockRead (acceptCommand s) v) f) =
      hang (filteredChecked (blockRead (acceptCommand s) v) f) := by
    refine doCompress_never ?_
    rw [compressRequest_filteredChecked]
    simpa [filteredChecked, blockRead] using h
  refine hangs_of_state (u := filteredChecked (blockRead (acceptCommand s) v) f) ?_
  rw [exec_compressBlock_loaded hr ha hn hv, hk, hport, andThen_hang]

theorem hangs_compressBlock_write {b : CodedBlock} {m : Nat} (hr : Ready s) (ha : ioAnswer s = .ok)
    (hn : nextInput (blockRequest s) s = b.plain) (hne : b.plain ≠ []) (hc : CompressesTo s.cfg s.platform b)
    (h : ioAnswer (ioTaken s) = .never m) : Hangs .compressBlock s := by
  have hio : ioAnswer (recordReady (acceptCommand s) b) = .never m := by
    rw [recordReady_acceptCommand]
    exact h
  have hbody := compressBody_emit (s := acceptCommand s) ha hn hne hc
  rw [outWrite_never hio, andThen_hang] at hbody
  exact hangs_of_state (by rw [exec_compressBlock_ready hr, hbody])

end CompressBlock

section DecompressBlock

variable {us cs uc cc : Word} {p d f : Bytes}

theorem hangs_decompressBlock_primitive (hr : Ready s) (ha : answersOk 2 s) (hrec : RecordNext s us cs uc cc p)
    (hs : s.cfg.chkEn = true → s.cfg.policy = .throw → checksum (algOf s.cfg) p = cc)
    (h : lzoDecompress s.platform ⟨s.cfg.lzoAlg, p, us.toNat⟩ = .never) : Hangs .decompressBlock s := by
  obtain ⟨k, hexec⟩ := exec_decompressBlock_primitive hr ha hrec hs
  rw [← readyToDecompress_request s us cs uc cc p] at h
  rw [doDecompress_never h, andThen_hang] at hexec
  exact hangs_of_state hexec

theorem hangs_decompressBlock_filter (hr : Ready s) (ha : answersOk 2 s) (hrec : RecordNext s us cs uc cc p)
    (hz : lzoDecompress s.platform ⟨s.cfg.lzoAlg, p, us.toNat⟩ = .bytes d) (hd : d.length = us.toNat)
    (hs : SlotsPass s.cfg uc cc p d) (h : decodeFilter s.cfg s.platform d = .never) : Hangs .decompressBlock s := by
  rw [← readyToFilter_decodeFilter s us cs uc cc p d] at h
  have hexec := exec_decompressBlock_slots hr ha hrec hz hd hs
  rw [applyInv_never h, andThen_hang] at hexec
  exact hangs_of_state hexec

theorem hangs_decompressBlock_write {m : Nat} (hr : Ready s) (ha : answersOk 2 s)
    (hrec : RecordNext s us cs uc cc p)
    (hz : lzoDecompress s.platform ⟨s.cfg.lzoAlg, p, us.toNat⟩ = .bytes d) (hd : d.length = us.toNat)
    (hs : SlotsPass s.cfg uc cc p d) (hf : decodeFilter s.cfg s.platform d = .bytes f) (hl : f.length = d.length)
    (h : ioAnswer (takeAnswers 2 s) = .never m) : Hangs .decompressBlock s := by
  have hexec := exec_decompressBlock_filtered hr ha hrec hz hd hs hf hl
  rw [outWrite_never (s := readyToWrite s us cs uc cc p d f) h, andThen_hang] at hexec
  exact hangs_of_state hexec

end DecompressBlock

/-! ### The stream commands -/

theorem hangs_streamInstr {d : Direction} {n : Nat} {u : State} (hr : Ready s)
    (hrun : blocksRun (blockInstr d) n (totalsZeroed s) u) (hn : n < streamFuel (totalsZeroed s))
    (hhang : Hangs (blockInstr d) u) : Hangs (streamInstr d) s :=
  ⟨_, exec_streamInstr_ready d hr, loopResult_of_hangs (s := totalsZeroed s) hr hrun hn hhang⟩

/-- A stream command whose first turn hangs. -/
theorem hangs_streamInstr_first {d : Direction} (hr : Ready s) (hhang : Hangs (blockInstr d) (totalsZeroed s)) :
    Hangs (streamInstr d) s :=
  hangs_streamInstr (n := 0) hr rfl (by simp [streamFuel]) hhang

/-- Blocks within the turns of one step: on a finite input all are. -/
theorem blocks_lt_fuel_of_le {d : Direction} {n : Nat} {u : State} (hr : Ready s)
    (hrun : blocksRun (blockInstr d) n s u) (hle : s.inputEndless = true → n ≤ s.input.length - s.ipos) :
    n < streamFuel s := by
  by_cases hf : s.inputEndless = false
  · exact blocks_lt_fuel hr hrun hf
  · have := hle (by simpa using hf)
    simp only [streamFuel]
    omega

/-! ### The steps that follow -/

/-- A hung unit stays as it is, but for the host's next action. -/
theorem step_hung (hb : s.busy = true) (ha : s.activity = .hung) (hreset : ∀ rest, s.host ≠ .reset :: rest) :
    ∃ t, step s = .next t ∧ t.busy = true ∧ t.activity = .hung ∧ t.phase = s.phase ∧ t.out = s.out ∧
      t.ipos = s.ipos := by
  have hadvance : ∀ u : State, u.activity = .hung → advance u = .next u := fun u hu => by rw [advance, hu]
  rw [step, if_pos hb]
  unfold busyStep
  split
  · rename_i rest hh
    exact absurd hh (hreset rest)
  · rename_i rest _
    exact ⟨_, hadvance { s with host := rest } ha, hb, ha, rfl, rfl, rfl⟩
  · split
    · exact ⟨_, rfl, hb, ha, rfl, rfl, rfl⟩
    · exact ⟨s, hadvance s ha, hb, ha, rfl, rfl, rfl⟩
  · exact ⟨s, hadvance s ha, hb, ha, rfl, rfl, rfl⟩
  · exact ⟨s, hadvance s ha, hb, ha, rfl, rfl, rfl⟩

/-- Settles O28: each request of each command, and the steps that follow. -/
theorem unansweredRequestKeepsBusy : Obligations.UnansweredRequestKeepsBusy := by
  refine ⟨fun s m hr ha => ⟨fun b => (beginsWithWrite_bufStore hr).never ha,
      fun b hcap => (beginsWithRead_bufLoad hr hcap).never ha, fun hc => (beginsWithWrite_recEmit hr hc).never ha,
      (beginsWithRead_parsing (.inl rfl) hr).never ha, (beginsWithRead_compressBlock hr).never ha,
      (beginsWithRead_parsing (.inr rfl) hr).never ha, ?compressStream, ?decompressStream⟩,
    fun s hr => port_commands_hang hr,
    fun s v hr ha hn hv => ⟨hangs_compressBlock_filter hr ha hn hv,
      fun f hf hlen => hangs_compressBlock_primitive hr ha hn hv hf hlen, ?write⟩,
    fun s us cs uc cc m hr ha hn hu hc hio => ⟨hangs_parsing_payload (.inl rfl) hr ha hn hu hc hio,
      hangs_parsing_payload (.inr rfl) hr ha hn hu hc hio⟩,
    fun s us cs uc cc p hr ha hrec => ⟨hangs_decompressBlock_primitive hr ha hrec,
      fun d hz hd hs => ⟨hangs_decompressBlock_filter hr ha hrec hz hd hs,
        fun f m hf hl => hangs_decompressBlock_write hr ha hrec hz hd hs hf hl⟩⟩,
    fun s u d n hle hhang => ⟨fun hr hrun => ?stream, fun hgo hrun => ?later⟩,
    fun s hb ha hreset => step_hung hb ha hreset⟩
  case compressStream =>
    exact hangs_streamInstr_first (d := .compress) hr ((beginsWithRead_compressBlock (s := totalsZeroed s) hr).never ha)
  case decompressStream =>
    exact hangs_streamInstr_first (d := .decompress) hr
      ((beginsWithRead_parsing (s := totalsZeroed s) (.inr rfl) hr).never ha)
  case write =>
    rintro b m rfl hc hio
    exact hangs_compressBlock_write hr ha hn hv hc hio
  case stream =>
    exact hangs_streamInstr hr hrun (blocks_lt_fuel_of_le (s := totalsZeroed s) hr hrun hle) hhang
  case later =>
    have hr := ready_resumed hgo
    exact ⟨_, step_goesOn_loopResult hgo, loopResult_of_hangs hr hrun (blocks_lt_fuel_of_le hr hrun hle) hhang⟩

end Sys2Proof.Proofs.Unanswered
end

section
/-! PROOF. What a stream command's blocks leave as they were (44_stream_driver.md R205). -/

namespace Sys2Proof.Proofs.StreamFrame

open Sys2Proof Sys2Proof.Machine
open Sys2Proof.Proofs.CompressBlock (blockCompressed)
open Sys2Proof.Proofs.DecompressBlock (storedDecompressed recordDecompressed)

/-- What a block command that completes a block, or finds the end of the input, does not write. -/
structure Kept (s t : State) : Prop where
  platform : t.platform = s.platform
  cfg : t.cfg = s.cfg
  input : t.input = s.input
  inputEndless : t.inputEndless = s.inputEndless
  blockSize : t.blockSize = s.blockSize
  errCode : t.errCode = s.errCode
  errState : t.errState = s.errState
  errPos : t.errPos = s.errPos
  matched : t.matched = s.matched
  cmdRej : t.cmdRej = s.cmdRej
  chkExpect : t.chkExpect = s.chkExpect
  xferLen : t.xferLen = s.xferLen
  host : t.host = s.host
  hostReads : t.hostReads = s.hostReads
  busy : t.busy = s.busy
  checksums : s.cfg.chkEn = false → t.hdrUchk = s.hdrUchk ∧ t.hdrCchk = s.hdrCchk ∧ t.chkResult = s.chkResult

theorem Kept.refl (s : State) : Kept s s := by
  constructor <;> simp

theorem Kept.trans {s t u : State} (h : Kept s t) (k : Kept t u) : Kept s u where
  platform := k.platform.trans h.platform
  cfg := k.cfg.trans h.cfg
  input := k.input.trans h.input
  inputEndless := k.inputEndless.trans h.inputEndless
  blockSize := k.blockSize.trans h.blockSize
  errCode := k.errCode.trans h.errCode
  errState := k.errState.trans h.errState
  errPos := k.errPos.trans h.errPos
  matched := k.matched.trans h.matched
  cmdRej := k.cmdRej.trans h.cmdRej
  chkExpect := k.chkExpect.trans h.chkExpect
  xferLen := k.xferLen.trans h.xferLen
  host := k.host.trans h.host
  hostReads := k.hostReads.trans h.hostReads
  busy := k.busy.trans h.busy
  checksums := fun hen => by
    obtain ⟨hu, hc, hr⟩ := h.checksums hen
    obtain ⟨ku, kc, kr⟩ := k.checksums (by rwa [h.cfg])
    exact ⟨ku.trans hu, kc.trans hc, kr.trans hr⟩

theorem kept_blockCompressed (s : State) (b : CodedBlock) : Kept s (blockCompressed s b) := by
  obtain ⟨script, ctr, htwo⟩ := takeAnswers_eq 2 s
  simp only [blockCompressed, htwo]
  constructor
  case checksums =>
    intro hen
    simp [hen]
  all_goals rfl

theorem kept_storedDecompressed (s : State) (r : StoredBlock) : Kept s (storedDecompressed s r) := by
  obtain ⟨script, ctr, htwo⟩ := takeAnswers_eq 2 s
  simp only [storedDecompressed, recordDecompressed, slotsPassed, headerStored, htwo]
  constructor
  case checksums =>
    intro hen
    simp [hen]
  all_goals rfl

/-- What a stream command leaves whose blocks have left `w`, when the next one finds the end of the input. -/
def streamEnded (w : State) : State :=
  { ioTaken w with blkRead := 0, blkWritten := 0, phase := .endOfStream, activity := .none }

theorem kept_streamEnded (w : State) : Kept w (streamEnded w) := by
  obtain ⟨script, ctr, htaken⟩ := ioTaken_eq w
  simp only [streamEnded, htaken]
  constructor
  case checksums => exact fun _ => ⟨rfl, rfl, rfl⟩
  all_goals rfl

theorem blockRequest_kept {s t : State} (h : Kept s t) : blockRequest t = blockRequest s := by
  rw [blockRequest, blockRequest, h.blockSize, h.platform]

end Sys2Proof.Proofs.StreamFrame
end

section
/-! PROOF. `COMPRESS_STREAM` on a finite input (44_stream_driver.md R206, R208, R212). -/

namespace Sys2Proof.Proofs.CompressStream

open Sys2Proof Sys2Proof.Machine
open Sys2Proof.Proofs.CompressBlock
open Sys2Proof.Proofs.StreamLoop
open Sys2Proof.Proofs.StreamEnds
open Sys2Proof.Proofs.StreamFrame
open Sys2Proof.Proofs.DecompressBlock (block_lengths_toNat)

/-! ### Blocks in a row -/

/-- What `COMPRESS_BLOCK` commands in a row leave that wrote the records of `bs`. -/
def blocksCompressed (s : State) (bs : List CodedBlock) : State := bs.foldl blockCompressed s

/-- The plain bytes of the blocks. -/
def plainBytes (bs : List CodedBlock) : Bytes := (bs.map CodedBlock.plain).flatten

/-- The records of the blocks. -/
def recordBytes (c : Cfg) (bs : List CodedBlock) : Bytes := (bs.map (blockRecord c)).flatten

@[simp] theorem plainBytes_nil : plainBytes [] = [] := rfl

@[simp] theorem plainBytes_cons (b : CodedBlock) (bs : List CodedBlock) :
    plainBytes (b :: bs) = b.plain ++ plainBytes bs := rfl

@[simp] theorem recordBytes_nil (c : Cfg) : recordBytes c [] = [] := rfl

@[simp] theorem recordBytes_cons (c : Cfg) (b : CodedBlock) (bs : List CodedBlock) :
    recordBytes c (b :: bs) = blockRecord c b ++ recordBytes c bs := rfl

/-- The effect of blocks in a row on the streams and the counters. -/
structure CompressedTo (s : State) (bs : List CodedBlock) (w : State) : Prop where
  kept : Kept s w
  out : w.out = s.out ++ recordBytes s.cfg bs
  ipos : w.ipos = s.ipos + (plainBytes bs).length
  totRead : w.totRead = s.totRead + BitVec.ofNat 64 (plainBytes bs).length
  totWritten : w.totWritten = s.totWritten + BitVec.ofNat 64 (recordBytes s.cfg bs).length
  blkCount : w.blkCount = s.blkCount + BitVec.ofNat 32 bs.length
  warnC : w.warnC = s.warnC
  warnU : w.warnU = s.warnU
  diag : w.diag = s.diag
  diagCount : w.diagCount = s.diagCount

theorem compressedTo_one (s : State) (b : CodedBlock) : CompressedTo s [b] (blockCompressed s b) := by
  obtain ⟨script, ctr, htwo⟩ := takeAnswers_eq 2 s
  refine ⟨kept_blockCompressed s b, ?_, ?_, ?_, ?_, ?_, ?_, ?_, ?_, ?_⟩
  all_goals simp [blockCompressed, htwo, blockRecord_length]

theorem CompressedTo.cons {s v w : State} {b : CodedBlock} {bs : List CodedBlock} (h : CompressedTo s [b] v)
    (k : CompressedTo v bs w) : CompressedTo s (b :: bs) w where
  kept := h.kept.trans k.kept
  out := by simp [k.out, h.out, h.kept.cfg]
  ipos := by simp [k.ipos, h.ipos, Nat.add_assoc]
  totRead := by simp [k.totRead, h.totRead, BitVec.ofNat_add, BitVec.add_assoc]
  totWritten := by simp [k.totWritten, h.totWritten, h.kept.cfg, BitVec.ofNat_add, BitVec.add_assoc]
  blkCount := by
    rw [k.blkCount, h.blkCount, BitVec.add_assoc, ← BitVec.ofNat_add, List.length_singleton, List.length_cons,
      Nat.add_comm]
  warnC := k.warnC.trans h.warnC
  warnU := k.warnU.trans h.warnU
  diag := k.diag.trans h.diag
  diagCount := k.diagCount.trans h.diagCount

theorem compressedTo_blocks (s : State) (bs : List CodedBlock) : CompressedTo s bs (blocksCompressed s bs) := by
  induction bs generalizing s with
  | nil => exact ⟨.refl s, by simp [blocksCompressed], by simp [blocksCompressed], by simp [blocksCompressed],
      by simp [blocksCompressed], by simp [blocksCompressed], rfl, rfl, rfl, rfl⟩
  | cons b bs ih => exact (compressedTo_one s b).cons (ih (blockCompressed s b))

/-- The last block is the one whose bytes and checksums the unit still holds. -/
theorem blocksCompressed_last {s : State} {bs : List CodedBlock} {b : CodedBlock} (h : bs.getLast? = some b) :
    ∃ v, v.cfg = s.cfg ∧ blocksCompressed s bs = blockCompressed v b := by
  obtain ⟨init, rfl⟩ := List.getLast?_eq_some_iff.mp h
  exact ⟨blocksCompressed s init, (compressedTo_blocks s init).kept.cfg, by simp [blocksCompressed]⟩

theorem ready_blockCompressed {s : State} (hr : Ready s) (b : CodedBlock) : Ready (blockCompressed s b) :=
  ⟨(kept_blockCompressed s b).busy.trans hr.1, .inl rfl⟩

theorem answersOk_blockCompressed {s : State} {k : Nat} (b : CodedBlock) (ha : answersOk (2 + k) s) :
    answersOk k (blockCompressed s b) :=
  answersOk_congr k (s := takeAnswers 2 s) rfl rfl (answersOk_takeAnswers ha)

/-- The rest of the input behind a block. -/
theorem remaining_blockCompressed (s : State) (b : CodedBlock) :
    remaining (blockCompressed s b) = (remaining s).drop b.plain.length := by
  have h := compressedTo_one s b
  rw [remaining, remaining, h.kept.input, h.ipos, List.drop_drop]
  simp

/-! ### How an input is cut -/

theorem chunked_cons_iff {n : Nat} {b : CodedBlock} {bs : List CodedBlock} : chunked n (b :: bs) ↔
    1 ≤ b.plain.length ∧ b.plain.length ≤ n ∧ (bs ≠ [] → b.plain.length = n) ∧ chunked n bs := by
  cases bs with
  | nil => simp [chunked]
  | cons b' rest =>
    simp only [chunked, ne_eq, reduceCtorEq, not_false_eq_true, forall_const]
    constructor
    · exact fun ⟨hpos, hlen, hrest⟩ => ⟨hpos, Nat.le_of_eq hlen, hlen, hrest⟩
    · exact fun ⟨hpos, _, hlen, hrest⟩ => ⟨hpos, hlen, hrest⟩

/-- The first block of a cut input is what a request for a block delivers. -/
theorem take_plainBytes {n : Nat} {b : CodedBlock} {bs : List CodedBlock} (h : chunked n (b :: bs)) :
    (plainBytes (b :: bs)).take n = b.plain := by
  obtain ⟨-, hle, hlen, -⟩ := chunked_cons_iff.mp h
  cases bs with
  | nil => simpa using hle
  | cons b' rest => simp [← hlen (by simp)]

/-- On a cut input the block commands write the records and reach the end. -/
theorem blocksRun_compress {s : State} {bs : List CodedBlock} (hr : Ready s) (hf : s.inputEndless = false)
    (hrem : remaining s = plainBytes bs) (hcut : chunked (blockRequest s) bs)
    (hc : ∀ b ∈ bs, CompressesTo s.cfg s.platform b) (ha : answersOk (2 * bs.length + 1) s) :
    blocksRun .compressBlock bs.length s (blocksCompressed s bs) ∧ Ready (blocksCompressed s bs) ∧
      remaining (blocksCompressed s bs) = [] ∧ ioAnswer (blocksCompressed s bs) = .ok := by
  induction bs generalizing s with
  | nil => exact ⟨rfl, hr, hrem, ha.1⟩
  | cons b bs ih =>
    have hkept := kept_blockCompressed s b
    obtain ⟨hpos, -, -, hrest⟩ := chunked_cons_iff.mp hcut
    have hn : nextInput (blockRequest s) s = b.plain := by
      rw [nextInput_finite hf, hrem, take_plainBytes hcut]
    have hexec := exec_compressBlock_ok hr (answersOk_mono (by simp; omega) ha) hn
      (List.ne_nil_of_length_pos hpos) (hc b (by simp))
    obtain ⟨hrun, hready, hend, hio⟩ := ih (ready_blockCompressed hr b) (hkept.inputEndless.trans hf)
      (by rw [remaining_blockCompressed, hrem]; simp) (by rwa [blockRequest_kept hkept])
      (fun b' hb' => by rw [hkept.cfg, hkept.platform]; exact hc b' (by simp [hb']))
      (answersOk_blockCompressed b (answersOk_mono (by simp; omega) ha))
    exact ⟨⟨_, hexec, hkept.busy.trans hr.1, rfl, hrun⟩, hready, hend, hio⟩

/-- `COMPRESS_STREAM` on a cut input. -/
theorem exec_compressStream_ok {s : State} {bs : List CodedBlock} (hr : Ready s) (hf : s.inputEndless = false)
    (hrem : remaining s = plainBytes bs) (hcut : chunked (blockRequest s) bs)
    (hc : ∀ b ∈ bs, CompressesTo s.cfg s.platform b) (ha : answersOk (2 * bs.length + 1) s) :
    exec .compressStream s = .next (streamEnded (blocksCompressed (totalsZeroed s) bs)) := by
  have ha0 : answersOk (2 * bs.length + 1) (totalsZeroed s) := answersOk_congr _ (s := s) rfl rfl ha
  obtain ⟨hrun, hready, hend, hio⟩ := blocksRun_compress (s := totalsZeroed s) hr hf hrem hcut hc ha0
  have hfin := (compressedTo_blocks (totalsZeroed s) bs).kept.inputEndless.trans hf
  have hexec := exec_compressBlock_eos hready hio (by rw [nextInput_finite hfin, hend, List.take_nil])
  have hbusy := (kept_streamEnded (blocksCompressed (totalsZeroed s) bs)).busy.trans hready.1
  have hloop := loopResult_of_eos (d := .compress) (s := totalsZeroed s) hr hrun (blocks_lt_fuel (d := .compress)
    (s := totalsZeroed s) hr hrun hf) hexec hbusy rfl
  exact (exec_streamInstr_ready .compress hr).trans (congrArg _ hloop)

/-- Settles O48: the blocks' effect read off field by field, and the tie to block commands. -/
theorem compressStreamCompletes : Obligations.CompressStreamCompletes := by
  refine ⟨fun s bs hr hf hpos hrem hcut hc ha => ?completes, fun s t hr => exec_streamInstr_eos_iff .compress hr,
    fun s t hgo => step_goesOn_eos_iff hgo⟩
  have hto := compressedTo_blocks (totalsZeroed s) bs
  have hkept := hto.kept.trans (kept_streamEnded _)
  have hlen : (plainBytes bs).length = s.input.length - s.ipos := by
    rw [plainBytes, ← hrem, remaining, List.length_drop]
  obtain ⟨script, ctr, htaken⟩ := ioTaken_eq (blocksCompressed (totalsZeroed s) bs)
  have hipos : s.ipos + (plainBytes bs).length = s.input.length := by omega
  refine ⟨_, exec_compressStream_ok hr hf hrem hcut hc ha, hkept.busy.trans hr.1, rfl, rfl, ?_, ?ipos, ?_, ?_, ?_, rfl,
    rfl, hkept.cfg, hkept.blockSize, hkept.errCode, hkept.errState, hkept.errPos, hkept.matched, ?_, ?_, hkept.cmdRej,
    hkept.chkExpect, hkept.xferLen, ?_, ?_, hkept.host, hkept.hostReads, hkept.platform, hkept.input, hkept.checksums,
    fun b hb => ?last⟩
  case last =>
    obtain ⟨v, hcfg, hv⟩ := blocksCompressed_last (s := totalsZeroed s) hb
    rw [hv] at htaken
    have hcfg' : v.cfg = s.cfg := hcfg
    rw [hv]
    simp +contextual [streamEnded, blockCompressed, hcfg']
  case ipos => simp [streamEnded, htaken, hto.ipos, hipos]
  all_goals simp [streamEnded, htaken, hto.out, hto.totRead, hto.totWritten, hto.blkCount, hto.warnC, hto.warnU,
    hto.diag, hto.diagCount, hrem, plainBytes, recordBytes]

end Sys2Proof.Proofs.CompressStream
end

section
/-! PROOF. `DECOMPRESS_STREAM` on a finite input of records (44_stream_driver.md R207, R208). -/

namespace Sys2Proof.Proofs.DecompressStream

open Sys2Proof Sys2Proof.Machine
open Sys2Proof.Proofs.DecompressBlock
open Sys2Proof.Proofs.BlockRecords (exec_parsing_eos)
open Sys2Proof.Proofs.StreamLoop
open Sys2Proof.Proofs.StreamEnds
open Sys2Proof.Proofs.StreamFrame

/-! ### Diagnostics -/

/-- A diagnostic of the list is of this slot: the sticky flag of R187. -/
def anyOf (which : Slot) (ws : List DiagRecord) : Bool := ws.any fun w => decide (w.which = which)

@[simp] theorem anyOf_append (which : Slot) (ws ws' : List DiagRecord) :
    anyOf which (ws ++ ws') = (anyOf which ws || anyOf which ws') := List.any_append

@[simp] theorem anyOf_slotWarnings_same (c : Cfg) (pos : DWord) (which : Slot) (e x : Word) :
    anyOf which (slotWarnings c pos which e x) = !(slotWarnings c pos which e x).isEmpty := by
  unfold slotWarnings
  split <;> simp [anyOf]

@[simp] theorem anyOf_slotWarnings_other {which which' : Slot} (c : Cfg) (pos : DWord) (e x : Word)
    (h : which ≠ which') : anyOf which' (slotWarnings c pos which e x) = false := by
  unfold slotWarnings
  split <;> simp [anyOf, h]

/-! ### Records in a row -/

/-- What `DECOMPRESS_BLOCK` commands in a row leave that took the records `rs`. -/
def blocksDecompressed (s : State) (rs : List StoredBlock) : State := rs.foldl storedDecompressed s

/-- The bytes of the records. -/
def storedBytes (c : Cfg) (rs : List StoredBlock) : Bytes := (rs.map (storedRecord c)).flatten

/-- The plain bytes of the records. -/
def blockBytes (rs : List StoredBlock) : Bytes := (rs.map fun r => r.block.plain).flatten

@[simp] theorem storedBytes_nil (c : Cfg) : storedBytes c [] = [] := rfl

@[simp] theorem storedBytes_cons (c : Cfg) (r : StoredBlock) (rs : List StoredBlock) :
    storedBytes c (r :: rs) = storedRecord c r ++ storedBytes c rs := rfl

@[simp] theorem blockBytes_nil : blockBytes [] = [] := rfl

@[simp] theorem blockBytes_cons (r : StoredBlock) (rs : List StoredBlock) :
    blockBytes (r :: rs) = r.block.plain ++ blockBytes rs := rfl

theorem storedRecord_length (c : Cfg) (r : StoredBlock) :
    (storedRecord c r).length = headerLen c + r.block.payload.length := by
  rw [storedRecord, record, List.length_append, headerLen_eq]

/-- The effect of records in a row on the streams, the counters and the diagnostics. -/
structure DecompressedTo (s : State) (rs : List StoredBlock) (w : State) : Prop where
  kept : Kept s w
  out : w.out = s.out ++ blockBytes rs
  ipos : w.ipos = s.ipos + (storedBytes s.cfg rs).length
  totRead : w.totRead = s.totRead + BitVec.ofNat 64 (storedBytes s.cfg rs).length
  totWritten : w.totWritten = s.totWritten + BitVec.ofNat 64 (blockBytes rs).length
  blkCount : w.blkCount = s.blkCount + BitVec.ofNat 32 rs.length
  diag : w.diag = s.diag ++ streamWarnings s.cfg s.totRead rs
  diagCount : w.diagCount = s.diagCount + BitVec.ofNat 32 (streamWarnings s.cfg s.totRead rs).length
  warnC : w.warnC = (s.warnC || anyOf .compressed (streamWarnings s.cfg s.totRead rs))
  warnU : w.warnU = (s.warnU || anyOf .uncompressed (streamWarnings s.cfg s.totRead rs))

theorem decompressedTo_nil (s : State) : DecompressedTo s [] s := by
  refine ⟨.refl s, ?_, ?_, ?_, ?_, ?_, ?_, ?_, ?_, ?_⟩
  all_goals simp [streamWarnings, anyOf]

/-- The block of the record fits the buffers. -/
abbrev FitsBuffers (p : Platform) (b : CodedBlock) : Prop :=
  b.plain.length ≤ p.maxBlockSize ∧ b.payload.length ≤ p.cbufCap

theorem decompressedTo_one {s : State} {r : StoredBlock} (h : FitsBuffers s.platform r.block) :
    DecompressedTo s [r] (storedDecompressed s r) := by
  obtain ⟨script, ctr, htwo⟩ := takeAnswers_eq 2 s
  obtain ⟨hus, hcs⟩ := block_lengths_toNat h.1 h.2
  refine ⟨kept_storedDecompressed s r, ?_, ?_, ?_, ?_, ?_, ?_, ?_, ?_, ?_⟩
  all_goals simp only [storedDecompressed, recordDecompressed, slotsPassed, headerStored, htwo, hus, hcs]
  all_goals simp [streamWarnings, storedRecord_length, Nat.add_assoc]

theorem DecompressedTo.cons {s v w : State} {r : StoredBlock} {rs : List StoredBlock} (h : DecompressedTo s [r] v)
    (k : DecompressedTo v rs w) : DecompressedTo s (r :: rs) w := by
  have hpos : v.totRead = s.totRead + BitVec.ofNat 64 (headerLen s.cfg + r.block.payload.length) := by
    rw [h.totRead]
    simp [storedRecord_length]
  have hwarn : streamWarnings s.cfg s.totRead (r :: rs) =
      streamWarnings s.cfg s.totRead [r] ++ streamWarnings v.cfg v.totRead rs := by
    simp [streamWarnings, hpos, h.kept.cfg]
  exact {
    kept := h.kept.trans k.kept
    out := by simp [k.out, h.out]
    ipos := by simp [k.ipos, h.ipos, h.kept.cfg, Nat.add_assoc]
    totRead := by simp [k.totRead, h.totRead, h.kept.cfg, BitVec.ofNat_add, BitVec.add_assoc]
    totWritten := by simp [k.totWritten, h.totWritten, BitVec.ofNat_add, BitVec.add_assoc]
    blkCount := by
      rw [k.blkCount, h.blkCount, BitVec.add_assoc, ← BitVec.ofNat_add, List.length_singleton, List.length_cons,
        Nat.add_comm]
    diag := by rw [k.diag, h.diag, hwarn, List.append_assoc]
    diagCount := by rw [k.diagCount, h.diagCount, hwarn, List.length_append, BitVec.ofNat_add, BitVec.add_assoc]
    warnC := by rw [k.warnC, h.warnC, hwarn, anyOf_append, Bool.or_assoc]
    warnU := by rw [k.warnU, h.warnU, hwarn, anyOf_append, Bool.or_assoc] }

theorem decompressedTo_blocks {s : State} {rs : List StoredBlock} (h : ∀ r ∈ rs, FitsBuffers s.platform r.block) :
    DecompressedTo s rs (blocksDecompressed s rs) := by
  induction rs generalizing s with
  | nil => exact decompressedTo_nil s
  | cons r rs ih =>
    refine (decompressedTo_one (h r (by simp))).cons (ih fun r' hr' => ?_)
    rw [(kept_storedDecompressed s r).platform]
    exact h r' (by simp [hr'])

theorem kept_blocksDecompressed (s : State) (rs : List StoredBlock) : Kept s (blocksDecompressed s rs) := by
  induction rs generalizing s with
  | nil => exact .refl s
  | cons r rs ih => exact (kept_storedDecompressed s r).trans (ih _)

/-- The last record is the one whose bytes and checksums the unit still holds. -/
theorem blocksDecompressed_last {s : State} {rs : List StoredBlock} {r : StoredBlock} (h : rs.getLast? = some r) :
    ∃ v, v.cfg = s.cfg ∧ blocksDecompressed s rs = storedDecompressed v r := by
  obtain ⟨init, rfl⟩ := List.getLast?_eq_some_iff.mp h
  exact ⟨blocksDecompressed s init, (kept_blocksDecompressed s init).cfg, by simp [blocksDecompressed]⟩

theorem answersOk_storedDecompressed {s : State} {k : Nat} (r : StoredBlock) (ha : answersOk (3 + k) s) :
    answersOk k (storedDecompressed s r) :=
  answersOk_congr k (s := takeAnswers 3 s) rfl rfl (answersOk_takeAnswers ha)

/-- On an input of records the block commands write the blocks and reach the end. -/
theorem blocksRun_decompress {s : State} {rs : List StoredBlock} (hr : Ready s) (hf : s.inputEndless = false)
    (hrem : remaining s = storedBytes s.cfg rs)
    (hd : ∀ r ∈ rs, DecompressesFrom s.cfg s.platform r.block ∧
      SlotsPass s.cfg r.uchk r.cchk r.block.payload r.block.filtered)
    (ha : answersOk (3 * rs.length + 1) s) :
    blocksRun .decompressBlock rs.length s (blocksDecompressed s rs) ∧ Ready (blocksDecompressed s rs) ∧
      remaining (blocksDecompressed s rs) = [] ∧ ioAnswer (blocksDecompressed s rs) = .ok := by
  induction rs generalizing s with
  | nil => exact ⟨rfl, hr, hrem, ha.1⟩
  | cons r rs ih =>
    have hkept := kept_storedDecompressed s r
    obtain ⟨hdec, hslots⟩ := hd r (by simp)
    obtain ⟨hexec, -, hrest⟩ :=
      exec_decompressBlock_stored hr (answersOk_mono (by simp; omega) ha) hf hrem hdec hslots
    obtain ⟨hrun, hready, hend, hio⟩ := ih ⟨hkept.busy.trans hr.1, .inl rfl⟩ (hkept.inputEndless.trans hf)
      (by rw [hrest, hkept.cfg]; rfl)
      (fun r' hr' => by rw [hkept.cfg, hkept.platform]; exact hd r' (by simp [hr']))
      (answersOk_storedDecompressed r (answersOk_mono (by simp; omega) ha))
    exact ⟨⟨_, hexec, hkept.busy.trans hr.1, rfl, hrun⟩, hready, hend, hio⟩

/-- `DECOMPRESS_STREAM` on an input of records. -/
theorem exec_decompressStream_ok {s : State} {rs : List StoredBlock} (hr : Ready s) (hf : s.inputEndless = false)
    (hrem : remaining s = storedBytes s.cfg rs)
    (hd : ∀ r ∈ rs, DecompressesFrom s.cfg s.platform r.block ∧
      SlotsPass s.cfg r.uchk r.cchk r.block.payload r.block.filtered)
    (ha : answersOk (3 * rs.length + 1) s) :
    exec .decompressStream s = .next (streamEnded (blocksDecompressed (totalsZeroed s) rs)) := by
  have ha0 : answersOk (3 * rs.length + 1) (totalsZeroed s) := answersOk_congr _ (s := s) rfl rfl ha
  obtain ⟨hrun, hready, hend, hio⟩ := blocksRun_decompress (s := totalsZeroed s) hr hf hrem hd ha0
  have hfin := (kept_blocksDecompressed (totalsZeroed s) rs).inputEndless.trans hf
  have hexec := exec_parsing_eos (.inr rfl) hready hio (by rw [nextInput_finite hfin, hend, List.take_nil])
  have hbusy := (kept_streamEnded (blocksDecompressed (totalsZeroed s) rs)).busy.trans hready.1
  have hloop := loopResult_of_eos (d := .decompress) (s := totalsZeroed s) hr hrun (blocks_lt_fuel (d := .decompress)
    (s := totalsZeroed s) hr hrun hf) hexec hbusy rfl
  exact (exec_streamInstr_ready .decompress hr).trans (congrArg _ hloop)

/-- Settles O49: the records' effect read off field by field, and the tie to block commands. -/
theorem decompressStreamCompletes : Obligations.DecompressStreamCompletes := by
  refine ⟨fun s rs hr hf hpos hrem hd ha => ?completes, fun s t hr => exec_streamInstr_eos_iff .decompress hr,
    fun s t hgo => step_goesOn_eos_iff hgo⟩
  have hto := decompressedTo_blocks (s := totalsZeroed s) fun r hmem => by
    obtain ⟨⟨-, -, -, hmax, hcap⟩, -⟩ := hd r hmem
    exact ⟨hmax, hcap⟩
  have hkept := hto.kept.trans (kept_streamEnded _)
  have hlen : (storedBytes s.cfg rs).length = s.input.length - s.ipos := by
    rw [storedBytes, ← hrem, remaining, List.length_drop]
  obtain ⟨script, ctr, htaken⟩ := ioTaken_eq (blocksDecompressed (totalsZeroed s) rs)
  have hipos : s.ipos + (storedBytes s.cfg rs).length = s.input.length := by omega
  refine ⟨_, exec_decompressStream_ok hr hf hrem hd ha, hkept.busy.trans hr.1, rfl, rfl, ?_, ?ipos, ?_, ?_, ?_, rfl,
    rfl, hkept.cfg, hkept.blockSize, hkept.errCode, hkept.errState, hkept.errPos, hkept.matched, hkept.cmdRej,
    hkept.chkExpect, hkept.xferLen, ?_, ?_, ?_, ?_, hkept.host, hkept.hostReads, hkept.platform, hkept.input,
    hkept.checksums, fun r hlast => ?last⟩
  case last =>
    obtain ⟨v, hcfg, hv⟩ := blocksDecompressed_last (s := totalsZeroed s) hlast
    have hcfg' : v.cfg = s.cfg := hcfg
    obtain ⟨script', ctr', htwo⟩ := takeAnswers_eq 2 v
    rw [hv]
    simp +contextual [streamEnded, storedDecompressed, recordDecompressed, slotsPassed, headerStored, htwo, hcfg']
  case ipos => simp [streamEnded, htaken, hto.ipos, hipos]
  all_goals simp [streamEnded, htaken, hto.out, hto.totRead, hto.totWritten, hto.blkCount, hto.warnC, hto.warnU,
    hto.diag, hto.diagCount, hrem, storedBytes, blockBytes, anyOf]

end Sys2Proof.Proofs.DecompressStream
end

section
/-! PROOF. What a `COMPRESS_STREAM` that reached the end of a finite input has done: how the input was cut
(44_stream_driver.md R212), and the stream round trip (R213). -/

namespace Sys2Proof.Proofs.StreamRoundTrip

open Sys2Proof Sys2Proof.Machine
open Sys2Proof.Proofs.CompressBlock
open Sys2Proof.Proofs.CompressStream
open Sys2Proof.Proofs.DecompressBlock
open Sys2Proof.Proofs.DecompressStream
open Sys2Proof.Proofs.StreamLoop
open Sys2Proof.Proofs.StreamEnds
open Sys2Proof.Proofs.StreamFrame

/-! ### The blocks of a completed stream -/

/-- Block commands in a row up to the end of a finite input have cut it. -/
theorem blocksRun_compress_inv {n : Nat} {s w : State} (hr : Ready s) (hf : s.inputEndless = false)
    (h : blocksRun .compressBlock n s w) (hend : remaining w = []) :
    ∃ bs : List CodedBlock, bs.length = n ∧ w = blocksCompressed s bs ∧ remaining s = plainBytes bs ∧
      chunked (blockRequest s) bs ∧ ∀ b ∈ bs, CompressesTo s.cfg s.platform b := by
  induction n generalizing s with
  | zero =>
    cases h
    exact ⟨[], rfl, rfl, hend, trivial, by simp⟩
  | succ n ih =>
    obtain ⟨v, hexec, hb, hp, hrun⟩ := h
    obtain ⟨b, hn, hne, hc, -, rfl⟩ := exec_compressBlock_inv hr hexec hb hp
    have hkept := kept_blockCompressed s b
    obtain ⟨bs, hlen, hw, hrem, hcut, hall⟩ :=
      ih (ready_blockCompressed hr b) (hkept.inputEndless.trans hf) hrun
    rw [nextInput_finite hf] at hn
    rw [blockRequest_kept hkept] at hcut
    have hprefix : b.plain <+: remaining s := hn ▸ List.take_prefix _ _
    have hwhole : remaining s = b.plain ++ plainBytes bs := by
      rw [← hrem, remaining_blockCompressed, List.prefix_iff_eq_append.mp hprefix]
    have hmin : b.plain.length = min (blockRequest s) (remaining s).length := by rw [← hn, List.length_take]
    refine ⟨b :: bs, by rw [List.length_cons, hlen], hw, hwhole, chunked_cons_iff.mpr
      ⟨List.length_pos_of_ne_nil hne, by omega, fun hbs => ?_, hcut⟩, fun b' hb' => ?_⟩
    · obtain ⟨b', rest, rfl⟩ := List.exists_cons_of_ne_nil hbs
      obtain ⟨hpos, -⟩ := chunked_cons_iff.mp hcut
      rw [hwhole] at hmin
      simp at hmin
      omega
    · rcases List.mem_cons.mp hb' with rfl | hmem
      · exact hc
      · have hcb := hall b' hmem
        rwa [hkept.cfg, hkept.platform] at hcb

/-- A `COMPRESS_BLOCK` that reports the end of the input has written nothing. -/
theorem exec_compressBlock_eos_inv {s v : State} (hr : Ready s) (h : exec .compressBlock s = .next v)
    (hb : v.busy = false) (hp : v.phase = .endOfStream) :
    v = { ioTaken s with blkRead := 0, blkWritten := 0, phase := .endOfStream } := by
  have hok : compressBody (acceptCommand s) = .ok () v :=
    turnBody_of_ended (d := .compress) hr h hb (by simp [hp])
  have hn : nextInput (blockRequest s) s = [] := nextInput_of_eos (d := .compress) hr h hb hp
  have hexec := exec_compressBlock_eos hr (compressBody_inv hok).1 hn
  rw [h] at hexec
  cases hexec
  rfl

/-- A `COMPRESS_STREAM` that reached the end of a finite input. -/
theorem compressStream_inv {s t : State} (hr : Ready s) (hf : s.inputEndless = false) (hpos : 1 ≤ blockRequest s)
    (h : exec .compressStream s = .next t) (hp : t.phase = .endOfStream) :
    ∃ bs : List CodedBlock, remaining s = plainBytes bs ∧ chunked (blockRequest s) bs ∧
      (∀ b ∈ bs, CompressesTo s.cfg s.platform b) ∧ t = streamEnded (blocksCompressed (totalsZeroed s) bs) := by
  obtain ⟨n, w, v, hrun, hexec, hb, hpv, rfl, -⟩ := (exec_streamInstr_eos_iff .compress hr).mp ⟨h, hp⟩
  have hdone := blocksDone (d := .compress) (s := totalsZeroed s) hr hrun
  have hn := nextInput_of_eos (d := .compress) hdone.ready hexec hb hpv
  have hreq : blockRequest w = blockRequest s := by
    rw [blockRequest, blockRequest, hdone.frame.blockSize, hdone.frame.platform]
  have hend : remaining w = [] := by
    rw [nextInput_finite (hdone.frame.inputEndless.trans hf), turnRequest, hreq, List.take_eq_nil_iff] at hn
    exact hn.resolve_left (by omega)
  obtain ⟨bs, -, rfl, hrem, hcut, hc⟩ := blocksRun_compress_inv (s := totalsZeroed s) hr hf hrun hend
  exact ⟨bs, hrem, hcut, hc, by rw [exec_compressBlock_eos_inv hdone.ready hexec hb hpv]; rfl⟩

/-- The effect of that command. -/
theorem streamEnded_compressed (s : State) (bs : List CodedBlock) :
    (streamEnded (blocksCompressed (totalsZeroed s) bs)).out = s.out ++ recordBytes s.cfg bs ∧
    (streamEnded (blocksCompressed (totalsZeroed s) bs)).totRead = BitVec.ofNat 64 (plainBytes bs).length ∧
    (streamEnded (blocksCompressed (totalsZeroed s) bs)).totWritten = BitVec.ofNat 64 (recordBytes s.cfg bs).length ∧
    (streamEnded (blocksCompressed (totalsZeroed s) bs)).blkCount = BitVec.ofNat 32 bs.length := by
  have hto := compressedTo_blocks (totalsZeroed s) bs
  obtain ⟨script, ctr, htaken⟩ := ioTaken_eq (blocksCompressed (totalsZeroed s) bs)
  simp [streamEnded, htaken, hto.out, hto.totRead, hto.totWritten, hto.blkCount]

theorem chunked_mem {n : Nat} {b : CodedBlock} {bs : List CodedBlock} (h : chunked n bs) (hb : b ∈ bs) :
    1 ≤ b.plain.length ∧ b.plain.length ≤ n := by
  induction bs with
  | nil => cases hb
  | cons b' bs ih =>
    obtain ⟨hpos, hle, -, hrest⟩ := chunked_cons_iff.mp h
    rcases List.mem_cons.mp hb with rfl | hmem
    · exact ⟨hpos, hle⟩
    · exact ih hrest hmem

/-! ### Segmentation (R212) -/

/-- The count and the length of a last block of `m` bytes. -/
theorem last_block_length {c m : Nat} (hm : 1 ≤ m) (hle : m ≤ c) :
    (m + c - 1) / c = 1 ∧ m = if 0 < m / c then c else m % c := by
  have hc : 0 < c := by omega
  constructor
  · rw [show m + c - 1 = (m - 1) + c by omega, Nat.add_div_right _ hc, Nat.div_eq_of_lt (by omega)]
  · rcases Nat.lt_or_eq_of_le hle with hlt | rfl
    · rw [Nat.div_eq_of_lt hlt, if_neg (by omega), Nat.mod_eq_of_lt hlt]
    · rw [Nat.div_self hc, if_pos (by omega)]

/-- How many blocks a cut input has, and how long each is. -/
theorem chunked_segmentation {c : Nat} {bs : List CodedBlock} (hc : 0 < c) (h : chunked c bs) :
    bs.length = ((plainBytes bs).length + c - 1) / c ∧
      ∀ k b, bs[k]? = some b →
        b.plain.length = if k < (plainBytes bs).length / c then c else (plainBytes bs).length % c := by
  induction bs with
  | nil =>
    refine ⟨?_, by simp⟩
    rw [plainBytes_nil, List.length_nil, List.length_nil, Nat.zero_add, Nat.div_eq_of_lt (by omega)]
  | cons b bs ih =>
    obtain ⟨hpos, hle, hfull, hrest⟩ := chunked_cons_iff.mp h
    cases bs with
    | nil =>
      obtain ⟨hcount, hlast⟩ := last_block_length hpos hle
      refine ⟨by simp [hcount], fun k b' hk => ?_⟩
      cases k with
      | zero =>
        obtain rfl : b = b' := by simpa using hk
        simpa using hlast
      | succ k => simp at hk
    | cons b₂ bs =>
      obtain ⟨hcount, heach⟩ := ih hrest
      have hsum : (plainBytes (b :: b₂ :: bs)).length = (plainBytes (b₂ :: bs)).length + c := by
        rw [plainBytes_cons, List.length_append, hfull (by simp), Nat.add_comm]
      rw [hsum]
      refine ⟨?_, fun k b' hk => ?_⟩
      · rw [show (plainBytes (b₂ :: bs)).length + c + c - 1 = ((plainBytes (b₂ :: bs)).length + c - 1) + c by omega,
          Nat.add_div_right _ hc, ← hcount, List.length_cons (a := b)]
      · rw [Nat.add_div_right _ hc, Nat.add_mod_right]
        cases k with
        | zero =>
          obtain rfl : b = b' := by simpa using hk
          rw [if_pos (Nat.succ_pos _), hfull (by simp)]
        | succ k => simpa using heach k b' (by simpa using hk)

/-- Settles O50: the records are those of the blocks that the input was cut into. -/
theorem compressStreamSegmentation : Obligations.CompressStreamSegmentation := by
  rintro s t c n hr hf rfl hpos rfl hexec hp
  obtain ⟨bs, hrem, hcut, hc, rfl⟩ := compressStream_inv hr hf hpos hexec hp
  obtain ⟨hlen, heach⟩ := chunked_segmentation (Nat.lt_of_lt_of_le Nat.zero_lt_one hpos) hcut
  rw [hrem]
  refine ⟨bs.map (blockRecord s.cfg), (streamEnded_compressed s bs).1, by rw [List.length_map, hlen],
    fun k r hk => ?_⟩
  obtain ⟨b, hb, rfl⟩ : ∃ b, bs[k]? = some b ∧ blockRecord s.cfg b = r := by simpa using hk
  obtain ⟨-, -, -, hcap⟩ := hc b (List.mem_of_getElem? hb)
  have hmax : b.plain.length ≤ s.platform.maxBlockSize :=
    (chunked_mem hcut (List.mem_of_getElem? hb)).2.trans (blockRequest_le s)
  refine ⟨_, checksum (algOf s.cfg) b.filtered, checksum (algOf s.cfg) b.payload, b.payload,
    (block_lengths_toNat hmax hcap).2.symm, ?_⟩
  rw [blockRecord, heach k b hb]

/-! ### The round trip (R213) -/

/-- A block of a cut input is a piece of it. -/
theorem plain_infix_plainBytes {b : CodedBlock} {bs : List CodedBlock} (h : b ∈ bs) : b.plain <:+: plainBytes bs := by
  obtain ⟨pre, post, rfl⟩ := List.append_of_mem h
  exact ⟨(pre.map CodedBlock.plain).flatten, (post.map CodedBlock.plain).flatten, by simp [plainBytes]⟩

/-- A cut input has at least as many bytes as blocks. -/
theorem length_le_plainBytes {n : Nat} {bs : List CodedBlock} (h : chunked n bs) :
    bs.length ≤ (plainBytes bs).length := by
  induction bs with
  | nil => simp
  | cons b bs ih =>
    obtain ⟨hpos, -, -, hrest⟩ := chunked_cons_iff.mp h
    have := ih hrest
    simp only [plainBytes_cons, List.length_append, List.length_cons]
    omega

/-- The records that a stream wrote, as records on the input of another unit. -/
theorem storedBytes_storedOf {c c' : Cfg} (hen : c'.chkEn = c.chkEn) (bs : List CodedBlock) :
    storedBytes c' (bs.map (storedOf c)) = recordBytes c bs := by
  induction bs with
  | nil => rfl
  | cons b bs ih => rw [List.map_cons, storedBytes_cons, storedRecord_storedOf hen, ih, recordBytes_cons]

theorem blockBytes_storedOf (c : Cfg) (bs : List CodedBlock) : blockBytes (bs.map (storedOf c)) = plainBytes bs := by
  rw [blockBytes, List.map_map]
  rfl

/-- Settles O52: the blocks that the input was cut into are records that the ports take back. -/
theorem streamRoundTrip : Obligations.StreamRoundTrip := by
  intro s t u w hr hf _ hpos hexec hp hout hru hplat hcrc hen hsel halg huf huipos hurem ha hlzo hinv
  obtain ⟨bs, hrem, hcut, hc, rfl⟩ := compressStream_inv hr hf hpos hexec hp
  obtain ⟨htout, htread, htwritten, htcount⟩ := streamEnded_compressed s bs
  have hw : w = recordBytes s.cfg bs := List.append_cancel_left (hout.symm.trans htout)
  have hstored : remaining u = storedBytes u.cfg (bs.map (storedOf s.cfg)) := by
    rw [hurem, hw, storedBytes_storedOf hen]
  have hcount : (bs.map (storedOf s.cfg)).length ≤ (remaining s).length := by
    rw [List.length_map, hrem]
    exact length_le_plainBytes hcut
  have hback : ∀ r ∈ bs.map (storedOf s.cfg), DecompressesFrom u.cfg u.platform r.block ∧
      SlotsPass u.cfg r.uchk r.cchk r.block.payload r.block.filtered := by
    intro r hmem
    obtain ⟨b, hb, rfl⟩ := List.mem_map.mp hmem
    have hinfix : b.plain <:+: remaining s := hrem ▸ plain_infix_plainBytes hb
    have hmax : b.plain.length ≤ s.platform.maxBlockSize := (chunked_mem hcut hb).2.trans (blockRequest_le s)
    have hcb := hc b hb
    refine ⟨?_, slotsPass_storedOf hcrc b⟩
    rw [hplat]
    exact decompressesFrom_of_compressesTo hcb hsel halg hmax (hlzo _ _ hinfix hmax hcb.1)
      fun hs => hinv hs _ hinfix hmax
  obtain ⟨v, hdec, hb, hpv, -, hvout, -, hvread, hvwritten, hvcount, -, -, -, -, herr, -⟩ :=
    decompressStreamCompletes.1 u (bs.map (storedOf s.cfg)) hru huf huipos hstored hback
      (answersOk_mono (by omega) ha)
  have hplain : ((bs.map (storedOf s.cfg)).map fun r => r.block.plain).flatten = plainBytes bs :=
    blockBytes_storedOf s.cfg bs
  rw [hplain] at hvout hvwritten
  refine ⟨v, hdec, hb, hpv, herr, by rw [hvout, hrem], ?_, hvwritten.trans htread.symm, ?_⟩
  · rw [hvread, htwritten, hurem, hw]
  · rw [hvcount, htcount, List.length_map]

end Sys2Proof.Proofs.StreamRoundTrip
end

section
/-! PROOF. What a `DECOMPRESS_BLOCK` that completed a block has done (43_block_codec.md R182): every other way it can
end is excluded by what that way leaves. -/

namespace Sys2Proof.Proofs.DecompressInversion

open Sys2Proof Sys2Proof.Machine
open Sys2Proof.Proofs.Accepted
open Sys2Proof.Proofs.FirstRequest
open Sys2Proof.Proofs.BlockRecords
open Sys2Proof.Proofs.DecompressBlock
open Sys2Proof.Proofs.Unanswered
open Sys2Proof.Proofs.ThrowPolicy

/-! ### Every header-sized byte sequence is a header -/

theorem exists_be32 (x y z w : BitVec 8) : ∃ v : Word, be32 v = [x, y, z, w] := by
  refine ⟨x ++ y ++ z ++ w, ?_⟩
  simp only [be32, List.cons.injEq, and_true]
  refine ⟨?_, ?_, ?_, ?_⟩
  all_goals
    ext i hi
    simp
    grind

theorem exists_be32_append {h : Bytes} (hlen : 4 ≤ h.length) :
    ∃ (v : Word) (rest : Bytes), h = be32 v ++ rest ∧ rest.length = h.length - 4 := by
  match h, hlen with
  | x :: y :: z :: w :: rest, _ =>
    obtain ⟨v, hv⟩ := exists_be32 x y z w
    exact ⟨v, rest, by rw [hv]; rfl, by simp⟩

theorem exists_recordHeader {c : Cfg} {h : Bytes} (hlen : h.length = headerLen c) :
    ∃ us cs uc cc, h = recordHeader c.chkEn us cs uc cc := by
  have hsize : headerLen c = if c.chkEn then 16 else 8 := rfl
  obtain ⟨us, h₁, rfl, hlen₁⟩ := exists_be32_append (h := h) (by split at hsize <;> omega)
  rw [List.length_append, be32_length] at hlen hlen₁
  obtain ⟨cs, h₂, rfl, hlen₂⟩ := exists_be32_append (h := h₁) (by split at hsize <;> omega)
  rw [List.length_append, be32_length] at hlen hlen₂
  cases hen : c.chkEn with
  | false =>
    rw [hsize, hen, if_neg (by simp)] at hlen
    have hnil : h₂ = [] := List.length_eq_zero_iff.mp (by omega)
    exact ⟨us, cs, 0, 0, by simp [recordHeader, hnil]⟩
  | true =>
    rw [hsize, hen, if_pos rfl] at hlen
    obtain ⟨uc, h₃, rfl, hlen₃⟩ := exists_be32_append (h := h₂) (by omega)
    rw [List.length_append, be32_length] at hlen hlen₃
    obtain ⟨cc, h₄, rfl, hlen₄⟩ := exists_be32_append (h := h₃) (by omega)
    rw [List.length_append, be32_length] at hlen hlen₄
    have hnil : h₄ = [] := List.length_eq_zero_iff.mp (by omega)
    exact ⟨us, cs, uc, cc, by simp [recordHeader, hnil]⟩

/-! ### A completed block -/

/-- The command completed a block. -/
structure Completes (s c : State) : Prop where
  exec : exec .decompressBlock s = .next c
  busy : c.busy = false
  idle : c.phase = .idle

section Completed

variable {s c : State} {us cs uc cc : Word} {p d : Bytes}

theorem Completes.idle_of_exec {t : State} (h : Completes s c) (ht : Machine.exec .decompressBlock s = .next t) :
    t.phase = .idle := by
  have heq := h.exec.symm.trans ht
  cases heq
  exact h.idle

theorem Completes.not_hangs (h : Completes s c) : ¬Hangs .decompressBlock s := by
  rintro ⟨t, ht, hbusy, -⟩
  have heq := h.exec.symm.trans ht
  cases heq
  simp [h.busy] at hbusy

theorem Completes.firstAnswer (h : Completes s c) (hr : Ready s) : ioAnswer s = .ok := by
  cases ha : ioAnswer s with
  | ok => rfl
  | ioError m => simpa using h.idle_of_exec ((beginsWithRead_parsing (.inr rfl) hr).ioError ha)
  | never m => exact absurd ((beginsWithRead_parsing (.inr rfl) hr).never ha) h.not_hangs

/-- The header read was whole and well-formed. -/
theorem Completes.header (h : Completes s c) (hr : Ready s) (ha : ioAnswer s = .ok) :
    ∃ us cs uc cc, nextInput (headerLen s.cfg) s = recordHeader s.cfg.chkEn us cs uc cc ∧
      us.toNat ≤ s.platform.maxBlockSize ∧ cs.toNat ≤ s.platform.cbufCap := by
  obtain ⟨heos, hshort, hbad, -⟩ := parsingShortOrMalformedInput s .decompressBlock (.inr rfl) hr ha
  have hlen : (nextInput (headerLen s.cfg) s).length = headerLen s.cfg := by
    by_contra hne
    have hlt := lt_of_le_of_ne (nextInput_length_le _ s) hne
    by_cases hnil : nextInput (headerLen s.cfg) s = []
    · simpa using h.idle_of_exec (heos hnil)
    · simpa using h.idle_of_exec (hshort _ rfl (List.length_pos_of_ne_nil hnil) hlt)
  obtain ⟨us, cs, uc, cc, hheader⟩ := exists_recordHeader hlen
  refine ⟨us, cs, uc, cc, hheader, ?_⟩
  by_contra hfit
  have hover : us.toNat > s.platform.maxBlockSize ∨ cs.toNat > s.platform.cbufCap := by omega
  simpa using h.idle_of_exec (hbad us cs uc cc hheader hover)

/-- The payload read was answered and whole. -/
theorem Completes.payload (h : Completes s c) (hr : Ready s) (ha : ioAnswer s = .ok)
    (hn : nextInput (headerLen s.cfg) s = recordHeader s.cfg.chkEn us cs uc cc)
    (hu : us.toNat ≤ s.platform.maxBlockSize) (hc : cs.toNat ≤ s.platform.cbufCap) :
    answersOk 2 s ∧ ∃ p, RecordNext s us cs uc cc p := by
  have ha2 : ioAnswer (ioTaken s) = .ok := by
    cases ha2 : ioAnswer (ioTaken s) with
    | ok => rfl
    | ioError m =>
      obtain ⟨-, hfail, -⟩ := ioErrorEntersFailed
      simpa using h.idle_of_exec (hfail s us cs uc cc .decompressBlock m (.inr rfl) hr ha hn hu hc ha2)
    | never m => exact absurd (hangs_parsing_payload (.inr rfl) hr ha hn hu hc ha2) h.not_hangs
  have hanswers : answersOk 2 s := ⟨ha, ha2, trivial⟩
  refine ⟨hanswers, _, hn, rfl, ?_, hu, hc⟩
  by_contra hne
  have hlt := lt_of_le_of_ne (nextInput_length_le cs.toNat { s with ipos := s.ipos + headerLen s.cfg }) hne
  obtain ⟨-, -, -, htrunc⟩ := parsingShortOrMalformedInput s .decompressBlock (.inr rfl) hr ha
  simpa using h.idle_of_exec (htrunc us cs uc cc _ hn hu hc hanswers rfl hlt)

/-- Under `Throw` the compressed slot did not mismatch. -/
theorem Completes.compressedSlot (h : Completes s c) (hr : Ready s) (ha : answersOk 2 s)
    (hrec : RecordNext s us cs uc cc p) (hen : s.cfg.chkEn = true) (hpol : s.cfg.policy = .throw) :
    checksum (algOf s.cfg) p = cc := by
  by_contra hne
  simpa using h.idle_of_exec (exec_decompressBlock_raise hr (decompressBody_compressedSlot_throw
    (s := acceptCommand s) (answersOk_acceptCommand ha) hrec hen hpol hne))

/-- The primitive gave the declared length. -/
theorem Completes.primitive (h : Completes s c) (hr : Ready s) (ha : answersOk 2 s)
    (hrec : RecordNext s us cs uc cc p) :
    ∃ d, lzoDecompress s.platform ⟨s.cfg.lzoAlg, p, us.toNat⟩ = .bytes d ∧ d.length = us.toNat := by
  have hslot := h.compressedSlot hr ha hrec
  have hgood : ¬(lzoDecompress s.platform ⟨s.cfg.lzoAlg, p, us.toNat⟩ = .fail ∨
      ∃ d, lzoDecompress s.platform ⟨s.cfg.lzoAlg, p, us.toNat⟩ = .bytes d ∧ d.length ≠ us.toNat) := by
    intro hbad
    obtain ⟨k, hexec⟩ := exec_decompressBlock_primitive hr ha hrec hslot
    rw [← readyToDecompress_request s us cs uc cc p] at hbad
    rw [doDecompress_error hbad, andThen_raise, state_raise] at hexec
    simpa using h.idle_of_exec hexec
  cases hz : lzoDecompress s.platform ⟨s.cfg.lzoAlg, p, us.toNat⟩ with
  | fail => exact absurd (.inl hz) hgood
  | never => exact absurd (hangs_decompressBlock_primitive hr ha hrec hslot hz) h.not_hangs
  | bytes d => exact ⟨d, rfl, by_contra fun hne => hgood (.inr ⟨d, hz, hne⟩)⟩

/-- Under `Throw` neither slot mismatched. -/
theorem Completes.slots (h : Completes s c) (hr : Ready s) (ha : answersOk 2 s) (hrec : RecordNext s us cs uc cc p)
    (hz : lzoDecompress s.platform ⟨s.cfg.lzoAlg, p, us.toNat⟩ = .bytes d) (hd : d.length = us.toNat) :
    SlotsPass s.cfg uc cc p d := by
  intro hen hpol
  have hcomp := h.compressedSlot hr ha hrec hen hpol
  refine ⟨hcomp, ?_⟩
  by_contra hne
  simpa using h.idle_of_exec (exec_decompressBlock_raise hr (decompressBody_uncompressedSlot_throw
    (s := acceptCommand s) (answersOk_acceptCommand ha) hrec hen hpol hcomp hz hd hne))

/-- The filter answered as many bytes, and the write was answered. -/
theorem Completes.filter (h : Completes s c) (hr : Ready s) (ha : answersOk 2 s) (hrec : RecordNext s us cs uc cc p)
    (hz : lzoDecompress s.platform ⟨s.cfg.lzoAlg, p, us.toNat⟩ = .bytes d) (hd : d.length = us.toNat)
    (hs : SlotsPass s.cfg uc cc p d) :
    ∃ f, decodeFilter s.cfg s.platform d = .bytes f ∧ f.length = d.length ∧ answersOk 3 s := by
  have hgood : ¬(decodeFilter s.cfg s.platform d = .fail ∨
      ∃ f, decodeFilter s.cfg s.platform d = .bytes f ∧ f.length ≠ d.length) := fun hbad => by
    simpa using h.idle_of_exec (exec_decompressBlock_filterError hr ha hrec hz hd hs hbad)
  cases hf : decodeFilter s.cfg s.platform d with
  | fail => exact absurd (.inl hf) hgood
  | never => exact absurd (hangs_decompressBlock_filter hr ha hrec hz hd hs hf) h.not_hangs
  | bytes f =>
    have hl : f.length = d.length := by_contra fun hne => hgood (.inr ⟨f, hf, hne⟩)
    refine ⟨f, rfl, hl, ?_⟩
    cases ha3 : ioAnswer (takeAnswers 2 s) with
    | ok => exact ⟨ha.1, ha.2.1, ha3, trivial⟩
    | ioError m =>
      simpa using h.idle_of_exec (exec_decompressBlock_writeError hr ha hrec hz hd hs hf hl ha3)
    | never m => exact absurd (hangs_decompressBlock_write hr ha hrec hz hd hs hf hl ha3) h.not_hangs

end Completed

/-- What a block that went through consists of, and what it left. -/
theorem exec_decompressBlock_inv {s c : State} (hr : Ready s) (h : exec .decompressBlock s = .next c)
    (hb : c.busy = false) (hp : c.phase = .idle) :
    ∃ us cs uc cc p d f, RecordNext s us cs uc cc p ∧ answersOk 3 s ∧
      lzoDecompress s.platform ⟨s.cfg.lzoAlg, p, us.toNat⟩ = .bytes d ∧ d.length = us.toNat ∧
      decodeFilter s.cfg s.platform d = .bytes f ∧ f.length = d.length ∧
      c = recordDecompressed s us cs uc cc p d f := by
  have hdone : Completes s c := ⟨h, hb, hp⟩
  have ha := hdone.firstAnswer hr
  obtain ⟨us, cs, uc, cc, hn, hu, hc⟩ := hdone.header hr ha
  obtain ⟨ha2, p, hrec⟩ := hdone.payload hr ha hn hu hc
  obtain ⟨d, hz, hd⟩ := hdone.primitive hr ha2 hrec
  have hs := hdone.slots hr ha2 hrec hz hd
  obtain ⟨f, hf, hl, ha3⟩ := hdone.filter hr ha2 hrec hz hd hs
  have hexec := h.symm.trans (exec_decompressBlock_ok hr ha3 hrec hz hd hs hf hl)
  exact ⟨us, cs, uc, cc, p, d, f, hrec, ha3, hz, hd, hf, hl, by injection hexec⟩

end Sys2Proof.Proofs.DecompressInversion
end

section
/-! PROOF. A block command and its script of sub-step commands (43_block_codec.md R192). -/

namespace Sys2Proof.Proofs.Scripts

open Sys2Proof Sys2Proof.Machine
open Sys2Proof.Proofs.DecodeEncode (decode_encode)
open Sys2Proof.Proofs.HostAccesses
open Sys2Proof.Proofs.ChecksumCommands (exec_chkCompute_ready exec_chkVerify_ready)
open Sys2Proof.Proofs.Accepted
open Sys2Proof.Proofs.BufferTransfer
open Sys2Proof.Proofs.PortCommands
open Sys2Proof.Proofs.BlockRecords
open Sys2Proof.Proofs.CompressBlock
open Sys2Proof.Proofs.DecompressBlock
open Sys2Proof.Proofs.DecompressInversion

/-! ### Scripts -/

/-- The host's access `e`, whatever follows it, takes the unit from `s` to `t`. -/
def Takes (e : HostEvent) (s t : State) : Prop :=
  ∀ rest, step { s with host := e :: rest } = .next { t with host := rest }

/-- The accesses, one a step, take the unit from `s` to `t`. -/
inductive Script : List HostEvent → State → State → Prop where
  | nil (s : State) : Script [] s s
  | cons {e : HostEvent} {es : List HostEvent} {s t u : State} (h : Takes e s t) (k : Script es t u) :
      Script (e :: es) s u

theorem Script.append {es es' : List HostEvent} {s t u : State} (h : Script es s t) (k : Script es' t u) :
    Script (es ++ es') s u := by
  induction h with
  | nil s => exact k
  | cons hstep _ ih => exact .cons hstep (ih k)

theorem Script.run {es : List HostEvent} {s t : State} (h : Script es s t) :
    run es.length { s with host := es } = .next { t with host := [] } := by
  induction h with
  | nil s => rfl
  | cons hstep _ ih => rw [List.length_cons, run_succ (hstep _), ih]

section Accesses

variable {s t : State} {off : Nat} {v : Word}

theorem takes_write (hb : s.busy = false) (ho : off < 256) (ha : off % 4 = 0) {r : Reg} (hreg : regAt off = some r)
    (h : ∀ rest, writeReg r v { s with host := rest } = .next { t with host := rest }) :
    Takes (.write off 4 v) s t := by
  intro rest
  rw [step_write (s := { s with host := .write off 4 v :: rest }) hb ho ha rfl, hreg]
  exact h rest

theorem takes_read (hb : s.busy = false) (ho : off < 256) (ha : off % 4 = 0) (h : readOffset off s = v) :
    Takes (.read off 4) s { s with hostReads := s.hostReads ++ [v] } := by
  intro rest
  rw [step_read_value (s := { s with host := .read off 4 :: rest }) hb ho ha rfl, readOffset_host, h]

theorem takes_writeXferLen (hb : s.busy = false) : Takes (.write 0x58 4 v) s { s with xferLen := v } :=
  takes_write hb (by decide) (by decide) rfl fun _ => rfl

theorem takes_writeChkExpect (hb : s.busy = false) : Takes (.write 0x4C 4 v) s { s with chkExpect := v } :=
  takes_write hb (by decide) (by decide) rfl fun _ => rfl

theorem takes_writeHdrUsize (hb : s.busy = false) : Takes (.write 0x38 4 v) s { s with hdrUsize := v } :=
  takes_write hb (by decide) (by decide) rfl fun _ => rfl

theorem takes_writeHdrCsize (hb : s.busy = false) : Takes (.write 0x3C 4 v) s { s with hdrCsize := v } :=
  takes_write hb (by decide) (by decide) rfl fun _ => rfl

theorem takes_writeHdrUchk (hb : s.busy = false) : Takes (.write 0x40 4 v) s { s with hdrUchk := v } :=
  takes_write hb (by decide) (by decide) rfl fun _ => rfl

theorem takes_writeHdrCchk (hb : s.busy = false) : Takes (.write 0x44 4 v) s { s with hdrCchk := v } :=
  takes_write hb (by decide) (by decide) rfl fun _ => rfl

/-- A write of `CMD` runs the command. -/
theorem takes_command {i : Instr} (hr : Ready s)
    (h : ∀ rest, exec i { s with host := rest } = .next { t with host := rest }) :
    Takes (.write 0 4 (encode i)) s t := by
  intro rest
  rw [step_of_decode (s := { s with host := .write 0 4 (encode i) :: rest }) hr.1 rfl (decode_encode i)]
  exact h rest

end Accesses

/-! ### The commands of the two scripts -/

section Commands

variable {s : State}

/-- `k` answers of the streams have been taken, written so that every other field is plainly that of `s`. -/
abbrev answered (k : Nat) (s : State) : State :=
  { s with ioScript := (takeAnswers k s).ioScript, freeCtr := (takeAnswers k s).freeCtr }

theorem takeAnswers_eq_answered (k : Nat) (s : State) : takeAnswers k s = answered k s := by
  obtain ⟨script, ctr, htaken⟩ := takeAnswers_eq k s
  rw [answered, htaken]

theorem takeAnswers_host (k : Nat) (s : State) (rest : List HostEvent) :
    takeAnswers k { s with host := rest } = { answered k s with host := rest } := by
  induction k generalizing s with
  | zero => rfl
  | succ k ih =>
    have htaken : ioTaken { s with host := rest } = { answered 1 s with host := rest } :=
      ioTaken_congr (s := s) rfl rfl
    rw [takeAnswers, htaken, ih, ← takeAnswers_eq_answered 1]
    simp only [takeAnswers]
    obtain ⟨script, ctr, htaken'⟩ := ioTaken_eq s
    rw [htaken']

theorem ioTaken_host (s : State) (rest : List HostEvent) :
    ioTaken { s with host := rest } = { answered 1 s with host := rest } := takeAnswers_host 1 s rest

theorem takes_bufLoad {v : Bytes} (hr : Ready s) (ha : ioAnswer s = .ok) (hn : nextInput s.xferLen.toNat s = v)
    (hcap : s.xferLen.toNat ≤ s.platform.maxBlockSize) :
    Takes (.write 0 4 (encode (.bufLoad .u))) s { answered 1 s with
      ubuf := v, ipos := s.ipos + v.length, blkRead := BitVec.ofNat 32 v.length, blkWritten := 0,
      totRead := s.totRead + BitVec.ofNat 64 v.length, phase := .idle } :=
  takes_command hr fun rest => by
    have hload := (bufferTransfersComplete { s with host := rest } v hr ha).1 hn.symm hcap
    rw [hload, ioTaken_host]

theorem takes_bufStore (hr : Ready s) (ha : ioAnswer s = .ok) :
    Takes (.write 0 4 (encode (.bufStore .u))) s { answered 1 s with
      out := s.out ++ s.ubuf, blkRead := 0, blkWritten := BitVec.ofNat 32 s.ubuf.length,
      totWritten := s.totWritten + BitVec.ofNat 64 s.ubuf.length, phase := .idle } :=
  takes_command hr fun rest => by
    rw [exec_bufStore_ok .u (s := { s with host := rest }) hr ha, ioTaken_host]
    rfl

theorem takes_filtFwd {f : Bytes} (hr : Ready s) (hf : encodeFilter s.cfg s.platform s.ubuf = .bytes f)
    (hl : f.length = s.ubuf.length) :
    Takes (.write 0 4 (encode .filtFwd)) s { s with ubuf := f, phase := .idle } :=
  takes_command hr fun rest => by
    rw [exec_filtFwd_ready (s := { s with host := rest }) hr,
      applyFwd_ok (s := acceptCommand { s with host := rest }) hf hl]
    simp [finishIdle, acceptCommand, hr.1]

theorem takes_filtInv {f : Bytes} (hr : Ready s) (hf : decodeFilter s.cfg s.platform s.ubuf = .bytes f)
    (hl : f.length = s.ubuf.length) :
    Takes (.write 0 4 (encode .filtInv)) s { s with ubuf := f, phase := .idle } :=
  takes_command hr fun rest => by
    rw [exec_filtInv_ready (s := { s with host := rest }) hr,
      applyInv_ok (s := acceptCommand { s with host := rest }) hf hl]
    simp [finishIdle, acceptCommand, hr.1]

theorem takes_chkCompute (b : BufSel) (hr : Ready s) :
    Takes (.write 0 4 (encode (.chkCompute b))) s
      { s with chkResult := checksum (algOf s.cfg) (buffer b s), phase := .idle } :=
  takes_command hr fun rest => by
    rw [exec_chkCompute_ready b (s := { s with host := rest }) hr]
    cases b <;> rfl

theorem takes_chkVerify (b : BufSel) (hr : Ready s) (h : checksum (algOf s.cfg) (buffer b s) = s.chkExpect) :
    Takes (.write 0 4 (encode (.chkVerify b))) s
      { s with chkResult := s.chkExpect, matched := true, phase := .idle } :=
  takes_command hr fun rest => by
    have hbuf : checksum (algOf s.cfg) (buffer b { s with host := rest }) = s.chkExpect := by cases b <;> exact h
    rw [exec_chkVerify_ready b (s := { s with host := rest }) hr]
    simp [hbuf]

theorem takes_lzoComp {r : Bytes} (hr : Ready s)
    (h : lzoCompress s.platform ⟨s.cfg.lzoAlg, s.ubuf, s.cfg.optimize⟩ = .bytes r)
    (hcap : r.length ≤ s.platform.cbufCap) :
    Takes (.write 0 4 (encode .lzoComp)) s { s with cbuf := r, phase := .idle } :=
  takes_command hr fun rest => (lzoCommandsComplete { s with host := rest } r hr).1 h hcap

theorem takes_lzoDecomp {r : Bytes} (hr : Ready s) (hu : s.hdrUsize.toNat ≤ s.platform.maxBlockSize)
    (h : lzoDecompress s.platform ⟨s.cfg.lzoAlg, s.cbuf, s.hdrUsize.toNat⟩ = .bytes r)
    (hlen : r.length = s.hdrUsize.toNat) :
    Takes (.write 0 4 (encode .lzoDecomp)) s { s with ubuf := r, phase := .idle } :=
  takes_command hr fun rest => (lzoCommandsComplete { s with host := rest } r hr).2 hu h hlen

theorem takes_recEmit (hr : Ready s) (ha : ioAnswer s = .ok) (hc : s.hdrCsize = clen s) :
    Takes (.write 0 4 (encode .recEmit)) s { answered 1 s with
      out := s.out ++ currentRecord s, blkRead := 0,
      blkWritten := BitVec.ofNat 32 (headerLen s.cfg + s.cbuf.length),
      totWritten := s.totWritten + BitVec.ofNat 64 (headerLen s.cfg + s.cbuf.length), phase := .idle } :=
  takes_command hr fun rest => by
    rw [exec_recEmit_ok (s := { s with host := rest }) hr ha hc, ioTaken_host]
    rfl

theorem takes_recParse {us cs uc cc : Word} {p : Bytes} (hr : Ready s) (ha : answersOk 2 s)
    (hrec : RecordNext s us cs uc cc p) :
    Takes (.write 0 4 (encode .recParse)) s { headerStored us cs uc cc (answered 2 s) with
      cbuf := p, ipos := s.ipos + headerLen s.cfg + cs.toNat,
      blkRead := BitVec.ofNat 32 (headerLen s.cfg + cs.toNat), blkWritten := 0,
      totRead := s.totRead + BitVec.ofNat 64 (headerLen s.cfg + cs.toNat), phase := .idle } :=
  takes_command hr fun rest => by
    rw [exec_recParse_ok (s := { s with host := rest }) hr (answersOk_congr 2 (s := s) rfl rfl ha) hrec,
      takeAnswers_host]
    rfl

/-- Any read of a ready unit, by the value it hands over. -/
theorem takes_readValue {off : Nat} (v : Word) (hr : Ready s) (ho : off < 256 ∧ off % 4 = 0)
    (h : readOffset off s = v) : Takes (.read off 4) s { s with hostReads := s.hostReads ++ [v] } :=
  takes_read hr.1 ho.1 ho.2 h

end Commands

/-! ### `COMPRESS_BLOCK`

The script in five parts, each from any ready state. -/

section CompressScript

variable {u : State}

/-- The block has been read. -/
def inputLoaded (u : State) (x : Word) (v : Bytes) : State :=
  { answered 1 { u with xferLen := x } with
    ubuf := v, ipos := u.ipos + v.length, blkRead := BitVec.ofNat 32 v.length, blkWritten := 0,
    totRead := u.totRead + BitVec.ofNat 64 v.length, phase := .idle }

theorem script_loads {x : Word} {v : Bytes} (hr : Ready u) (ha : ioAnswer u = .ok) (hn : nextInput x.toNat u = v)
    (hx : x.toNat ≤ u.platform.maxBlockSize) :
    Script [.write 0x58 4 x, .write 0x00 4 (encode (.bufLoad .u))] u (inputLoaded u x v) :=
  .cons (takes_writeXferLen hr.1) (.cons (takes_bufLoad (s := { u with xferLen := x }) hr ha hn hx) (.nil _))

/-- The block has been filtered and its checksum computed. -/
def uncompressedDone (u : State) (f : Bytes) (uc : Word) : State :=
  { u with ubuf := f, chkResult := uc, hdrUchk := uc, hostReads := u.hostReads ++ [uc], phase := .idle }

theorem script_filters {f : Bytes} (hr : Ready u) (hf : encodeFilter u.cfg u.platform u.ubuf = .bytes f)
    (hl : f.length = u.ubuf.length) :
    Script [.write 0x00 4 (encode .filtFwd), .write 0x00 4 (encode (.chkCompute .u)), .read 0x48 4,
      .write 0x40 4 (checksum (algOf u.cfg) f)] u (uncompressedDone u f (checksum (algOf u.cfg) f)) :=
  .cons (takes_filtFwd hr hf hl) (.cons (takes_chkCompute .u ⟨hr.1, .inl rfl⟩)
    (.cons (takes_readValue _ ⟨hr.1, .inl rfl⟩ (by decide) rfl) (.cons (takes_writeHdrUchk hr.1) (.nil _))))

/-- The block has been compressed and the checksum of the payload computed. -/
def compressedDone (u : State) (p : Bytes) (cc : Word) : State :=
  { u with cbuf := p, chkResult := cc, hdrCchk := cc, hostReads := u.hostReads ++ [cc], phase := .idle }

theorem script_compresses {p : Bytes} (hr : Ready u)
    (h : lzoCompress u.platform ⟨u.cfg.lzoAlg, u.ubuf, u.cfg.optimize⟩ = .bytes p)
    (hcap : p.length ≤ u.platform.cbufCap) :
    Script [.write 0x00 4 (encode .lzoComp), .write 0x00 4 (encode (.chkCompute .c)), .read 0x48 4,
      .write 0x44 4 (checksum (algOf u.cfg) p)] u (compressedDone u p (checksum (algOf u.cfg) p)) :=
  .cons (takes_lzoComp hr h hcap) (.cons (takes_chkCompute .c ⟨hr.1, .inl rfl⟩)
    (.cons (takes_readValue _ ⟨hr.1, .inl rfl⟩ (by decide) rfl) (.cons (takes_writeHdrCchk hr.1) (.nil _))))

/-- The two sizes have been read back and written to the header. -/
def sizesDone (u : State) : State :=
  { u with hdrUsize := ulen u, hdrCsize := clen u, hostReads := u.hostReads ++ [ulen u] ++ [clen u] }

theorem script_sizes (hr : Ready u) :
    Script [.read 0x50 4, .write 0x38 4 (ulen u), .read 0x54 4, .write 0x3C 4 (clen u)] u (sizesDone u) :=
  .cons (takes_readValue _ hr (by decide) rfl) (.cons (takes_writeHdrUsize hr.1)
    (.cons (takes_readValue _ hr (by decide) rfl) (.cons (takes_writeHdrCsize hr.1) (.nil _))))

/-- The record has been written. -/
def recordEmitted (u : State) : State :=
  { answered 1 u with
    out := u.out ++ currentRecord u, blkRead := 0, blkWritten := BitVec.ofNat 32 (headerLen u.cfg + u.cbuf.length),
    totWritten := u.totWritten + BitVec.ofNat 64 (headerLen u.cfg + u.cbuf.length), phase := .idle }

theorem script_emits (hr : Ready u) (ha : ioAnswer u = .ok) (hc : u.hdrCsize = clen u) :
    Script [.write 0x00 4 (encode .recEmit)] u (recordEmitted u) :=
  .cons (takes_recEmit hr ha hc) (.nil _)

end CompressScript

theorem blockRequest_toNat (s : State) : (BitVec.ofNat 32 (blockRequest s)).toNat = blockRequest s := by
  rw [BitVec.toNat_ofNat]
  exact Nat.mod_eq_of_lt ((Nat.min_le_left _ _).trans_lt s.blockSize.isLt)

section Stages

variable (s : State) (b : CodedBlock)

/-- What the first two accesses leave of `s`. -/
def scriptLoaded : State := inputLoaded s (BitVec.ofNat 32 (blockRequest s)) b.plain

/-- What the first six leave. -/
def scriptFiltered : State := uncompressedDone (scriptLoaded s b) b.filtered (checksum (algOf s.cfg) b.filtered)

/-- What the first ten leave. -/
def scriptCompressed : State := compressedDone (scriptFiltered s b) b.payload (checksum (algOf s.cfg) b.payload)

/-- What all but the last leave. -/
def scriptSized : State := sizesDone (scriptCompressed s b)

end Stages

/-- The answers still to come depend on the script and the count alone. -/
theorem takeAnswers_congr (k : Nat) {s u : State} (h : u.ioScript = s.ioScript) (h' : u.freeCtr = s.freeCtr) :
    (takeAnswers k u).ioScript = (takeAnswers k s).ioScript ∧
      (takeAnswers k u).freeCtr = (takeAnswers k s).freeCtr := by
  induction k generalizing s u with
  | zero => exact ⟨h, h'⟩
  | succ k ih =>
    refine ih ?_ ?_
    all_goals rw [ioTaken_congr h h']

/-- What the script leaves, beside what the command leaves. -/
theorem recordEmitted_scriptSized {s : State} {b : CodedBlock} (hen : s.cfg.chkEn = true)
    (hlen : b.filtered.length = b.plain.length) : recordEmitted (scriptSized s b) = { blockCompressed s b with
      xferLen := BitVec.ofNat 32 (blockRequest s), blkRead := 0, blkCount := s.blkCount,
      hostReads := s.hostReads ++ [checksum (algOf s.cfg) b.filtered, checksum (algOf s.cfg) b.payload,
        BitVec.ofNat 32 b.plain.length, BitVec.ofNat 32 b.payload.length] } := by
  obtain ⟨hfirst, hfirst'⟩ := takeAnswers_congr 1 (s := s)
    (u := { s with xferLen := BitVec.ofNat 32 (blockRequest s) }) rfl rfl
  obtain ⟨hscript, hctr⟩ := takeAnswers_congr 1 (s := takeAnswers 1 s) (u := scriptSized s b) hfirst hfirst'
  obtain ⟨script, ctr, htwo⟩ := takeAnswers_eq 2 s
  rw [show takeAnswers 1 (takeAnswers 1 s) = takeAnswers 2 s from rfl, htwo] at hscript hctr
  have husize : (scriptSized s b).hdrUsize = BitVec.ofNat 32 b.plain.length := congrArg (BitVec.ofNat 32) hlen
  simp only [blockCompressed, htwo, hen, if_true]
  apply state_eq_of_fields
  case h_ioScript => exact hscript
  case h_freeCtr => exact hctr
  case h_hdrUsize => exact husize
  case h_hostReads =>
    show s.hostReads ++ [_] ++ [_] ++ [(scriptSized s b).hdrUsize] ++ [_] = _
    rw [husize]
    simp only [List.append_assoc, List.singleton_append]
    rfl
  case h_out =>
    show s.out ++ record s.cfg.chkEn (scriptSized s b).hdrUsize _ _ _ _ = _
    rw [husize]
    rfl
  all_goals rfl

/-- The script of `COMPRESS_BLOCK`, whose host copies the values it has read. -/
def compressScript (x us cs uc cc : Word) : List HostEvent :=
  [.write 0x58 4 x, .write 0x00 4 (encode (.bufLoad .u)), .write 0x00 4 (encode .filtFwd),
    .write 0x00 4 (encode (.chkCompute .u)), .read 0x48 4, .write 0x40 4 uc,
    .write 0x00 4 (encode .lzoComp), .write 0x00 4 (encode (.chkCompute .c)), .read 0x48 4,
    .write 0x44 4 cc, .read 0x50 4, .write 0x38 4 us, .read 0x54 4, .write 0x3C 4 cs,
    .write 0x00 4 (encode .recEmit)]

theorem script_compressBlock {s : State} {b : CodedBlock} (hr : Ready s) (ha : answersOk 2 s)
    (hn : nextInput (blockRequest s) s = b.plain) (hc : CompressesTo s.cfg s.platform b) :
    Script (compressScript (BitVec.ofNat 32 (blockRequest s)) (BitVec.ofNat 32 b.plain.length)
      (BitVec.ofNat 32 b.payload.length) (checksum (algOf s.cfg) b.filtered) (checksum (algOf s.cfg) b.payload)) s
      (recordEmitted (scriptSized s b)) := by
  obtain ⟨hfilter, hflen, hport, hcap⟩ := hc
  have hx := blockRequest_toNat s
  obtain ⟨hfirst, hfirst'⟩ := takeAnswers_congr 1 (s := s)
    (u := { s with xferLen := BitVec.ofNat 32 (blockRequest s) }) rfl rfl
  have hsecond : ioAnswer (scriptSized s b) = .ok := (ioAnswer_congr (t := takeAnswers 1 s) hfirst hfirst').trans ha.2.1
  have hin : nextInput (BitVec.ofNat 32 (blockRequest s)).toNat s = b.plain := by
    rw [hx]
    exact hn
  have hloads := script_loads hr ha.1 hin (hx.trans_le (blockRequest_le s))
  have hfilters := script_filters (u := scriptLoaded s b) ⟨hr.1, .inl rfl⟩ hfilter hflen
  have hcompresses := script_compresses (u := scriptFiltered s b) ⟨hr.1, .inl rfl⟩ hport hcap
  have hsizes := script_sizes (u := scriptCompressed s b) ⟨hr.1, .inl rfl⟩
  have hemits := script_emits (u := scriptSized s b) ⟨hr.1, .inl rfl⟩ hsecond rfl
  rw [← hflen]
  exact hloads.append (hfilters.append (hcompresses.append (hsizes.append hemits)))

/-! ### `DECOMPRESS_BLOCK`

The script in five parts, each from any ready state. -/

section DecompressScript

variable {u : State}

/-- The record has been parsed. -/
def recordParsed (u : State) (us cs uc cc : Word) (p : Bytes) : State :=
  { headerStored us cs uc cc (answered 2 u) with
    cbuf := p, ipos := u.ipos + headerLen u.cfg + cs.toNat,
    blkRead := BitVec.ofNat 32 (headerLen u.cfg + cs.toNat), blkWritten := 0,
    totRead := u.totRead + BitVec.ofNat 64 (headerLen u.cfg + cs.toNat), phase := .idle }

theorem script_parses {us cs uc cc : Word} {p : Bytes} (hr : Ready u) (ha : answersOk 2 u)
    (hrec : RecordNext u us cs uc cc p) :
    Script [.write 0x00 4 (encode .recParse)] u (recordParsed u us cs uc cc p) :=
  .cons (takes_recParse hr ha hrec) (.nil _)

/-- A buffer has been verified against the value `v` of a header register. -/
def bufferVerified (u : State) (v : Word) : State :=
  { u with hostReads := u.hostReads ++ [v], chkExpect := v, chkResult := v, matched := true, phase := .idle }

/-- `STATUS` has been read. -/
def statusRead (u : State) : State := { u with hostReads := u.hostReads ++ [statusWord u] }

theorem script_verifies {off : Nat} {v : Word} (b : BufSel) (hr : Ready u) (ho : off < 256 ∧ off % 4 = 0)
    (hv : readOffset off u = v) (h : checksum (algOf u.cfg) (buffer b u) = v) :
    Script [.read off 4, .write 0x4C 4 v, .write 0x00 4 (encode (.chkVerify b)), .read 0x04 4] u
      (statusRead (bufferVerified u v)) := by
  have hverify := takes_chkVerify b (s := { u with hostReads := u.hostReads ++ [v], chkExpect := v }) hr
    (by cases b <;> exact h)
  exact .cons (takes_readValue v hr ho hv) (.cons (takes_writeChkExpect hr.1)
    (.cons hverify (.cons (takes_readValue _ (s := bufferVerified u v) ⟨hr.1, .inl rfl⟩ (by decide) rfl) (.nil _))))

/-- The payload has been decompressed. -/
def payloadDecompressed (u : State) (d : Bytes) : State := { u with ubuf := d, phase := .idle }

theorem script_decompresses {d : Bytes} (hr : Ready u) (hu : u.hdrUsize.toNat ≤ u.platform.maxBlockSize)
    (h : lzoDecompress u.platform ⟨u.cfg.lzoAlg, u.cbuf, u.hdrUsize.toNat⟩ = .bytes d)
    (hlen : d.length = u.hdrUsize.toNat) :
    Script [.write 0x00 4 (encode .lzoDecomp)] u (payloadDecompressed u d) :=
  .cons (takes_lzoDecomp hr hu h hlen) (.nil _)

/-- The block has been filtered back and written. -/
def blockStored (u : State) (f : Bytes) : State :=
  { answered 1 { u with ubuf := f, phase := .idle } with
    out := u.out ++ f, blkRead := 0, blkWritten := BitVec.ofNat 32 f.length,
    totWritten := u.totWritten + BitVec.ofNat 64 f.length, phase := .idle }

theorem script_stores {f : Bytes} (hr : Ready u) (hf : decodeFilter u.cfg u.platform u.ubuf = .bytes f)
    (hl : f.length = u.ubuf.length) (ha : ioAnswer u = .ok) :
    Script [.write 0x00 4 (encode .filtInv), .write 0x00 4 (encode (.bufStore .u))] u (blockStored u f) :=
  .cons (takes_filtInv hr hf hl)
    (.cons (takes_bufStore (s := { u with ubuf := f, phase := .idle }) ⟨hr.1, .inl rfl⟩ ha) (.nil _))

end DecompressScript

/-- The script of `DECOMPRESS_BLOCK`, whose host copies the values it has read. -/
def decompressScript (uc cc : Word) : List HostEvent :=
  [.write 0x00 4 (encode .recParse), .read 0x44 4, .write 0x4C 4 cc, .write 0x00 4 (encode (.chkVerify .c)),
    .read 0x04 4, .write 0x00 4 (encode .lzoDecomp), .read 0x40 4, .write 0x4C 4 uc,
    .write 0x00 4 (encode (.chkVerify .u)), .read 0x04 4, .write 0x00 4 (encode .filtInv),
    .write 0x00 4 (encode (.bufStore .u))]

section Stages

variable (s : State) (us cs : Word) (p d : Bytes)

/-- What the first four accesses leave of `s`, when the record's checksums are right. -/
def scriptVerifiedC : State :=
  bufferVerified (recordParsed s us cs (checksum (algOf s.cfg) d) (checksum (algOf s.cfg) p) p)
    (checksum (algOf s.cfg) p)

/-- What the first six leave. -/
def scriptDecompressed : State := payloadDecompressed (statusRead (scriptVerifiedC s us cs p d)) d

/-- What the first nine leave. -/
def scriptVerifiedU : State := bufferVerified (scriptDecompressed s us cs p d) (checksum (algOf s.cfg) d)

end Stages

section DecompressRuns

variable {s : State} {us cs : Word} {p d f : Bytes}

theorem script_decompressBlock (hr : Ready s) (hen : s.cfg.chkEn = true) (ha : answersOk 3 s)
    (hrec : RecordNext s us cs (checksum (algOf s.cfg) d) (checksum (algOf s.cfg) p) p)
    (hz : lzoDecompress s.platform ⟨s.cfg.lzoAlg, p, us.toNat⟩ = .bytes d) (hd : d.length = us.toNat)
    (hf : decodeFilter s.cfg s.platform d = .bytes f) (hl : f.length = d.length) :
    Script (decompressScript (checksum (algOf s.cfg) d) (checksum (algOf s.cfg) p)) s
      (blockStored (statusRead (scriptVerifiedU s us cs p d)) f) := by
  have hparses := script_parses hr (answersOk_mono (by omega) ha) hrec
  obtain ⟨-, -, -, hmax, -⟩ := hrec
  have hfirst := script_verifies (off := 0x44) .c
    (u := recordParsed s us cs (checksum (algOf s.cfg) d) (checksum (algOf s.cfg) p) p) ⟨hr.1, .inl rfl⟩ (by decide)
    (if_pos hen) rfl
  have hdecompresses := script_decompresses (u := statusRead (scriptVerifiedC s us cs p d)) ⟨hr.1, .inl rfl⟩ hmax hz hd
  have hsecond := script_verifies (off := 0x40) .u (u := scriptDecompressed s us cs p d) ⟨hr.1, .inl rfl⟩ (by decide)
    (if_pos hen) rfl
  have hthird : ioAnswer (statusRead (scriptVerifiedU s us cs p d)) = .ok :=
    (ioAnswer_congr (t := takeAnswers 2 s) rfl rfl).trans ha.2.2.1
  have hstores := script_stores (u := statusRead (scriptVerifiedU s us cs p d)) ⟨hr.1, .inl rfl⟩ hf hl hthird
  exact hparses.append (hfirst.append (hdecompresses.append (hsecond.append hstores)))

/-- What the script leaves, beside what the command leaves. -/
theorem blockStored_scriptVerifiedU (hen : s.cfg.chkEn = true) (hd : d.length = us.toNat) (hl : f.length = d.length) :
    blockStored (statusRead (scriptVerifiedU s us cs p d)) f =
      { recordDecompressed s us cs (checksum (algOf s.cfg) d) (checksum (algOf s.cfg) p) p d f with
        chkExpect := checksum (algOf s.cfg) d, matched := true, blkRead := 0, blkCount := s.blkCount,
        hostReads := s.hostReads ++ [checksum (algOf s.cfg) p, statusWord (scriptVerifiedC s us cs p d),
          checksum (algOf s.cfg) d, statusWord (scriptVerifiedU s us cs p d)] } := by
  obtain ⟨hscript, hctr⟩ := takeAnswers_congr 1 (s := takeAnswers 2 s)
    (u := { statusRead (scriptVerifiedU s us cs p d) with ubuf := f, phase := .idle }) rfl rfl
  obtain ⟨script, ctr, htwo⟩ := takeAnswers_eq 2 s
  have hwritten : BitVec.ofNat 32 f.length = us := by rw [hl, hd, BitVec.ofNat_toNat, BitVec.setWidth_eq]
  have htot : BitVec.ofNat 64 f.length = BitVec.ofNat 64 us.toNat := by rw [hl, hd]
  simp only [recordDecompressed, slotsPassed, headerStored, htwo, slotWarnings_match]
  apply state_eq_of_fields
  case h_ioScript => exact hscript
  case h_freeCtr => exact hctr
  case h_blkWritten => exact hwritten
  case h_totWritten => exact congrArg (s.totWritten + ·) htot
  case h_chkResult => simp only [hen, if_true]; rfl
  case h_warnC => exact (Bool.or_false _).symm
  case h_warnU => exact (Bool.or_false _).symm
  case h_diag => exact (List.append_nil _).symm
  case h_diagCount => exact (BitVec.add_zero _).symm
  case h_hostReads =>
    show s.hostReads ++ [_] ++ [_] ++ [_] ++ [_] = _
    simp only [List.append_assoc, List.singleton_append]
    rfl
  all_goals rfl

/-- What a completed block leaves in the checksum registers. -/
theorem recordDecompressed_checksums (hen : s.cfg.chkEn = true) (us cs uc cc : Word) (p d f : Bytes) :
    (recordDecompressed s us cs uc cc p d f).hdrUchk = uc ∧ (recordDecompressed s us cs uc cc p d f).hdrCchk = cc ∧
      (recordDecompressed s us cs uc cc p d f).chkResult = checksum (algOf s.cfg) d ∧
      (recordDecompressed s us cs uc cc p d f).cbuf = p := by
  obtain ⟨script, ctr, htwo⟩ := takeAnswers_eq 2 s
  simp [recordDecompressed, slotsPassed, headerStored, htwo, hen]

end DecompressRuns

theorem statusWord_matched {u : State} (h : u.matched = true) : (statusWord u).getLsbD 8 = true := by
  obtain ⟨-, -, -, hmatch, -⟩ := statusWord_fields u
  rw [hmatch, h]

/-- Settles O46: each script access by access, and its last state compared with the command's. -/
theorem blockCommandsEqualTheirScripts : Obligations.BlockCommandsEqualTheirScripts := by
  refine ⟨fun s c hr hen hexec hb hp => ?compress, fun s c hr hen hexec hb hp hcc huc => ?decompress⟩
  case compress =>
    obtain ⟨b, hn, -, hc, ha, rfl⟩ := exec_compressBlock_inv hr hexec hb hp
    obtain ⟨-, hflen, -⟩ := id hc
    have huchk : (blockCompressed s b).hdrUchk = checksum (algOf s.cfg) b.filtered := if_pos hen
    have hcchk : (blockCompressed s b).hdrCchk = checksum (algOf s.cfg) b.payload := if_pos hen
    have hrun := (script_compressBlock hr ha hn hc).run
    rw [recordEmitted_scriptSized hen hflen, ← huchk, ← hcchk] at hrun
    exact ⟨_, hrun, rfl⟩
  case decompress =>
    obtain ⟨us, cs, uc, cc, p, d, f, hrec, ha, hz, hd, hf, hl, hc⟩ := exec_decompressBlock_inv hr hexec hb hp
    obtain ⟨huchk, hcchk, hresult, hcbuf⟩ := recordDecompressed_checksums hen us cs uc cc p d f
    rw [← hc] at huchk hcchk hresult hcbuf
    rw [hcchk, hcbuf] at hcc
    rw [hresult, huchk] at huc
    subst hcc huc
    have hrun := (script_decompressBlock hr hen ha hrec hz hd hf hl).run
    rw [blockStored_scriptVerifiedU hen hd hl, ← hc, ← huchk, ← hcchk] at hrun
    exact ⟨_, hrun, _, _, statusWord_matched (u := scriptVerifiedC s us cs p d) rfl,
      statusWord_matched (u := scriptVerifiedU s us cs p d) rfl, rfl⟩

end Sys2Proof.Proofs.Scripts
end
